-- ==== Sys2Proof/Word.lean ====
section
/-!
DEFINITION. The word types of the engine and the plainest arithmetic on them (spec 00 R10).
-/
namespace Sys2Proof

/-- One byte of system memory (00 R11). -/
abbrev Byte := BitVec 8

/-- A 64-bit register value (10 R20). -/
abbrev Word := BitVec 64

/-- A 9-bit arena index, symbol number or node count (10 R37, R43). -/
abbrev Index := BitVec 9

/-- `ceil_div(a, b)`: the least q with q*b ≥ a, for b > 0 (00 R10). -/
def ceilDiv (a b : Nat) : Nat := (a + b - 1) / b

end Sys2Proof
end

