-- ==== Sys2Proof/Machine/Bits.lean ====
section
/-!
DEFINITION. Bit sequences, byte order and bit packing (00 R10, 20 R74, R75, 45 R201).
A bit sequence is a list, its head the bit emitted and consumed first (00 R10).
-/
namespace Sys2Proof.Machine

/-- A byte's bits, most significant first (20 R75). -/
def byteBits (b : Byte) : List Bool := (List.range 8).map fun k => b.getMsbD k

/-- The number a bit sequence stands for, most significant bit first (42 R153). -/
def bitsValue (bs : List Bool) : Nat := bs.foldl (fun v b => 2 * v + b.toNat) 0

/-- One payload byte: its bits from bit 7 down, 0 where the sequence has ended (20 R75). -/
def packByte (bs : List Bool) : Byte := BitVec.ofNat 8 (bitsValue ((List.range 8).map fun q => bs.getD q false))

/-- The `n` bytes of a packing of a bit sequence (20 R75): byte j holds bits 8j to 8j+7, pad bits 0. -/
def packBytes (bs : List Bool) : Nat → List Byte
  | 0 => []
  | n + 1 => packByte bs :: packBytes (bs.drop 8) n

/-- The packing of a whole bit sequence: ceil_div(len, 8) bytes (20 R75). -/
def pack (bs : List Bool) : List Byte := packBytes bs (ceilDiv bs.length 8)

/-- The bit sequence of a byte sequence: the inverse reading order of the packing (20 R75). -/
def unpack (bs : List Byte) : List Bool := bs.flatMap byteBits

/-- `n` bytes of a number, little-endian (45 R201). -/
def leBytes (v : Nat) : Nat → List Byte
  | 0 => []
  | n + 1 => BitVec.ofNat 8 v :: leBytes (v / 256) n

/-- LE16, LE64 and the like: the number in a little-endian byte sequence (00 R10). -/
def leValue : List Byte → Nat
  | [] => 0
  | b :: bs => b.toNat + 256 * leValue bs

/-- The first `n` bits of a 256-bit code entry: bit 0 is its most significant bit (10 R42). -/
def codeBits (c : BitVec 256) (n : Nat) : List Bool := (List.range n).map fun k => c.getMsbD k

/-- The code entry that holds a bit sequence left-aligned, every later bit 0 (10 R42). -/
def codeEntry (bs : List Bool) : BitVec 256 := BitVec.ofNat 256 (bitsValue bs * 2 ^ (256 - bs.length))

/-- Word `w` of a code entry: bit k is in word k div 64 at position 63 - (k mod 64) (10 R42). -/
def codeWord (c : BitVec 256) (w : Fin 4) : Word := c.extractLsb' (64 * (3 - w.val)) 64

/-- A count held in a 64-bit information register, limited to 2^64 - 1 (60 R281). -/
def limited (n : Nat) : Word := BitVec.ofNat 64 (min n (2 ^ 64 - 1))

end Sys2Proof.Machine
end

