-- ==== Sys2Proof/Config.lean ====
section
/-!
DEFINITION. What an implementation or a platform fixes (00 R8), and the free values.
A constant without a body is a parameter of the model: nothing in Lean can evaluate it, so a claim holds for each of its values.
-/
namespace Sys2Proof

/-- The open parameter behind MAX_WORKERS (00 R8, U1; log entry 9). -/
opaque Config.maxWorkersParam : BitVec 8

/-- MAX_WORKERS, an integer in 1..255 (00 R8). -/
def Config.maxWorkers : BitVec 8 := if Config.maxWorkersParam = 0#8 then 1#8 else Config.maxWorkersParam

/-- The open parameter behind MMIO_BASE: which 0x8000-byte page of the system bus it is (20 R71, U2; log entry 10). -/
opaque Config.mmioPage : BitVec 49

/-- MMIO_BASE, a multiple of 0x8000 below 2^64 (20 R71). -/
def Config.mmioBase : Nat := Config.mmioPage.toNat * 0x8000

/-- The platform's predicate of the addresses whose accesses receive an error response (20 R80, U3; log entry 11). -/
opaque Config.busFault : Word → Bool

/-- The free values: item `item` of draw `draw`, w bits wide, for every value the spec leaves unspecified
(U5 to U9, U11; log entries 5, 6, 7). -/
opaque Config.free (w draw item : Nat) : BitVec w

/-- The free values that are functions of an operation's operands: item `item`, w bits wide, where a rule gives an operation its effect
and states no result for these operands (42 R157, 20 R86; log entries 13, 14). -/
opaque Config.freeOf (w : Nat) (operands : List Nat) (item : Nat) : BitVec w

/-- BLOCK, the partition block size in bytes (00 R8, 40 R120). -/
def Config.block : Nat := 64

/-- ARENA, the number of node entries (00 R8, 41 R131). -/
def Config.arena : Nat := 511

end Sys2Proof
end

