-- ==== Sys2Proof/Syntax.lean ====
section
/-!
DEFINITION. The commands of the engine: one constructor per row of spec/opcode_table.json (30 R103).
A command word has no operand field but TM, and the table gives each TM pair two rows (30 R101, R103).
-/
namespace Sys2Proof

/-- The 15 commands a host writes to CMD (30 R103). The suffix `C` stands for the table's `.C`: TM = 1. -/
inductive Instr where
  | hist
  | build
  | derive
  | deriveC
  | canon
  | ctree
  | estimate
  | encode
  | wrhdr
  | wrhdrC
  | parsehdr
  | decode
  | compress
  | compressC
  | decompress
  deriving DecidableEq, Repr

end Sys2Proof
end

