-- ==== Sys2Proof/Machine/State.lean ====
section
/-!
DEFINITION. The architectural state of the engine, system memory, and what the host and the platform have pending (spec 10, 20, 60, 70).
-/
namespace Sys2Proof.Machine

/-- STATUS.PHASE: the sequencer's position (10 R29). -/
inductive Phase where
  | idle
  | hist
  | build
  | derive
  | canon
  | ctree
  | estimate
  | encode
  | wrhdr
  | parsehdr
  | decode
  | check
  deriving DecidableEq, Repr

/-- STATUS.ERRCODE: no error, or one of the 13 causes of an error completion (60 R280). -/
inductive ErrCode where
  | none
  | illegalCmd
  | badRegion
  | bufferTooSmall
  | sizeOverflow
  | noCode
  | badTable
  | busError
  | corruptMagic
  | corruptHeader
  | corruptOutOfBits
  | corruptLength
  | corruptCode
  | corruptPad
  deriving DecidableEq, Repr

/-- The table mode: TM of a command word, TE of a header (00 R3, 45 R200). -/
inductive TableMode where
  | freq
  | canon
  deriving DecidableEq, Repr

/-- One entry of the node arena (10 R43). -/
structure Node where
  weight : BitVec 72
  leaf : Bool
  used : Bool
  sym : Index
  left : Index
  right : Index
  deriving DecidableEq, Repr

/-- An all-zero arena entry (10 R43, reset value). -/
def Node.empty : Node := ⟨0#72, false, false, 0#9, 0#9, 0#9⟩

/-- 0x1FF: no child, or no tree (10 R37, R43). -/
def noNode : Index := 0x1FF#9

/-- The registers and windows of the register port (10 R20). -/
inductive Reg where
  | id
  | ctrl
  | cmd
  | status
  | inBase
  | inLen
  | outBase
  | outCap
  | origLen
  | payloadOff
  | totalBits
  | totalBytes
  | hdrLen
  | result
  | nsym
  | treeInfo
  | errInfo
  | hdrInfo
  | hist (b : Fin 256)
  | len (b : Fin 256)
  | code (b : Fin 256) (w : Fin 4)
  | node (i : Fin 512) (w : Fin 2)
  | reserved
  deriving DecidableEq, Repr

/-- The fields of STATUS (10 R26), but for BUSY, whose one home is `State.running`. -/
structure Status where
  done : Bool
  err : Bool
  empty : Bool
  ovr : Bool
  wign : Bool
  errCode : ErrCode
  opc : Byte
  phase : Phase
  deriving DecidableEq, Repr

/-- The pending-command latch: the accepted command and N (10 R46(a), 30 R104), and with it what the model must know of the run
until it completes: whether 20 R85 was broken, the memory port's fault reply (20 R80: in which reached phase, at which address),
and how many phases the sequencer has been seen to enter after the first (10 R29). STATUS.BUSY is 1 exactly while there is one. -/
structure Running where
  cmd : Instr
  workers : Byte
  raced : Bool
  reply : Option (Nat × Word)
  pos : Nat
  deriving DecidableEq, Repr

/-- What the host and the platform do to the machine (00 R7). -/
inductive HostAction where
  /-- A register-port write of `width` bytes at a byte offset of the window (00 R7(1)). -/
  | regWrite (offset : BitVec 15) (width : Nat) (value : Word)
  /-- A register-port read of `width` bytes (00 R7(1)). -/
  | regRead (offset : BitVec 15) (width : Nat)
  /-- The host stores one byte to system memory (30 R110, WRM). -/
  | memWrite (addr : Word) (value : Byte)
  /-- The host reads one byte of system memory. -/
  | memRead (addr : Word)
  /-- The `rst` input takes a level (70 R310). -/
  | rst (level : Bool)
  /-- The platform has put a region of the running command in device memory with read side effects (20 R78(d)). -/
  | deviceRegion
  deriving DecidableEq, Repr

/-- What the next step is: an action of the host or the platform, the sequencer entering its next phase, or the sequencer's
completion step with the memory port's reply to it (20 R80, R87). -/
inductive Event where
  | host (a : HostAction)
  | advance
  | complete (reply : Option (Nat × Word))
  deriving DecidableEq, Repr

/-- System memory: the bytes that differ from what an unlisted address reads as, addresses strictly rising (20 R70(2);
Memory.unlisted and Memory.wf in Ops.lean). -/
abbrev Memory := List Host.Cell

/-- The whole machine. -/
structure State where
  /-- CTRL.IE (10 R23). -/
  ie : Bool
  /-- CTRL.WORKERS (10 R24). -/
  workers : Byte
  /-- CMD (10 R25). -/
  cmd : Word
  /-- STATUS (10 R26). -/
  status : Status
  inBase : Word
  inLen : Word
  outBase : Word
  outCap : Word
  origLen : Word
  payloadOff : Word
  totalBits : Word
  totalBytes : Word
  hdrLen : Word
  result : Word
  /-- NSYM[8:0] (10 R36). -/
  nsym : Index
  /-- TREEINFO.ROOT (10 R37). -/
  root : Index
  /-- TREEINFO.NNODES (10 R37). -/
  nnodes : Index
  errInfo : Word
  /-- HDRINFO.TE (10 R39). -/
  te : TableMode
  hist : Vector Word 256
  len : Vector Byte 256
  code : Vector (BitVec 256) 256
  node : Vector Node 511
  /-- The pending-command latch (10 R46(a)); BUSY. -/
  running : Option Running
  mem : Memory
  /-- The level of the `rst` input (70 R310). -/
  rst : Bool
  /-- The pending actions of the host and the platform, oldest first (log entry 1). -/
  events : List Event
  /-- What the last register-port read returned (log entry 17). -/
  rdData : Word
  /-- What the last host read of system memory returned (log entry 17). -/
  memData : Byte
  /-- How many free values have been drawn (log entry 17). -/
  draws : Nat
  deriving DecidableEq, Repr

/-- The reasons a step stops with a fault. -/
inductive Fault where
  /-- Raised by a host access to the register space that is not 8 bytes wide and 8-byte aligned: the run is not a valid run of
  the spec (20 R76, U12). Safe: nothing is claimed of the run after it. -/
  | hostAccess (offset : Nat) (width : Nat)
  deriving DecidableEq, Repr

/-- The reasons a step gives no meaning. -/
inductive Refusal where
  /-- Raised by exec's arm for an instruction the model gives no meaning yet. Safe: nothing is claimed of it. -/
  | notModelled (mnemonic : String)
  deriving DecidableEq, Repr

/-- STATUS after reset (70 R311). -/
def Status.reset : Status := ⟨false, false, false, false, false, .none, 0#8, .idle⟩

/-- The engine's state after reset (70 R311), with memory as it is before a program runs: nothing listed. -/
def State.reset : State where
  ie := false
  workers := Config.maxWorkers
  cmd := 0#64
  status := Status.reset
  inBase := 0#64
  inLen := 0#64
  outBase := 0#64
  outCap := 0#64
  origLen := 0#64
  payloadOff := 0#64
  totalBits := 0#64
  totalBytes := 0#64
  hdrLen := 0#64
  result := 0#64
  nsym := 0#9
  root := noNode
  nnodes := 0#9
  errInfo := 0#64
  te := .freq
  hist := Vector.replicate 256 0#64
  len := Vector.replicate 256 0#8
  code := Vector.replicate 256 0#256
  node := Vector.replicate 511 Node.empty
  running := none
  mem := []
  rst := false
  events := []
  rdData := 0#64
  memData := 0#8
  draws := 0

end Sys2Proof.Machine
end

