-- ==== Sys2Proof/Machine/Ops.lean ====
section
/-!
DEFINITION. The named operations over memory and registers, and the completion of a command: success, error (the engine's way of
taking an exception, 60 R284) and the host's acknowledgement (its return, 60 R287).
-/
namespace Sys2Proof.Machine

/-! ### System memory (20 R70(2), R77) -/

/-- What an address reads as that is not listed (log entry 8). DESIGN CHOICE. -/
def Memory.unlisted : Byte := 0#8

/-- The canonical form from an address on: addresses exist (20 R70(2)) and rise strictly, and no entry holds the unlisted value. -/
def Memory.wfFrom : Nat → Memory → Bool
  | _, [] => true
  | lo, (a, b) :: m => decide (lo ≤ a) && decide (a < 2 ^ 64) && (b != Memory.unlisted) && Memory.wfFrom (a + 1) m

/-- The canonical form of memory. -/
def Memory.wf (m : Memory) : Bool := Memory.wfFrom 0 m

/-- A byte read (00 R11, MemRead). -/
def Memory.read : Memory → Nat → Byte
  | [], _ => Memory.unlisted
  | (a, b) :: m, x => if x = a then b else Memory.read m x

/-- An entry put in its place, or taken out when it holds the unlisted value. -/
def Memory.put : Memory → Nat → Byte → Memory
  | [], x, v => if v = Memory.unlisted then [] else [(x, v)]
  | (a, b) :: m, x, v =>
    if x < a then (if v = Memory.unlisted then (a, b) :: m else (x, v) :: (a, b) :: m)
    else if x = a then (if v = Memory.unlisted then m else (x, v) :: m)
    else (a, b) :: Memory.put m x v

/-- A byte write (00 R11, MemWrite); memory has no byte at 2^64 or above (20 R70(2)). -/
def Memory.write (m : Memory) (x : Nat) (v : Byte) : Memory := if x < 2 ^ 64 then Memory.put m x v else m

/-- Bytes read from rising addresses. -/
def Memory.readBytes (m : Memory) (base n : Nat) : List Byte := (List.range n).map fun k => Memory.read m (base + k)

/-- Bytes written to rising addresses. -/
def Memory.writeBytes (m : Memory) (base : Nat) : List Byte → Memory
  | [] => m
  | b :: bs => Memory.writeBytes (Memory.write m base b) (base + 1) bs

/-- `n` unspecified bytes of one draw (60 R286, U5, U6). -/
def freeBytes (draw n : Nat) : List Byte := (List.range n).map fun k => Config.free 8 draw k

/-! ### RAM access -/

/-- The RAM whose entry i is `f i`. -/
def tabulate {α : Type} (n : Nat) (f : Fin n → α) : Vector α n := ⟨⟨(List.finRange n).map f⟩, by simp⟩

/-- The entries of a table that are not 0, each with its index, in ascending order of the index (10 R36, 41 R130, 45 R203). -/
def nonzeroEntries (values : List Nat) : List (Nat × Nat) :=
  values.zipIdx.filterMap fun x => if x.1 = 0 then none else some (x.2, x.1)

/-- The entries of a RAM as numbers. -/
def ramValues {w : Nat} (v : Vector (BitVec w) 256) : List Nat := v.toList.map BitVec.toNat

/-- NODE[i]; an index past the arena names no entry (10 R43). -/
def nodeAt (v : Vector Node 511) (i : Index) : Node := if h : i.toNat < 511 then v[i.toNat] else Node.empty

/-- The arena whose first entries are given and whose other entries are all-zero (41 R133, 46 R232). -/
def arenaOf (l : List Node) : Vector Node 511 := tabulate 511 fun i => l.getD i.val Node.empty

/-- `Leaf(sym, weight)` (41 R133). -/
def leafNode (sym weight : Nat) : Node := ⟨BitVec.ofNat 72 weight, true, true, BitVec.ofNat 9 sym, noNode, noNode⟩

/-- `Internal(weight, left, right)` (41 R133). -/
def internalNode (weight : Nat) (l r : Index) : Node := ⟨BitVec.ofNat 72 weight, false, true, 0#9, l, r⟩

/-! ### Phases, errors and completion -/

/-- `raise E(info)` (00 R11). -/
structure Raise where
  code : ErrCode
  info : Word
  deriving DecidableEq, Repr

/-- Successful completion: BUSY 0, DONE 1, PHASE 0, RESULT (10 R28). -/
def State.succeeded (s : State) (r : Word) : State :=
  { s with running := none, result := r, status := { s.status with done := true, phase := .idle } }

/-- Failed completion, the engine's taking of an exception (60 R284(4), 10 R28): BUSY 0, ERR 1, ERRCODE, ERRINFO, RESULT 0;
PHASE keeps the phase that raised, OPC the opcode. -/
def State.failed (s : State) (p : Phase) (e : Raise) : State :=
  { s with
    running := none
    result := 0#64
    errInfo := e.info
    status := { s.status with err := true, errCode := e.code, phase := p } }

/-- The host's acknowledgement of a completion, the engine's return from one (60 R287(a)): a W1C write of value v to STATUS,
which clears DONE, ERR, OVR and WIGN where v has bits 1, 2, 4 and 5, and changes no other field (10 R27). -/
def State.acknowledged (s : State) (v : Word) : State :=
  { s with status := { s.status with
      done := s.status.done && !v.getLsbD 1
      err := s.status.err && !v.getLsbD 2
      ovr := s.status.ovr && !v.getLsbD 4
      wign := s.status.wign && !v.getLsbD 5 } }

/-- Output bytes [lo, hi) take unspecified values, one draw (60 R286(b)). -/
def State.unspecifiedOutput (s : State) (lo hi : Nat) : State :=
  { s with mem := s.mem.writeBytes (s.outBase.toNat + lo) (freeBytes s.draws (hi - lo)), draws := s.draws + 1 }

/-- The architectural reset state (70 R311). System memory, the `rst` level, and what the host and the platform have pending are
not changed. -/
def State.engineReset (s : State) : State :=
  { State.reset with
    mem := s.mem
    rst := s.rst
    events := s.events
    rdData := s.rdData
    memData := s.memData
    draws := s.draws }

/-- STATUS.BUSY: a command is latched (10 R26, R46(a)). -/
def State.busy (s : State) : Bool := s.running.isSome

/-- 20 R85 was broken for the running command. -/
def State.raced (s : State) : Bool := match s.running with | some r => r.raced | none => false

/-- The memory port's fault reply to the running command (20 R80). -/
def State.reply (s : State) : Option (Nat × Word) := match s.running with | some r => r.reply | none => none

/-- How many phases after the first the sequencer has been seen to enter (10 R29). -/
def State.pos (s : State) : Nat := match s.running with | some r => r.pos | none => 0

end Sys2Proof.Machine
end

