-- ==== Sys2Proof/Machine/Operands.lean ====
section
/-!
DEFINITION. The operands of a command, all implicit (30 R101): the two regions, the input bytes, the code words, and the checks on the
regions every command that uses them makes first (20 R72, R73).
-/
namespace Sys2Proof.Machine

/-- `in(i)` (00 R11). -/
def inByte (s : State) (o : Nat) : Byte := s.mem.read (s.inBase.toNat + o)

/-- The bytes of the input region (10 R30). -/
def inputBytes (s : State) : List Byte := s.mem.readBytes s.inBase.toNat s.inLen.toNat

/-- `cw(b)`: the first LEN[b] bits of CODE[b] (44 R180). -/
def codeWordBits (s : State) (b : Fin 256) : List Bool := codeBits s.code[b] s.len[b].toNat

/-- A byte as an index of the 256-entry RAMs. -/
def byteIndex (b : Byte) : Fin 256 := b.toFin

/-- The input region passes 2^64 (20 R73). -/
def inWraps (s : State) : Bool := decide (s.inBase.toNat + s.inLen.toNat > 2 ^ 64)

/-- The output region passes 2^64 (20 R73). -/
def outWraps (s : State) : Bool := decide (s.outBase.toNat + s.outCap.toNat > 2 ^ 64)

/-- The two regions share a byte (20 R73); an empty region never overlaps. -/
def regionsOverlap (s : State) : Bool :=
  decide (s.inLen.toNat > 0) && decide (s.outCap.toNat > 0)
    && decide (s.inBase.toNat < s.outBase.toNat + s.outCap.toNat)
    && decide (s.outBase.toNat < s.inBase.toNat + s.inLen.toNat)

/-- `RegionCheck(useIn, useOut)` (20 R73). -/
def regionCheck (useIn useOut : Bool) (s : State) : Except Raise State :=
  if useIn && inWraps s then .error ⟨.badRegion, 1#64⟩
  else if useOut && outWraps s then .error ⟨.badRegion, 2#64⟩
  else if useIn && useOut && regionsOverlap s then .error ⟨.badRegion, 3#64⟩
  else .ok s

/-- The address is in [base, base + len), the sum exact (10 R30, R31). -/
def inRegion (base len : Word) (a : Nat) : Bool := decide (base.toNat ≤ a) && decide (a < base.toNat + len.toNat)

/-- A byte of the input region (10 R30). -/
def inInput (s : State) (a : Nat) : Bool := inRegion s.inBase s.inLen a

/-- A byte of the output region (10 R31). -/
def inOutput (s : State) (a : Nat) : Bool := inRegion s.outBase s.outCap a

/-- A nonempty region that contains addresses of the register window (20 R71). -/
def touchesWindow (base len : Word) : Bool :=
  decide (len.toNat > 0)
    && (decide (base.toNat < Config.mmioBase + 0x8000) && decide (Config.mmioBase < base.toNat + len.toNat))

/-- An address of the register window (20 R71). -/
def inWindow (a : Nat) : Bool := decide (Config.mmioBase ≤ a) && decide (a < Config.mmioBase + 0x8000)

/-- The write set of a command over the registers and RAM windows (30 R109): what its rule writes on success, and RESULT and ERRINFO,
which every command writes (70 R323). STATUS stands apart: every command writes it, by 10 R28. -/
def writesReg (i : Instr) : Reg → Bool
  | .result | .errInfo => true
  | .origLen => i ∈ [Instr.hist, .parsehdr, .compress, .compressC, .decompress]
  | .payloadOff | .hdrLen | .hdrInfo => i ∈ [Instr.wrhdr, .wrhdrC, .parsehdr, .compress, .compressC, .decompress]
  | .totalBits | .totalBytes => i ∈ [Instr.estimate, .encode, .compress, .compressC]
  | .nsym => i ∈ [Instr.hist, .build, .deriveC, .canon, .parsehdr, .compress, .compressC, .decompress]
  | .treeInfo | .node _ _ => i ∈ [Instr.build, .ctree, .compress, .compressC, .decompress]
  | .hist _ => i ∈ [Instr.hist, .parsehdr, .compress, .compressC, .decompress]
  | .len _ => i ∈ [Instr.derive, .deriveC, .parsehdr, .compress, .compressC, .decompress]
  | .code _ _ => i ∈ [Instr.derive, .deriveC, .canon, .compress, .compressC, .decompress]
  | .id | .ctrl | .cmd | .status | .inBase | .inLen | .outBase | .outCap | .reserved => false

end Sys2Proof.Machine
end

