-- ==== Sys2Proof/WellFormed.lean ====
section
/-!
DEFINITION. Which command words are well-formed, check by check as 30 R106 lists the illegal ones, and which commands.
A command has no operand (30 R101), so every term of `Instr` is well-formed; the checks are on its word.
-/
namespace Sys2Proof

/-- A command has no operand that could be out of range (30 R101). -/
def Instr.wellFormed (_ : Instr) : Bool := true

/-- OPC, bits 7:0 of a command word (30 R100). -/
def wordOpc (w : Word) : Byte := w.extractLsb' 0 8

/-- TM, bit 8 of a command word (30 R100). -/
def wordTm (w : Word) : Bool := w.getLsbD 8

/-- Not illegal by 30 R106(a): OPC is not 0x00. -/
def opcNonzero (w : Word) : Bool := wordOpc w != 0x00#8

/-- Not illegal by 30 R106(b): OPC is not in 0x0D..0xFF. -/
def opcAssigned (w : Word) : Bool := decide ((wordOpc w).toNat < 0x0D)

/-- The three opcodes for which TM is defined (30 R102). -/
def opcTakesTm (w : Word) : Bool := wordOpc w == 0x03#8 || wordOpc w == 0x08#8 || wordOpc w == 0x0B#8

/-- Not illegal by 30 R106(c): bit 8 is 0, or the opcode is one that has TM. -/
def tmAllowed (w : Word) : Bool := !wordTm w || opcTakesTm w

/-- Not illegal by 30 R106(d): bits 63:9 are 0. -/
def reservedZero (w : Word) : Bool := w.extractLsb' 9 55 == 0#55

/-- A legal command word: none of 30 R106(a) to (d) holds. -/
def wellFormedWord (w : Word) : Bool := opcNonzero w && opcAssigned w && tmAllowed w && reservedZero w

end Sys2Proof
end

