-- ==== Sys2Proof/Machine/Flags.lean ====
section
/-!
DEFINITION. STATUS: its codes, its word, and what acceptance, rejection and writes while busy do to it (10 R26 to R29, 30 R104, R105,
60 R280), and the interrupt line (60 R288).
-/
namespace Sys2Proof.Machine

/-- PHASE's encoding (10 R29). -/
def Phase.toByte : Phase → Byte
  | .idle => 0x00#8
  | .hist => 0x01#8
  | .build => 0x02#8
  | .derive => 0x03#8
  | .canon => 0x04#8
  | .ctree => 0x05#8
  | .estimate => 0x06#8
  | .encode => 0x07#8
  | .wrhdr => 0x08#8
  | .parsehdr => 0x09#8
  | .decode => 0x0A#8
  | .check => 0x0F#8

/-- ERRCODE's encoding (60 R280). -/
def ErrCode.toByte : ErrCode → Byte
  | .none => 0x00#8
  | .illegalCmd => 0x01#8
  | .badRegion => 0x02#8
  | .bufferTooSmall => 0x03#8
  | .sizeOverflow => 0x04#8
  | .noCode => 0x05#8
  | .badTable => 0x06#8
  | .busError => 0x07#8
  | .corruptMagic => 0x10#8
  | .corruptHeader => 0x11#8
  | .corruptOutOfBits => 0x12#8
  | .corruptLength => 0x13#8
  | .corruptCode => 0x14#8
  | .corruptPad => 0x15#8

/-- The CorruptStream class: ERRCODE[7:4] = 1 (60 R280). -/
def ErrCode.corrupt : ErrCode → Bool
  | .corruptMagic | .corruptHeader | .corruptOutOfBits | .corruptLength | .corruptCode | .corruptPad => true
  | .none | .illegalCmd | .badRegion | .bufferTooSmall | .sizeOverflow | .noCode | .badTable | .busError => false

/-- A phase that writes system memory (60 R285). -/
def Phase.writesMemory : Phase → Bool
  | .wrhdr | .encode | .decode => true
  | .idle | .hist | .build | .derive | .canon | .ctree | .estimate | .parsehdr | .check => false

/-- An error that may come after a memory write of its phase (60 R285, R286(b)). -/
def leavesBytes (p : Phase) (e : Raise) : Bool := p.writesMemory && (e.code == .busError || e.code.corrupt)

/-- TE, TM as a number (45 R200). -/
def TableMode.toNat : TableMode → Nat
  | .freq => 0
  | .canon => 1

/-- One bit as a 64-bit number. -/
def bitWord (b : Bool) : Word := if b then 1#64 else 0#64

/-- The word of STATUS (10 R26); reserved bits are 0. -/
def statusWord (busy : Bool) (t : Status) : Word :=
  bitWord busy ||| (bitWord t.done <<< 1) ||| (bitWord t.err <<< 2) ||| (bitWord t.empty <<< 3) ||| (bitWord t.ovr <<< 4)
    ||| (bitWord t.wign <<< 5) ||| (t.errCode.toByte.setWidth 64 <<< 8) ||| (t.opc.setWidth 64 <<< 16)
    ||| (t.phase.toByte.setWidth 64 <<< 24)

/-- The interrupt line: IE and (DONE or ERR), and 0 while `rst` is asserted (60 R288, 70 R310). -/
def State.irq (s : State) : Bool := !s.rst && s.ie && (s.status.done || s.status.err)

/-- The first phase of a command (30 R103). -/
def firstPhase : Instr → Phase
  | .hist | .estimate | .encode | .wrhdr | .wrhdrC | .parsehdr | .decode | .compress | .compressC | .decompress => .check
  | .build => .build
  | .derive | .deriveC => .derive
  | .canon => .canon
  | .ctree => .ctree

/-- A region that contains addresses of the register window leaves the outcome unspecified (20 R71). -/
def State.regionsTouchWindow (s : State) : Bool := touchesWindow s.inBase s.inLen || touchesWindow s.outBase s.outCap

/-- Acceptance of a legal command word (10 R28, 30 R104): CMD takes the word, the command and N are latched. -/
def State.accepted (s : State) (w : Word) (i : Instr) : State :=
  { s with
    cmd := w
    result := 0#64
    errInfo := 0#64
    running := some ⟨i, s.workers, s.regionsTouchWindow, none, 0⟩
    status := { s.status with
      done := false, err := false, empty := false, errCode := .none, opc := wordOpc w, phase := firstPhase i } }

/-- Rejection of an illegal command word (30 R104). -/
def State.rejected (s : State) (w : Word) : State :=
  { s with
    cmd := w
    result := 0#64
    errInfo := w
    status := { s.status with
      done := false, err := true, empty := false, errCode := .illegalCmd, opc := wordOpc w, phase := .check } }

/-- OVR is set by a CMD write while busy (30 R105). -/
def State.overrun (s : State) : State := { s with status := { s.status with ovr := true } }

/-- WIGN is set by any other ignored write while busy (70 R322). -/
def State.writeIgnored (s : State) : State := { s with status := { s.status with wign := true } }

end Sys2Proof.Machine
end

