-- ==== Sys2Proof/Machine/Sequencer.lean ====
section
/-!
DEFINITION. The sequencer: a command as its phases in order, the run of those phases with their commits, the BUS_ERROR draw, the
unconstrained outcome of a broken host obligation, and the completion step (00 R11, R12, 20 R72, R80, R85, R87, 60 R283 to R286).
-/
namespace Sys2Proof.Machine

/-- One phase of a command: its PHASE value, whether the command runs it (47 R266), and its procedure, which returns the state with
the phase's commits or raises (00 R11). -/
structure PhaseStep where
  phase : Phase
  guard : State → Bool
  body : State → Except Raise State

/-- A phase the command always runs. -/
def PhaseStep.always (p : Phase) (body : State → Except Raise State) : PhaseStep := ⟨p, fun _ => true, body⟩

/-- What a command is to the sequencer: its phases, its RESULT (10 R35), the input bytes it may read and the output bytes it may
write, as offset intervals (20 R72). The write set is read off the phases the run reaches, each with the state it starts from. -/
structure Command where
  name : Instr
  plan : List PhaseStep
  result : State → Word
  reads : State → Nat × Nat
  writes : List (Phase × State) → State → Nat × Nat

/-- No byte at all. -/
def noBytes : Nat × Nat := (0, 0)

/-- The whole input region (20 R72). -/
def allInput (s : State) : Nat × Nat := (0, s.inLen.toNat)

/-- How the phases of a command end: all returned, or one raised and `kept` holds the commits of the earlier ones (60 R284(2)). -/
inductive Ending where
  | returned (t : State)
  | raised (p : Phase) (e : Raise) (kept : State)

/-- The phases run in order; the first raise ends the command (00 R12, 60 R283(b)). -/
def runPlan : List PhaseStep → State → Ending
  | [], s => .returned s
  | p :: ps, s =>
    if p.guard s then
      match p.body s with
      | .ok t => runPlan ps t
      | .error e => .raised p.phase e s
    else runPlan ps s

/-- The phases a run reaches, each with the state it starts from (47 R261, R266). -/
def reached : List PhaseStep → State → List (Phase × State)
  | [], _ => []
  | p :: ps, s =>
    if p.guard s then
      (p.phase, s) :: (match p.body s with
        | .ok t => reached ps t
        | .error _ => [])
    else reached ps s

/-- The state in which the phase after `p` starts, if the run reaches one. -/
def stateAfter (p : Phase) : List (Phase × State) → Option State
  | [] => none
  | x :: xs => if x.1 = p then (xs.head?).map Prod.snd else stateAfter p xs

/-- The output offsets [lo, hi) the command may write (20 R72), within the output region (20 R70(2); log entry 4). -/
def Command.writeSet (c : Command) (s : State) : Nat × Nat :=
  ((c.writes (reached c.plan s) s).1, min (c.writes (reached c.plan s) s).2 s.outCap.toNat)

/-- The input offsets [lo, hi) the command may read (20 R72), within the input region. -/
def Command.readSet (c : Command) (s : State) : Nat × Nat := ((c.reads s).1, min (c.reads s).2 s.inLen.toNat)

/-- `base + [lo, hi)` holds the address. -/
def inSpan (base : Word) (span : Nat × Nat) (a : Nat) : Bool :=
  decide (base.toNat + span.1 ≤ a) && decide (a < base.toNat + span.2)

/-- `Acc(c)`: the addresses the command may access (20 R80). -/
def Command.accesses (c : Command) (s : State) (a : Word) : Bool :=
  inSpan s.inBase (c.readSet s) a.toNat || inSpan s.outBase (c.writeSet s) a.toNat

/-- The BUS_ERROR the memory port's reply makes: in the k-th reached phase, after the first CHECK and not before the phase the
sequencer has been seen in, at a faulting address the command may access (20 R80, 60 R283(c), (d)). -/
def Command.busErrorAt (c : Command) (s : State) : Option (Phase × State × Word) :=
  match s.reply with
  | none => none
  | some (k, a) =>
    if decide (1 ≤ k) && decide (s.pos ≤ k) && c.accesses s a && Config.busFault a then
      ((reached c.plan s)[k]?).map fun x => (x.1, x.2, a)
    else none

/-- Error completion of a run begun in `s` (60 R284), in phase `p` with the earlier commits in `kept`: each byte of the write set is
unspecified when the error may come after a memory write (60 R286(b)), and memory is unchanged otherwise (60 R286(a)). -/
def Command.failedAt (c : Command) (s : State) (p : Phase) (e : Raise) (kept : State) : State :=
  (if leavesBytes p e then kept.unspecifiedOutput (c.writeSet s).1 (c.writeSet s).2 else kept).failed p e

/-- The causes a raced command may end with (20 R85). -/
def errCodes : List ErrCode :=
  [.illegalCmd, .badRegion, .bufferTooSmall, .sizeOverflow, .noCode, .badTable, .busError, .corruptMagic, .corruptHeader,
   .corruptOutOfBits, .corruptLength, .corruptCode, .corruptPad]

/-- The phases a raced command may fail in. -/
def busyPhases : List Phase :=
  [.check, .hist, .build, .derive, .canon, .ctree, .estimate, .encode, .wrhdr, .parsehdr, .decode]

/-- A free truth value. -/
def freeBool (draw item : Nat) : Bool := Config.free 1 draw item == 1#1

/-- STATUS after a raced command: it may succeed or fail with any error code (20 R85). -/
def freeStatus (t : Status) (d : Nat) : Status :=
  { t with
    done := freeBool d 0
    err := !freeBool d 0
    empty := freeBool d 1
    errCode := if freeBool d 0 then .none else errCodes.getD ((Config.free 8 d 0).toNat % 13) .busError
    phase := if freeBool d 0 then .idle else busyPhases.getD ((Config.free 8 d 1).toNat % 11) .check }

/-- An arena entry of free values. -/
def freeNode (d i : Nat) : Node :=
  ⟨Config.free 72 d i, freeBool d (3 + 2 * i), freeBool d (4 + 2 * i),
   Config.free 9 d (3 + 3 * i), Config.free 9 d (4 + 3 * i), Config.free 9 d (5 + 3 * i)⟩

/-- The unconstrained outcome of a command whose regions the host wrote, or placed over the register window or a device, while it
ran: every register and RAM it writes and every output byte takes any value, and it completes (20 R85). -/
def State.unconstrained (s : State) (i : Instr) : State :=
  let d := s.draws
  let keep (r : Reg) (v f : Word) : Word := if writesReg i r then f else v
  let t : State := { s with
    running := none
    status := freeStatus s.status d
    origLen := keep .origLen s.origLen (Config.free 64 d 0)
    payloadOff := keep .payloadOff s.payloadOff (Config.free 64 d 1)
    totalBits := keep .totalBits s.totalBits (Config.free 64 d 2)
    totalBytes := keep .totalBytes s.totalBytes (Config.free 64 d 3)
    hdrLen := keep .hdrLen s.hdrLen (Config.free 64 d 4)
    result := keep .result s.result (Config.free 64 d 5)
    errInfo := keep .errInfo s.errInfo (Config.free 64 d 6)
    nsym := if writesReg i .nsym then Config.free 9 d 0 else s.nsym
    root := if writesReg i .treeInfo then Config.free 9 d 1 else s.root
    nnodes := if writesReg i .treeInfo then Config.free 9 d 2 else s.nnodes
    te := if writesReg i .hdrInfo then (if freeBool d 2 then .canon else .freq) else s.te
    hist := if writesReg i (.hist 0) then tabulate 256 (fun b => Config.free 64 d (7 + b.val)) else s.hist
    len := if writesReg i (.len 0) then tabulate 256 (fun b => Config.free 8 d (2 + b.val)) else s.len
    code := if writesReg i (.code 0 0) then tabulate 256 (fun b => Config.free 256 d b.val) else s.code
    node := if writesReg i (.node 0 0) then tabulate 511 (fun n => freeNode d n.val) else s.node
    draws := d + 1 }
  t.unspecifiedOutput 0 s.outCap.toNat

/-- The state the completion step of a command reaches (20 R87). -/
def Command.completed (c : Command) (s : State) : State :=
  if s.raced then s.unconstrained c.name
  else
    match c.busErrorAt s with
    | some (p, kept, a) => c.failedAt s p ⟨.busError, a⟩ kept
    | none =>
      match runPlan c.plan s with
      | .returned t => t.succeeded (c.result t)
      | .raised p e kept => c.failedAt s p e kept

/-- The completion step of a command: every accepted command completes (70 R330). -/
def runCommand (c : Command) (s : State) : Host.Outcome State Fault Refusal := .next (c.completed s)

end Sys2Proof.Machine
end

