-- ==== Sys2Proof/Machine/Histogram.lean ====
section
/-!
DEFINITION. ByteHistogram: HIST (spec 40).
-/
namespace Sys2Proof.Machine

/-- `h[b]`: how many input bytes have value b (40 R122). -/
def byteCount (xs : List Byte) (b : Fin 256) : Nat := xs.count (BitVec.ofNat 8 b.val)

/-- The number of byte values for which a table entry is not 0 (10 R36). -/
def countNonzero (f : Fin 256 → Nat) : Nat := (List.finRange 256).countP fun b => f b != 0

/-- `P_HIST` (40 R122). -/
def phaseHist (s : State) : Except Raise State :=
  .ok { s with
    hist := tabulate 256 fun b => BitVec.ofNat 64 (byteCount (inputBytes s) b)
    origLen := s.inLen
    nsym := BitVec.ofNat 9 (countNonzero (byteCount (inputBytes s)))
    status := { s.status with empty := s.status.empty || s.inLen == 0#64 } }

/-- HIST as the sequencer runs it (30 R103, 40 R122, 20 R72). -/
def cmdHist : Command where
  name := .hist
  plan := [.always .check (regionCheck true false), .always .hist phaseHist]
  result := fun t => t.inLen
  reads := allInput
  writes := fun _ _ => noBytes

/-- HIST (40 R122). -/
def execHist (s : State) : Host.Outcome State Fault Refusal := runCommand cmdHist s

end Sys2Proof.Machine
end

