-- ==== Sys2Proof/Machine/Tree.lean ====
section
/-!
DEFINITION. CodeTree: BUILD (spec 41).
-/
namespace Sys2Proof.Machine

/-- A queue key: (WEIGHT, index) (41 R132). -/
abbrev Key := Nat × Nat

/-- Smaller weight first, and among equal weights the smaller index (41 R132). -/
def keyLess (a b : Key) : Bool := decide (a.1 < b.1) || (a.1 == b.1 && decide (a.2 < b.2))

/-- The least of a key and a list of keys. -/
def leastKey : Key → List Key → Key
  | k, [] => k
  | k, x :: xs => leastKey (if keyLess x k then x else k) xs

/-- The least key of a queue, and the queue without it (41 R135). -/
def popLeast : List Key → Option (Key × List Key)
  | [] => none
  | k :: ks => some (leastKey k ks, (k :: ks).erase (leastKey k ks))

/-- One leaf for each nonzero histogram entry, in ascending byte order (41 R130). -/
def histLeaves (hist : Vector Word 256) : List Node :=
  (nonzeroEntries (ramValues hist)).map fun e => leafNode e.1 e.2

/-- The leaves BUILD starts from: with exactly one real leaf, the sentinel beside it (41 R134). -/
def seedLeaves (hist : Vector Word 256) : List Node :=
  if (histLeaves hist).length = 1 then histLeaves hist ++ [leafNode 256 0] else histLeaves hist

/-- The queue of the leaves: each one's weight and arena index (41 R130). -/
def seedQueue (leaves : List Node) : List Key := leaves.zipIdx.map fun x => (x.1.weight.toNat, x.2)

/-- The merge loop (41 R133, R135): pop the two least, the first the LEFT child and the second the RIGHT, and put their parent at the
next free index. `fuel` bounds the iterations; each one shortens the queue by one. -/
def mergeLoop : Nat → List Key → List Node → List Key × List Node
  | 0, q, arena => (q, arena)
  | fuel + 1, q, arena =>
    match popLeast q with
    | none => (q, arena)
    | some (a, q1) =>
      match popLeast q1 with
      | none => (q, arena)
      | some (c, q2) =>
        mergeLoop fuel (q2 ++ [(a.1 + c.1, arena.length)])
          (arena ++ [internalNode (a.1 + c.1) (BitVec.ofNat 9 a.2) (BitVec.ofNat 9 c.2)])

/-- The final queue and arena of BUILD. -/
def buildMerged (hist : Vector Word 256) : List Key × List Node :=
  mergeLoop (seedLeaves hist).length (seedQueue (seedLeaves hist)) (seedLeaves hist)

/-- ROOT: the only element of the queue, or 0x1FF with no leaf (41 R133). -/
def buildRoot (hist : Vector Word 256) : Index :=
  match (buildMerged hist).1 with
  | [] => noNode
  | k :: _ => BitVec.ofNat 9 k.2

/-- `P_BUILD` (41 R133). -/
def phaseBuild (s : State) : Except Raise State :=
  .ok { s with
    node := arenaOf (buildMerged s.hist).2
    root := buildRoot s.hist
    nnodes := BitVec.ofNat 9 (buildMerged s.hist).2.length
    nsym := BitVec.ofNat 9 (histLeaves s.hist).length }

/-- NNODES as a RESULT (10 R35). -/
def nnodesResult (t : State) : Word := t.nnodes.setWidth 64

/-- BUILD as the sequencer runs it (30 R103, 41 R133). -/
def cmdBuild : Command where
  name := .build
  plan := [.always .build phaseBuild]
  result := nnodesResult
  reads := fun _ => noBytes
  writes := fun _ _ => noBytes

/-- BUILD (41 R133). -/
def execBuild (s : State) : Host.Outcome State Fault Refusal := runCommand cmdBuild s

end Sys2Proof.Machine
end

