-- ==== Sys2Proof/Machine/CodeTable.lean ====
section
/-!
DEFINITION. CodeTable: DERIVE, DERIVE.C and CANON (spec 42).
-/
namespace Sys2Proof.Machine

/-- A derived table: symbols with their code bits, the latest recorded first. -/
abbrev PathTable := List (Nat × List Bool)

/-- The traversal of `P_DERIVE` (42 R150): pop a node with its path; a leaf of a byte value records its path, an internal node pushes
its RIGHT child and then its LEFT. No result where it does not end within `fuel` pops. -/
def deriveWalk (node : Vector Node 511) : Nat → List (Index × List Bool) → PathTable → Option PathTable
  | _, [], acc => some acc
  | 0, _ :: _, _ => none
  | fuel + 1, (i, p) :: stack, acc =>
    if (nodeAt node i).leaf then
      if decide ((nodeAt node i).sym.toNat < 256) then deriveWalk node fuel stack (((nodeAt node i).sym.toNat, p) :: acc)
      else deriveWalk node fuel stack acc
    else
      let right := if (nodeAt node i).right = noNode then [] else [((nodeAt node i).right, p ++ [true])]
      let left := if (nodeAt node i).left = noNode then [] else [((nodeAt node i).left, p ++ [false])]
      deriveWalk node fuel (left ++ right ++ stack) acc

/-- 2^ARENA, above the number of pops of every traversal that ends: without a cycle a path has at most ARENA nodes, so a traversal
makes at most 2^ARENA - 1 pops, however many parents share a child. -/
def traversalPops : Nat := 2 ^ Config.arena

/-- The table of a tree; the empty tree has none (42 R150). No table exactly where a cycle is reachable from ROOT, so that the traversal
of R150 does not end (log entry 13). -/
def derivePaths (node : Vector Node 511) (root : Index) : Option PathTable :=
  if root = noNode then some [] else deriveWalk node traversalPops [(root, [])] []

/-- The path recorded last for a byte; the empty sequence when there is none. -/
def pathOf (t : PathTable) (b : Fin 256) : List Bool := (t.lookup b.val).getD []

/-- A recorded path is a code: LEN has 8 bits and CODE 256, so no path above 255 bits is one (10 R41, R42; log entry 13). -/
def fitsCode (p : List Bool) : Bool := decide (p.length ≤ 255)

/-- What DERIVE reads, as numbers: ROOT and the arena (42 R150, R157). -/
def treeOperands (node : Vector Node 511) (root : Index) : List Nat :=
  root.toNat :: node.toList.flatMap fun n =>
    [n.weight.toNat, n.leaf.toNat, n.used.toNat, n.sym.toNat, n.left.toNat, n.right.toNat]

/-- A LEN entry whose value the spec does not state, a function of the operands `ops` (log entry 13). -/
def freeLen (ops : List Nat) (b : Fin 256) : Byte := Config.freeOf 8 ops b.val

/-- A CODE entry whose value the spec does not state: its first LEN[b] bits, the others 0 (10 R42; log entry 13). -/
def freeCode (ops : List Nat) (b : Fin 256) : BitVec 256 :=
  codeEntry (codeBits (Config.freeOf 256 ops b.val) (freeLen ops b).toNat)

/-- The LEN table of a derived table (42 R150). -/
def pathLens (ops : List Nat) (t : PathTable) : Vector Byte 256 :=
  tabulate 256 fun b => if fitsCode (pathOf t b) then BitVec.ofNat 8 (pathOf t b).length else freeLen ops b

/-- The CODE table of a derived table: tree-path codes (42 R151). -/
def pathCodes (ops : List Nat) (t : PathTable) : Vector (BitVec 256) 256 :=
  tabulate 256 fun b => if fitsCode (pathOf t b) then codeEntry (pathOf t b) else freeCode ops b

/-- `P_DERIVE(tm)` (42 R150), a function of the arena and ROOT (42 R157). Where its traversal does not end, DERIVE completes
(70 R330) with free tables (log entry 13). -/
def phaseDerive (tm : TableMode) (s : State) : Except Raise State :=
  let ops := treeOperands s.node s.root
  match derivePaths s.node s.root with
  | some t => .ok { s with len := pathLens ops t, code := if tm = .freq then pathCodes ops t else s.code }
  | none => .ok { s with
      len := tabulate 256 (freeLen ops)
      code := if tm = .freq then tabulate 256 (freeCode ops) else s.code }

/-- A byte's code length as a number. -/
def lenNat (len : Vector Byte 256) (b : Fin 256) : Nat := len[b].toNat

/-- The order of S: ascending by the key (LEN[b], b) (42 R153). -/
def canonLe (x y : Nat × Nat) : Bool := decide (x.1 < y.1) || (x.1 == y.1 && decide (x.2 ≤ y.2))

/-- The (length, byte) pairs of the bytes with a code, in ascending byte order. -/
def lenEntries (len : Vector Byte 256) : List (Nat × Nat) :=
  (nonzeroEntries (ramValues len)).map fun e => (e.2, e.1)

/-- S (42 R153). -/
def canonOrder (len : Vector Byte 256) : List (Nat × Nat) :=
  (lenEntries len).insertionSort fun x y => canonLe x y = true

/-- The Kraft sum, scaled by 2^255 (42 R155). -/
def kraftSum (ls : List Nat) : Nat := (ls.map fun l => 2 ^ (255 - l)).sum

/-- The codes after the first: (code + 1) * 2^(length increase) (42 R153). -/
def canonNext : Nat → Nat → List (Nat × Nat) → List (Nat × Nat)
  | _, _, [] => []
  | prev, c, (l, b) :: rest => (b, (c + 1) * 2 ^ (l - prev)) :: canonNext l ((c + 1) * 2 ^ (l - prev)) rest

/-- The canonical code of each byte of S, as a number (42 R153): the first code is 0. -/
def canonCodes : List (Nat × Nat) → List (Nat × Nat)
  | [] => []
  | (l, b) :: rest => (b, 0) :: canonNext l 0 rest

/-- The `l`-bit binary numeral of a code, most significant bit first, as a code entry (42 R153, 10 R42). -/
def numeralEntry (c l : Nat) : BitVec 256 := BitVec.ofNat 256 (c * 2 ^ (256 - l))

/-- The CODE table of the canonical assignment (42 R153). -/
def canonTable (len : Vector Byte 256) : Vector (BitVec 256) 256 :=
  tabulate 256 fun b => match (canonCodes (canonOrder len)).lookup b.val with
    | some c => numeralEntry c (lenNat len b)
    | none => 0#256

/-- `P_CANON` (42 R153, R155). -/
def phaseCanon (s : State) : Except Raise State :=
  match lenEntries s.len with
  | [(l, b)] =>
    if l ≠ 1 then .error ⟨.badTable, BitVec.ofNat 64 b⟩
    else .ok { s with code := canonTable s.len, nsym := 1#9 }
  | es =>
    if 2 ≤ es.length ∧ kraftSum (es.map Prod.fst) ≠ 2 ^ 255 then .error ⟨.badTable, 0x100#64⟩
    else .ok { s with code := canonTable s.len, nsym := BitVec.ofNat 9 es.length }

/-- The number of bytes with a code (10 R35, 42 R150). -/
def codedResult (t : State) : Word := BitVec.ofNat 64 (lenEntries t.len).length

/-- DERIVE as the sequencer runs it (30 R103, 42 R150). -/
def cmdDerive : Command where
  name := .derive
  plan := [.always .derive (phaseDerive .freq)]
  result := codedResult
  reads := fun _ => noBytes
  writes := fun _ _ => noBytes

/-- DERIVE (42 R150). -/
def execDerive (s : State) : Host.Outcome State Fault Refusal := runCommand cmdDerive s

/-- DERIVE.C as the sequencer runs it: the CANON phase after the DERIVE phase has committed (42 R150, 90 C15). -/
def cmdDeriveC : Command where
  name := .deriveC
  plan := [.always .derive (phaseDerive .canon), .always .canon phaseCanon]
  result := codedResult
  reads := fun _ => noBytes
  writes := fun _ _ => noBytes

/-- DERIVE.C (42 R150). -/
def execDeriveC (s : State) : Host.Outcome State Fault Refusal := runCommand cmdDeriveC s

/-- CANON as the sequencer runs it (30 R103, 42 R153). -/
def cmdCanon : Command where
  name := .canon
  plan := [.always .canon phaseCanon]
  result := fun t => t.nsym.setWidth 64
  reads := fun _ => noBytes
  writes := fun _ _ => noBytes

/-- CANON (42 R153). -/
def execCanon (s : State) : Host.Outcome State Fault Refusal := runCommand cmdCanon s

end Sys2Proof.Machine
end

