-- ==== Sys2Proof/Machine/Size.lean ====
section
/-!
DEFINITION. SizeEstimator: ESTIMATE (spec 43), and the length pass it shares with ENCODE.
-/
namespace Sys2Proof.Machine

/-- The code length of a byte. -/
def byteLen (len : Vector Byte 256) (x : Byte) : Nat := lenNat len (byteIndex x)

/-- The sum of the code lengths of a byte sequence (43 R170). -/
def totalLen (len : Vector Byte 256) (xs : List Byte) : Nat := (xs.map (byteLen len)).sum

/-- The least offset of a byte without a code (43 R170, R171). -/
def firstUncoded (len : Vector Byte 256) (xs : List Byte) : Option Nat := xs.findIdx? fun x => byteLen len x == 0

/-- The length pass of ESTIMATE and ENCODE: NO_CODE at the least offset, then SIZE_OVERFLOW, else the exact total (43 R170, 44 R180). -/
def lengthPass (s : State) : Except Raise Nat :=
  match firstUncoded s.len (inputBytes s) with
  | some i => .error ⟨.noCode, BitVec.ofNat 64 i⟩
  | none =>
    if totalLen s.len (inputBytes s) > 2 ^ 64 - 1 then .error ⟨.sizeOverflow, 0#64⟩
    else .ok (totalLen s.len (inputBytes s))

/-- `P_ESTIMATE` (43 R170). -/
def phaseEstimate (s : State) : Except Raise State :=
  match lengthPass s with
  | .error e => .error e
  | .ok t => .ok { s with totalBits := BitVec.ofNat 64 t, totalBytes := BitVec.ofNat 64 (ceilDiv t 8) }

/-- ESTIMATE as the sequencer runs it (30 R103, 43 R170). -/
def cmdEstimate : Command where
  name := .estimate
  plan := [.always .check (regionCheck true false), .always .estimate phaseEstimate]
  result := fun t => t.totalBytes
  reads := allInput
  writes := fun _ _ => noBytes

/-- ESTIMATE (43 R170). -/
def execEstimate (s : State) : Host.Outcome State Fault Refusal := runCommand cmdEstimate s

end Sys2Proof.Machine
end

