-- ==== Sys2Proof/Machine/Encoder.lean ====
section
/-!
DEFINITION. ParallelEncoder: ENCODE (spec 44), as the sequential function every N computes (44 R185).
-/
namespace Sys2Proof.Machine

/-- The code word of an input byte: `cw(b)` (44 R180). -/
def byteCode (s : State) (x : Byte) : List Bool := codeWordBits s (byteIndex x)

/-- S: the code words of the input bytes, one after another (44 R180). -/
def codeStream (s : State) (xs : List Byte) : List Bool := xs.flatMap (byteCode s)

/-- The payload: the packing of S (44 R180, 20 R75). -/
def payloadBytes (s : State) : List Byte := pack (codeStream s (inputBytes s))

/-- `P_ENCODE` (44 R180). -/
def phaseEncode (s : State) : Except Raise State :=
  match lengthPass s with
  | .error e => .error e
  | .ok t =>
    if s.payloadOff.toNat + ceilDiv t 8 > s.outCap.toNat then
      .error ⟨.bufferTooSmall, limited (s.payloadOff.toNat + ceilDiv t 8)⟩
    else .ok { s with
      mem := s.mem.writeBytes (s.outBase.toNat + s.payloadOff.toNat) (payloadBytes s)
      totalBits := BitVec.ofNat 64 t
      totalBytes := BitVec.ofNat 64 (ceilDiv t 8) }

/-- The output bytes ENCODE may write: [PAYLOAD_OFF, PAYLOAD_OFF + nb), with nb as its length pass computes it (20 R72, 60 R286). -/
def encodeWrites (s : State) : Nat × Nat :=
  match lengthPass s with
  | .ok t => (s.payloadOff.toNat, s.payloadOff.toNat + ceilDiv t 8)
  | .error _ => noBytes

/-- ENCODE as the sequencer runs it (30 R103, 44 R180). -/
def cmdEncode : Command where
  name := .encode
  plan := [.always .check (regionCheck true true), .always .encode phaseEncode]
  result := fun t => t.totalBytes
  reads := allInput
  writes := fun _ s => encodeWrites s

/-- ENCODE (44 R180). -/
def execEncode (s : State) : Host.Outcome State Fault Refusal := runCommand cmdEncode s

end Sys2Proof.Machine
end

