-- ==== Sys2Proof/Machine/Container.lean ====
section
/-!
DEFINITION. StreamContainer: the header format, WRHDR, WRHDR.C and PARSEHDR (spec 45).
-/
namespace Sys2Proof.Machine

/-- MAGIC and VERSION (45 R200, 00 R8). -/
def magicBytes : List Byte := [0x48#8, 0x55#8, 0x46#8, 0x5A#8]

/-- The VERSION byte (45 R200, R205). -/
def versionByte : Byte := 0x01#8

/-- `esz`: the size of a header entry (45 R200). -/
def entrySize : TableMode → Nat
  | .freq => 9
  | .canon => 2

/-- HDR_LEN of a header with `n` entries (45 R202). -/
def headerLen (tm : TableMode) (n : Nat) : Nat := 16 + entrySize tm * n

/-- The entries of a header: the byte values with a nonzero frequency or length, ascending (45 R203). -/
def headerEntries (tm : TableMode) (s : State) : List (Nat × Nat) :=
  match tm with
  | .freq => nonzeroEntries (ramValues s.hist)
  | .canon => nonzeroEntries (ramValues s.len)

/-- One entry's bytes (45 R200). -/
def entryBytes (tm : TableMode) (e : Nat × Nat) : List Byte :=
  BitVec.ofNat 8 e.1 :: (match tm with
    | .freq => leBytes e.2 8
    | .canon => [BitVec.ofNat 8 e.2])

/-- A header's bytes (45 R206). -/
def headerBytes (tm : TableMode) (olen : Nat) (es : List (Nat × Nat)) : List Byte :=
  magicBytes ++ [versionByte] ++ leBytes olen 8 ++ [BitVec.ofNat 8 tm.toNat] ++ leBytes es.length 2
    ++ es.flatMap (entryBytes tm)

/-- `hl` of the header WRHDR would write (45 R206). -/
def wrhdrLen (tm : TableMode) (s : State) : Nat := headerLen tm (headerEntries tm s).length

/-- `P_WRHDR(tm)` (45 R206). -/
def phaseWrhdr (tm : TableMode) (s : State) : Except Raise State :=
  if wrhdrLen tm s > s.outCap.toNat then .error ⟨.bufferTooSmall, BitVec.ofNat 64 (wrhdrLen tm s)⟩
  else .ok { s with
    mem := s.mem.writeBytes s.outBase.toNat (headerBytes tm s.origLen.toNat (headerEntries tm s))
    hdrLen := BitVec.ofNat 64 (wrhdrLen tm s)
    payloadOff := BitVec.ofNat 64 (wrhdrLen tm s)
    te := tm }

/-- WRHDR as the sequencer runs it (30 R103, 45 R206). -/
def cmdWrhdr : Command where
  name := .wrhdr
  plan := [.always .check (regionCheck false true), .always .wrhdr (phaseWrhdr .freq)]
  result := fun t => t.hdrLen
  reads := fun _ => noBytes
  writes := fun _ s => (0, wrhdrLen .freq s)

/-- WRHDR (45 R206). -/
def execWrhdr (s : State) : Host.Outcome State Fault Refusal := runCommand cmdWrhdr s

/-- WRHDR.C as the sequencer runs it (30 R103, 45 R206). -/
def cmdWrhdrC : Command where
  name := .wrhdrC
  plan := [.always .check (regionCheck false true), .always .wrhdr (phaseWrhdr .canon)]
  result := fun t => t.hdrLen
  reads := fun _ => noBytes
  writes := fun _ s => (0, wrhdrLen .canon s)

/-- WRHDR.C (45 R206). -/
def execWrhdrC (s : State) : Host.Outcome State Fault Refusal := runCommand cmdWrhdrC s

/-- `n` input bytes from an offset. -/
def inBytes (s : State) (o n : Nat) : List Byte := (List.range n).map fun k => inByte s (o + k)

/-- The first wrong or missing magic byte, if one is (45 R210). -/
def magicFault (s : State) : Nat → List Byte → Option Nat
  | _, [] => none
  | o, b :: bs => if o ≥ s.inLen.toNat ∨ inByte s o ≠ b then some o else magicFault s (o + 1) bs

/-- A CORRUPT_HEADER at an offset (60 R281). -/
def badHeader (o : Nat) : Raise := ⟨.corruptHeader, BitVec.ofNat 64 o⟩

/-- TE of the parsed header; values above 1 are refused before it is asked (45 R210). -/
def parsedTe (s : State) : TableMode := if inByte s 13 = 0x00#8 then .freq else .canon

/-- COUNT of the parsed header (45 R200, R201). -/
def parsedCount (s : State) : Nat := leValue (inBytes s 14 2)

/-- OLEN of the parsed header (45 R200, R201). -/
def parsedOlen (s : State) : Nat := leValue (inBytes s 5 8)

/-- The value of the entry at offset `o`: its frequency or its length (45 R200). -/
def parsedValue (te : TableMode) (s : State) (o : Nat) : Nat :=
  match te with
  | .freq => leValue (inBytes s (o + 1) 8)
  | .canon => (inByte s (o + 1)).toNat

/-- The entry loop of PARSEHDR (45 R210): `k` entries from offset `o` on, each byte value at least `lo` (one more than the one before). -/
def parseEntries (te : TableMode) (s : State) : Nat → Nat → Nat → Except Raise (List (Nat × Nat))
  | 0, _, _ => .ok []
  | k + 1, o, lo =>
    if (inByte s o).toNat < lo then .error (badHeader o)
    else if parsedValue te s o = 0 then .error (badHeader (o + 1))
    else
      match parseEntries te s k (o + entrySize te) ((inByte s o).toNat + 1) with
      | .error e => .error e
      | .ok es => .ok (((inByte s o).toNat, parsedValue te s o) :: es)

/-- The checks over all entries (45 R210): the counts sum to OLEN, or the lengths are a complete code. -/
def entriesFault (te : TableMode) (olen : Nat) (es : List (Nat × Nat)) : Option Raise :=
  match te with
  | .freq => if (es.map Prod.snd).sum ≠ olen then some (badHeader 5) else none
  | .canon =>
    if decide (es.length = 0) ≠ decide (olen = 0) then some (badHeader 5)
    else if es.length = 1 ∧ (es.map Prod.snd).headD 1 ≠ 1 then some (badHeader 17)
    else if es.length ≥ 2 ∧ kraftSum (es.map Prod.snd) ≠ 2 ^ 255 then some (badHeader 16)
    else none

/-- The checks before the entries (45 R210). -/
def headerFault (s : State) : Option Raise :=
  match magicFault s 0 magicBytes with
  | some o => some ⟨.corruptMagic, BitVec.ofNat 64 o⟩
  | none =>
    if s.inLen.toNat < 5 ∨ inByte s 4 ≠ versionByte then some ⟨.corruptMagic, 4#64⟩
    else if s.inLen.toNat < 16 then some (badHeader s.inLen.toNat)
    else if (inByte s 13).toNat > 1 then some (badHeader 13)
    else if parsedCount s > 256 then some (badHeader 14)
    else if s.inLen.toNat < headerLen (parsedTe s) (parsedCount s) then some (badHeader s.inLen.toNat)
    else none

/-- The entry's value in a parsed table, 0 for a byte without one (45 R210). -/
def entryValue (es : List (Nat × Nat)) (b : Fin 256) : Nat := (es.lookup b.val).getD 0

/-- The commit of PARSEHDR (45 R210). -/
def parsedState (te : TableMode) (es : List (Nat × Nat)) (s : State) : State :=
  { s with
    hist := if te = .freq then tabulate 256 (fun b => BitVec.ofNat 64 (entryValue es b)) else s.hist
    len := if te = .canon then tabulate 256 (fun b => BitVec.ofNat 8 (entryValue es b)) else s.len
    origLen := BitVec.ofNat 64 (parsedOlen s)
    hdrLen := BitVec.ofNat 64 (headerLen te (parsedCount s))
    payloadOff := BitVec.ofNat 64 (headerLen te (parsedCount s))
    nsym := BitVec.ofNat 9 (parsedCount s)
    te := te }

/-- `P_PARSEHDR` (45 R210). -/
def phaseParsehdr (s : State) : Except Raise State :=
  match headerFault s with
  | some e => .error e
  | none =>
    match parseEntries (parsedTe s) s (parsedCount s) 16 0 with
    | .error e => .error e
    | .ok es =>
      match entriesFault (parsedTe s) (parsedOlen s) es with
      | some e => .error e
      | none => .ok (parsedState (parsedTe s) es s)

/-- The header end PARSEHDR's reads stop at (20 R72): the end its TE and COUNT give, or 16 where these are refused (log entry 26). -/
def parsedEnd (s : State) : Nat :=
  if s.inLen.toNat < 16 ∨ (inByte s 13).toNat > 1 ∨ parsedCount s > 256 then 16
  else headerLen (parsedTe s) (parsedCount s)

/-- PARSEHDR as the sequencer runs it (30 R103, 45 R210). -/
def cmdParsehdr : Command where
  name := .parsehdr
  plan := [.always .check (regionCheck true false), .always .parsehdr phaseParsehdr]
  result := fun t => t.hdrLen
  reads := fun s => (0, parsedEnd s)
  writes := fun _ _ => noBytes

/-- PARSEHDR (45 R210). -/
def execParsehdr (s : State) : Host.Outcome State Fault Refusal := runCommand cmdParsehdr s

end Sys2Proof.Machine
end

