-- ==== Sys2Proof/Machine/Decoder.lean ====
section
/-!
DEFINITION. ParallelDecoder: CTREE and DECODE (spec 46), DECODE as the sequential walk every N computes (46 R240).
-/
namespace Sys2Proof.Machine

/-- The child a code bit moves to: 0 LEFT, 1 RIGHT (46 R231). -/
def Node.child (n : Node) (bit : Bool) : Index := if bit then n.right else n.left

/-- `set child bit of A[i] to c` (46 R232). -/
def Node.withChild (n : Node) (bit : Bool) (c : Index) : Node := if bit then { n with right := c } else { n with left := c }

/-- An internal node without children (46 R232). -/
def bareNode : Node := internalNode 0 noNode noNode

/-- The entry `i` of the arena being built. -/
def arenaAt (a : List Node) (i : Nat) : Node := a.getD i Node.empty

/-- The arena with child `bit` of entry `i` set to the next free index, where the node `n` is put (46 R232). -/
def addChild (a : List Node) (i : Nat) (bit : Bool) (n : Node) : List Node :=
  a.set i ((arenaAt a i).withChild bit (BitVec.ofNat 9 a.length)) ++ [n]

/-- One code's insertion from node `i` on (46 R232): none where it collides with an earlier code or the arena is full. -/
def insertCode (b : Nat) : List Node → Nat → List Bool → Option (List Node)
  | a, _, [] => some a
  | a, i, [c] =>
    if (arenaAt a i).child c ≠ noNode then none
    else if a.length = Config.arena then none
    else some (addChild a i c (leafNode b 0))
  | a, i, c :: d :: cs =>
    if (arenaAt a i).child c = noNode then
      if a.length = Config.arena then none
      else insertCode b (addChild a i c bareNode) a.length (d :: cs)
    else if (arenaAt a ((arenaAt a i).child c).toNat).leaf then none
    else insertCode b a ((arenaAt a i).child c).toNat (d :: cs)

/-- The insertion of the codes of a list of bytes, in order; the root is made before the first (46 R232). -/
def insertCodes (s : State) : List (Fin 256) → List Node → Except Raise (List Node)
  | [], a => .ok a
  | b :: bs, a =>
    match insertCode b.val (if a = [] then [bareNode] else a) 0 (codeWordBits s b) with
    | none => .error ⟨.badTable, BitVec.ofNat 64 b.val⟩
    | some a' => insertCodes s bs a'

/-- The bytes with a code, ascending. -/
def codedBytes (len : Vector Byte 256) : List (Fin 256) := 
  (nonzeroEntries (ramValues len)).map fun e => Fin.ofNat 256 e.1

/-- `P_CTREE` (46 R232). -/
def phaseCtree (s : State) : Except Raise State :=
  match insertCodes s (codedBytes s.len) [] with
  | .error e => .error e
  | .ok a => .ok { s with
      node := arenaOf a
      root := if a = [] then noNode else 0#9
      nnodes := BitVec.ofNat 9 a.length }

/-- CTREE as the sequencer runs it (30 R103, 46 R232). -/
def cmdCtree : Command where
  name := .ctree
  plan := [.always .ctree phaseCtree]
  result := nnodesResult
  reads := fun _ => noBytes
  writes := fun _ _ => noBytes

/-- CTREE (46 R232). -/
def execCtree (s : State) : Host.Outcome State Fault Refusal := runCommand cmdCtree s

/-- `P_DCHECK` (46 R236). -/
def phaseDcheck (s : State) : Except Raise State :=
  if s.payloadOff.toNat > s.inLen.toNat then .error ⟨.badRegion, 4#64⟩
  else if s.origLen.toNat > s.outCap.toNat then .error ⟨.bufferTooSmall, s.origLen⟩
  else .ok s

/-- A CORRUPT_* error with a count of decoded bytes (60 R281). -/
def corruptAt (c : ErrCode) (k : Nat) : Raise := ⟨c, BitVec.ofNat 64 k⟩

/-- One walk from node `i` to a leaf (46 R231, R236), `k` bytes being decoded before: the leaf's symbol and the bits left. -/
def walkCode (node : Vector Node 511) (root : Index) (k : Nat) : Index → List Bool → Except Raise (Index × List Bool)
  | i, [] =>
    if (nodeAt node i).leaf then .ok ((nodeAt node i).sym, [])
    else if i = root then .error (corruptAt .corruptLength k)
    else .error (corruptAt .corruptOutOfBits k)
  | i, c :: cs =>
    if (nodeAt node i).leaf then .ok ((nodeAt node i).sym, c :: cs)
    else if (nodeAt node i).child c = noNode then .error (corruptAt .corruptCode k)
    else walkCode node root k ((nodeAt node i).child c) cs

/-- One decoded byte (46 R236): no tree, a root that is a leaf and the sentinel (46 R237) are CORRUPT_CODE. -/
def decodeSymbol (node : Vector Node 511) (root : Index) (k : Nat) (bits : List Bool) : Except Raise (Index × List Bool) :=
  if root = noNode ∨ (nodeAt node root).leaf = true then .error (corruptAt .corruptCode k)
  else
    match walkCode node root k root bits with
    | .error e => .error e
    | .ok (sym, rest) => if sym = 256#9 then .error (corruptAt .corruptCode k) else .ok (sym, rest)

/-- The byte a leaf's symbol stands for; a symbol above 256, which only a race leaves in the arena, gives a free byte, a function of
the symbol (20 R86; log entry 14). -/
def symbolByte (sym : Index) : Byte :=
  if sym.toNat < 256 then BitVec.ofNat 8 sym.toNat else Config.freeOf 8 [sym.toNat] 0

/-- `m` decoded bytes from the `k`-th on, and the bits left (46 R236). -/
def decodeSymbols (node : Vector Node 511) (root : Index) : Nat → Nat → List Bool → Except Raise (List Byte × List Bool)
  | 0, _, bits => .ok ([], bits)
  | m + 1, k, bits =>
    match decodeSymbol node root k bits with
    | .error e => .error e
    | .ok (sym, rest) =>
      match decodeSymbols node root m (k + 1) rest with
      | .error e => .error e
      | .ok (bs, left) => .ok (symbolByte sym :: bs, left)

/-- The payload's bytes: input bytes [PAYLOAD_OFF, IN_LEN) (46 R236). -/
def payloadInput (s : State) : List Byte := (inputBytes s).drop s.payloadOff.toNat

/-- The checks at the end of the stream (46 R236, R238): with `n` payload bytes and these bits left after `m` symbols, no byte is
left over and every pad bit is 0. -/
def endFault (m n : Nat) (left : List Bool) : Option Raise :=
  if n ≠ ceilDiv (8 * n - left.length) 8 then some (corruptAt .corruptLength m)
  else if left.any id then some (corruptAt .corruptPad m)
  else none

/-- The bytes DECODE decodes, or its error (46 R236). -/
def decodePayload (s : State) : Except Raise (List Byte) :=
  match decodeSymbols s.node s.root s.origLen.toNat 0 (unpack (payloadInput s)) with
  | .error e => .error e
  | .ok (bs, left) =>
    match endFault s.origLen.toNat (payloadInput s).length left with
    | some e => .error e
    | none => .ok bs

/-- `P_DECODE` (46 R236). -/
def phaseDecode (s : State) : Except Raise State :=
  match decodePayload s with
  | .error e => .error e
  | .ok bs => .ok { s with mem := s.mem.writeBytes s.outBase.toNat bs }

/-- DECODE as the sequencer runs it (30 R103, 46 R236). DESIGN CHOICE (log entry 31): RegionCheck and `P_DCHECK` are two phases, each
showing CHECK, as R236's pseudocode has `phase CHECK` twice; so a BUS_ERROR after the first one (20 R80) may show PHASE = CHECK. -/
def cmdDecode : Command where
  name := .decode
  plan := [.always .check (regionCheck true true), .always .check phaseDcheck, .always .decode phaseDecode]
  result := fun t => t.origLen
  reads := fun s => (s.payloadOff.toNat, s.inLen.toNat)
  writes := fun _ s => (0, s.origLen.toNat)

/-- DECODE (46 R236). -/
def execDecode (s : State) : Host.Outcome State Fault Refusal := runCommand cmdDecode s

end Sys2Proof.Machine
end

