-- ==== Sys2Proof/Machine/EntryPoints.lean ====
section
/-!
DEFINITION. The orchestration entry points: COMPRESS, COMPRESS.C and DECOMPRESS (spec 47).
-/
namespace Sys2Proof.Machine

/-- `need`: the length of the stream COMPRESS would write (47 R260). -/
def streamNeed (tm : TableMode) (s : State) : Nat := headerLen tm s.nsym.toNat + s.totalBytes.toNat

/-- `P_CCHECK(tm)` (47 R260). -/
def phaseCcheck (tm : TableMode) (s : State) : Except Raise State :=
  if streamNeed tm s > s.outCap.toNat then .error ⟨.bufferTooSmall, limited (streamNeed tm s)⟩ else .ok s

/-- COMPRESS's RESULT: the stream length (47 R260). -/
def streamResult (t : State) : Word := t.hdrLen + t.totalBytes

/-- The output bytes COMPRESS may write, [0, HDR_LEN + TOTAL_BYTES), once its ESTIMATE phase has computed them (20 R72, 60 R286). -/
def compressWrites (tm : TableMode) (tr : List (Phase × State)) : Nat × Nat :=
  match stateAfter .estimate tr with
  | some t => (0, streamNeed tm t)
  | none => noBytes

/-- COMPRESS as the sequencer runs it (47 R260, R261). -/
def cmdCompress : Command where
  name := .compress
  plan := [.always .check (regionCheck true true), .always .hist phaseHist, .always .build phaseBuild,
    .always .derive (phaseDerive .freq), .always .estimate phaseEstimate, .always .check (phaseCcheck .freq),
    .always .wrhdr (phaseWrhdr .freq), .always .encode phaseEncode]
  result := streamResult
  reads := allInput
  writes := fun tr _ => compressWrites .freq tr

/-- COMPRESS (47 R260). -/
def execCompress (s : State) : Host.Outcome State Fault Refusal := runCommand cmdCompress s

/-- COMPRESS.C as the sequencer runs it (47 R260, R261, 90 C15). -/
def cmdCompressC : Command where
  name := .compressC
  plan := [.always .check (regionCheck true true), .always .hist phaseHist, .always .build phaseBuild,
    .always .derive (phaseDerive .canon), .always .canon phaseCanon, .always .estimate phaseEstimate,
    .always .check (phaseCcheck .canon), .always .wrhdr (phaseWrhdr .canon), .always .encode phaseEncode]
  result := streamResult
  reads := allInput
  writes := fun tr _ => compressWrites .canon tr

/-- COMPRESS.C (47 R260). -/
def execCompressC (s : State) : Host.Outcome State Fault Refusal := runCommand cmdCompressC s

/-- The phases of the tree rebuild a FREQ stream takes (47 R266). -/
def onFreq (s : State) : Bool := s.te == .freq

/-- The phases of the tree rebuild a CANON stream takes (47 R266). -/
def onCanon (s : State) : Bool := s.te == .canon

/-- The output bytes DECOMPRESS may write, [0, ORIG_LEN), once its PARSEHDR phase has read ORIG_LEN (20 R72). -/
def decompressWrites (tr : List (Phase × State)) : Nat × Nat :=
  match stateAfter .parsehdr tr with
  | some t => (0, t.origLen.toNat)
  | none => noBytes

/-- DECOMPRESS as the sequencer runs it (47 R265, R266). -/
def cmdDecompress : Command where
  name := .decompress
  plan := [.always .check (regionCheck true true), .always .parsehdr phaseParsehdr,
    ⟨.build, onFreq, phaseBuild⟩, ⟨.canon, onCanon, phaseCanon⟩, ⟨.ctree, onCanon, phaseCtree⟩,
    .always .check phaseDcheck, .always .decode phaseDecode]
  result := fun t => t.origLen
  reads := allInput
  writes := fun tr _ => decompressWrites tr

/-- DECOMPRESS (47 R265). -/
def execDecompress (s : State) : Host.Outcome State Fault Refusal := runCommand cmdDecompress s

end Sys2Proof.Machine
end

