-- ==== Sys2Proof/Machine/Dispatch.lean ====
section
/-!
DEFINITION. The one dispatch from a command to its meaning.
-/
namespace Sys2Proof.Machine

def exec (i : Instr) (s : State) : Host.Outcome State Fault Refusal :=
  match i with
  | .hist => Sys2Proof.Machine.execHist s
  | .build => Sys2Proof.Machine.execBuild s
  | .derive => Sys2Proof.Machine.execDerive s
  | .deriveC => Sys2Proof.Machine.execDeriveC s
  | .canon => Sys2Proof.Machine.execCanon s
  | .ctree => Sys2Proof.Machine.execCtree s
  | .estimate => Sys2Proof.Machine.execEstimate s
  | .encode => Sys2Proof.Machine.execEncode s
  | .wrhdr => Sys2Proof.Machine.execWrhdr s
  | .wrhdrC => Sys2Proof.Machine.execWrhdrC s
  | .parsehdr => Sys2Proof.Machine.execParsehdr s
  | .decode => Sys2Proof.Machine.execDecode s
  | .compress => Sys2Proof.Machine.execCompress s
  | .compressC => Sys2Proof.Machine.execCompressC s
  | .decompress => Sys2Proof.Machine.execDecompress s

end Sys2Proof.Machine
end

