-- ==== Sys2Proof/Decode.lean ====
section
/-!
DEFINITION. The command decoder, total on any 64-bit word and on any list of byte lanes, and the encoder after it
(30 R100 to R108; byte lanes 20 R74(c)).
-/
namespace Sys2Proof

/-- Why a command word is illegal, one name per clause of 30 R106. -/
inductive IllegalWord where
  /-- 30 R106(a): OPC = 0x00. -/
  | zeroOpcode
  /-- 30 R106(b): OPC in 0x0D..0xFF. -/
  | unassignedOpcode
  /-- 30 R106(c): bit 8 is 1 for an opcode without TM. -/
  | tmNotDefined
  /-- 30 R106(d): one of bits 63:9 is 1. -/
  | reservedBits
  /-- Not one register write of eight byte lanes (30 R100, R108). -/
  | notOneWord
  deriving DecidableEq, Repr

/-- One row of the opcode map: a word w selects it when w & mask = match (30 R103). -/
structure OpcodeRow where
  pattern : Word
  mask : Word
  instr : Instr
  deriving DecidableEq, Repr

/-- Every row's mask (30 R103, opcode_table.json). -/
def fullMask : Word := 0xFFFFFFFFFFFFFFFF#64

/-- The opcode map, in the table's order (30 R103, opcode_table.json). -/
def opcodeRows : List OpcodeRow :=
  [⟨0x001#64, fullMask, .hist⟩, ⟨0x002#64, fullMask, .build⟩, ⟨0x003#64, fullMask, .derive⟩,
   ⟨0x103#64, fullMask, .deriveC⟩, ⟨0x004#64, fullMask, .canon⟩, ⟨0x005#64, fullMask, .ctree⟩,
   ⟨0x006#64, fullMask, .estimate⟩, ⟨0x007#64, fullMask, .encode⟩, ⟨0x008#64, fullMask, .wrhdr⟩,
   ⟨0x108#64, fullMask, .wrhdrC⟩, ⟨0x009#64, fullMask, .parsehdr⟩, ⟨0x00A#64, fullMask, .decode⟩,
   ⟨0x00B#64, fullMask, .compress⟩, ⟨0x10B#64, fullMask, .compressC⟩, ⟨0x00C#64, fullMask, .decompress⟩]

/-- A word selects a row (30 R103). -/
def OpcodeRow.selects (r : OpcodeRow) (w : Word) : Bool := w &&& r.mask == r.pattern

/-- The clause of 30 R106 that makes an unassigned word illegal, the first that holds. -/
def illegalReason (w : Word) : IllegalWord :=
  if opcNonzero w = false then .zeroOpcode
  else if opcAssigned w = false then .unassignedOpcode
  else if tmAllowed w = false then .tmNotDefined
  else .reservedBits

/-- The command a 64-bit command word stands for, or the reason it is illegal (30 R103, R106). -/
def decode (w : Word) : Except IllegalWord Instr :=
  match opcodeRows.find? (fun r => r.selects w) with
  | some r => .ok r.instr
  | none => .error (illegalReason w)

/-- A 64-bit value as its eight byte lanes, lowest address first (20 R74(c)). -/
def wordLanes (w : Word) : List Byte := (List.range 8).map fun k => w.extractLsb' (8 * k) 8

/-- Eight byte lanes, lowest address first, as a 64-bit value (20 R74(c)). -/
def laneValue : List Byte → Nat
  | [] => 0
  | b :: bs => b.toNat + 256 * laneValue bs

/-- The command in the byte lanes of one register write; any other number of lanes is no command (30 R100, R108). -/
def decodeLanes (bs : List Byte) : Except IllegalWord Instr :=
  if bs.length = 8 then decode (BitVec.ofNat 64 (laneValue bs)) else .error .notOneWord

/-- The command word of a command: the match value of its row (30 R103, R111). -/
def encode : Instr → Word
  | .hist => 0x001#64
  | .build => 0x002#64
  | .derive => 0x003#64
  | .deriveC => 0x103#64
  | .canon => 0x004#64
  | .ctree => 0x005#64
  | .estimate => 0x006#64
  | .encode => 0x007#64
  | .wrhdr => 0x008#64
  | .wrhdrC => 0x108#64
  | .parsehdr => 0x009#64
  | .decode => 0x00A#64
  | .compress => 0x00B#64
  | .compressC => 0x10B#64
  | .decompress => 0x00C#64

/-- The host's numbering of an opcode-table row: w is the row's word, bits above nbits are 0, and the word reaches the
engine as the eight byte lanes of one register write. -/
def decodeTableWord (nbits w : Nat) : Option Instr :=
  if nbits ≤ 64 then
    match decodeLanes (wordLanes (BitVec.ofNat 64 (w % 2 ^ nbits))) with
    | .ok i => some i
    | .error _ => none
  else none

end Sys2Proof
end

