-- ==== Sys2Proof/Machine/HostPort.lean ====
section
/-!
DEFINITION. What the host and the platform can do to the machine: the register port, system memory, `rst`, and the host-program
statements that are register-port accesses (spec 10 R20 to R43, 20 R76, R84, R85, 30 R104, R105, R110, R111, 70 R310, R312, R322, R323).
-/
namespace Sys2Proof.Machine

/-- The command the sequencer runs for an instruction (30 R103). -/
def commandOf : Instr → Command
  | .hist => cmdHist
  | .build => cmdBuild
  | .derive => cmdDerive
  | .deriveC => cmdDeriveC
  | .canon => cmdCanon
  | .ctree => cmdCtree
  | .estimate => cmdEstimate
  | .encode => cmdEncode
  | .wrhdr => cmdWrhdr
  | .wrhdrC => cmdWrhdrC
  | .parsehdr => cmdParsehdr
  | .decode => cmdDecode
  | .compress => cmdCompress
  | .compressC => cmdCompressC
  | .decompress => cmdDecompress

/-! ### The register map (10 R20) -/

/-- The registers below the windows (10 R20). -/
def lowReg (o : Nat) : Reg :=
  if o = 0x000 then .id
  else if o = 0x008 then .ctrl
  else if o = 0x010 then .cmd
  else if o = 0x018 then .status
  else if o = 0x020 then .inBase
  else if o = 0x028 then .inLen
  else if o = 0x030 then .outBase
  else if o = 0x038 then .outCap
  else if o = 0x040 then .origLen
  else if o = 0x048 then .payloadOff
  else if o = 0x050 then .totalBits
  else if o = 0x058 then .totalBytes
  else if o = 0x060 then .hdrLen
  else if o = 0x068 then .result
  else if o = 0x070 then .nsym
  else if o = 0x078 then .treeInfo
  else if o = 0x080 then .errInfo
  else if o = 0x088 then .hdrInfo
  else .reserved

/-- What an 8-byte aligned offset of the register space names (10 R20, R40 to R43). -/
def regAt (offset : BitVec 15) : Reg :=
  let o := offset.toNat
  if o < 0x0800 then lowReg o
  else if o < 0x1000 then .hist (Fin.ofNat 256 ((o - 0x0800) / 8))
  else if o < 0x1800 then .len (Fin.ofNat 256 ((o - 0x1000) / 8))
  else if o < 0x2000 then .reserved
  else if o < 0x4000 then .code (Fin.ofNat 256 ((o - 0x2000) / 32)) (Fin.ofNat 4 ((o - 0x2000) % 32 / 8))
  else if o < 0x6000 then .node (Fin.ofNat 512 ((o - 0x4000) / 16)) (Fin.ofNat 2 ((o - 0x4000) % 16 / 8))
  else .reserved

/-- offset(r) of a register's or window entry's name (30 R110, 10 R20); a reserved offset has no name, and 0x090 stands for it. -/
def offsetOf : Reg → BitVec 15
  | .id => 0x000#15
  | .ctrl => 0x008#15
  | .cmd => 0x010#15
  | .status => 0x018#15
  | .inBase => 0x020#15
  | .inLen => 0x028#15
  | .outBase => 0x030#15
  | .outCap => 0x038#15
  | .origLen => 0x040#15
  | .payloadOff => 0x048#15
  | .totalBits => 0x050#15
  | .totalBytes => 0x058#15
  | .hdrLen => 0x060#15
  | .result => 0x068#15
  | .nsym => 0x070#15
  | .treeInfo => 0x078#15
  | .errInfo => 0x080#15
  | .hdrInfo => 0x088#15
  | .hist b => BitVec.ofNat 15 (0x0800 + 8 * b.val)
  | .len b => BitVec.ofNat 15 (0x1000 + 8 * b.val)
  | .code b w => BitVec.ofNat 15 (0x2000 + 32 * b.val + 8 * w.val)
  | .node i w => BitVec.ofNat 15 (0x4000 + 16 * i.val + 8 * w.val)
  | .reserved => 0x090#15

/-! ### Register values -/

/-- ID (10 R22). -/
def idWord : Word := 0x4855465A#64 ||| (0x01#64 <<< 32) ||| (Config.maxWorkers.setWidth 64 <<< 40)

/-- CTRL (10 R23); SRESET reads 0. -/
def ctrlWord (s : State) : Word := bitWord s.ie ||| (s.workers.setWidth 64 <<< 8)

/-- TREEINFO (10 R37). -/
def treeInfoWord (s : State) : Word := s.root.setWidth 64 ||| (s.nnodes.setWidth 64 <<< 16)

/-- The two words of an arena entry (10 R43). -/
def nodeWord (n : Node) (w : Fin 2) : Word :=
  if w = 0 then n.weight.extractLsb' 0 64
  else (n.weight.extractLsb' 64 8).setWidth 64 ||| (bitWord n.leaf <<< 8) ||| (bitWord n.used <<< 9)
    ||| (n.sym.setWidth 64 <<< 16) ||| (n.left.setWidth 64 <<< 32) ||| (n.right.setWidth 64 <<< 48)

/-- The value of a register or window entry (10 R20 to R43); a reserved offset and entry 511 of the NODE window read 0. -/
def regValue (s : State) : Reg → Word
  | .id => idWord
  | .ctrl => ctrlWord s
  | .cmd => s.cmd
  | .status => statusWord s.busy s.status
  | .inBase => s.inBase
  | .inLen => s.inLen
  | .outBase => s.outBase
  | .outCap => s.outCap
  | .origLen => s.origLen
  | .payloadOff => s.payloadOff
  | .totalBits => s.totalBits
  | .totalBytes => s.totalBytes
  | .hdrLen => s.hdrLen
  | .result => s.result
  | .nsym => s.nsym.setWidth 64
  | .treeInfo => treeInfoWord s
  | .errInfo => s.errInfo
  | .hdrInfo => BitVec.ofNat 64 s.te.toNat
  | .hist b => s.hist[b]
  | .len b => s.len[b].setWidth 64
  | .code b w => codeWord s.code[b] w
  | .node i w => if h : i.val < 511 then nodeWord s.node[i.val] w else 0#64
  | .reserved => 0#64

/-- An entry of one of the four RAM windows (10 R20). -/
def Reg.inWindow : Reg → Bool
  | .hist _ | .len _ | .code _ _ | .node _ _ => true
  | .id | .ctrl | .cmd | .status | .inBase | .inLen | .outBase | .outCap | .origLen | .payloadOff | .totalBits | .totalBytes
  | .hdrLen | .result | .nsym | .treeInfo | .errInfo | .hdrInfo | .reserved => false

/-- STATUS as a read returns it while a command runs: EMPTY is in the write set, so that bit is unspecified (70 R323). -/
def busyStatusWord (s : State) : Word := statusWord true { s.status with empty := freeBool s.draws 0 }

/-- What a register read returns while command `i` runs (70 R323). -/
def busyValue (s : State) (i : Instr) (r : Reg) : Word :=
  if r = .status then busyStatusWord s
  else if r.inWindow || writesReg i r then Config.free 64 s.draws 0
  else regValue s r

/-- A register read (10 R21, 70 R310, R323). Reads have no side effect but on the model's own fields (20 R78(b)). -/
def readReg (s : State) (r : Reg) : State :=
  if s.rst then { s with rdData := Config.free 64 s.draws 0, draws := s.draws + 1 }
  else
    match s.running with
    | some run => { s with rdData := busyValue s run.cmd r, draws := s.draws + 1 }
    | none => { s with rdData := regValue s r }

/-! ### Register writes -/

/-- What CTRL.WORKERS stores for a written field: a legal value (10 R24). -/
def legalWorkers (w : Byte) : Byte :=
  if w = 0#8 then 1#8 else if w.toNat > Config.maxWorkers.toNat then Config.maxWorkers else w

/-- A CTRL write while idle (10 R23, 70 R312). -/
def writeCtrl (s : State) (v : Word) : State :=
  if v.getLsbD 63 then s.engineReset
  else { s with ie := v.getLsbD 0, workers := legalWorkers (v.extractLsb' 8 8) }

/-- A CMD write while idle: the command is accepted, or the word rejected as illegal (30 R104). -/
def issue (s : State) (w : Word) : State :=
  match Sys2Proof.decode w with
  | .ok i => s.accepted w i
  | .error _ => s.rejected w

/-- A register write while idle (10 R20, R21(a), (b)). -/
def writeIdle (s : State) (r : Reg) (v : Word) : State :=
  match r with
  | .ctrl => writeCtrl s v
  | .cmd => issue s v
  | .status => s.acknowledged v
  | .inBase => { s with inBase := v }
  | .inLen => { s with inLen := v }
  | .outBase => { s with outBase := v }
  | .outCap => { s with outCap := v }
  | .origLen => { s with origLen := v }
  | .payloadOff => { s with payloadOff := v }
  | .hist b => { s with hist := s.hist.set b.val v }
  | .len b => { s with len := s.len.set b.val (v.setWidth 8) }
  | .id | .totalBits | .totalBytes | .hdrLen | .result | .nsym | .treeInfo | .errInfo | .hdrInfo | .code _ _ | .node _ _
  | .reserved => s

/-- A register write while a command runs (70 R322, 30 R105). -/
def writeBusy (s : State) (r : Reg) (v : Word) : State :=
  if r = .status then s.acknowledged v else if r = .cmd then s.overrun else s.writeIgnored

/-- A register write (10 R21, 70 R310). -/
def writeReg (s : State) (r : Reg) (v : Word) : State :=
  if s.rst then s else if s.busy then writeBusy s r v else writeIdle s r v

/-! ### System memory and the reset input -/

/-- 20 R85 is broken for the running command. -/
def State.withRace (s : State) : State :=
  match s.running with
  | some run => { s with running := some { run with raced := true } }
  | none => s

/-- The host stores a byte (30 R110, WRM). A store to a region while a command runs breaks 20 R85. -/
def hostStore (s : State) (a : Word) (v : Byte) : State :=
  let t := { s with mem := s.mem.write a.toNat v }
  if s.busy && (inInput s a.toNat || inOutput s a.toNat) then t.withRace else t

/-- The host reads a byte; a byte of the output region is unspecified while a command runs (20 R84). -/
def hostLoad (s : State) (a : Word) : State :=
  if s.busy && inOutput s a.toNat then { s with memData := Config.free 8 s.draws 0, draws := s.draws + 1 }
  else { s with memData := s.mem.read a.toNat }

/-- A command abandoned by `rst` leaves each byte of its write set unspecified (70 R310), or every output byte when 20 R85 was broken. -/
def abandoned (s : State) : State :=
  match s.running with
  | none => s
  | some run =>
    if run.raced then s.unspecifiedOutput 0 s.outCap.toNat
    else s.unspecifiedOutput ((commandOf run.cmd).writeSet s).1 ((commandOf run.cmd).writeSet s).2

/-- The `rst` input takes a level (70 R310): from its assertion on the engine is in the reset state (log entry 15). -/
def resetInput (s : State) (level : Bool) : State :=
  if level then { (abandoned s).engineReset with rst := true }
  else if s.rst then { s.engineReset with rst := false }
  else s

/-- An access the register port does not take: not 8 bytes wide, or not 8-byte aligned (20 R76). -/
def badAccess (offset : BitVec 15) (width : Nat) : Bool := width != 8 || offset.toNat % 8 != 0

/-- One action of the host or the platform. A 1-byte host access inside the register window is a register-port access (20 R71). -/
def hostStep (a : HostAction) (s : State) : Host.Outcome State Fault Refusal :=
  match a with
  | .regWrite o w v => if badAccess o w then .fault (.hostAccess o.toNat w) else .next (writeReg s (regAt o) v)
  | .regRead o w => if badAccess o w then .fault (.hostAccess o.toNat w) else .next (readReg s (regAt o))
  | .memWrite x v => if inWindow x.toNat then .fault (.hostAccess (x.toNat - Config.mmioBase) 1) else .next (hostStore s x v)
  | .memRead x => if inWindow x.toNat then .fault (.hostAccess (x.toNat - Config.mmioBase) 1) else .next (hostLoad s x)
  | .rst l => .next (resetInput s l)
  | .deviceRegion => .next s.withRace

/-- The sequencer enters the next phase its run reaches, if there is one: only PHASE shows it (10 R29, 20 R87, 47 R261).
DESIGN CHOICE (log entry 29): the phases reached are computed from the state as it is at this step, for a raced command too, so a host
store to a region (a changed TE byte, say) changes which phase is shown next; R85 speaks of the outcome only. -/
def advancePhase (s : State) : State :=
  match s.running with
  | none => s
  | some run =>
    match (reached (commandOf run.cmd).plan s)[run.pos + 1]? with
    | none => s
    | some x => { s with
        running := some { run with pos := run.pos + 1 }
        status := { s.status with phase := x.1 } }

/-- The memory port's reply to the running command (20 R80). -/
def State.withReply (s : State) (reply : Option (Nat × Word)) : State :=
  match s.running with
  | some run => { s with running := some { run with reply := reply } }
  | none => s

/-! ### Host-program statements (30 R110, R111) -/

/-- `WR r, v`: one 64-bit register-port write. -/
def stmtWr (r : Reg) (v : Word) : Event := .host (.regWrite (offsetOf r) 8 v)

/-- `RD r`: one 64-bit register-port read. -/
def stmtRd (r : Reg) : Event := .host (.regRead (offsetOf r) 8)

/-- `WRM addr, bytes`: the host stores bytes at addr, addr+1 and so on (30 R110). DESIGN CHOICE (log entry 30): the address after
2^64 - 1 is 0; the spec does not say where a byte list that runs past the end of memory goes. -/
def stmtWrm (a : Word) : List Byte → List Event
  | [] => []
  | b :: bs => .host (.memWrite a b) :: stmtWrm (a + 1#64) bs

/-- `CMD m` is `WR CMD, enc(m)`. -/
def stmtCmd (i : Instr) : Event := stmtWr .cmd (Sys2Proof.encode i)

/-- `CLR` is `WR STATUS, 0x36`. -/
def stmtClr : Event := stmtWr .status 0x36#64

end Sys2Proof.Machine
end

