-- ==== Sys2Proof/Machine/Step.lean ====
section
/-!
DEFINITION. One step of the machine: the oldest pending action of the host, the platform or the sequencer; with nothing pending, the
sequencer completes the command that runs (00 R6, 20 R87; log entry 1).
-/
namespace Sys2Proof.Machine

/-- The sequencer's completion step; an idle sequencer waits for a CMD write (60 R284, 70 R311). -/
def sequence (s : State) : Host.Outcome State Fault Refusal :=
  match s.running with
  | some run => exec run.cmd s
  | none => .next s

/-- One step. -/
def step (s : State) : Host.Outcome State Fault Refusal :=
  match s.events with
  | [] => sequence s
  | .host a :: rest => hostStep a { s with events := rest }
  | .advance :: rest => .next (advancePhase { s with events := rest })
  | .complete reply :: rest => sequence ({ s with events := rest }.withReply reply)

/-- The state in which the next step runs the instruction the bits `w` are: a legal word accepted, as the host's CMD write would have
(30 R104), with nothing else pending; an illegal word as a pending CMD write, which the next step rejects (log entry 3). -/
def State.withFetchWord (s : State) (nbits w : Nat) : State :=
  match decodeTableWord nbits w with
  | some i => { s with rst := false, events := [] }.accepted (Sys2Proof.encode i) i
  | none => { s with rst := false, running := none, events := [.host (.regWrite (offsetOf .cmd) 8 (BitVec.ofNat 64 w))] }

end Sys2Proof.Machine
end

