-- ==== Sys2Proof/Machine/Parallel.lean ====
section
/-!
DEFINITION. The data-parallel phases as the N workers and the merge unit compute them (40 R120, R121, 43 R171, 44 R181 to R183, 46 R239).
The step uses the sequential functions; that these compute the same is a claim of the spec (20 R86, 44 R185, 46 R240).
-/
namespace Sys2Proof.Machine

/-- b[k] of `Part(L, N)` (40 R120). -/
def partBound (l n k : Nat) : Nat :=
  if k = 0 then 0 else if n ≤ k then l else Config.block * (k * l / n / Config.block)

/-- The input bytes worker k owns (40 R120). -/
def workerInput (xs : List Byte) (n k : Nat) : List Byte :=
  (xs.take (partBound xs.length n (k + 1))).drop (partBound xs.length n k)

/-- The final reduction of the workers' private histograms (40 R121). -/
def workersCount (xs : List Byte) (n : Nat) (b : Fin 256) : Nat :=
  ((List.range n).map fun k => byteCount (workerInput xs n k) b).sum

/-- t_k (43 R171). -/
def workerLen (len : Vector Byte 256) (xs : List Byte) (n k : Nat) : Nat := totalLen len (workerInput xs n k)

/-- The sum of the workers' t_k (43 R171). -/
def workersTotal (len : Vector Byte 256) (xs : List Byte) (n : Nat) : Nat :=
  ((List.range n).map fun k => workerLen len xs n k).sum

/-- The least offset of a byte without a code over all ranges (43 R171). -/
def workersUncoded (len : Vector Byte 256) (xs : List Byte) (n : Nat) : Option Nat :=
  ((List.range n).filterMap fun k =>
    (firstUncoded len (workerInput xs n k)).map fun o => partBound xs.length n k + o).min?

/-- off_k, the starting bit offset of worker k (44 R181). -/
def workerOffset (len : Vector Byte 256) (xs : List Byte) (n k : Nat) : Nat :=
  ((List.range k).map fun j => workerLen len xs n j).sum

/-- The bits worker k writes (44 R182). -/
def workerBits (s : State) (xs : List Byte) (n k : Nat) : List Bool := codeStream s (workerInput xs n k)

/-- Payload byte j is interior to worker k (44 R182). -/
def interiorTo (s : State) (xs : List Byte) (n j k : Nat) : Bool :=
  decide (workerOffset s.len xs n k ≤ 8 * j) && decide (8 * j + 8 ≤ workerOffset s.len xs n (k + 1))

/-- The byte worker k writes at an interior payload byte j (44 R182). -/
def interiorByte (s : State) (xs : List Byte) (n j k : Nat) : Byte :=
  packByte ((workerBits s xs n k).drop (8 * j - workerOffset s.len xs n k))

/-- Bit `8j + q` of the stream as worker k stages it: 0 outside its own range (44 R183). -/
def stagedBit (s : State) (xs : List Byte) (n j k q : Nat) : Bool :=
  if workerOffset s.len xs n k ≤ 8 * j + q ∧ 8 * j + q < workerOffset s.len xs n (k + 1) then
    (workerBits s xs n k).getD (8 * j + q - workerOffset s.len xs n k) false
  else false

/-- The partial byte worker k stages for boundary byte j (44 R183). -/
def stagedByte (s : State) (xs : List Byte) (n j k : Nat) : Byte :=
  packByte ((List.range 8).map fun q => stagedBit s xs n j k q)

/-- The merge unit's byte: the bitwise OR of the staged partial bytes (44 R183). -/
def mergedByte (s : State) (xs : List Byte) (n j : Nat) : Byte :=
  (List.range n).foldl (fun v k => v ||| stagedByte s xs n j k) 0#8

/-- Payload byte j as it is written: by the worker it is interior to, or by the merge unit (44 R182, R183). -/
def parallelByte (s : State) (xs : List Byte) (n j : Nat) : Byte :=
  match (List.range n).find? fun k => interiorTo s xs n j k with
  | some k => interiorByte s xs n j k
  | none => mergedByte s xs n j

/-- The payload as N workers and the merge unit write it (44 R181 to R183). -/
def parallelPayload (s : State) (xs : List Byte) (n : Nat) : List Byte :=
  (List.range (ceilDiv (workersTotal s.len xs n) 8)).map fun j => parallelByte s xs n j

/-- The segments of a parallel decode (46 R239): `ms` are the symbol counts between sync points, and each segment decodes from the bits
and the output offset its sync point gives. -/
def decodeSegments (node : Vector Node 511) (root : Index) :
    List Nat → Nat → List Bool → Except Raise (List Byte × List Bool)
  | [], _, bits => .ok ([], bits)
  | m :: ms, k, bits =>
    match decodeSymbols node root m k bits with
    | .error e => .error e
    | .ok (bs, rest) =>
      match decodeSegments node root ms (k + m) rest with
      | .error e => .error e
      | .ok (cs, left) => .ok (bs ++ cs, left)

end Sys2Proof.Machine
end

