-- ==== Sys2Proof/Safety.lean ====
section
/-!
DEFINITION. The terms claims are stated in: an undisturbed completion, the invariant of the whole machine, the arena's well-formedness,
and the outcomes of a command written as functions of the state it starts from.
-/
namespace Sys2Proof.Machine

/-- The completion of a command that neither a broken 20 R85 nor a fault reply of the memory port touches. -/
def State.undisturbed (s : State) : Bool := !s.raced && s.reply.isNone

/-- The engine's state is the reset state (70 R311): every field but memory, the inputs and the model's own. -/
def State.isReset (s : State) : Prop := s = s.engineReset

/-- What the pending-command latch says of the registers (10 R25, R28): CMD and OPC hold the command's word, the command has not
ended, and RESULT and ERRINFO are cleared. -/
def State.latchOk (s : State) : Prop :=
  ∀ run, s.running = some run →
    s.cmd = Sys2Proof.encode run.cmd ∧ s.status.opc = wordOpc s.cmd ∧ s.status.done = false ∧ s.status.err = false
      ∧ s.status.errCode = .none ∧ s.status.phase ≠ .idle ∧ s.result = 0#64 ∧ s.errInfo = 0#64
      ∧ 1 ≤ run.workers.toNat ∧ run.workers.toNat ≤ Config.maxWorkers.toNat

/-- What STATUS may show (10 R26, R28, 60 R280): a success and a failure exclude each other, and a success has no error code. -/
def State.statusOk (s : State) : Prop :=
  (s.status.done && s.status.err) = false ∧ (s.status.done = true → s.status.errCode = .none ∧ s.status.phase = .idle)

/-- The invariant of the machine: memory is canonical, WORKERS is legal (10 R24), STATUS and the latch agree, and while `rst` is
asserted the engine is in the reset state (70 R310). -/
def State.Inv (s : State) : Prop :=
  s.mem.wf = true ∧ 1 ≤ s.workers.toNat ∧ s.workers.toNat ≤ Config.maxWorkers.toNat ∧ s.latchOk ∧ s.statusOk
    ∧ (s.rst = true → s.isReset)

/-- Two states have the same registers and RAMs that only their own commands write, but for the named ones (the frame of a command):
`keep r` says r is unchanged. -/
def sameRegs (keep : Reg → Bool) (s t : State) : Prop :=
  t.ie = s.ie ∧ t.workers = s.workers ∧ t.cmd = s.cmd ∧ t.inBase = s.inBase ∧ t.inLen = s.inLen ∧ t.outBase = s.outBase
    ∧ t.outCap = s.outCap
    ∧ (keep .origLen = true → t.origLen = s.origLen)
    ∧ (keep .payloadOff = true → t.payloadOff = s.payloadOff)
    ∧ (keep .totalBits = true → t.totalBits = s.totalBits)
    ∧ (keep .totalBytes = true → t.totalBytes = s.totalBytes)
    ∧ (keep .hdrLen = true → t.hdrLen = s.hdrLen)
    ∧ (keep .nsym = true → t.nsym = s.nsym)
    ∧ (keep .treeInfo = true → t.root = s.root ∧ t.nnodes = s.nnodes)
    ∧ (keep .hdrInfo = true → t.te = s.te)
    ∧ (∀ b, keep (.hist b) = true → t.hist[b] = s.hist[b])
    ∧ (∀ b, keep (.len b) = true → t.len[b] = s.len[b])
    ∧ (∀ b w, keep (.code b w) = true → t.code[b] = s.code[b])
    ∧ (∀ (i : Fin 511) w, keep (.node (Fin.castLE (by decide) i) w) = true → t.node[i] = s.node[i])

/-- The STATUS fields no completion touches (10 R28): OVR, WIGN and OPC; and the inputs. -/
def sameRest (s t : State) : Prop :=
  t.status.ovr = s.status.ovr ∧ t.status.wign = s.status.wign ∧ t.status.opc = s.status.opc ∧ t.rst = s.rst
    ∧ t.events = s.events ∧ t.rdData = s.rdData ∧ t.memData = s.memData

/-- The regions pass RegionCheck (20 R73). -/
def regionsOk (useIn useOut : Bool) (s : State) : Bool :=
  !(useIn && inWraps s) && !(useOut && outWraps s) && !(useIn && useOut && regionsOverlap s)

/-- Entry i of the arena is in use (10 R43). -/
def usedAt (s : State) (i : Nat) : Prop := (nodeAt s.node (BitVec.ofNat 9 i)).used = true

/-- 10 R44(a), (b): the entries below NNODES are in use and the others all-zero, and ROOT is 0x1FF exactly when NNODES is 0. -/
def State.arenaFilled (s : State) : Prop :=
  (∀ i, i < s.nnodes.toNat → usedAt s i)
    ∧ (∀ i : Fin 511, s.nnodes.toNat ≤ i.val → s.node[i] = Node.empty)
    ∧ (s.root = noNode ↔ s.nnodes = 0#9)

/-- A LEFT or RIGHT value names no child or an entry in use (10 R44(c)). -/
def State.childOk (s : State) (c : Index) : Prop := c = noNode ∨ c.toNat < s.nnodes.toNat

/-- 10 R44(c), first sentence. -/
def State.arenaLinked (s : State) : Prop :=
  ∀ i : Fin 511, i.val < s.nnodes.toNat → s.childOk s.node[i].left ∧ s.childOk s.node[i].right

/-- 10 R44(d): a node in use is a leaf, or has two children and the sum of their weights. -/
def State.arenaStrict (s : State) : Prop :=
  ∀ i : Fin 511, i.val < s.nnodes.toNat → s.node[i].leaf = false →
    s.node[i].left ≠ noNode ∧ s.node[i].right ≠ noNode
      ∧ s.node[i].weight.toNat
        = (nodeAt s.node s.node[i].left).weight.toNat + (nodeAt s.node s.node[i].right).weight.toNat

/-- No code of the table is a prefix of another byte's code (42 R156). -/
def codesPrefixFree (s : State) : Prop :=
  ∀ a b : Fin 256, a ≠ b → s.len[a] ≠ 0#8 → s.len[b] ≠ 0#8 → ¬ codeWordBits s a <+: codeWordBits s b

/-- The `r` bytes of a region's start (the stream a COMPRESS left at OUT_BASE, 47 R268). -/
def State.outBytes (s : State) (r : Nat) : List Byte := s.mem.readBytes s.outBase.toNat r

/-- 10 R44(c), second sentence: every entry in use but ROOT is the child of exactly one entry in use. -/
def State.arenaTree (s : State) : Prop :=
  ∀ j, j < s.nnodes.toNat → BitVec.ofNat 9 j ≠ s.root →
    ∃! x : Fin 511 × Bool, x.1.val < s.nnodes.toNat ∧ s.node[x.1].child x.2 = BitVec.ofNat 9 j

/-- 10 R44(e): a tree made by CTREE has weights of 0. -/
def State.arenaWeightless (s : State) : Prop := ∀ i : Fin 511, s.node[i].weight = 0#72

/-- 10 R44(a) to (c). -/
def State.arenaOk (s : State) : Prop := s.arenaFilled ∧ s.arenaLinked ∧ s.arenaTree

/-- The walk of 46 R231: bit 0 moves to LEFT and bit 1 to RIGHT; it goes on from no leaf and to no missing child. -/
def followPath (node : Vector Node 511) : Index → List Bool → Option Index
  | i, [] => some i
  | i, c :: cs =>
    if (nodeAt node i).leaf || (nodeAt node i).child c == noNode then none
    else followPath node ((nodeAt node i).child c) cs

/-- The bits lead from ROOT to a leaf of byte `b` (46 R231). -/
def leadsTo (s : State) (p : List Bool) (b : Fin 256) : Prop :=
  s.root ≠ noNode ∧ ∃ i, followPath s.node s.root p = some i ∧ (nodeAt s.node i).leaf = true
    ∧ (nodeAt s.node i).sym.toNat = b.val

/-- The bits lead from ROOT to the sentinel's leaf (46 R237). -/
def leadsToSentinel (s : State) (p : List Bool) : Prop :=
  s.root ≠ noNode ∧ ∃ i, followPath s.node s.root p = some i ∧ (nodeAt s.node i).leaf = true
    ∧ (nodeAt s.node i).sym = 256#9

/-- The bits lead from ROOT to a child that is missing (46 R236). -/
def leadsNowhere (s : State) (p : List Bool) : Prop :=
  s.root ≠ noNode ∧ ∃ q c i, p = q ++ [c] ∧ followPath s.node s.root q = some i ∧ (nodeAt s.node i).leaf = false
    ∧ (nodeAt s.node i).child c = noNode

/-- Every path from ROOT has at most 510 edges, as in every arena without a cycle: a path of 511 edges meets a node twice. -/
def State.acyclic (s : State) : Prop := ∀ p : List Bool, p.length = 511 → followPath s.node s.root p = none

/-- The traversal of 42 R150, LEFT before RIGHT, visits path `q` before path `p`: where they part, `q` goes LEFT. -/
def visitedBefore (q p : List Bool) : Prop := ∃ r x y, q = r ++ false :: x ∧ p = r ++ true :: y

/-- Entry j waits in BUILD's queue when entry i is made: it stands before i and no entry before i has taken it as a child (41 R133). -/
def State.queuedAt (s : State) (i j : Nat) : Prop :=
  j < i ∧ ∀ k : Fin 511, k.val < i → s.node[k].left.toNat ≠ j ∧ s.node[k].right.toNat ≠ j

/-- The queue key of entry x comes before that of entry y (41 R132). -/
def State.keyBefore (s : State) (x y : Nat) : Prop :=
  (nodeAt s.node (BitVec.ofNat 9 x)).weight.toNat < (nodeAt s.node (BitVec.ofNat 9 y)).weight.toNat
    ∨ ((nodeAt s.node (BitVec.ofNat 9 x)).weight = (nodeAt s.node (BitVec.ofNat 9 y)).weight ∧ x < y)

/-- The number of byte values with a nonzero count. -/
def histSymbols (s : State) : Nat := s.hist.toList.countP fun h => h != 0#64

/-- The number of byte values with a code. -/
def codedSymbols (s : State) : Nat := s.len.toList.countP fun l => l != 0#8

/-- The lengths CANON accepts (42 R155). -/
def lengthsOk (s : State) : Prop :=
  codedSymbols s = 0
    ∨ (codedSymbols s = 1 ∧ ∀ l ∈ s.len.toList, l ≠ 0#8 → l = 1#8)
    ∨ (2 ≤ codedSymbols s
        ∧ (s.len.toList.map fun l => if l = 0#8 then 0 else 2 ^ (255 - l.toNat)).sum = 2 ^ 255)

/-- The order of the key (LEN[b], b) (42 R153). -/
def canonBefore (s : State) (a b : Fin 256) : Prop := s.len[a].toNat < s.len[b].toNat ∨ (s.len[a] = s.len[b] ∧ a < b)

/-- The number a byte's code word is (42 R153). -/
def codeNumber (s : State) (b : Fin 256) : Nat := bitsValue (codeWordBits s b)

/-- The CODE table is the canonical assignment to the LEN table (42 R153, R154): no code without a length, every code the left-aligned
numeral of its number, the first number 0 and each next one the number before plus one, shifted left by the increase in length. -/
def State.canonicalCodes (s : State) : Prop :=
  (∀ b : Fin 256, s.len[b] = 0#8 → s.code[b] = 0#256)
    ∧ (∀ b : Fin 256, s.len[b] ≠ 0#8 → s.code[b] = BitVec.ofNat 256 (codeNumber s b * 2 ^ (256 - s.len[b].toNat)))
    ∧ (∀ b : Fin 256, s.len[b] ≠ 0#8 → (∀ a : Fin 256, s.len[a] ≠ 0#8 → a ≠ b → canonBefore s b a) → codeNumber s b = 0)
    ∧ (∀ a b : Fin 256, s.len[a] ≠ 0#8 → s.len[b] ≠ 0#8 → canonBefore s a b →
        (∀ c : Fin 256, s.len[c] ≠ 0#8 → canonBefore s a c → c = b ∨ canonBefore s b c) →
        codeNumber s b = (codeNumber s a + 1) * 2 ^ (s.len[b].toNat - s.len[a].toNat))

/-- The nodes of the trie of the codes of the given bytes: one for each distinct prefix of a code (46 R233). -/
def trieNodes (s : State) (bs : List (Fin 256)) : Nat := (bs.flatMap fun b => (codeWordBits s b).inits).dedup.length

/-- The codes of the given bytes can all be placed (46 R232): none is equal to or a prefix of another's, and the arena is not
exhausted. -/
def placeable (s : State) (bs : List (Fin 256)) : Prop :=
  (∀ a ∈ bs, ∀ b ∈ bs, a ≠ b → ¬ codeWordBits s a <+: codeWordBits s b) ∧ trieNodes s bs ≤ 511

/-- The bytes with a code that are below `b`, ascending. -/
def codedBelow (s : State) (b : Nat) : List (Fin 256) := (List.finRange 256).filter fun a => s.len[a] != 0#8 && decide (a.val < b)

/-- DERIVE(tm), WRHDR(tm) and COMPRESS(tm): the two commands of a TM pair (30 R101, R103). -/
def deriveOf : TableMode → Instr
  | .freq => .derive
  | .canon => .deriveC

/-- WRHDR(tm). -/
def wrhdrOf : TableMode → Instr
  | .freq => .wrhdr
  | .canon => .wrhdrC

/-- COMPRESS(tm). -/
def compressOf : TableMode → Instr
  | .freq => .compress
  | .canon => .compressC

/-- useIn of RegionCheck (20 R73): the commands that read the input region. -/
def usesIn : Instr → Bool
  | .hist | .estimate | .encode | .parsehdr | .decode | .compress | .compressC | .decompress => true
  | .build | .derive | .deriveC | .canon | .ctree | .wrhdr | .wrhdrC => false

/-- useOut of RegionCheck (20 R73): the commands that write the output region. -/
def usesOut : Instr → Bool
  | .encode | .wrhdr | .wrhdrC | .decode | .compress | .compressC | .decompress => true
  | .hist | .build | .derive | .deriveC | .canon | .ctree | .estimate | .parsehdr => false

/-- The phases of a command, in order (30 R103, 47 R261, R266; DECODE's two CHECK phases 46 R236, log entry 31); `te` is the header's table
encoding, which only DECOMPRESS follows. -/
def phaseSeq (te : TableMode) : Instr → List Phase
  | .hist => [.check, .hist]
  | .build => [.build]
  | .derive => [.derive]
  | .deriveC => [.derive, .canon]
  | .canon => [.canon]
  | .ctree => [.ctree]
  | .estimate => [.check, .estimate]
  | .encode => [.check, .encode]
  | .wrhdr | .wrhdrC => [.check, .wrhdr]
  | .parsehdr => [.check, .parsehdr]
  | .decode => [.check, .check, .decode]
  | .compress => [.check, .hist, .build, .derive, .estimate, .check, .wrhdr, .encode]
  | .compressC => [.check, .hist, .build, .derive, .canon, .estimate, .check, .wrhdr, .encode]
  | .decompress => match te with
    | .freq => [.check, .parsehdr, .build, .check, .decode]
    | .canon => [.check, .parsehdr, .canon, .ctree, .check, .decode]

/-- The header's entries and original length are those of a valid header (45 R211). -/
def validEntries (te : TableMode) (olen : Nat) (es : List (Nat × Nat)) : Prop :=
  es.Pairwise (fun x y => x.1 < y.1) ∧ olen < 2 ^ 64
    ∧ (∀ e ∈ es, e.1 < 256 ∧ 0 < e.2 ∧ e.2 < (match te with | .freq => 2 ^ 64 | .canon => 256))
    ∧ (match te with
      | .freq => (es.map Prod.snd).sum = olen
      | .canon => (es = [] ↔ olen = 0) ∧ (es.length = 1 → es.map Prod.snd = [1])
          ∧ (2 ≤ es.length → (es.map fun e => 2 ^ (255 - e.2)).sum = 2 ^ 255))

/-- The bytes at the input's start are MAGIC and VERSION (45 R200). -/
def magicOk (s : State) : Prop :=
  ∀ o, o < 5 → o < s.inLen.toNat ∧ inByte s o = [0x48#8, 0x55#8, 0x46#8, 0x5A#8, 0x01#8].getD o 0#8

/-- The little-endian number in the `n` input bytes from offset `o` on (45 R201). -/
def inNumber (s : State) (o n : Nat) : Nat := ((List.range n).map fun q => (inByte s (o + q)).toNat * 256 ^ q).sum

/-- The value of the header entry at offset `o` (45 R200): a FREQ entry's frequency, a CANON entry's length. -/
def entryAt (te : TableMode) (s : State) (o : Nat) : Nat :=
  match te with
  | .freq => inNumber s (o + 1) 8
  | .canon => inNumber s (o + 1) 1

/-- Entry k of the header is well-formed (45 R211): its byte is above the one before it, and its value is not 0. -/
def entryOk (te : TableMode) (s : State) (k : Nat) : Prop :=
  (k = 0 ∨ (inByte s (16 + entrySize te * (k - 1))).toNat < (inByte s (16 + entrySize te * k)).toNat)
    ∧ entryAt te s (16 + entrySize te * k) ≠ 0

/-- The state a phase returns; its own start where it raises. -/
def afterPhase (f : State → Except Raise State) (s : State) : State :=
  match f s with
  | .ok t => t
  | .error _ => s

/-- The state after the phases HIST, BUILD, DERIVE(tm) and, with TM = 1, CANON: the tables COMPRESS(tm) codes the input with
(47 R260). -/
def compressTables (tm : TableMode) (s : State) : State :=
  match tm with
  | .freq => afterPhase (phaseDerive .freq) (afterPhase phaseBuild (afterPhase phaseHist s))
  | .canon => afterPhase phaseCanon (afterPhase (phaseDerive .canon) (afterPhase phaseBuild (afterPhase phaseHist s)))

/-- The code table a valid header stands for (47 R266): FREQ, the tree-path codes of the tree of its counts; CANON, the canonical
codes of its lengths. -/
def headerTables (te : TableMode) (es : List (Nat × Nat)) (s : State) : State :=
  match te with
  | .freq => afterPhase (phaseDerive .freq) (afterPhase phaseBuild (parsedState .freq es s))
  | .canon => afterPhase phaseCanon (parsedState .canon es s)

/-- A successful completion of a run begun in `s` (10 R28): BUSY 0, DONE 1, PHASE 0 and RESULT; ERRINFO, ERRCODE and the other STATUS
fields as they were, EMPTY as given. -/
def doneWith (s t : State) (empty : Bool) (result : Word) : Prop :=
  t.running = none ∧ t.result = result ∧ t.errInfo = s.errInfo
    ∧ t.status = { s.status with done := true, phase := .idle, empty := empty }

/-- A failed completion of a run begun in `s` (10 R28, 60 R284(4)), in phase `p`, with an error code and its information. -/
def failedWith (s t : State) (p : Phase) (code : ErrCode) (info : Word) : Prop :=
  t.running = none ∧ t.result = 0#64 ∧ t.errInfo = info
    ∧ t.status = { s.status with err := true, errCode := code, phase := p, empty := t.status.empty }

/-- The command is accepted, its regions holding no address of the register window (30 R104, 20 R71). -/
def State.latched (s : State) (i : Instr) : State :=
  { s.accepted (Sys2Proof.encode i) i with running := some ⟨i, s.workers, false, none, 0⟩ }

/-- Two states hold the same registers and RAMs, ERRINFO among them, but for CMD, STATUS and RESULT, and the same memory (47 R264). -/
def sameArch (s t : State) : Prop :=
  sameRegs (fun _ => true) { s with cmd := t.cmd } t ∧ t.errInfo = s.errInfo ∧ t.mem = s.mem

/-- The command, accepted in `s`, completes with DONE in `t`. -/
def completesTo (i : Instr) (s t : State) : Prop :=
  exec i (s.latched i) = .next t ∧ t.status.done = true ∧ t.status.err = false

/-- The commands, each accepted in the state the one before it left, complete with DONE one after another (47 R264). -/
def completeInTurn : List Instr → State → State → Prop
  | [], s, t => t = s
  | i :: is, s, t => ∃ u, completesTo i s u ∧ completeInTurn is u t

/-- The stepwise sequence of COMPRESS(tm) (47 R264). -/
def stepwise (tm : TableMode) : List Instr := [.hist, .build, deriveOf tm, .estimate, wrhdrOf tm, .encode]

/-- What 47 R264 says of the state `t` a COMPRESS leaves and the state `u` the stepwise sequence leaves. -/
def stepwiseAgree (t u : State) : Prop :=
  sameArch t u ∧ t.result = t.hdrLen + t.totalBytes ∧ u.result = u.totalBytes ∧ u.cmd = Sys2Proof.encode .encode
    ∧ u.status.opc = 0x07#8 ∧ u.status.empty = false

end Sys2Proof.Machine
end

