-- ==== Sys2Proof/Certificates/Slice0/Obligations.lean ====
section
/-!
DEFINITION. The statements for the provers, one def each, in the order of OBLIGATIONS.json. Each docstring names the rules of spec/ it
formalises. None is about a program.
-/
open Sys2Proof Sys2Proof.Machine

/-! ### Encoding -/

/-- 30 R100 to R111: words written out from the spec's fields decode to their commands, and words of each clause of R106 are refused by
name. -/
def Obligations.SpecWordsDecode : Prop :=
  (decode 0x001#64 = .ok .hist ∧ decode 0x002#64 = .ok .build ∧ decode 0x003#64 = .ok .derive ∧ decode 0x103#64 = .ok .deriveC
      ∧ decode 0x004#64 = .ok .canon ∧ decode 0x005#64 = .ok .ctree ∧ decode 0x006#64 = .ok .estimate
      ∧ decode 0x007#64 = .ok .encode ∧ decode 0x008#64 = .ok .wrhdr ∧ decode 0x108#64 = .ok .wrhdrC
      ∧ decode 0x009#64 = .ok .parsehdr ∧ decode 0x00A#64 = .ok .decode ∧ decode 0x00B#64 = .ok .compress
      ∧ decode 0x10B#64 = .ok .compressC ∧ decode 0x00C#64 = .ok .decompress)
    ∧ decode 0x000#64 = .error .zeroOpcode ∧ decode 0x00D#64 = .error .unassignedOpcode
    ∧ decode 0x101#64 = .error .tmNotDefined ∧ decode 0x200#64 = .error .zeroOpcode ∧ decode 0x201#64 = .error .reservedBits
    ∧ decode 0x8000000000000001#64 = .error .reservedBits

/-- 30 R103, R108, R111, 20 R74(c): the decoder on byte lanes and the encoder agree, for every command and every list of lanes: lanes
decode to a command exactly when they are the eight little-endian lanes of its word, and a word decodes to it exactly when it is it. -/
def Obligations.DecodeEncodeAgree : Prop :=
  (∀ i : Instr, decodeLanes (wordLanes (encode i)) = .ok i)
    ∧ (∀ (bs : List Byte) (i : Instr), decodeLanes bs = .ok i → bs = wordLanes (encode i))
    ∧ (∀ (w : Word) (i : Instr), decode w = .ok i ↔ w = encode i)
    ∧ (∀ w : Word, decodeLanes (wordLanes w) = decode w)

/-- 30 R106: a word is illegal exactly when one of (a) to (d) holds, is then handled as R104's illegal branch, and every other word
matches exactly one row of R103. -/
def Obligations.IllegalWords : Prop :=
  ∀ (w : Word),
    let illegal := w.extractLsb' 0 8 = 0x00#8 ∨ 0x0D ≤ (w.extractLsb' 0 8).toNat
      ∨ (w.getLsbD 8 = true ∧ w.extractLsb' 0 8 ≠ 0x03#8 ∧ w.extractLsb' 0 8 ≠ 0x08#8 ∧ w.extractLsb' 0 8 ≠ 0x0B#8)
      ∨ ∃ k, 9 ≤ k ∧ k < 64 ∧ w.getLsbD k = true
    (illegal → (∃ e, decode w = .error e) ∧ ∀ s : State, s.rst = false → s.running = none → writeReg s .cmd w = s.rejected w)
      ∧ (¬ illegal → ∃! r, r ∈ opcodeRows ∧ w &&& r.mask = r.pattern)

/-! ### The register port -/

/-- 10 R20: the register map. Each of the 18 registers and each entry of the four windows is at the offset R20 and R40 to R43 give it; every
register and window entry sits at its own multiple of 8, and every other multiple of 8 is a reserved offset: those of 0x090-0x7FF,
0x1800-0x1FFF and 0x6000-0x7FFF. -/
def Obligations.RegisterMap : Prop :=
  ([0x000#15, 0x008#15, 0x010#15, 0x018#15, 0x020#15, 0x028#15, 0x030#15, 0x038#15, 0x040#15, 0x048#15, 0x050#15, 0x058#15, 0x060#15,
      0x068#15, 0x070#15, 0x078#15, 0x080#15, 0x088#15].map regAt
    = [.id, .ctrl, .cmd, .status, .inBase, .inLen, .outBase, .outCap, .origLen, .payloadOff, .totalBits, .totalBytes, .hdrLen, .result,
      .nsym, .treeInfo, .errInfo, .hdrInfo])
    ∧ (∀ b : Fin 256, regAt (BitVec.ofNat 15 (0x0800 + 8 * b.val)) = .hist b
        ∧ regAt (BitVec.ofNat 15 (0x1000 + 8 * b.val)) = .len b
        ∧ ∀ w : Fin 4, regAt (BitVec.ofNat 15 (0x2000 + 32 * b.val + 8 * w.val)) = .code b w)
    ∧ (∀ (i : Fin 512) (w : Fin 2), regAt (BitVec.ofNat 15 (0x4000 + 16 * i.val + 8 * w.val)) = .node i w)
    ∧ (∀ r : Reg, (offsetOf r).toNat % 8 = 0 ∧ regAt (offsetOf r) = r)
    ∧ (∀ o : BitVec 15, o.toNat % 8 = 0 → regAt o ≠ .reserved → offsetOf (regAt o) = o)
    ∧ (∀ o : BitVec 15, o.toNat % 8 = 0 → (regAt o = .reserved ↔
        (0x090 ≤ o.toNat ∧ o.toNat ≤ 0x7FF) ∨ (0x1800 ≤ o.toNat ∧ o.toNat ≤ 0x1FFF) ∨ 0x6000 ≤ o.toNat))

/-- 10 R26: each field of STATUS at its bits, the reserved bits 0, as a read of offset 0x018 returns it while idle. -/
def Obligations.StatusFields : Prop :=
  ∀ (s : State), s.rst = false → s.running = none →
    ∃ v : Word, hostStep (.regRead 0x018#15 8) s = .next { s with rdData := v }
      ∧ v.getLsbD 0 = false ∧ v.getLsbD 1 = s.status.done ∧ v.getLsbD 2 = s.status.err ∧ v.getLsbD 3 = s.status.empty
      ∧ v.getLsbD 4 = s.status.ovr ∧ v.getLsbD 5 = s.status.wign ∧ v.extractLsb' 6 2 = 0#2
      ∧ v.extractLsb' 8 8 = s.status.errCode.toByte ∧ v.extractLsb' 16 8 = s.status.opc
      ∧ v.extractLsb' 24 8 = s.status.phase.toByte ∧ v.extractLsb' 32 32 = 0#32

/-- 10 R42, R43: the CODE window shows bit k of a code in word k div 64 at position 63 - (k mod 64), and the NODE window shows the fields
of an arena entry at their bits; entry 511 of the NODE window reads 0. 10 R22 to R25, R30 to R41, R21(a): what an idle read returns of every
other register but STATUS (StatusFields), of the HIST and LEN windows, and of a reserved offset, the reserved bits 0. A read changes
nothing but the model's own record of what it returned (log entry 17). -/
def Obligations.CodeAndNodeWindows : Prop :=
  ∀ (s : State), s.rst = false → s.running = none →
    let reads := fun (o : BitVec 15) (v : Word) => hostStep (.regRead o 8) s = .next { s with rdData := v }
    (∃ v : Word, reads 0x000#15 v ∧ v.extractLsb' 0 32 = 0x4855465A#32 ∧ v.extractLsb' 32 8 = 0x01#8
        ∧ v.extractLsb' 40 8 = Config.maxWorkers ∧ v.extractLsb' 48 16 = 0#16)
    ∧ (∃ v : Word, reads 0x008#15 v ∧ v.getLsbD 0 = s.ie ∧ v.extractLsb' 1 7 = 0#7 ∧ v.extractLsb' 8 8 = s.workers
        ∧ v.extractLsb' 16 48 = 0#48)
    ∧ reads 0x010#15 s.cmd ∧ reads 0x020#15 s.inBase ∧ reads 0x028#15 s.inLen ∧ reads 0x030#15 s.outBase ∧ reads 0x038#15 s.outCap
    ∧ reads 0x040#15 s.origLen ∧ reads 0x048#15 s.payloadOff ∧ reads 0x050#15 s.totalBits ∧ reads 0x058#15 s.totalBytes
    ∧ reads 0x060#15 s.hdrLen ∧ reads 0x068#15 s.result ∧ reads 0x080#15 s.errInfo
    ∧ (∃ v : Word, reads 0x070#15 v ∧ v.extractLsb' 0 9 = s.nsym ∧ v.extractLsb' 9 55 = 0#55)
    ∧ (∃ v : Word, reads 0x078#15 v ∧ v.extractLsb' 0 9 = s.root ∧ v.extractLsb' 9 7 = 0#7 ∧ v.extractLsb' 16 9 = s.nnodes
        ∧ v.extractLsb' 25 39 = 0#39)
    ∧ reads 0x088#15 (match s.te with
        | .freq => 0#64
        | .canon => 1#64)
    ∧ (∀ b : Fin 256, reads (BitVec.ofNat 15 (0x0800 + 8 * b.val)) s.hist[b])
    ∧ (∀ b : Fin 256, ∃ v : Word, reads (BitVec.ofNat 15 (0x1000 + 8 * b.val)) v ∧ v.extractLsb' 0 8 = s.len[b]
        ∧ v.extractLsb' 8 56 = 0#56)
    ∧ (∀ o : BitVec 15, o.toNat % 8 = 0 →
        ((0x090 ≤ o.toNat ∧ o.toNat ≤ 0x7FF) ∨ (0x1800 ≤ o.toNat ∧ o.toNat ≤ 0x1FFF) ∨ 0x6000 ≤ o.toNat) → reads o 0#64)
    ∧ (∀ (b : Fin 256) (w : Fin 4), ∃ v : Word,
      hostStep (.regRead (BitVec.ofNat 15 (0x2000 + 32 * b.val + 8 * w.val)) 8) s = .next { s with rdData := v }
        ∧ ∀ k, k < 256 → k / 64 = w.val →
            v.getLsbD (63 - k % 64) = s.code[b].getMsbD k
              ∧ (k < s.len[b].toNat → (codeWordBits s b)[k]? = some (v.getLsbD (63 - k % 64))))
    ∧ (∀ i : Fin 511, ∃ v0 v1 : Word,
      hostStep (.regRead (BitVec.ofNat 15 (0x4000 + 16 * i.val)) 8) s = .next { s with rdData := v0 }
        ∧ hostStep (.regRead (BitVec.ofNat 15 (0x4000 + 16 * i.val + 8)) 8) s = .next { s with rdData := v1 }
        ∧ v0 = s.node[i].weight.extractLsb' 0 64 ∧ v1.extractLsb' 0 8 = s.node[i].weight.extractLsb' 64 8
        ∧ v1.getLsbD 8 = s.node[i].leaf ∧ v1.getLsbD 9 = s.node[i].used ∧ v1.extractLsb' 16 9 = s.node[i].sym
        ∧ v1.extractLsb' 32 9 = s.node[i].left ∧ v1.extractLsb' 48 9 = s.node[i].right
        ∧ v1.extractLsb' 10 6 = 0#6 ∧ v1.extractLsb' 25 7 = 0#7 ∧ v1.extractLsb' 41 7 = 0#7 ∧ v1.extractLsb' 57 7 = 0#7)
    ∧ hostStep (.regRead 0x5FF0#15 8) s = .next { s with rdData := 0#64 }
    ∧ hostStep (.regRead 0x5FF8#15 8) s = .next { s with rdData := 0#64 }

/-- 30 R104, 10 R28: a CMD write while idle. A word of the map is accepted and latched with N, and any other word is rejected, no phase
runs and nothing but the named registers changes. The model's form, not R104's words: the latch holds the decoded command (log entry 25),
marked as raced when a region then contains addresses of the register window (20 R71; log entry 27); and that the next step runs the
command's rule when nothing is pending is the event list's convention (log entry 1, DESIGN CHOICE). -/
def Obligations.IssueCommand : Prop :=
  ∀ (s : State) (w : Word), s.rst = false → s.running = none →
    (∀ i, decode w = .ok i → ∃ t, hostStep (.regWrite 0x010#15 8 w) s = .next t
      ∧ t = { s with
          cmd := w, result := 0#64, errInfo := 0#64
          running := some ⟨i, s.workers, s.regionsTouchWindow, none, 0⟩
          status := { s.status with
            done := false, err := false, empty := false, errCode := .none, opc := w.extractLsb' 0 8, phase := firstPhase i } }
      ∧ (s.events = [] → step t = exec i t))
    ∧ (∀ e, decode w = .error e →
      hostStep (.regWrite 0x010#15 8 w) s = .next { s with
        cmd := w, result := 0#64, errInfo := w
        status := { s.status with
          done := false, err := true, empty := false, errCode := .illegalCmd, opc := w.extractLsb' 0 8, phase := .check } })

/-- 70 R322, 30 R105: while busy, a write to any offset but STATUS and CMD has no effect and sets WIGN; a STATUS write works as usual; a CMD write
sets OVR and changes nothing else; and WIGN and OVR stay set in every step but a STATUS write that clears them and a reset, through the acceptance of a command
too. -/
def Obligations.IgnoredWritesWhileBusy : Prop :=
  (∀ (s : State) (o : BitVec 15) (v : Word), s.rst = false → s.running.isSome = true → o.toNat % 8 = 0 →
    hostStep (.regWrite o 8 v) s =
      if o = 0x018#15 then .next { s with status := { s.status with
        done := s.status.done && !v.getLsbD 1, err := s.status.err && !v.getLsbD 2
        ovr := s.status.ovr && !v.getLsbD 4, wign := s.status.wign && !v.getLsbD 5 } }
      else if o = 0x010#15 then .next { s with status := { s.status with ovr := true } }
      else .next { s with status := { s.status with wign := true } })
    ∧ (∀ s t : State, step s = .next t →
      (∀ rest v, s.events ≠ .host (.regWrite 0x018#15 8 v) :: rest)
        → (∀ rest v, v.getLsbD 63 = true → s.events ≠ .host (.regWrite 0x008#15 8 v) :: rest)
        → (∀ rest l, s.events ≠ .host (.rst l) :: rest)
        → (s.status.wign = true → t.status.wign = true) ∧ (s.status.ovr = true → t.status.ovr = true))

/-- 10 R27: a STATUS write clears DONE, ERR, OVR and WIGN where v has bits 1, 2, 4 and 5, changes no other field, is taken whether or not
a command runs, and never sets WIGN; and in an idle engine no step but a CMD write and a reset changes ERRCODE. -/
def Obligations.StatusWriteOneToClear : Prop :=
  (∀ (s : State) (v : Word), s.rst = false →
    hostStep (.regWrite 0x018#15 8 v) s = .next { s with status := { s.status with
      done := s.status.done && !v.getLsbD 1
      err := s.status.err && !v.getLsbD 2
      ovr := s.status.ovr && !v.getLsbD 4
      wign := s.status.wign && !v.getLsbD 5 } })
  ∧ (∀ s t : State, s.running = none → step s = .next t →
      (∀ rest w, s.events ≠ .host (.regWrite 0x010#15 8 w) :: rest)
        → (∀ rest v, v.getLsbD 63 = true → s.events ≠ .host (.regWrite 0x008#15 8 v) :: rest)
        → (∀ rest l, s.events ≠ .host (.rst l) :: rest) → t.status.errCode = s.status.errCode)

/-- 20 R76: a host access to the register space that is not 8 bytes wide at a multiple of 8 is a host fault, and every other one is
taken. -/
def Obligations.RegisterAccessWidth : Prop :=
  ∀ (s : State) (o : BitVec 15) (n : Nat) (v : Word),
    ((n ≠ 8 ∨ o.toNat % 8 ≠ 0) →
      hostStep (.regWrite o n v) s = .fault (.hostAccess o.toNat n) ∧ hostStep (.regRead o n) s = .fault (.hostAccess o.toNat n))
    ∧ (n = 8 → o.toNat % 8 = 0 → (∃ t, hostStep (.regWrite o n v) s = .next t) ∧ ∃ t, hostStep (.regRead o n) s = .next t)

/-- 10 R21(a), (b), R23, R24, R30 to R33, R40, R41: what a register write does while idle: the RW registers and window entries take the
value, WORKERS takes a legal value, and a read-only register or a reserved offset changes nothing. -/
def Obligations.IdleRegisterWrites : Prop :=
  ∀ (s : State) (v : Word), s.rst = false → s.running = none →
    hostStep (.regWrite 0x020#15 8 v) s = .next { s with inBase := v }
    ∧ hostStep (.regWrite 0x028#15 8 v) s = .next { s with inLen := v }
    ∧ hostStep (.regWrite 0x030#15 8 v) s = .next { s with outBase := v }
    ∧ hostStep (.regWrite 0x038#15 8 v) s = .next { s with outCap := v }
    ∧ hostStep (.regWrite 0x040#15 8 v) s = .next { s with origLen := v }
    ∧ hostStep (.regWrite 0x048#15 8 v) s = .next { s with payloadOff := v }
    ∧ (∀ b : Fin 256, hostStep (.regWrite (BitVec.ofNat 15 (0x0800 + 8 * b.val)) 8 v) s
        = .next { s with hist := s.hist.set b.val v })
    ∧ (∀ b : Fin 256, hostStep (.regWrite (BitVec.ofNat 15 (0x1000 + 8 * b.val)) 8 v) s
        = .next { s with len := s.len.set b.val (v.extractLsb' 0 8) })
    ∧ (v.getLsbD 63 = false → hostStep (.regWrite 0x008#15 8 v) s = .next { s with
        ie := v.getLsbD 0
        workers :=
          if v.extractLsb' 8 8 = 0#8 then 1#8
          else if (v.extractLsb' 8 8).toNat > Config.maxWorkers.toNat then Config.maxWorkers
          else v.extractLsb' 8 8 })
    ∧ (∀ o : BitVec 15, o.toNat % 8 = 0 →
        (o = 0x000#15 ∨ (0x050 ≤ o.toNat ∧ o.toNat ≤ 0x7FF) ∨ 0x1800 ≤ o.toNat) → hostStep (.regWrite o 8 v) s = .next s)

/-- 70 R312: SRESET while idle puts the engine in the reset state in one step and leaves memory alone, the other bits of the write ignored;
while busy it has no effect but WIGN; it reads 0. -/
def Obligations.SoftwareReset : Prop :=
  ∀ (s : State) (v : Word), s.rst = false → v.getLsbD 63 = true →
    (s.running = none → hostStep (.regWrite 0x008#15 8 v) s = .next { State.reset with
      mem := s.mem, rst := false, events := s.events, rdData := s.rdData, memData := s.memData, draws := s.draws })
    ∧ (s.running.isSome = true → hostStep (.regWrite 0x008#15 8 v) s
      = .next { s with status := { s.status with wign := true } })
    ∧ (regValue s .ctrl).getLsbD 63 = false

/-- 70 R310: while `rst` is asserted a register write has no effect, a read changes nothing but what the read returned, `irq` is 0 and the
engine is idle; asserting it abandons the running command with no completion, only bytes of its write set (20 R72) left open; when it is
deasserted the engine is in the reset state. That it is in the reset state from the assertion on is the model's choice (log entry 15,
DEDUCED): R310 says so of the deassertion only. What memory an abandoned raced command leaves is not stated here. -/
def Obligations.ResetInput : Prop :=
  (∀ (s : State) (o : BitVec 15) (v : Word), s.rst = true → o.toNat % 8 = 0 →
    hostStep (.regWrite o 8 v) s = .next s
      ∧ (∃ x d, hostStep (.regRead o 8) s = .next { s with rdData := x, draws := d }) ∧ s.irq = false)
  ∧ (∀ s : State, ∃ t, hostStep (.rst true) s = .next t ∧ t.rst = true ∧ t.isReset ∧ t.running = none ∧ t.irq = false
      ∧ (s.running = none → t.mem = s.mem)
      ∧ ∀ run a, s.running = some run → run.raced = false →
          (a < s.outBase.toNat + ((commandOf run.cmd).writeSet s).1
            ∨ s.outBase.toNat + ((commandOf run.cmd).writeSet s).2 ≤ a) → t.mem.read a = s.mem.read a)
  ∧ (∀ s : State, s.rst = true → ∃ t, hostStep (.rst false) s = .next t ∧ t.rst = false ∧ t.isReset ∧ t.running = none
      ∧ t.mem = s.mem)

/-- 70 R311, 10 R22: the value of every register and RAM word after reset (power-up, SRESET or `rst`), the ID constant among them, with no
command pending, `irq` 0 and the sequencer waiting; a reset does not change memory. -/
def Obligations.ResetValues : Prop :=
  ∀ s : State, (s = State.reset ∨ s.isReset) →
    (regValue s .id).extractLsb' 0 32 = 0x4855465A#32 ∧ (regValue s .id).extractLsb' 32 8 = 0x01#8
    ∧ (regValue s .id).extractLsb' 40 8 = Config.maxWorkers ∧ (regValue s .id).extractLsb' 48 16 = 0#16
    ∧ (regValue s .ctrl).toNat = Config.maxWorkers.toNat * 2 ^ 8
    ∧ regValue s .treeInfo = 0x1FF#64
    ∧ (∀ r : Reg, r ≠ .id → r ≠ .ctrl → r ≠ .treeInfo → regValue s r = 0#64)
    ∧ s.running = none ∧ s.irq = false ∧ (s.events = [] → step s = .next s) ∧ ∀ r : State, r.engineReset.mem = r.mem

/-- 60 R288: `irq` is IE and (DONE or ERR); a W1C write of both clears it, acceptance clears it, and writing IE = 0 drops the line at once
and leaves DONE and ERR set, so that IE = 1 raises it again. -/
def Obligations.InterruptLine : Prop :=
  ∀ s : State, s.rst = false →
    s.irq = (s.ie && (s.status.done || s.status.err))
    ∧ (∀ v : Word, v.getLsbD 1 = true → v.getLsbD 2 = true → ∃ t, hostStep (.regWrite 0x018#15 8 v) s = .next t ∧ t.irq = false)
    ∧ (∀ w i, s.running = none → decode w = .ok i → ∃ t, hostStep (.regWrite 0x010#15 8 w) s = .next t ∧ t.irq = false)
    ∧ (∀ v : Word, s.running = none → v.getLsbD 63 = false → ∃ t, hostStep (.regWrite 0x008#15 8 v) s = .next t
        ∧ t.status = s.status ∧ t.irq = (v.getLsbD 0 && (s.status.done || s.status.err)))

/-- 70 R323: reads while busy. STATUS shows BUSY, PHASE, OVR and WIGN as they are; ID, CTRL, CMD and every register outside the command's
write set return their values; no read changes anything but what it returned. That every other read is a free value is the model's
form (log entry 7). -/
def Obligations.ReadsWhileBusy : Prop :=
  ∀ (s : State) (run : Running), s.rst = false → s.running = some run →
    ∀ r : Reg, ∃ v : Word, hostStep (.regRead (offsetOf r) 8) s = .next { s with rdData := v, draws := s.draws + 1 }
      ∧ (r = .status → v.getLsbD 0 = true ∧ v.getLsbD 1 = s.status.done ∧ v.getLsbD 2 = s.status.err
          ∧ v.getLsbD 4 = s.status.ovr ∧ v.getLsbD 5 = s.status.wign ∧ v.extractLsb' 24 8 = s.status.phase.toByte)
      ∧ (r ≠ .status → r.inWindow = false → writesReg run.cmd r = false → v = regValue s r)

/-! ### Steps -/

/-- 00 R6, 20 R87, 30 R104: a step runs the latched command, whether its completion is the default or a pending event carries the memory
port's reply; an idle sequencer waits; a pending CMD write whose lanes decode to i latches i, and a decoded word placed by withFetchWord
is run by the next step. The model's form: that an empty event list means the completion step (log entry 1, DESIGN CHOICE), that the reply
is carried by the completion event (log entry 4, DEDUCED), and withFetchWord itself (log entry 3, DESIGN CHOICE). -/
def Obligations.StepRunsLatchedCommand : Prop :=
  (∀ (s : State) (run : Running), s.events = [] → s.running = some run → step s = exec run.cmd s)
  ∧ (∀ (s : State) (run : Running) (reply : Option (Nat × Word)) (rest : List Event),
      s.events = .complete reply :: rest → s.running = some run →
      step s = exec run.cmd { s with events := rest, running := some { run with reply := reply } })
  ∧ (∀ s : State, s.events = [] → s.running = none → step s = .next s)
  ∧ (∀ (s : State) (w : Word) (i : Instr) (rest : List Event), s.events = .host (.regWrite 0x010#15 8 w) :: rest →
      s.rst = false → s.running = none → decodeLanes (wordLanes w) = .ok i →
      step s = .next ({ s with events := rest }.accepted w i))
  ∧ (∀ (s : State) (w : Nat) (i : Instr), decodeTableWord 64 w = some i →
      step (s.withFetchWord 64 w) = exec i (s.withFetchWord 64 w))

/-- 30 R103, 47 R261, R266, 10 R29: the phases a run reaches are a prefix of the command's phases in order, all of them when it succeeds;
and an advance event shows in PHASE the next phase the run reaches, moves the sequencer's position by one and changes nothing else, and
changes nothing at all when the run reaches no further phase or no command runs. The advance event is the model's form of R87's internal
steps (log entry 2, DEDUCED), and that the phases reached are computed from the state as it then is, a raced command's too, is log entry
29 (DESIGN CHOICE); DECODE's two CHECK phases are log entry 31 (DESIGN CHOICE). -/
def Obligations.PhaseOrder : Prop :=
  (∀ (i : Instr) (s : State), ∃ te, (reached (commandOf i).plan s).map Prod.fst <+: phaseSeq te i)
  ∧ (∀ (i : Instr) (s t : State), runPlan (commandOf i).plan s = .returned t →
      (reached (commandOf i).plan s).map Prod.fst = phaseSeq t.te i)
  ∧ (∀ (s : State) (rest : List Event), s.events = .advance :: rest →
      (s.running = none → step s = .next { s with events := rest })
      ∧ ∀ run, s.running = some run →
        ((reached (commandOf run.cmd).plan { s with events := rest })[run.pos + 1]? = none → step s = .next { s with events := rest })
        ∧ ∀ p start, (reached (commandOf run.cmd).plan { s with events := rest })[run.pos + 1]? = some (p, start) →
          step s = .next { s with
            events := rest, running := some { run with pos := run.pos + 1 }, status := { s.status with phase := p } })

/-! ### Invariants, frames, errors -/

/-- 70 R311: the invariant of the machine holds at reset (memory's contents at reset, nothing listed, are log entry 8). -/
def Obligations.InvariantAtReset : Prop := State.reset.Inv

/-- Every step keeps the invariant: memory's canonical form, a legal WORKERS (10 R24), STATUS and the latch as 10 R25 and R28 leave them,
and the reset state while `rst` is asserted, which is log entry 15 (DEDUCED): R310 says it of the deassertion only. That the latch and CMD
agree is log entry 25 (DEDUCED), and what STATUS may show after a raced command is log entry 21 (DEDUCED). -/
def Obligations.StepKeepsInvariant : Prop :=
  ∀ s t : State, s.Inv → step s = .next t → t.Inv

/-- 30 R109: the frame of every command, on every outcome: a register or RAM outside its write set is unchanged, and so are OVR, WIGN, OPC
and the inputs; EMPTY is changed by HIST and COMPRESS only, unless the host broke 20 R85. -/
def Obligations.CommandFrame : Prop :=
  ∀ (i : Instr) (s t : State), exec i s = .next t →
    sameRegs (fun r => !writesReg i r) s t ∧ sameRest s t
      ∧ (s.raced = false → i ∉ [Instr.hist, .compress, .compressC] → t.status.empty = s.status.empty)

/-- 20 R72, 60 R286(c): the memory frame of every command, on every outcome: every byte outside the write set, placed at OUT_BASE, reads
as before; when the host broke 20 R85, every byte outside the output region does. So no command writes the input region when the two
regions pass RegionCheck. -/
def Obligations.MemoryFrame : Prop :=
  ∀ (i : Instr) (s t : State) (a : Nat), exec i s = .next t →
    (s.raced = false →
      (a < s.outBase.toNat + ((commandOf i).writeSet s).1 ∨ s.outBase.toNat + ((commandOf i).writeSet s).2 ≤ a) →
      t.mem.read a = s.mem.read a)
    ∧ (s.raced = true → (a < s.outBase.toNat ∨ s.outBase.toNat + s.outCap.toNat ≤ a) → t.mem.read a = s.mem.read a)
    ∧ (regionsOk true true s = true → s.inBase.toNat ≤ a → a < s.inBase.toNat + s.inLen.toNat →
      t.mem.read a = s.mem.read a)

/-- 20 R72: the write set of each command. HIST, BUILD, DERIVE, CANON, CTREE, ESTIMATE and PARSEHDR write no byte; on success WRHDR writes
output bytes [0, HDR_LEN), ENCODE [PAYLOAD_OFF, PAYLOAD_OFF + TOTAL_BYTES), DECODE and DECOMPRESS [0, ORIG_LEN), COMPRESS
[0, HDR_LEN + TOTAL_BYTES). -/
def Obligations.WriteSets : Prop :=
  ∀ (s t : State), s.raced = false → s.status.err = false →
    (∀ i ∈ [Instr.hist, .build, .derive, .deriveC, .canon, .ctree, .estimate, .parsehdr], exec i s = .next t →
      (commandOf i).writeSet s = (0, 0) ∧ t.mem = s.mem)
    ∧ (∀ tm, exec (wrhdrOf tm) s = .next t → t.status.err = false →
      (commandOf (wrhdrOf tm)).writeSet s = (0, t.hdrLen.toNat))
    ∧ (exec .encode s = .next t → t.status.err = false →
      (commandOf .encode).writeSet s = (s.payloadOff.toNat, s.payloadOff.toNat + t.totalBytes.toNat))
    ∧ (exec .decode s = .next t → t.status.err = false → (commandOf .decode).writeSet s = (0, s.origLen.toNat))
    ∧ (∀ tm, exec (compressOf tm) s = .next t → t.status.err = false →
      (commandOf (compressOf tm)).writeSet s = (0, t.hdrLen.toNat + t.totalBytes.toNat))
    ∧ (exec .decompress s = .next t → t.status.err = false → (commandOf .decompress).writeSet s = (0, t.origLen.toNat))

/-- 60 R285, R286(a): an error other than BUS_ERROR and CORRUPT_* in a writing phase leaves memory as it was, every BUFFER_TOO_SMALL
among them, in the composite commands too. -/
def Obligations.ErrorLeavesMemory : Prop :=
  ∀ (i : Instr) (s t : State), exec i s = .next t → s.raced = false → s.status.err = false → t.status.err = true →
    ((t.status.errCode ≠ .busError ∧ t.status.errCode.corrupt = false)
      ∨ (t.status.phase ≠ .wrhdr ∧ t.status.phase ≠ .encode ∧ t.status.phase ≠ .decode)) → t.mem = s.mem

/-- 60 R284: a raise ends the command with a failed completion: BUSY 0, ERR 1, ERRCODE, ERRINFO, RESULT 0, PHASE the phase that raised,
OPC kept, and the registers and RAMs as the earlier phases committed them. -/
def Obligations.FailedCompletion : Prop :=
  ∀ (i : Instr) (s kept : State) (p : Phase) (e : Raise), s.undisturbed = true →
    runPlan (commandOf i).plan s = .raised p e kept →
    ∃ t, exec i s = .next t ∧ failedWith s t p e.code e.info ∧ t.status.opc = s.status.opc
      ∧ sameRegs (fun _ => true) kept t ∧ (s.rst = false → t.irq = s.ie)

/-- 20 R85, R71, R78(d): when a command is raced, and what it then does. It is marked as raced when the host stores a byte of its input or
output region while it runs, when a region contains addresses of the register window at acceptance, or when the platform puts a region in
device memory (the marks are the model's form: log entries 6, 20, 27). A raced command still completes, and no register outside its write
set and no byte outside the output region changes; that it ends with DONE or ERR as 10 R28 ends a command, ERRCODE and PHASE fitting, is
log entry 21 (DEDUCED). 20 R84, 30 R110: what a host store and a host load of system memory do, idle or busy: WRM stores its bytes at addr,
addr+1 and so on (past 2^64 - 1 at 0: log entry 30); a byte access inside the register window is a host fault (log entry 18). -/
def Obligations.RacedCommandCompletes : Prop :=
  (∀ (i : Instr) (s : State), s.raced = true →
    ∃ t, exec i s = .next t ∧ t.running = none ∧ t.status.done = !t.status.err
      ∧ (t.status.done = true → t.status.errCode = .none ∧ t.status.phase = .idle)
      ∧ (t.status.err = true → t.status.errCode ≠ .none)
      ∧ sameRegs (fun r => !writesReg i r) s t
      ∧ ∀ a, (a < s.outBase.toNat ∨ s.outBase.toNat + s.outCap.toNat ≤ a) → t.mem.read a = s.mem.read a)
  ∧ (∀ (s : State) (x : Word) (v : Byte),
      (Config.mmioBase ≤ x.toNat ∧ x.toNat < Config.mmioBase + 0x8000 →
        hostStep (.memWrite x v) s = .fault (.hostAccess (x.toNat - Config.mmioBase) 1)
        ∧ hostStep (.memRead x) s = .fault (.hostAccess (x.toNat - Config.mmioBase) 1))
      ∧ (x.toNat < Config.mmioBase ∨ Config.mmioBase + 0x8000 ≤ x.toNat →
        let inIn := decide (s.inBase.toNat ≤ x.toNat ∧ x.toNat < s.inBase.toNat + s.inLen.toNat)
        let inOut := decide (s.outBase.toNat ≤ x.toNat ∧ x.toNat < s.outBase.toNat + s.outCap.toNat)
        (s.mem.wf = true → ∃ t, hostStep (.memWrite x v) s = .next t
          ∧ t = { s with
              mem := t.mem, running := s.running.map fun run => { run with raced := run.raced || inIn || inOut } }
          ∧ t.mem.read x.toNat = v ∧ ∀ a, a ≠ x.toNat → t.mem.read a = s.mem.read a)
        ∧ (s.running = none ∨ inOut = false → hostStep (.memRead x) s = .next { s with memData := s.mem.read x.toNat })
        ∧ (s.running.isSome = true → inOut = true → ∃ v, hostStep (.memRead x) s
            = .next { s with memData := v, draws := s.draws + 1 })))
  ∧ (∀ s : State, hostStep .deviceRegion s = .next { s with running := s.running.map fun run => { run with raced := true } })
  ∧ (∀ (s : State) (w : Word) (i : Instr), s.rst = false → s.running = none → decode w = .ok i →
      ∃ t, hostStep (.regWrite 0x010#15 8 w) s = .next t
        ∧ (t.raced = true ↔ (0 < s.inLen.toNat ∧ s.inBase.toNat < Config.mmioBase + 0x8000
              ∧ Config.mmioBase < s.inBase.toNat + s.inLen.toNat)
            ∨ (0 < s.outCap.toNat ∧ s.outBase.toNat < Config.mmioBase + 0x8000
              ∧ Config.mmioBase < s.outBase.toNat + s.outCap.toNat)))
  ∧ (∀ (x : Word) (bs : List Byte),
      stmtWrm x bs = bs.zipIdx.map fun b => .host (.memWrite (x + BitVec.ofNat 64 b.2) b.1))

/-- 20 R80, 60 R283(c), (d): a fault reply in a phase reached after the first CHECK, at an address the command may access, ends it with
BUS_ERROR there exactly when the platform's predicate holds for the address; and BUS_ERROR is never raised when it holds for no address the
command may access. Conversely a command that ends with BUS_ERROR had such a reply: ERRINFO is its address, one the command may access and
the predicate holds for, the first phase reached was CHECK, and PHASE is a phase reached after it, whose earlier phases' commits are kept. The model's form: that a reply (k, a) carried by the completion decides the draw (log entry 4, DEDUCED), that the
access set is R72's cut to the two regions, where PARSEHDR's reads end (log entry 26, DEDUCED), and that DECODE's second CHECK is a phase
after the first (log entry 31, DESIGN CHOICE). -/
def Obligations.BusErrorDraw : Prop :=
  (∀ (i : Instr) (s kept : State) (k : Nat) (a : Word) (p : Phase), s.raced = false → s.reply = some (k, a) → 1 ≤ k → s.pos ≤ k →
    (commandOf i).accesses s a = true → (reached (commandOf i).plan s)[k]? = some (p, kept) → s.status.errCode = .none →
    ∃ t, exec i s = .next t ∧ (Config.busFault a = false → t.status.errCode ≠ .busError)
      ∧ (Config.busFault a = true → failedWith s t p .busError a ∧ sameRegs (fun _ => true) kept t
          ∧ (p ≠ .wrhdr → p ≠ .encode → p ≠ .decode → t.mem = kept.mem)))
  ∧ (∀ (i : Instr) (s t : State), s.raced = false → s.status.errCode = .none →
      (∀ a : Word, (commandOf i).accesses s a = true → Config.busFault a = false) → exec i s = .next t →
      t.status.errCode ≠ .busError)
  ∧ (∀ (i : Instr) (s t : State), s.raced = false → s.status.errCode = .none → exec i s = .next t → t.status.errCode = .busError →
      ∃ k kept, s.reply = some (k, t.errInfo) ∧ 1 ≤ k ∧ s.pos ≤ k ∧ (commandOf i).accesses s t.errInfo = true
        ∧ Config.busFault t.errInfo = true ∧ ((reached (commandOf i).plan s)[0]?).map Prod.fst = some .check
        ∧ (reached (commandOf i).plan s)[k]? = some (t.status.phase, kept)
        ∧ failedWith s t t.status.phase .busError t.errInfo ∧ sameRegs (fun _ => true) kept t)

/-- 20 R73: RegionCheck, before any other work, in every command that uses a region: the input wraps, the output wraps, or both are used
and overlap; the sums exact, an empty region valid at any base. -/
def Obligations.RegionCheckErrors : Prop :=
  ∀ (i : Instr) (s : State), s.undisturbed = true →
    (usesIn i = true → s.inBase.toNat + s.inLen.toNat > 2 ^ 64 →
      exec i s = .next (s.failed .check ⟨.badRegion, 1#64⟩))
    ∧ (usesOut i = true → (usesIn i = true → s.inBase.toNat + s.inLen.toNat ≤ 2 ^ 64) →
      s.outBase.toNat + s.outCap.toNat > 2 ^ 64 → exec i s = .next (s.failed .check ⟨.badRegion, 2#64⟩))
    ∧ (usesIn i = true → usesOut i = true → s.inBase.toNat + s.inLen.toNat ≤ 2 ^ 64 →
      s.outBase.toNat + s.outCap.toNat ≤ 2 ^ 64 → 0 < s.inLen.toNat → 0 < s.outCap.toNat →
      s.inBase.toNat < s.outBase.toNat + s.outCap.toNat → s.outBase.toNat < s.inBase.toNat + s.inLen.toNat →
      exec i s = .next (s.failed .check ⟨.badRegion, 3#64⟩))
    ∧ (regionsOk true true s = true → ∀ t, exec i s = .next t → s.status.errCode = .none →
      t.status.errCode = .badRegion → t.errInfo = 4#64)

/-! ### HIST, BUILD -/

/-- 40 R122: HIST. Each entry is the exact count of its byte in the input region, ORIG_LEN is IN_LEN, NSYM the number of nonzero buckets,
EMPTY is set when IN_LEN is 0, RESULT is IN_LEN; nothing else changes. -/
def Obligations.HistResult : Prop :=
  ∀ s : State, s.undisturbed = true → s.inBase.toNat + s.inLen.toNat ≤ 2 ^ 64 →
    ∃ h n, exec .hist s = .next { s with
        hist := h, origLen := s.inLen, nsym := n, result := s.inLen, running := none
        status := { s.status with done := true, phase := .idle, empty := s.status.empty || s.inLen == 0#64 } }
      ∧ (∀ b : Fin 256, h[b].toNat = ((List.range s.inLen.toNat).countP fun k => inByte s k == BitVec.ofNat 8 b.val))
      ∧ n.toNat = (List.finRange 256).countP fun b => h[b] != 0#64

/-- 40 R121, R123, 43 R171: after HIST the counts sum to ORIG_LEN = IN_LEN, and for every N the final reduction of the workers' private
counts is the histogram; and the workers' sums of code lengths and their least uncoded offset are those of the whole input. The partition
is R120's Part(L, N), for every N. -/
def Obligations.WorkersAgree : Prop :=
  (∀ s t : State, s.undisturbed = true → s.inBase.toNat + s.inLen.toNat ≤ 2 ^ 64 → exec .hist s = .next t →
    ((List.finRange 256).map fun b => t.hist[b].toNat).sum = t.origLen.toNat ∧ t.origLen = s.inLen
      ∧ ∀ n, 1 ≤ n → ∀ b : Fin 256, workersCount (inputBytes s) n b = t.hist[b].toNat)
  ∧ (∀ (s : State) (n : Nat), 1 ≤ n →
      workersTotal s.len (inputBytes s) n = totalLen s.len (inputBytes s)
      ∧ workersUncoded s.len (inputBytes s) n = firstUncoded s.len (inputBytes s))

/-- 40 R120: the partition of L bytes over N workers: its boundaries start at 0, end at L, do not decrease and are multiples of 64 inside,
by the rule's formula; the workers' ranges, in order, are the input. -/
def Obligations.WorkPartition : Prop :=
  ∀ (l n : Nat), 1 ≤ n →
    partBound l n 0 = 0 ∧ partBound l n n = l
    ∧ (∀ k, 0 < k → k < n → partBound l n k = 64 * ((k * l / n) / 64))
    ∧ (∀ j k, j ≤ k → k ≤ n → partBound l n j ≤ partBound l n k)
    ∧ (∀ xs : List Byte, xs.length = l → ((List.range n).map fun k => workerInput xs n k).flatten = xs)

/-- 41 R132, R133, R135: the queue's order is lexicographic on (WEIGHT, index); with distinct indices each pop has exactly one answer, and it
is what the engine pops; and after any number of merges the indices in BUILD's queue are distinct. So in a BUILD tree the two children of
an internal node were, when it was made, in the queue of the entries no earlier merge had taken; LEFT had the least key of that queue and
RIGHT the next, every other queued entry a greater one; and both stand below their parent. -/
def Obligations.QueueAndMergeOrder : Prop :=
  (∀ q : List Key, q ≠ [] → (q.map Prod.snd).Nodup →
    ∃ k, popLeast q = some (k, q.erase k) ∧ k ∈ q
      ∧ (∀ x ∈ q, x ≠ k → k.1 < x.1 ∨ (k.1 = x.1 ∧ k.2 < x.2))
      ∧ ∀ y ∈ q, (∀ x ∈ q, x ≠ y → y.1 < x.1 ∨ (y.1 = x.1 ∧ y.2 < x.2)) → y = k)
  ∧ (∀ (h : Vector Word 256) (merges : Nat),
      ((mergeLoop merges (seedQueue (seedLeaves h)) (seedLeaves h)).1.map Prod.snd).Nodup)
  ∧ (∀ (s t : State), s.undisturbed = true → exec .build s = .next t →
    ∀ i : Fin 511, t.node[i].used = true → t.node[i].leaf = false →
      t.queuedAt i.val t.node[i].left.toNat ∧ t.queuedAt i.val t.node[i].right.toNat
      ∧ t.keyBefore t.node[i].left.toNat t.node[i].right.toNat
      ∧ ∀ j, t.queuedAt i.val j → j ≠ t.node[i].left.toNat → j ≠ t.node[i].right.toNat → t.keyBefore t.node[i].right.toNat j)
  ∧ (∀ (s t : State), s.undisturbed = true → exec .build s = .next t →
    ∀ i : Fin 511, t.node[i].used = true → t.node[i].leaf = false →
      t.node[i].left.toNat < i.val ∧ t.node[i].right.toNat < i.val
      ∧ ((nodeAt t.node t.node[i].left).weight.toNat < (nodeAt t.node t.node[i].right).weight.toNat
          ∨ ((nodeAt t.node t.node[i].left).weight = (nodeAt t.node t.node[i].right).weight
              ∧ t.node[i].left.toNat < t.node[i].right.toNat)))

/-- 41 R130, R131, R133: BUILD completes from every state, with one leaf for each nonzero count in ascending byte order at indices 0, 1, 2
and so on; NSYM = n, and for n ≥ 1 NNODES = 2 max(n, 2) - 1 ≤ 511 and ROOT is the last entry; nothing else changes. -/
def Obligations.BuildResult : Prop :=
  ∀ s : State, s.undisturbed = true →
    ∃ nd rt nn ns, exec .build s = .next { s with
        node := nd, root := rt, nnodes := nn, nsym := ns, result := nn.setWidth 64, running := none
        status := { s.status with done := true, phase := .idle } }
      ∧ ns.toNat = histSymbols s
      ∧ (histSymbols s = 0 → rt = noNode ∧ nn = 0#9)
      ∧ (1 ≤ histSymbols s → nn.toNat = 2 * max (histSymbols s) 2 - 1 ∧ rt.toNat + 1 = nn.toNat ∧ nn.toNat ≤ 511)
      ∧ ∀ b : Fin 256, s.hist[b] ≠ 0#64 →
          nodeAt nd (BitVec.ofNat 9 ((List.finRange 256).countP fun a => decide (a < b) && s.hist[a] != 0#64))
            = ⟨s.hist[b].setWidth 72, true, true, BitVec.ofNat 9 b.val, noNode, noNode⟩

/-- 10 R44: the arena's invariants, after every successful BUILD and CTREE and after reset; a BUILD tree is strict with weights that add
up, a CTREE tree has weights 0. -/
def Obligations.ArenaInvariants : Prop :=
  State.reset.arenaOk
  ∧ (∀ s t : State, s.undisturbed = true → exec .build s = .next t → t.arenaOk ∧ t.arenaStrict)
  ∧ (∀ s t : State, s.undisturbed = true → s.status.err = false → exec .ctree s = .next t → t.status.err = false →
      t.arenaOk ∧ t.arenaWeightless)

/-- 41 R134: with exactly one nonzero count, the sentinel is the second leaf and the root's LEFT child, the real byte its RIGHT child, and
DERIVE gives the byte the code "1" and the sentinel no entry. -/
def Obligations.SentinelTree : Prop :=
  ∀ (s : State) (b : Fin 256), s.undisturbed = true → s.hist[b] ≠ 0#64 → (∀ a : Fin 256, a ≠ b → s.hist[a] = 0#64) →
    ∃ t u, exec .build s = .next t ∧ exec .derive t = .next u
      ∧ t.node[(0 : Fin 511)] = ⟨s.hist[b].setWidth 72, true, true, BitVec.ofNat 9 b.val, noNode, noNode⟩
      ∧ t.node[(1 : Fin 511)] = ⟨0#72, true, true, 256#9, noNode, noNode⟩
      ∧ t.node[(2 : Fin 511)] = ⟨s.hist[b].setWidth 72, false, true, 0#9, 1#9, 0#9⟩
      ∧ t.root = 2#9 ∧ t.nnodes = 3#9 ∧ u.len[b] = 1#8 ∧ codeWordBits u b = [true]
      ∧ ∀ a : Fin 256, a ≠ b → u.len[a] = 0#8 ∧ u.code[a] = 0#256

/-- 41 R137: no weight of a BUILD tree exceeds the sum of the counts, which is below 2^72; the root's weight is that sum, and IN_LEN for a
histogram made by HIST. -/
def Obligations.RootWeight : Prop :=
  (∀ s t : State, s.undisturbed = true → exec .build s = .next t → 1 ≤ histSymbols s →
    (∀ i : Fin 511, t.node[i].weight.toNat ≤ ((List.finRange 256).map fun b => s.hist[b].toNat).sum)
    ∧ ((List.finRange 256).map fun b => s.hist[b].toNat).sum < 2 ^ 72
    ∧ (nodeAt t.node t.root).weight.toNat = ((List.finRange 256).map fun b => s.hist[b].toNat).sum)
  ∧ (∀ r s t : State, r.undisturbed = true → r.inBase.toNat + r.inLen.toNat ≤ 2 ^ 64 → 0 < r.inLen.toNat →
      exec .hist r = .next s → exec .build s = .next t → (nodeAt t.node t.root).weight.toNat = r.inLen.toNat)

/-! ### DERIVE, CANON, CTREE -/

/-- 42 R150, R151, R152, R157, 70 R330: DERIVE completes with DONE from every state, over every arena, and the empty tree gives empty tables
and RESULT 0. Over every arena without a cycle, shared children or not, a byte no path leads to has no code, and a byte's code is the path
to its leaf the traversal visits last, if it is a code of at most 255 bits. DERIVE's lengths, in both modes, and its codes are functions of
the arena and ROOT, and CANON's outcome and codes, alone or in DERIVE.C, of LEN. Over an arena with a cycle, and for a longer path, the
spec states no result and the entries are free values (log entry 13, DESIGN CHOICE). -/
def Obligations.DeriveCompletes : Prop :=
  (∀ s : State, s.undisturbed = true →
    ∃ l cd, exec .derive s = .next { s with
        len := l, code := cd, running := none
        result := BitVec.ofNat 64 ((List.finRange 256).countP fun b => l[b] != 0#8)
        status := { s.status with done := true, phase := .idle } }
      ∧ (s.root = noNode → ∀ b : Fin 256, l[b] = 0#8 ∧ cd[b] = 0#256))
  ∧ (∀ (s t : State) (b : Fin 256), s.undisturbed = true → s.root ≠ noNode → s.acyclic → exec .derive s = .next t →
      ((∀ p, ¬ leadsTo s p b) → t.len[b] = 0#8 ∧ t.code[b] = 0#256)
      ∧ ∀ p, leadsTo s p b → (∀ q, leadsTo s q b → q ≠ p → visitedBefore q p) → p.length ≤ 255 →
          t.len[b] = BitVec.ofNat 8 p.length ∧ t.code[b] = codeEntry p)
  ∧ (∀ (tm tm' : TableMode) (s s' t t' : State), s.undisturbed = true → s'.undisturbed = true →
      s.node = s'.node → s.root = s'.root → exec (deriveOf tm) s = .next t → exec (deriveOf tm') s' = .next t' →
      t.len = t'.len
      ∧ (tm = .freq → tm' = .freq → t.code = t'.code)
      ∧ (tm = .canon → tm' = .canon → s.status.err = false → s'.status.err = false →
          t.status.err = t'.status.err ∧ (t.status.err = false → t.code = t'.code ∧ t.nsym = t'.nsym)))
  ∧ (∀ s s' t t' : State, s.undisturbed = true → s'.undisturbed = true → s.len = s'.len → s.status.err = false →
      s'.status.err = false → exec .canon s = .next t → exec .canon s' = .next t' →
      t.status.err = t'.status.err ∧ (t.status.err = false → t.code = t'.code ∧ t.nsym = t'.nsym))

/-- 41 R136, 42 R150, R151: DERIVE over a BUILD tree. A byte with a zero count has no code; every other has a length in 1..255 and the bits
of the one path from ROOT to its leaf, the rest of its entry 0; RESULT is the number of coded bytes, and for two or more the lengths satisfy
the Kraft equality. -/
def Obligations.DeriveOverBuildTree : Prop :=
  ∀ s t : State, s.undisturbed = true → exec .build s = .next t →
    ∃ u, exec .derive t = .next u ∧ doneWith t u t.status.empty (BitVec.ofNat 64 (histSymbols s))
      ∧ (∀ b : Fin 256, s.hist[b] = 0#64 → u.len[b] = 0#8 ∧ u.code[b] = 0#256)
      ∧ (∀ b : Fin 256, s.hist[b] ≠ 0#64 → 1 ≤ u.len[b].toNat ∧ leadsTo u (codeWordBits u b) b
          ∧ u.code[b] = codeEntry (codeWordBits u b) ∧ ∀ p, leadsTo u p b → p = codeWordBits u b)
      ∧ lengthsOk u

/-- 42 R150, R152, R153: DERIVE.C over a BUILD tree succeeds, leaves the lengths DERIVE leaves and the canonical codes of these lengths, and
NSYM and RESULT count the coded bytes; over the empty tree it succeeds with empty tables and RESULT 0. -/
def Obligations.DeriveCanonOverBuildTree : Prop :=
  (∀ s : State, s.undisturbed = true → s.root = noNode →
    exec .deriveC s = .next { s with
      len := Vector.replicate 256 0#8, code := Vector.replicate 256 0#256, nsym := 0#9, result := 0#64, running := none
      status := { s.status with done := true, phase := .idle } })
  ∧ ∀ s t u : State, s.undisturbed = true → exec .build s = .next t → exec .derive t = .next u →
    ∃ v, exec .deriveC t = .next v ∧ doneWith t v t.status.empty (BitVec.ofNat 64 (histSymbols s))
      ∧ (∀ b : Fin 256, v.len[b] = u.len[b]) ∧ v.nsym.toNat = histSymbols s
      ∧ (∀ b : Fin 256, s.hist[b] = 0#64 → v.code[b] = 0#256) ∧ v.canonicalCodes

/-- 42 R153, R155: CANON accepts a set of lengths in the three cases of R155 only, and reports BAD_TABLE for every other: the byte when
exactly one length is nonzero and not 1, else 0x100. -/
def Obligations.CanonValidity : Prop :=
  ∀ s : State, s.undisturbed = true →
    (lengthsOk s → ∃ cd, exec .canon s = .next { s with
        code := cd, nsym := BitVec.ofNat 9 (codedSymbols s), result := BitVec.ofNat 64 (codedSymbols s), running := none
        status := { s.status with done := true, phase := .idle } }
      ∧ ∀ b : Fin 256, s.len[b] = 0#8 → cd[b] = 0#256)
    ∧ (∀ b : Fin 256, codedSymbols s = 1 → s.len[b] ≠ 0#8 → s.len[b] ≠ 1#8 →
      exec .canon s = .next (s.failed .canon ⟨.badTable, BitVec.ofNat 64 b.val⟩))
    ∧ (2 ≤ codedSymbols s → ¬ lengthsOk s → exec .canon s = .next (s.failed .canon ⟨.badTable, 0x100#64⟩))

/-- 42 R153, R154: the canonical numbering. The first code in the order (LEN, byte) is all zeros, each next one is the one before plus one,
shifted left by the increase in length; so among codes of one length the code increases with the byte value. Every code is the numeral of
its number, left-aligned. -/
def Obligations.CanonNumbering : Prop :=
  ∀ s t : State, s.undisturbed = true → lengthsOk s → exec .canon s = .next t →
    (∀ b : Fin 256, s.len[b] ≠ 0#8 →
      t.code[b] = BitVec.ofNat 256 (codeNumber t b * 2 ^ (256 - s.len[b].toNat)))
    ∧ (∀ b : Fin 256, s.len[b] ≠ 0#8 → (∀ a : Fin 256, s.len[a] ≠ 0#8 → a ≠ b → canonBefore s b a) → codeNumber t b = 0)
    ∧ (∀ a b : Fin 256, s.len[a] ≠ 0#8 → s.len[b] ≠ 0#8 → canonBefore s a b →
        (∀ c : Fin 256, s.len[c] ≠ 0#8 → canonBefore s a c → c = b ∨ canonBefore s b c) →
        codeNumber t b = (codeNumber t a + 1) * 2 ^ (s.len[b].toNat - s.len[a].toNat))
    ∧ (∀ a b : Fin 256, s.len[a] ≠ 0#8 → s.len[a] = s.len[b] → a < b → codeNumber t a < codeNumber t b)

/-- 42 R156: prefix-freedom. After DERIVE (either TM) over a tree as BUILD or CTREE made it, after DERIVE over any arena without a cycle whose
paths to bytes have at most 255 bits, and after a successful DERIVE.C or CANON, no code of nonzero length is a prefix of another. Left out
is DERIVE over the other arenas, which only a race leaves: its tables are then free values (log entry 13, DESIGN CHOICE). -/
def Obligations.PrefixFreedom : Prop :=
  (∀ r s t : State, ∀ tm, r.undisturbed = true → r.status.err = false →
    (exec .build r = .next s ∨ exec .ctree r = .next s) → s.status.err = false →
    exec (deriveOf tm) s = .next t → t.status.err = false → codesPrefixFree t)
  ∧ (∀ s t : State, s.undisturbed = true → s.root ≠ noNode → s.acyclic → (∀ p b, leadsTo s p b → p.length ≤ 255) →
      exec .derive s = .next t → codesPrefixFree t)
  ∧ (∀ s t : State, s.undisturbed = true → s.status.err = false → exec .deriveC s = .next t → t.status.err = false →
      codesPrefixFree t)
  ∧ (∀ s t : State, s.undisturbed = true → s.status.err = false → exec .canon s = .next t → t.status.err = false →
      codesPrefixFree t)

/-- 46 R231, R232, R233: CTREE. When the codes can all be placed it succeeds: NNODES is the number of nodes of the codes' trie, ROOT is 0 or,
with no code, 0x1FF, and a path leads to a byte's leaf exactly when it is the byte's code; otherwise it reports BAD_TABLE of the first byte,
ascending, whose code cannot be placed. -/
def Obligations.CtreeResult : Prop :=
  ∀ s : State, s.undisturbed = true →
    (placeable s (codedBelow s 256) →
      ∃ nd, exec .ctree s = .next { s with
          node := nd, nnodes := BitVec.ofNat 9 (trieNodes s (codedBelow s 256))
          root := if codedSymbols s = 0 then noNode else 0#9
          result := BitVec.ofNat 64 (trieNodes s (codedBelow s 256)), running := none
          status := { s.status with done := true, phase := .idle } }
        ∧ ∀ (b : Fin 256) (p : List Bool), s.len[b] ≠ 0#8 →
            (leadsTo { s with node := nd, root := 0#9 } p b ↔ p = codeWordBits s b))
    ∧ (∀ b : Fin 256, s.len[b] ≠ 0#8 → placeable s (codedBelow s b.val) → ¬ placeable s (codedBelow s (b.val + 1)) →
      exec .ctree s = .next (s.failed .ctree ⟨.badTable, BitVec.ofNat 64 b.val⟩))

/-- 46 R232, 42 R155: CTREE never refuses the table a successful CANON leaves: n codes make 2n - 1 nodes, or 2 for n = 1. -/
def Obligations.CtreeAfterCanon : Prop :=
  ∀ s t : State, s.undisturbed = true → lengthsOk s → exec .canon s = .next t →
    ∃ u, exec .ctree t = .next u
      ∧ doneWith t u t.status.empty (BitVec.ofNat 64
          (if codedSymbols s = 0 then 0 else if codedSymbols s = 1 then 2 else 2 * codedSymbols s - 1))
      ∧ ∀ b : Fin 256, s.len[b] ≠ 0#8 → leadsTo u (codeWordBits t b) b

/-! ### ESTIMATE, ENCODE -/

/-- 43 R170: ESTIMATE. NO_CODE of the least offset whose byte has no code; SIZE_OVERFLOW(0) when the exact total exceeds 2^64 - 1; else
TOTAL_BITS is the sum of the lengths and TOTAL_BYTES that sum over 8 rounded up, which is RESULT; nothing else changes. -/
def Obligations.EstimateResult : Prop :=
  ∀ s : State, s.undisturbed = true → s.inBase.toNat + s.inLen.toNat ≤ 2 ^ 64 →
    let l := fun k => s.len[(inByte s k).toFin].toNat
    let t := ((List.range s.inLen.toNat).map l).sum
    (∀ i, i < s.inLen.toNat → l i = 0 → (∀ j, j < i → l j ≠ 0) →
      exec .estimate s = .next (s.failed .estimate ⟨.noCode, BitVec.ofNat 64 i⟩))
    ∧ ((∀ i, i < s.inLen.toNat → l i ≠ 0) → t > 2 ^ 64 - 1 →
      exec .estimate s = .next (s.failed .estimate ⟨.sizeOverflow, 0#64⟩))
    ∧ ((∀ i, i < s.inLen.toNat → l i ≠ 0) → t ≤ 2 ^ 64 - 1 →
      exec .estimate s = .next { s with
        totalBits := BitVec.ofNat 64 t, totalBytes := BitVec.ofNat 64 ((t + 7) / 8), result := BitVec.ofNat 64 ((t + 7) / 8)
        running := none, status := { s.status with done := true, phase := .idle } })

/-- 44 R180, R186: ENCODE. NO_CODE and SIZE_OVERFLOW as ESTIMATE; BUFFER_TOO_SMALL(min(PAYLOAD_OFF + nb, 2^64 - 1)) when the payload does
not fit; else the packing of the code words is at OUT_BASE + PAYLOAD_OFF, TOTAL_BITS and TOTAL_BYTES are its exact size, and RESULT is
TOTAL_BYTES; nothing else changes. -/
def Obligations.EncodeResult : Prop :=
  ∀ s : State, s.undisturbed = true → regionsOk true true s = true →
    let l := fun k => s.len[(inByte s k).toFin].toNat
    let t := ((List.range s.inLen.toNat).map l).sum
    let bits := (List.range s.inLen.toNat).flatMap fun k => codeWordBits s (inByte s k).toFin
    (∀ i, i < s.inLen.toNat → l i = 0 → (∀ j, j < i → l j ≠ 0) →
      exec .encode s = .next (s.failed .encode ⟨.noCode, BitVec.ofNat 64 i⟩))
    ∧ ((∀ i, i < s.inLen.toNat → l i ≠ 0) →
      (t > 2 ^ 64 - 1 → exec .encode s = .next (s.failed .encode ⟨.sizeOverflow, 0#64⟩))
      ∧ (t ≤ 2 ^ 64 - 1 → s.payloadOff.toNat + (t + 7) / 8 > s.outCap.toNat →
        exec .encode s = .next (s.failed .encode
          ⟨.bufferTooSmall, BitVec.ofNat 64 (min (s.payloadOff.toNat + (t + 7) / 8) (2 ^ 64 - 1))⟩))
      ∧ (t ≤ 2 ^ 64 - 1 → s.payloadOff.toNat + (t + 7) / 8 ≤ s.outCap.toNat →
        bits.length = t ∧ (pack bits).length = (t + 7) / 8
        ∧ exec .encode s = .next { s with
          mem := s.mem.writeBytes (s.outBase.toNat + s.payloadOff.toNat) (pack bits)
          totalBits := BitVec.ofNat 64 t, totalBytes := BitVec.ofNat 64 ((t + 7) / 8), result := BitVec.ofNat 64 ((t + 7) / 8)
          running := none, status := { s.status with done := true, phase := .idle } }))

/-- 20 R75: bit packing. ceil_div(T, 8) bytes; bit k of the stream is bit 7 - (k mod 8) of byte k div 8, 0 past the end; and decoders read
the bits in the same order. -/
def Obligations.BitPacking : Prop :=
  ∀ bits : List Bool,
    (pack bits).length = (bits.length + 7) / 8
    ∧ (∀ k, k < 8 * ((bits.length + 7) / 8) → ((pack bits).getD (k / 8) 0#8).getLsbD (7 - k % 8) = bits.getD k false)
    ∧ unpack (pack bits) = bits ++ List.replicate (8 * ((bits.length + 7) / 8) - bits.length) false

/-- 44 R181 to R185: the payload as N workers and the merge unit write it is the packing of the code stream, for every N, with the partition
Part(L, N) of 40 R120, and every table. -/
def Obligations.ParallelEncodeEquivalence : Prop :=
  ∀ (s : State) (n : Nat), 1 ≤ n → parallelPayload s (inputBytes s) n = pack (codeStream s (inputBytes s))

/-! ### WRHDR, PARSEHDR, DECODE -/

/-- 45 R200 to R203, R206: WRHDR and WRHDR.C. When the header does not fit, BUFFER_TOO_SMALL of its length; else the header's bytes, field by
field, are at OUT_BASE, HDR_LEN = PAYLOAD_OFF = RESULT is its length and TE is the mode; nothing else changes. -/
def Obligations.WriteHeader : Prop :=
  ∀ (tm : TableMode) (s : State), s.undisturbed = true → s.outBase.toNat + s.outCap.toNat ≤ 2 ^ 64 →
    let value := fun b : Fin 256 => match tm with
      | .freq => s.hist[b].toNat
      | .canon => s.len[b].toNat
    let coded := (List.finRange 256).filter fun b => value b != 0
    let hl := 16 + (match tm with | .freq => 9 | .canon => 2) * coded.length
    let le := fun (v n : Nat) => (List.range n).map fun k => BitVec.ofNat 8 (v / 256 ^ k)
    let header := [0x48#8, 0x55#8, 0x46#8, 0x5A#8, 0x01#8] ++ le s.origLen.toNat 8
      ++ [match tm with | .freq => 0x00#8 | .canon => 0x01#8] ++ le coded.length 2
      ++ coded.flatMap fun b => BitVec.ofNat 8 b.val :: le (value b) (match tm with | .freq => 8 | .canon => 1)
    header.length = hl
    ∧ (hl > s.outCap.toNat → exec (wrhdrOf tm) s = .next (s.failed .wrhdr ⟨.bufferTooSmall, BitVec.ofNat 64 hl⟩))
    ∧ (hl ≤ s.outCap.toNat → exec (wrhdrOf tm) s = .next { s with
        mem := s.mem.writeBytes s.outBase.toNat header
        hdrLen := BitVec.ofNat 64 hl, payloadOff := BitVec.ofNat 64 hl, result := BitVec.ofNat 64 hl, te := tm
        running := none, status := { s.status with done := true, phase := .idle } })

/-- 45 R210, R211: PARSEHDR accepts the input exactly when it begins with a valid header, and then loads the table it carries; otherwise it
ends with CORRUPT_MAGIC or CORRUPT_HEADER and changes no register it would load. 60 R281: the information of each, in R210's order:
CORRUPT_MAGIC of the first wrong or missing byte; CORRUPT_HEADER of IN_LEN when fewer than 16 bytes are there, 13 for TE, 14 for COUNT,
IN_LEN when an entry is cut off, o or o + 1 for the first entry whose byte does not ascend or whose value is 0, and, with every entry well
formed, 5 for OLEN, 17 for a single length that is not 1, 16 when the Kraft equality fails. -/
def Obligations.ParseHeader : Prop :=
  ∀ s : State, s.undisturbed = true → s.inBase.toNat + s.inLen.toNat ≤ 2 ^ 64 →
    (∀ te olen es rest, validEntries te olen es → inputBytes s = headerBytes te olen es ++ rest →
      ∃ h l, exec .parsehdr s = .next { s with
          hist := h, len := l, origLen := BitVec.ofNat 64 olen, te := te, nsym := BitVec.ofNat 9 es.length
          hdrLen := BitVec.ofNat 64 (headerLen te es.length), payloadOff := BitVec.ofNat 64 (headerLen te es.length)
          result := BitVec.ofNat 64 (headerLen te es.length), running := none
          status := { s.status with done := true, phase := .idle } }
        ∧ (te = .freq → l = s.len ∧ ∀ b : Fin 256, h[b].toNat = (es.lookup b.val).getD 0)
        ∧ (te = .canon → h = s.hist ∧ ∀ b : Fin 256, l[b].toNat = (es.lookup b.val).getD 0))
    ∧ ((¬ ∃ te olen es rest, validEntries te olen es ∧ inputBytes s = headerBytes te olen es ++ rest) →
      ∃ e : Raise, (e.code = .corruptMagic ∨ e.code = .corruptHeader) ∧ exec .parsehdr s = .next (s.failed .parsehdr e))
    ∧ (∀ o, o < 5 → (∀ j, j < o → j < s.inLen.toNat ∧ inByte s j = [0x48#8, 0x55#8, 0x46#8, 0x5A#8, 0x01#8].getD j 0#8) →
      (s.inLen.toNat ≤ o ∨ inByte s o ≠ [0x48#8, 0x55#8, 0x46#8, 0x5A#8, 0x01#8].getD o 0#8) →
      exec .parsehdr s = .next (s.failed .parsehdr ⟨.corruptMagic, BitVec.ofNat 64 o⟩))
    ∧ (magicOk s →
      let fails := fun o : Nat => exec .parsehdr s = .next (s.failed .parsehdr ⟨.corruptHeader, BitVec.ofNat 64 o⟩)
      let l := s.inLen.toNat
      let n := inNumber s 14 2
      (l < 16 → fails l)
      ∧ (16 ≤ l → 1 < (inByte s 13).toNat → fails 13)
      ∧ (16 ≤ l → (inByte s 13).toNat ≤ 1 → 256 < n → fails 14)
      ∧ ∀ te : TableMode, 16 ≤ l → (inByte s 13).toNat = te.toNat → n ≤ 256 →
        (l < 16 + entrySize te * n → fails l)
        ∧ (16 + entrySize te * n ≤ l →
          (∀ k, k < n → (∀ j, j < k → entryOk te s j) →
            (0 < k → (inByte s (16 + entrySize te * k)).toNat ≤ (inByte s (16 + entrySize te * (k - 1))).toNat →
              fails (16 + entrySize te * k))
            ∧ ((k = 0 ∨ (inByte s (16 + entrySize te * (k - 1))).toNat < (inByte s (16 + entrySize te * k)).toNat) →
              entryAt te s (16 + entrySize te * k) = 0 → fails (16 + entrySize te * k + 1)))
          ∧ ((∀ k, k < n → entryOk te s k) →
            let vs := (List.range n).map fun k => entryAt te s (16 + entrySize te * k)
            (te = .freq → vs.sum ≠ inNumber s 5 8 → fails 5)
            ∧ (te = .canon → ((n = 0 ∧ inNumber s 5 8 ≠ 0) ∨ (n ≠ 0 ∧ inNumber s 5 8 = 0)) → fails 5)
            ∧ (te = .canon → inNumber s 5 8 ≠ 0 → n = 1 → vs ≠ [1] → fails 17)
            ∧ (te = .canon → inNumber s 5 8 ≠ 0 → 2 ≤ n → (vs.map fun v => 2 ^ (255 - v)).sum ≠ 2 ^ 255 → fails 16))))

/-- 46 R231, R236, R238: DECODE of a payload that is the packing of codes that lead, in the tree of the arena, to the bytes' leaves: it
succeeds, writes exactly those bytes from OUT_BASE on, and RESULT is ORIG_LEN. -/
def Obligations.DecodeInvertsPacking : Prop :=
  ∀ (s : State) (xs : List Byte) (code : Byte → List Bool), s.undisturbed = true → s.mem.wf = true →
    regionsOk true true s = true → s.payloadOff.toNat ≤ s.inLen.toNat → xs.length = s.origLen.toNat →
    s.origLen.toNat ≤ s.outCap.toNat → (∀ x ∈ xs, code x ≠ [] ∧ leadsTo s (code x) x.toFin) →
    (inputBytes s).drop s.payloadOff.toNat = pack (xs.flatMap code) →
    ∃ t, exec .decode s = .next t ∧ doneWith s t s.status.empty s.origLen ∧ t.outBytes s.origLen.toNat = xs

/-- 46 R236, R237, R238: how DECODE fails: PAYLOAD_OFF past the input, an output region too small, no tree, bits that run out at a symbol
boundary or inside a code, the sentinel, a missing child, payload bytes left over, and a pad bit that is 1. -/
def Obligations.DecodeErrors : Prop :=
  ∀ (s : State), s.undisturbed = true → regionsOk true true s = true →
    (s.inLen.toNat < s.payloadOff.toNat → exec .decode s = .next (s.failed .check ⟨.badRegion, 4#64⟩))
    ∧ (s.payloadOff.toNat ≤ s.inLen.toNat → s.outCap.toNat < s.origLen.toNat →
      exec .decode s = .next (s.failed .check ⟨.bufferTooSmall, s.origLen⟩))
    ∧ (s.payloadOff.toNat ≤ s.inLen.toNat → s.origLen.toNat ≤ s.outCap.toNat →
      (0 < s.origLen.toNat → (s.root = noNode ∨ (nodeAt s.node s.root).leaf = true) →
        ∃ t, exec .decode s = .next t ∧ failedWith s t .decode .corruptCode 0#64)
      ∧ ∀ (xs : List Byte) (code : Byte → List Bool), (∀ x ∈ xs, code x ≠ [] ∧ leadsTo s (code x) x.toFin) →
        (∀ y ys, xs.length = s.origLen.toNat →
          (inputBytes s).drop s.payloadOff.toNat = pack (xs.flatMap code) ++ y :: ys →
          ∃ t, exec .decode s = .next t ∧ failedWith s t .decode .corruptLength s.origLen)
        ∧ (∀ pad, xs.length = s.origLen.toNat → pad.length < 8 → true ∈ pad → 8 ∣ (xs.flatMap code ++ pad).length →
          (inputBytes s).drop s.payloadOff.toNat = pack (xs.flatMap code ++ pad) →
          ∃ t, exec .decode s = .next t ∧ failedWith s t .decode .corruptPad s.origLen)
        ∧ (∀ p rest, xs.length < s.origLen.toNat → leadsToSentinel s p →
          8 ∣ (xs.flatMap code ++ p ++ rest).length →
          (inputBytes s).drop s.payloadOff.toNat = pack (xs.flatMap code ++ p ++ rest) → p ≠ [] →
          ∃ t, exec .decode s = .next t ∧ failedWith s t .decode .corruptCode (BitVec.ofNat 64 xs.length))
        ∧ (∀ p rest, xs.length < s.origLen.toNat → leadsNowhere s p →
          8 ∣ (xs.flatMap code ++ p ++ rest).length →
          (inputBytes s).drop s.payloadOff.toNat = pack (xs.flatMap code ++ p ++ rest) →
          ∃ t, exec .decode s = .next t ∧ failedWith s t .decode .corruptCode (BitVec.ofNat 64 xs.length))
        ∧ (∀ x p q, xs.length < s.origLen.toNat → leadsTo s (p ++ q) x → q ≠ [] →
          8 ∣ (xs.flatMap code ++ p).length → (inputBytes s).drop s.payloadOff.toNat = pack (xs.flatMap code ++ p) →
          ∃ t, exec .decode s = .next t
            ∧ failedWith s t .decode (if followPath s.node s.root p = some s.root then .corruptLength else .corruptOutOfBits)
              (BitVec.ofNat 64 xs.length)))

/-- 46 R239, R240: decoding the segments between sync points of the sequential walk, one after another from where each starts, is the
sequential decode, in outcome and in error, for every choice of sync points. -/
def Obligations.ParallelDecodeEquivalence : Prop :=
  ∀ (node : Vector Node 511) (root : Index) (ms : List Nat) (k : Nat) (bits : List Bool),
    decodeSegments node root ms k bits = decodeSymbols node root ms.sum k bits

/-! ### COMPRESS, DECOMPRESS -/

/-- 47 R260, R262: COMPRESS and COMPRESS.C. With the tables of HIST, BUILD, DERIVE (and CANON) over the input: when the code words are more
than 2^64 - 1 bits, SIZE_OVERFLOW(0) in ESTIMATE with memory, TOTAL_BITS and TOTAL_BYTES as before; when the stream does not fit,
BUFFER_TOO_SMALL(min(need, 2^64 - 1)) in CHECK with memory unchanged and HDR_LEN, PAYLOAD_OFF and HDRINFO as before; else the header and
the packed code words are at OUT_BASE and RESULT is the stream length. -/
def Obligations.CompressResult : Prop :=
  ∀ (tm : TableMode) (s : State), s.undisturbed = true → regionsOk true true s = true →
    let c := compressTables tm s
    let bits := codeStream c (inputBytes s)
    let entries := headerEntries tm c
    let header := headerBytes tm s.inLen.toNat entries
    let need := headerLen tm entries.length + (bits.length + 7) / 8
    (bits.length > 2 ^ 64 - 1 → ∃ t, exec (compressOf tm) s = .next t ∧ t.mem = s.mem
        ∧ failedWith s t .estimate .sizeOverflow 0#64
        ∧ t.status.empty = (s.status.empty || s.inLen == 0#64)
        ∧ t.totalBits = s.totalBits ∧ t.totalBytes = s.totalBytes
        ∧ t.hdrLen = s.hdrLen ∧ t.payloadOff = s.payloadOff ∧ t.te = s.te
        ∧ t.hist = c.hist ∧ t.len = c.len ∧ t.code = c.code ∧ t.node = c.node ∧ t.root = c.root ∧ t.nnodes = c.nnodes
        ∧ t.nsym = c.nsym ∧ t.origLen = s.inLen)
    ∧ (bits.length ≤ 2 ^ 64 - 1 → need > s.outCap.toNat → ∃ t, exec (compressOf tm) s = .next t ∧ t.mem = s.mem
        ∧ failedWith s t .check .bufferTooSmall (BitVec.ofNat 64 (min need (2 ^ 64 - 1)))
        ∧ t.status.empty = (s.status.empty || s.inLen == 0#64)
        ∧ t.totalBits = BitVec.ofNat 64 bits.length ∧ t.totalBytes = BitVec.ofNat 64 ((bits.length + 7) / 8)
        ∧ t.hdrLen = s.hdrLen ∧ t.payloadOff = s.payloadOff ∧ t.te = s.te
        ∧ t.hist = c.hist ∧ t.len = c.len ∧ t.code = c.code ∧ t.node = c.node ∧ t.root = c.root ∧ t.nnodes = c.nnodes
        ∧ t.nsym = c.nsym ∧ t.origLen = s.inLen)
    ∧ (bits.length ≤ 2 ^ 64 - 1 → need ≤ s.outCap.toNat → exec (compressOf tm) s = .next { c with
        mem := s.mem.writeBytes s.outBase.toNat (header ++ pack bits)
        totalBits := BitVec.ofNat 64 bits.length, totalBytes := BitVec.ofNat 64 ((bits.length + 7) / 8)
        hdrLen := BitVec.ofNat 64 header.length, payloadOff := BitVec.ofNat 64 header.length, te := tm
        result := BitVec.ofNat 64 need, running := none
        status := { s.status with done := true, phase := .idle, empty := s.status.empty || s.inLen == 0#64 } })

/-- 47 R264: the stepwise commands HIST, BUILD, DERIVE(tm), ESTIMATE, WRHDR(tm) and ENCODE complete with DONE, each in turn, exactly when
COMPRESS(tm) succeeds, and then leave the memory, registers and RAMs, ERRINFO among them, that one COMPRESS(tm) leaves, but for RESULT, CMD
and STATUS, whose values are as the rule says. Left out are runs that a race (20 R85) or a fault reply of the memory port (20 R80; log entry
4) touches: each command is taken as accepted with neither, its regions holding no address of the register window (20 R71; log entry 27). -/
def Obligations.StepwiseEquivalence : Prop :=
  ∀ (tm : TableMode) (s : State), s.running = none →
    (∀ t, exec (compressOf tm) (s.latched (compressOf tm)) = .next t → t.status.err = false →
      t.status.done = true ∧ ∃ u, completeInTurn (stepwise tm) s u ∧ stepwiseAgree t u)
    ∧ (∀ u, completeInTurn (stepwise tm) s u → ∃ t, completesTo (compressOf tm) s t ∧ stepwiseAgree t u)

/-- 47 R269, 20 R86: COMPRESS's output bytes and RESULT are a function of TM and the input bytes alone: neither N, nor what the RAMs and the
output region held before, affects them; DECOMPRESS's are a function of the stream bytes alone. -/
def Obligations.OutputDeterminism : Prop :=
  (∀ (tm : TableMode) (s s' t t' : State), s.undisturbed = true → s'.undisturbed = true → s.mem.wf = true → s'.mem.wf = true →
    s.status.err = false → s'.status.err = false → inputBytes s = inputBytes s' →
    exec (compressOf tm) s = .next t → exec (compressOf tm) s' = .next t' → t.status.err = false → t'.status.err = false →
    t.result = t'.result ∧ t.outBytes t.result.toNat = t'.outBytes t'.result.toNat)
  ∧ (∀ s s' t t' : State, s.undisturbed = true → s'.undisturbed = true → s.mem.wf = true → s'.mem.wf = true →
    s.status.err = false → s'.status.err = false → inputBytes s = inputBytes s' →
    exec .decompress s = .next t → exec .decompress s' = .next t' → t.status.err = false → t'.status.err = false →
    t.result = t'.result ∧ t.outBytes t.result.toNat = t'.outBytes t'.result.toNat)

/-- 47 R271: errors that cannot arise inside the composite commands: NO_CODE, BAD_TABLE and the BUFFER_TOO_SMALL of WRHDR and ENCODE in
COMPRESS; BAD_TABLE and BAD_REGION(4) in DECOMPRESS. -/
def Obligations.ErrorsThatCannotArise : Prop :=
  ∀ (s t : State), s.raced = false → s.status.errCode = .none →
    (∀ tm, exec (compressOf tm) s = .next t → t.status.errCode ≠ .noCode ∧ t.status.errCode ≠ .badTable
      ∧ (t.status.errCode = .bufferTooSmall → t.status.phase = .check))
    ∧ (exec .decompress s = .next t → t.status.errCode ≠ .badTable
      ∧ (t.status.errCode = .badRegion → t.errInfo ≠ 4#64))

/-- 47 R265, R266, R267: DECOMPRESS of a valid header followed by the packing of the codes its table stands for: it succeeds, the output bytes
are the coded bytes, and RESULT and ORIG_LEN are their number; with an output region too small it reports BUFFER_TOO_SMALL(ORIG_LEN) in
CHECK, ORIG_LEN is loaded and memory is unchanged. -/
def Obligations.DecompressResult : Prop :=
  ∀ (te : TableMode) (es : List (Nat × Nat)) (xs : List Byte) (s : State), s.undisturbed = true → s.mem.wf = true →
    regionsOk true true s = true → validEntries te xs.length es →
    let c := headerTables te es s
    (∀ x ∈ xs, c.len[x.toFin] ≠ 0#8) →
    inputBytes s = headerBytes te xs.length es ++ pack (codeStream c xs) →
    (xs.length ≤ s.outCap.toNat →
      ∃ t, exec .decompress s = .next t ∧ doneWith s t s.status.empty (BitVec.ofNat 64 xs.length)
        ∧ t.outBytes xs.length = xs ∧ t.origLen.toNat = xs.length ∧ t.te = te
        ∧ t.hdrLen.toNat = headerLen te es.length ∧ t.payloadOff = t.hdrLen
        ∧ (te = .freq → t.len = s.len ∧ t.code = s.code) ∧ (te = .canon → t.hist = s.hist))
    ∧ (s.outCap.toNat < xs.length →
      ∃ t, exec .decompress s = .next t ∧ failedWith s t .check .bufferTooSmall (BitVec.ofNat 64 xs.length)
        ∧ t.origLen.toNat = xs.length ∧ t.mem = s.mem)

/-- 47 R268: round-trip. A stream COMPRESS(tm) wrote, given to DECOMPRESS as its whole input region with an output region that holds the
original length, decompresses to the original bytes. -/
def Obligations.RoundTrip : Prop :=
  ∀ (tm : TableMode) (s t u : State), s.undisturbed = true → s.mem.wf = true → s.status.err = false →
    exec (compressOf tm) s = .next t → t.status.err = false →
    u.undisturbed = true → u.mem.wf = true → regionsOk true true u = true → inputBytes u = t.outBytes t.result.toNat →
    s.inLen.toNat ≤ u.outCap.toNat →
    ∃ v, exec .decompress u = .next v ∧ doneWith u v u.status.empty s.inLen
      ∧ v.outBytes s.inLen.toNat = inputBytes s

/-- 46 R241: a stream COMPRESS(tm) wrote, cut by its last byte, makes DECOMPRESS end with ERR and a CorruptStream code. -/
def Obligations.TruncatedStreamIsCorrupt : Prop :=
  ∀ (tm : TableMode) (s t u : State), s.undisturbed = true → s.mem.wf = true → s.status.err = false →
    exec (compressOf tm) s = .next t → t.status.err = false →
    u.undisturbed = true → u.mem.wf = true → regionsOk true true u = true →
    inputBytes u = (t.outBytes t.result.toNat).dropLast → s.inLen.toNat ≤ u.outCap.toNat →
    ∃ v, exec .decompress u = .next v ∧ v.running = none ∧ v.status.err = true ∧ v.status.errCode.corrupt = true
      ∧ v.result = 0#64
end

