-- ==== Sys2Proof/Laws/Derive.lean ====
section
/-!
SUPPORT. The laws of DERIVE's traversal: over every arena in which the paths from ROOT are finite, trees and arenas with shared children
alike, the explicit stack of 42 R150 gives the table of a plain recursion over the nodes, and that table lists exactly the paths that lead
to leaves of byte values. A prover cites these and unfolds no traversal.
-/
namespace Sys2Proof.Machine

/-- The entries of a child's table, each path with the child's bit before it. -/
def stepped (bit : Bool) (t : PathTable) : PathTable := t.map fun e => (e.1, bit :: e.2)

/-- The table of the paths from a node, the latest recorded first; none where a path has `depth` edges. -/
def leafPaths (node : Vector Node 511) : Nat → Index → Option PathTable
  | 0, _ => none
  | depth + 1, i =>
    if (nodeAt node i).leaf then
      some (if (nodeAt node i).sym.toNat < 256 then [((nodeAt node i).sym.toNat, [])] else [])
    else
      match (if (nodeAt node i).right = noNode then some [] else leafPaths node depth (nodeAt node i).right),
        (if (nodeAt node i).left = noNode then some [] else leafPaths node depth (nodeAt node i).left) with
      | some r, some l => some (stepped true r ++ stepped false l)
      | _, _ => none

/-- A table put after a path. -/
def PathTable.after (t : PathTable) (p : List Bool) : PathTable := t.map fun e => (e.1, p ++ e.2)

@[simp] theorem PathTable.after_nil (t : PathTable) : t.after [] = t := by simp [PathTable.after]

theorem PathTable.after_append (t u : PathTable) (p : List Bool) : PathTable.after (t ++ u) p = t.after p ++ u.after p := by
  simp [PathTable.after]

theorem stepped_after (bit : Bool) (t : PathTable) (p : List Bool) : (stepped bit t).after p = t.after (p ++ [bit]) := by
  simp [stepped, PathTable.after]

/-- What the traversal does from one pending node on: it pops the nodes of its paths, records their table and goes on with the rest of the
stack. -/
theorem deriveWalk_leafPaths (node : Vector Node 511) : ∀ (d : Nat) (i : Index) (t : PathTable), leafPaths node d i = some t →
    ∃ n, n + 1 ≤ 2 ^ d ∧ ∀ fuel p stack acc,
      deriveWalk node (fuel + n) ((i, p) :: stack) acc = deriveWalk node fuel stack (t.after p ++ acc)
  | 0, _, _, h => by cases h
  | d + 1, i, t, h => by
    have child : ∀ (c : Index) (u : PathTable), (if c = noNode then some [] else leafPaths node d c) = some u →
        ∃ n, n + 1 ≤ 2 ^ d ∧ ∀ fuel q stack acc,
          deriveWalk node (fuel + n) ((if c = noNode then [] else [(c, q)]) ++ stack) acc
            = deriveWalk node fuel stack (u.after q ++ acc) := by
      intro c u hu
      by_cases hc : c = noNode
      · simp only [hc, if_true, Option.some.injEq] at hu ⊢
        subst hu
        exact ⟨0, Nat.one_le_two_pow, fun _ _ _ _ => rfl⟩
      · simp only [hc, if_false] at hu ⊢
        exact deriveWalk_leafPaths node d c u hu
    unfold leafPaths at h
    have pow : 2 ^ (d + 1) = 2 ^ d + 2 ^ d := by rw [Nat.pow_succ]; omega
    split at h
    · rename_i hl
      injection h with h
      subst h
      refine ⟨1, ?_, fun fuel p stack acc => ?_⟩
      · have := Nat.one_le_two_pow (n := d)
        omega
      · by_cases hs : (nodeAt node i).sym.toNat < 256 <;> simp [deriveWalk, hl, hs, PathTable.after]
    · rename_i hl
      split at h
      · rename_i r l hr hlft
        injection h with h
        subst h
        obtain ⟨nr, br, er⟩ := child _ _ hr
        obtain ⟨nl, bl, el⟩ := child _ _ hlft
        refine ⟨nr + nl + 1, by omega, fun fuel p stack acc => ?_⟩
        have e : fuel + (nr + nl + 1) = (fuel + nr + nl) + 1 := by omega
        rw [e, deriveWalk]
        simp only [hl]
        rw [if_neg (by simp), List.append_assoc, el, er, PathTable.after_append, stepped_after, stepped_after, List.append_assoc]
      · cases h

/-- The table of an arena whose paths from ROOT have at most 510 edges, as every arena without a cycle has. -/
theorem derivePaths_leafPaths {node : Vector Node 511} {root : Index} {t : PathTable} (hr : root ≠ noNode)
    (h : leafPaths node Config.arena root = some t) : derivePaths node root = some t := by
  obtain ⟨n, hn, e⟩ := deriveWalk_leafPaths node Config.arena root t h
  have hf : traversalPops = (traversalPops - n) + n := by
    have : n + 1 ≤ traversalPops := hn
    omega
  rw [derivePaths, if_neg hr, hf, e]
  cases traversalPops - n <;> simp [deriveWalk]

/-- The table lists exactly the paths that lead to leaves of byte values. -/
theorem mem_leafPaths (node : Vector Node 511) : ∀ (d : Nat) (i : Index) (t : PathTable), leafPaths node d i = some t →
    ∀ (b : Nat) (p : List Bool), (b, p) ∈ t ↔ ∃ j, followPath node i p = some j ∧ (nodeAt node j).leaf = true
      ∧ (nodeAt node j).sym.toNat = b ∧ b < 256
  | 0, _, _, h => by cases h
  | d + 1, i, t, h => by
    intro b p
    unfold leafPaths at h
    split at h
    · rename_i hl
      injection h with h
      subst h
      cases p with
      | nil =>
        by_cases hs : (nodeAt node i).sym.toNat < 256
        · simp [followPath, hl, hs]
          constructor
          · rintro rfl
            exact ⟨rfl, hs⟩
          · rintro ⟨rfl, _⟩
            rfl
        · simp [followPath, hl, hs]
          rintro rfl
          omega
      | cons c cs => by_cases hs : (nodeAt node i).sym.toNat < 256 <;> simp [followPath, hl, hs]
    · rename_i hl
      split at h
      · rename_i r l hr hlft
        injection h with h
        subst h
        have child : ∀ (c : Index) (u : PathTable), (if c = noNode then some [] else leafPaths node d c) = some u →
            ∀ q, (b, q) ∈ u ↔ c ≠ noNode ∧ ∃ j, followPath node c q = some j ∧ (nodeAt node j).leaf = true
              ∧ (nodeAt node j).sym.toNat = b ∧ b < 256 := by
          intro c u hu q
          by_cases hc : c = noNode
          · simp only [hc, if_true, Option.some.injEq] at hu
            simp [← hu, hc]
          · simp only [hc, if_false] at hu
            simp [hc, mem_leafPaths node d c u hu b q]
        cases p with
        | nil => simp [followPath, stepped, hl]
        | cons c cs =>
          have hc := child _ _ hr cs
          have hc' := child _ _ hlft cs
          cases c
          · by_cases hn : (nodeAt node i).left = noNode <;>
              simp_all [followPath, stepped, Node.child]
          · by_cases hn : (nodeAt node i).right = noNode <;>
              simp_all [followPath, stepped, Node.child]
      · cases h

/-- Where no path has `d` edges there is a table. -/
theorem leafPaths_of_short (node : Vector Node 511) : ∀ (d : Nat) (i : Index),
    (∀ p : List Bool, p.length = d → followPath node i p = none) → ∃ t, leafPaths node d i = some t
  | 0, _, h => by cases h [] rfl
  | d + 1, i, h => by
    unfold leafPaths
    split
    · exact ⟨_, rfl⟩
    · rename_i hl
      have child : ∀ bit, ∃ t, (if (nodeAt node i).child bit = noNode then some []
          else leafPaths node d ((nodeAt node i).child bit)) = some t := by
        intro bit
        by_cases hc : (nodeAt node i).child bit = noNode
        · exact ⟨[], by simp [hc]⟩
        · simp only [hc, if_false]
          exact leafPaths_of_short node d _ fun p hp => by simpa [followPath, hl, hc] using h (bit :: p) (by simp [hp])
      obtain ⟨r, hr⟩ := child true
      obtain ⟨l, hlft⟩ := child false
      simp only [Node.child, if_true] at hr
      simp only [Node.child, Bool.false_eq_true, if_false] at hlft
      rw [hr, hlft]
      exact ⟨_, rfl⟩

theorem visitedBefore_stepped {q p : List Bool} (bit : Bool) (h : visitedBefore q p) : visitedBefore (bit :: q) (bit :: p) := by
  obtain ⟨r, x, y, rfl, rfl⟩ := h
  exact ⟨bit :: r, x, y, rfl, rfl⟩

/-- A table lists its paths in the reverse of the order the traversal visits them in, so a lookup finds the path visited last. -/
theorem leafPaths_order (node : Vector Node 511) : ∀ (d : Nat) (i : Index) (t : PathTable), leafPaths node d i = some t →
    t.Pairwise fun e f => visitedBefore f.2 e.2
  | 0, _, _, h => by cases h
  | d + 1, i, t, h => by
    unfold leafPaths at h
    split at h
    · injection h with h
      subst h
      split <;> simp
    · split at h
      · rename_i r l hr hlft
        injection h with h
        subst h
        have child : ∀ (c : Index) (u : PathTable) (bit : Bool), (if c = noNode then some [] else leafPaths node d c) = some u →
            (stepped bit u).Pairwise fun e f => visitedBefore f.2 e.2 := by
          intro c u bit hu
          refine List.Pairwise.map _ (fun _ _ => visitedBefore_stepped bit) ?_
          by_cases hc : c = noNode
          · simp only [hc, if_true, Option.some.injEq] at hu
            exact hu ▸ List.Pairwise.nil
          · simp only [hc, if_false] at hu
            exact leafPaths_order node d c u hu
        refine List.pairwise_append.mpr ⟨child _ _ true hr, child _ _ false hlft, ?_⟩
        intro a ha b hb
        simp only [stepped, List.mem_map] at ha hb
        obtain ⟨e, _, rfl⟩ := ha
        obtain ⟨f, _, rfl⟩ := hb
        exact ⟨[], f.2, e.2, rfl, rfl⟩
      · cases h

end Sys2Proof.Machine
end

