-- ==== Sys2Proof/Laws/Memory.lean ====
section
/-!
SUPPORT. The laws of system memory: reads after writes, the canonical form, and that a canonical memory is determined by its reads.
-/
namespace Sys2Proof.Machine

theorem Memory.wfFrom_mono {lo lo' : Nat} {m : Memory} (h : lo' ≤ lo) (w : Memory.wfFrom lo m = true) :
    Memory.wfFrom lo' m = true := by
  cases m with
  | nil => rfl
  | cons c m =>
    simp only [Memory.wfFrom, Bool.and_eq_true, decide_eq_true_eq] at w ⊢
    exact ⟨⟨⟨by omega, w.1.1.2⟩, w.1.2⟩, w.2⟩

/-- No entry lies below the bound. -/
theorem Memory.read_below {lo x : Nat} {m : Memory} (w : Memory.wfFrom lo m = true) (h : x < lo) :
    Memory.read m x = Memory.unlisted := by
  induction m generalizing lo with
  | nil => rfl
  | cons c m ih =>
    simp only [Memory.wfFrom, Bool.and_eq_true, decide_eq_true_eq] at w
    have hne : x ≠ c.1 := by omega
    simp only [Memory.read, hne, if_false]
    exact ih w.2 (by omega)

theorem Memory.read_put_same {lo : Nat} {m : Memory} (w : Memory.wfFrom lo m = true) (x : Nat) (v : Byte) :
    Memory.read (Memory.put m x v) x = v := by
  induction m generalizing lo with
  | nil => by_cases h : v = Memory.unlisted <;> simp [Memory.put, Memory.read, h]
  | cons c m ih =>
    simp only [Memory.wfFrom, Bool.and_eq_true, decide_eq_true_eq] at w
    simp only [Memory.put]
    split
    · split
      · subst v
        have : x ≠ c.1 := by omega
        simp only [Memory.read, this, if_false]
        exact Memory.read_below w.2 (by omega)
      · simp [Memory.read]
    · split
      · split
        · subst v
          exact Memory.read_below w.2 (by omega)
        · simp [Memory.read]
      · rename_i _ h
        simp only [Memory.read, h, if_false]
        exact ih w.2

theorem Memory.read_put_ne (m : Memory) {x y : Nat} (v : Byte) (h : y ≠ x) :
    Memory.read (Memory.put m x v) y = Memory.read m y := by
  induction m with
  | nil => by_cases hv : v = Memory.unlisted <;> simp [Memory.put, Memory.read, h, hv]
  | cons c m ih =>
    simp only [Memory.put]
    split
    · split <;> simp [Memory.read, h]
    · split
      · rename_i hx
        subst hx
        split <;> simp [Memory.read, h]
      · simp only [Memory.read, ih]

theorem Memory.wfFrom_put {lo x : Nat} {m : Memory} (w : Memory.wfFrom lo m = true) (hlo : lo ≤ x) (hx : x < 2 ^ 64)
    (v : Byte) : Memory.wfFrom lo (Memory.put m x v) = true := by
  induction m generalizing lo with
  | nil =>
    by_cases h : v = Memory.unlisted
    · simp [Memory.put, Memory.wfFrom, h]
    · simp only [Memory.put, h, if_false, Memory.wfFrom, Bool.and_eq_true, decide_eq_true_eq]
      exact ⟨⟨⟨hlo, hx⟩, by simpa using h⟩, trivial⟩
  | cons c m ih =>
    have w' := w
    simp only [Memory.wfFrom, Bool.and_eq_true, decide_eq_true_eq] at w
    simp only [Memory.put]
    split
    · split
      · exact w'
      · rename_i h1 h2
        simp only [Memory.wfFrom, Bool.and_eq_true, decide_eq_true_eq]
        refine ⟨⟨⟨hlo, hx⟩, by simpa using h2⟩, ⟨⟨⟨by omega, w.1.1.2⟩, w.1.2⟩, w.2⟩⟩
    · split
      · split
        · exact Memory.wfFrom_mono (by omega) w.2
        · rename_i h1 h2 h3
          simp only [Memory.wfFrom, Bool.and_eq_true, decide_eq_true_eq]
          exact ⟨⟨⟨hlo, hx⟩, by simpa using h3⟩, h2 ▸ w.2⟩
      · simp only [Memory.wfFrom, Bool.and_eq_true, decide_eq_true_eq]
        exact ⟨w.1, ih w.2 (by omega)⟩

/-- A read after a write to the same address gives the value written. -/
theorem Memory.read_write_same {m : Memory} (w : m.wf = true) {x : Nat} (hx : x < 2 ^ 64) (v : Byte) :
    (m.write x v).read x = v := by
  simp only [Memory.write, hx, if_true]
  exact Memory.read_put_same w x v

/-- A write leaves every other address alone. -/
theorem Memory.read_write_ne (m : Memory) {x y : Nat} (v : Byte) (h : y ≠ x) : (m.write x v).read y = m.read y := by
  unfold Memory.write
  split
  · exact Memory.read_put_ne m v h
  · rfl

/-- A write keeps the canonical form. -/
theorem Memory.wf_write {m : Memory} (w : m.wf = true) (x : Nat) (v : Byte) : (m.write x v).wf = true := by
  unfold Memory.write
  split
  · exact Memory.wfFrom_put w (Nat.zero_le x) ‹_› v
  · exact w

/-- Writing a list of bytes keeps the canonical form. -/
theorem Memory.wf_writeBytes {m : Memory} (w : m.wf = true) (base : Nat) (bs : List Byte) :
    (m.writeBytes base bs).wf = true := by
  induction bs generalizing m base with
  | nil => exact w
  | cons b bs ih => exact ih (Memory.wf_write w base b) (base + 1)

/-- Writing a list of bytes leaves every address outside them alone. -/
theorem Memory.read_writeBytes_outside (m : Memory) (base : Nat) (bs : List Byte) {a : Nat}
    (h : a < base ∨ base + bs.length ≤ a) : (m.writeBytes base bs).read a = m.read a := by
  induction bs generalizing m base with
  | nil => rfl
  | cons b bs ih =>
    simp only [List.length_cons] at h
    simp only [Memory.writeBytes]
    rw [ih _ _ (by omega), Memory.read_write_ne _ _ (by omega)]

/-- A byte of a written list reads as written. -/
theorem Memory.read_writeBytes_inside {m : Memory} (w : m.wf = true) (base : Nat) (bs : List Byte) (k : Nat)
    (hk : k < bs.length) (ha : base + k < 2 ^ 64) : (m.writeBytes base bs).read (base + k) = bs[k] := by
  induction bs generalizing m base k with
  | nil => simp at hk
  | cons b bs ih =>
    simp only [Memory.writeBytes]
    cases k with
    | zero =>
      rw [Memory.read_writeBytes_outside _ _ _ (by omega)]
      simpa using Memory.read_write_same w ha b
    | succ k =>
      have := ih (Memory.wf_write w base b) (base + 1) k (by simpa using hk) (by omega)
      rw [Nat.add_right_comm, Nat.add_assoc] at this
      simpa using this

@[simp] theorem Memory.length_readBytes (m : Memory) (base n : Nat) : (m.readBytes base n).length = n := by
  simp [Memory.readBytes]

theorem Memory.getElem_readBytes (m : Memory) (base n k : Nat) (h : k < (m.readBytes base n).length) :
    (m.readBytes base n)[k] = m.read (base + k) := by
  simp [Memory.readBytes]

/-- Written bytes read back. -/
theorem Memory.readBytes_writeBytes {m : Memory} (w : m.wf = true) (base : Nat) (bs : List Byte)
    (h : base + bs.length ≤ 2 ^ 64) : (m.writeBytes base bs).readBytes base bs.length = bs := by
  apply List.ext_getElem (by simp)
  intro k h1 h2
  rw [Memory.getElem_readBytes]
  exact Memory.read_writeBytes_inside w base bs k h2 (by omega)

/-- Bytes outside a written list read as before. -/
theorem Memory.readBytes_writeBytes_outside (m : Memory) (base : Nat) (bs : List Byte) (lo n : Nat)
    (h : lo + n ≤ base ∨ base + bs.length ≤ lo) : (m.writeBytes base bs).readBytes lo n = m.readBytes lo n := by
  apply List.ext_getElem (by simp)
  intro k h1 h2
  rw [Memory.length_readBytes] at h1
  rw [Memory.getElem_readBytes, Memory.getElem_readBytes, Memory.read_writeBytes_outside _ _ _ (by omega)]

theorem Memory.wfFrom_ext {lo : Nat} {m m' : Memory} (w : Memory.wfFrom lo m = true) (w' : Memory.wfFrom lo m' = true)
    (h : ∀ a, m.read a = m'.read a) : m = m' := by
  induction m generalizing lo m' with
  | nil =>
    cases m' with
    | nil => rfl
    | cons c m' =>
      simp only [Memory.wfFrom, Bool.and_eq_true, decide_eq_true_eq] at w'
      have := h c.1
      simp [Memory.read] at this
      simp [← this] at w'
  | cons c m ih =>
    simp only [Memory.wfFrom, Bool.and_eq_true, decide_eq_true_eq] at w
    cases m' with
    | nil =>
      have := h c.1
      simp [Memory.read] at this
      simp [this] at w
    | cons d m' =>
      simp only [Memory.wfFrom, Bool.and_eq_true, decide_eq_true_eq] at w'
      have hcd : c.1 = d.1 := by
        rcases Nat.lt_trichotomy c.1 d.1 with hl | he | hl
        · have h1 := h c.1
          have hne : c.1 ≠ d.1 := by omega
          simp only [Memory.read, if_true, hne, if_false] at h1
          rw [Memory.read_below w'.2 (by omega)] at h1
          simp [h1] at w
        · exact he
        · have h1 := h d.1
          have hne : d.1 ≠ c.1 := by omega
          simp only [Memory.read, if_true, hne, if_false] at h1
          rw [Memory.read_below w.2 (by omega)] at h1
          simp [← h1] at w'
      have hv : c.2 = d.2 := by
        have := h c.1
        simpa [Memory.read, hcd] using this
      have htail : m = m' := by
        refine ih w.2 (hcd ▸ w'.2) fun a => ?_
        by_cases ha : a = c.1
        · subst ha
          rw [Memory.read_below w.2 (by omega), Memory.read_below w'.2 (by omega)]
        · have h1 := h a
          have ha' : a ≠ d.1 := hcd ▸ ha
          simpa [Memory.read, ha, ha'] using h1
      rw [htail, Prod.ext hcd hv]

/-- Two canonical memories that read the same everywhere are equal. -/
theorem Memory.ext_read {m m' : Memory} (w : m.wf = true) (w' : m'.wf = true) (h : ∀ a, m.read a = m'.read a) : m = m' :=
  Memory.wfFrom_ext w w' h

theorem Memory.wf_nil : Memory.wf [] = true := rfl

@[simp] theorem length_freeBytes (d n : Nat) : (freeBytes d n).length = n := by simp [freeBytes]

@[simp] theorem length_inputBytes (s : State) : (inputBytes s).length = s.inLen.toNat := by simp [inputBytes]

/-- Unspecified output bytes keep the canonical form. -/
theorem State.wf_unspecifiedOutput {s : State} (w : s.mem.wf = true) (lo hi : Nat) :
    (s.unspecifiedOutput lo hi).mem.wf = true :=
  Memory.wf_writeBytes w _ _

/-- Unspecified output bytes are only those of the span. -/
theorem State.read_unspecifiedOutput (s : State) (lo hi : Nat) {a : Nat}
    (h : a < s.outBase.toNat + lo ∨ s.outBase.toNat + hi ≤ a) (hl : lo ≤ hi) :
    (s.unspecifiedOutput lo hi).mem.read a = s.mem.read a := by
  refine Memory.read_writeBytes_outside _ _ _ ?_
  simp only [length_freeBytes]
  omega

end Sys2Proof.Machine
end

