-- ==== Sys2Proof/Laws/PerInstr.lean ====
section
/-!
SUPPORT. The per-instruction family WordRoundTrip: an instruction's word is a legal command word, and the host's numbering of its
opcode-table row decodes to it (30 R103, R106, R111).
-/
namespace Sys2Proof.Laws.WordRoundTrip

/-- The instruction is well-formed, its word legal, and its row decodes to it. -/
def Statement (i : Instr) : Prop :=
  i.wellFormed = true ∧ wellFormedWord (Sys2Proof.encode i) = true ∧ decodeTableWord 64 (Sys2Proof.encode i).toNat = some i

theorem hist : Statement .hist := by unfold Statement; decide
theorem build : Statement .build := by unfold Statement; decide
theorem derive : Statement .derive := by unfold Statement; decide
theorem deriveC : Statement .deriveC := by unfold Statement; decide
theorem canon : Statement .canon := by unfold Statement; decide
theorem ctree : Statement .ctree := by unfold Statement; decide
theorem estimate : Statement .estimate := by unfold Statement; decide
theorem encode : Statement .encode := by unfold Statement; decide
theorem wrhdr : Statement .wrhdr := by unfold Statement; decide
theorem wrhdrC : Statement .wrhdrC := by unfold Statement; decide
theorem parsehdr : Statement .parsehdr := by unfold Statement; decide
theorem decode : Statement .decode := by unfold Statement; decide
theorem compress : Statement .compress := by unfold Statement; decide
theorem compressC : Statement .compressC := by unfold Statement; decide
theorem decompress : Statement .decompress := by unfold Statement; decide

end Sys2Proof.Laws.WordRoundTrip
end

