-- ==== Sys2Proof/Laws/State.lean ====
section
/-!
SUPPORT. What each update of the state does to each field: one lemma per field per update, so that no proof unfolds a record update.
-/
namespace Sys2Proof.Machine

@[simp] theorem State.succeeded_ie (s : State) (r : Word) : (s.succeeded r).ie = s.ie := rfl
@[simp] theorem State.succeeded_workers (s : State) (r : Word) : (s.succeeded r).workers = s.workers := rfl
@[simp] theorem State.succeeded_cmd (s : State) (r : Word) : (s.succeeded r).cmd = s.cmd := rfl
@[simp] theorem State.succeeded_status (s : State) (r : Word) : (s.succeeded r).status = { s.status with done := true, phase := .idle } := rfl
@[simp] theorem State.succeeded_inBase (s : State) (r : Word) : (s.succeeded r).inBase = s.inBase := rfl
@[simp] theorem State.succeeded_inLen (s : State) (r : Word) : (s.succeeded r).inLen = s.inLen := rfl
@[simp] theorem State.succeeded_outBase (s : State) (r : Word) : (s.succeeded r).outBase = s.outBase := rfl
@[simp] theorem State.succeeded_outCap (s : State) (r : Word) : (s.succeeded r).outCap = s.outCap := rfl
@[simp] theorem State.succeeded_origLen (s : State) (r : Word) : (s.succeeded r).origLen = s.origLen := rfl
@[simp] theorem State.succeeded_payloadOff (s : State) (r : Word) : (s.succeeded r).payloadOff = s.payloadOff := rfl
@[simp] theorem State.succeeded_totalBits (s : State) (r : Word) : (s.succeeded r).totalBits = s.totalBits := rfl
@[simp] theorem State.succeeded_totalBytes (s : State) (r : Word) : (s.succeeded r).totalBytes = s.totalBytes := rfl
@[simp] theorem State.succeeded_hdrLen (s : State) (r : Word) : (s.succeeded r).hdrLen = s.hdrLen := rfl
@[simp] theorem State.succeeded_result (s : State) (r : Word) : (s.succeeded r).result = r := rfl
@[simp] theorem State.succeeded_nsym (s : State) (r : Word) : (s.succeeded r).nsym = s.nsym := rfl
@[simp] theorem State.succeeded_root (s : State) (r : Word) : (s.succeeded r).root = s.root := rfl
@[simp] theorem State.succeeded_nnodes (s : State) (r : Word) : (s.succeeded r).nnodes = s.nnodes := rfl
@[simp] theorem State.succeeded_errInfo (s : State) (r : Word) : (s.succeeded r).errInfo = s.errInfo := rfl
@[simp] theorem State.succeeded_te (s : State) (r : Word) : (s.succeeded r).te = s.te := rfl
@[simp] theorem State.succeeded_hist (s : State) (r : Word) : (s.succeeded r).hist = s.hist := rfl
@[simp] theorem State.succeeded_len (s : State) (r : Word) : (s.succeeded r).len = s.len := rfl
@[simp] theorem State.succeeded_code (s : State) (r : Word) : (s.succeeded r).code = s.code := rfl
@[simp] theorem State.succeeded_node (s : State) (r : Word) : (s.succeeded r).node = s.node := rfl
@[simp] theorem State.succeeded_running (s : State) (r : Word) : (s.succeeded r).running = none := rfl
@[simp] theorem State.succeeded_mem (s : State) (r : Word) : (s.succeeded r).mem = s.mem := rfl
@[simp] theorem State.succeeded_rst (s : State) (r : Word) : (s.succeeded r).rst = s.rst := rfl
@[simp] theorem State.succeeded_events (s : State) (r : Word) : (s.succeeded r).events = s.events := rfl
@[simp] theorem State.succeeded_rdData (s : State) (r : Word) : (s.succeeded r).rdData = s.rdData := rfl
@[simp] theorem State.succeeded_memData (s : State) (r : Word) : (s.succeeded r).memData = s.memData := rfl
@[simp] theorem State.succeeded_draws (s : State) (r : Word) : (s.succeeded r).draws = s.draws := rfl

@[simp] theorem State.failed_ie (s : State) (p : Phase) (e : Raise) : (s.failed p e).ie = s.ie := rfl
@[simp] theorem State.failed_workers (s : State) (p : Phase) (e : Raise) : (s.failed p e).workers = s.workers := rfl
@[simp] theorem State.failed_cmd (s : State) (p : Phase) (e : Raise) : (s.failed p e).cmd = s.cmd := rfl
@[simp] theorem State.failed_status (s : State) (p : Phase) (e : Raise) : (s.failed p e).status = { s.status with err := true, errCode := e.code, phase := p } := rfl
@[simp] theorem State.failed_inBase (s : State) (p : Phase) (e : Raise) : (s.failed p e).inBase = s.inBase := rfl
@[simp] theorem State.failed_inLen (s : State) (p : Phase) (e : Raise) : (s.failed p e).inLen = s.inLen := rfl
@[simp] theorem State.failed_outBase (s : State) (p : Phase) (e : Raise) : (s.failed p e).outBase = s.outBase := rfl
@[simp] theorem State.failed_outCap (s : State) (p : Phase) (e : Raise) : (s.failed p e).outCap = s.outCap := rfl
@[simp] theorem State.failed_origLen (s : State) (p : Phase) (e : Raise) : (s.failed p e).origLen = s.origLen := rfl
@[simp] theorem State.failed_payloadOff (s : State) (p : Phase) (e : Raise) : (s.failed p e).payloadOff = s.payloadOff := rfl
@[simp] theorem State.failed_totalBits (s : State) (p : Phase) (e : Raise) : (s.failed p e).totalBits = s.totalBits := rfl
@[simp] theorem State.failed_totalBytes (s : State) (p : Phase) (e : Raise) : (s.failed p e).totalBytes = s.totalBytes := rfl
@[simp] theorem State.failed_hdrLen (s : State) (p : Phase) (e : Raise) : (s.failed p e).hdrLen = s.hdrLen := rfl
@[simp] theorem State.failed_result (s : State) (p : Phase) (e : Raise) : (s.failed p e).result = 0#64 := rfl
@[simp] theorem State.failed_nsym (s : State) (p : Phase) (e : Raise) : (s.failed p e).nsym = s.nsym := rfl
@[simp] theorem State.failed_root (s : State) (p : Phase) (e : Raise) : (s.failed p e).root = s.root := rfl
@[simp] theorem State.failed_nnodes (s : State) (p : Phase) (e : Raise) : (s.failed p e).nnodes = s.nnodes := rfl
@[simp] theorem State.failed_errInfo (s : State) (p : Phase) (e : Raise) : (s.failed p e).errInfo = e.info := rfl
@[simp] theorem State.failed_te (s : State) (p : Phase) (e : Raise) : (s.failed p e).te = s.te := rfl
@[simp] theorem State.failed_hist (s : State) (p : Phase) (e : Raise) : (s.failed p e).hist = s.hist := rfl
@[simp] theorem State.failed_len (s : State) (p : Phase) (e : Raise) : (s.failed p e).len = s.len := rfl
@[simp] theorem State.failed_code (s : State) (p : Phase) (e : Raise) : (s.failed p e).code = s.code := rfl
@[simp] theorem State.failed_node (s : State) (p : Phase) (e : Raise) : (s.failed p e).node = s.node := rfl
@[simp] theorem State.failed_running (s : State) (p : Phase) (e : Raise) : (s.failed p e).running = none := rfl
@[simp] theorem State.failed_mem (s : State) (p : Phase) (e : Raise) : (s.failed p e).mem = s.mem := rfl
@[simp] theorem State.failed_rst (s : State) (p : Phase) (e : Raise) : (s.failed p e).rst = s.rst := rfl
@[simp] theorem State.failed_events (s : State) (p : Phase) (e : Raise) : (s.failed p e).events = s.events := rfl
@[simp] theorem State.failed_rdData (s : State) (p : Phase) (e : Raise) : (s.failed p e).rdData = s.rdData := rfl
@[simp] theorem State.failed_memData (s : State) (p : Phase) (e : Raise) : (s.failed p e).memData = s.memData := rfl
@[simp] theorem State.failed_draws (s : State) (p : Phase) (e : Raise) : (s.failed p e).draws = s.draws := rfl

@[simp] theorem State.acknowledged_ie (s : State) (v : Word) : (s.acknowledged v).ie = s.ie := rfl
@[simp] theorem State.acknowledged_workers (s : State) (v : Word) : (s.acknowledged v).workers = s.workers := rfl
@[simp] theorem State.acknowledged_cmd (s : State) (v : Word) : (s.acknowledged v).cmd = s.cmd := rfl
@[simp] theorem State.acknowledged_inBase (s : State) (v : Word) : (s.acknowledged v).inBase = s.inBase := rfl
@[simp] theorem State.acknowledged_inLen (s : State) (v : Word) : (s.acknowledged v).inLen = s.inLen := rfl
@[simp] theorem State.acknowledged_outBase (s : State) (v : Word) : (s.acknowledged v).outBase = s.outBase := rfl
@[simp] theorem State.acknowledged_outCap (s : State) (v : Word) : (s.acknowledged v).outCap = s.outCap := rfl
@[simp] theorem State.acknowledged_origLen (s : State) (v : Word) : (s.acknowledged v).origLen = s.origLen := rfl
@[simp] theorem State.acknowledged_payloadOff (s : State) (v : Word) : (s.acknowledged v).payloadOff = s.payloadOff := rfl
@[simp] theorem State.acknowledged_totalBits (s : State) (v : Word) : (s.acknowledged v).totalBits = s.totalBits := rfl
@[simp] theorem State.acknowledged_totalBytes (s : State) (v : Word) : (s.acknowledged v).totalBytes = s.totalBytes := rfl
@[simp] theorem State.acknowledged_hdrLen (s : State) (v : Word) : (s.acknowledged v).hdrLen = s.hdrLen := rfl
@[simp] theorem State.acknowledged_result (s : State) (v : Word) : (s.acknowledged v).result = s.result := rfl
@[simp] theorem State.acknowledged_nsym (s : State) (v : Word) : (s.acknowledged v).nsym = s.nsym := rfl
@[simp] theorem State.acknowledged_root (s : State) (v : Word) : (s.acknowledged v).root = s.root := rfl
@[simp] theorem State.acknowledged_nnodes (s : State) (v : Word) : (s.acknowledged v).nnodes = s.nnodes := rfl
@[simp] theorem State.acknowledged_errInfo (s : State) (v : Word) : (s.acknowledged v).errInfo = s.errInfo := rfl
@[simp] theorem State.acknowledged_te (s : State) (v : Word) : (s.acknowledged v).te = s.te := rfl
@[simp] theorem State.acknowledged_hist (s : State) (v : Word) : (s.acknowledged v).hist = s.hist := rfl
@[simp] theorem State.acknowledged_len (s : State) (v : Word) : (s.acknowledged v).len = s.len := rfl
@[simp] theorem State.acknowledged_code (s : State) (v : Word) : (s.acknowledged v).code = s.code := rfl
@[simp] theorem State.acknowledged_node (s : State) (v : Word) : (s.acknowledged v).node = s.node := rfl
@[simp] theorem State.acknowledged_running (s : State) (v : Word) : (s.acknowledged v).running = s.running := rfl
@[simp] theorem State.acknowledged_mem (s : State) (v : Word) : (s.acknowledged v).mem = s.mem := rfl
@[simp] theorem State.acknowledged_rst (s : State) (v : Word) : (s.acknowledged v).rst = s.rst := rfl
@[simp] theorem State.acknowledged_events (s : State) (v : Word) : (s.acknowledged v).events = s.events := rfl
@[simp] theorem State.acknowledged_rdData (s : State) (v : Word) : (s.acknowledged v).rdData = s.rdData := rfl
@[simp] theorem State.acknowledged_memData (s : State) (v : Word) : (s.acknowledged v).memData = s.memData := rfl
@[simp] theorem State.acknowledged_draws (s : State) (v : Word) : (s.acknowledged v).draws = s.draws := rfl

@[simp] theorem State.unspecifiedOutput_ie (s : State) (lo hi : Nat) : (s.unspecifiedOutput lo hi).ie = s.ie := rfl
@[simp] theorem State.unspecifiedOutput_workers (s : State) (lo hi : Nat) : (s.unspecifiedOutput lo hi).workers = s.workers := rfl
@[simp] theorem State.unspecifiedOutput_cmd (s : State) (lo hi : Nat) : (s.unspecifiedOutput lo hi).cmd = s.cmd := rfl
@[simp] theorem State.unspecifiedOutput_status (s : State) (lo hi : Nat) : (s.unspecifiedOutput lo hi).status = s.status := rfl
@[simp] theorem State.unspecifiedOutput_inBase (s : State) (lo hi : Nat) : (s.unspecifiedOutput lo hi).inBase = s.inBase := rfl
@[simp] theorem State.unspecifiedOutput_inLen (s : State) (lo hi : Nat) : (s.unspecifiedOutput lo hi).inLen = s.inLen := rfl
@[simp] theorem State.unspecifiedOutput_outBase (s : State) (lo hi : Nat) : (s.unspecifiedOutput lo hi).outBase = s.outBase := rfl
@[simp] theorem State.unspecifiedOutput_outCap (s : State) (lo hi : Nat) : (s.unspecifiedOutput lo hi).outCap = s.outCap := rfl
@[simp] theorem State.unspecifiedOutput_origLen (s : State) (lo hi : Nat) : (s.unspecifiedOutput lo hi).origLen = s.origLen := rfl
@[simp] theorem State.unspecifiedOutput_payloadOff (s : State) (lo hi : Nat) : (s.unspecifiedOutput lo hi).payloadOff = s.payloadOff := rfl
@[simp] theorem State.unspecifiedOutput_totalBits (s : State) (lo hi : Nat) : (s.unspecifiedOutput lo hi).totalBits = s.totalBits := rfl
@[simp] theorem State.unspecifiedOutput_totalBytes (s : State) (lo hi : Nat) : (s.unspecifiedOutput lo hi).totalBytes = s.totalBytes := rfl
@[simp] theorem State.unspecifiedOutput_hdrLen (s : State) (lo hi : Nat) : (s.unspecifiedOutput lo hi).hdrLen = s.hdrLen := rfl
@[simp] theorem State.unspecifiedOutput_result (s : State) (lo hi : Nat) : (s.unspecifiedOutput lo hi).result = s.result := rfl
@[simp] theorem State.unspecifiedOutput_nsym (s : State) (lo hi : Nat) : (s.unspecifiedOutput lo hi).nsym = s.nsym := rfl
@[simp] theorem State.unspecifiedOutput_root (s : State) (lo hi : Nat) : (s.unspecifiedOutput lo hi).root = s.root := rfl
@[simp] theorem State.unspecifiedOutput_nnodes (s : State) (lo hi : Nat) : (s.unspecifiedOutput lo hi).nnodes = s.nnodes := rfl
@[simp] theorem State.unspecifiedOutput_errInfo (s : State) (lo hi : Nat) : (s.unspecifiedOutput lo hi).errInfo = s.errInfo := rfl
@[simp] theorem State.unspecifiedOutput_te (s : State) (lo hi : Nat) : (s.unspecifiedOutput lo hi).te = s.te := rfl
@[simp] theorem State.unspecifiedOutput_hist (s : State) (lo hi : Nat) : (s.unspecifiedOutput lo hi).hist = s.hist := rfl
@[simp] theorem State.unspecifiedOutput_len (s : State) (lo hi : Nat) : (s.unspecifiedOutput lo hi).len = s.len := rfl
@[simp] theorem State.unspecifiedOutput_code (s : State) (lo hi : Nat) : (s.unspecifiedOutput lo hi).code = s.code := rfl
@[simp] theorem State.unspecifiedOutput_node (s : State) (lo hi : Nat) : (s.unspecifiedOutput lo hi).node = s.node := rfl
@[simp] theorem State.unspecifiedOutput_running (s : State) (lo hi : Nat) : (s.unspecifiedOutput lo hi).running = s.running := rfl
@[simp] theorem State.unspecifiedOutput_mem (s : State) (lo hi : Nat) : (s.unspecifiedOutput lo hi).mem = s.mem.writeBytes (s.outBase.toNat + lo) (freeBytes s.draws (hi - lo)) := rfl
@[simp] theorem State.unspecifiedOutput_rst (s : State) (lo hi : Nat) : (s.unspecifiedOutput lo hi).rst = s.rst := rfl
@[simp] theorem State.unspecifiedOutput_events (s : State) (lo hi : Nat) : (s.unspecifiedOutput lo hi).events = s.events := rfl
@[simp] theorem State.unspecifiedOutput_rdData (s : State) (lo hi : Nat) : (s.unspecifiedOutput lo hi).rdData = s.rdData := rfl
@[simp] theorem State.unspecifiedOutput_memData (s : State) (lo hi : Nat) : (s.unspecifiedOutput lo hi).memData = s.memData := rfl
@[simp] theorem State.unspecifiedOutput_draws (s : State) (lo hi : Nat) : (s.unspecifiedOutput lo hi).draws = s.draws + 1 := rfl

@[simp] theorem State.accepted_ie (s : State) (w : Word) (i : Instr) : (s.accepted w i).ie = s.ie := rfl
@[simp] theorem State.accepted_workers (s : State) (w : Word) (i : Instr) : (s.accepted w i).workers = s.workers := rfl
@[simp] theorem State.accepted_cmd (s : State) (w : Word) (i : Instr) : (s.accepted w i).cmd = w := rfl
@[simp] theorem State.accepted_inBase (s : State) (w : Word) (i : Instr) : (s.accepted w i).inBase = s.inBase := rfl
@[simp] theorem State.accepted_inLen (s : State) (w : Word) (i : Instr) : (s.accepted w i).inLen = s.inLen := rfl
@[simp] theorem State.accepted_outBase (s : State) (w : Word) (i : Instr) : (s.accepted w i).outBase = s.outBase := rfl
@[simp] theorem State.accepted_outCap (s : State) (w : Word) (i : Instr) : (s.accepted w i).outCap = s.outCap := rfl
@[simp] theorem State.accepted_origLen (s : State) (w : Word) (i : Instr) : (s.accepted w i).origLen = s.origLen := rfl
@[simp] theorem State.accepted_payloadOff (s : State) (w : Word) (i : Instr) : (s.accepted w i).payloadOff = s.payloadOff := rfl
@[simp] theorem State.accepted_totalBits (s : State) (w : Word) (i : Instr) : (s.accepted w i).totalBits = s.totalBits := rfl
@[simp] theorem State.accepted_totalBytes (s : State) (w : Word) (i : Instr) : (s.accepted w i).totalBytes = s.totalBytes := rfl
@[simp] theorem State.accepted_hdrLen (s : State) (w : Word) (i : Instr) : (s.accepted w i).hdrLen = s.hdrLen := rfl
@[simp] theorem State.accepted_result (s : State) (w : Word) (i : Instr) : (s.accepted w i).result = 0#64 := rfl
@[simp] theorem State.accepted_nsym (s : State) (w : Word) (i : Instr) : (s.accepted w i).nsym = s.nsym := rfl
@[simp] theorem State.accepted_root (s : State) (w : Word) (i : Instr) : (s.accepted w i).root = s.root := rfl
@[simp] theorem State.accepted_nnodes (s : State) (w : Word) (i : Instr) : (s.accepted w i).nnodes = s.nnodes := rfl
@[simp] theorem State.accepted_errInfo (s : State) (w : Word) (i : Instr) : (s.accepted w i).errInfo = 0#64 := rfl
@[simp] theorem State.accepted_te (s : State) (w : Word) (i : Instr) : (s.accepted w i).te = s.te := rfl
@[simp] theorem State.accepted_hist (s : State) (w : Word) (i : Instr) : (s.accepted w i).hist = s.hist := rfl
@[simp] theorem State.accepted_len (s : State) (w : Word) (i : Instr) : (s.accepted w i).len = s.len := rfl
@[simp] theorem State.accepted_code (s : State) (w : Word) (i : Instr) : (s.accepted w i).code = s.code := rfl
@[simp] theorem State.accepted_node (s : State) (w : Word) (i : Instr) : (s.accepted w i).node = s.node := rfl
@[simp] theorem State.accepted_running (s : State) (w : Word) (i : Instr) : (s.accepted w i).running = some ⟨i, s.workers, s.regionsTouchWindow, none, 0⟩ := rfl
@[simp] theorem State.accepted_mem (s : State) (w : Word) (i : Instr) : (s.accepted w i).mem = s.mem := rfl
@[simp] theorem State.accepted_rst (s : State) (w : Word) (i : Instr) : (s.accepted w i).rst = s.rst := rfl
@[simp] theorem State.accepted_events (s : State) (w : Word) (i : Instr) : (s.accepted w i).events = s.events := rfl
@[simp] theorem State.accepted_rdData (s : State) (w : Word) (i : Instr) : (s.accepted w i).rdData = s.rdData := rfl
@[simp] theorem State.accepted_memData (s : State) (w : Word) (i : Instr) : (s.accepted w i).memData = s.memData := rfl
@[simp] theorem State.accepted_draws (s : State) (w : Word) (i : Instr) : (s.accepted w i).draws = s.draws := rfl

@[simp] theorem State.rejected_ie (s : State) (w : Word) : (s.rejected w).ie = s.ie := rfl
@[simp] theorem State.rejected_workers (s : State) (w : Word) : (s.rejected w).workers = s.workers := rfl
@[simp] theorem State.rejected_cmd (s : State) (w : Word) : (s.rejected w).cmd = w := rfl
@[simp] theorem State.rejected_inBase (s : State) (w : Word) : (s.rejected w).inBase = s.inBase := rfl
@[simp] theorem State.rejected_inLen (s : State) (w : Word) : (s.rejected w).inLen = s.inLen := rfl
@[simp] theorem State.rejected_outBase (s : State) (w : Word) : (s.rejected w).outBase = s.outBase := rfl
@[simp] theorem State.rejected_outCap (s : State) (w : Word) : (s.rejected w).outCap = s.outCap := rfl
@[simp] theorem State.rejected_origLen (s : State) (w : Word) : (s.rejected w).origLen = s.origLen := rfl
@[simp] theorem State.rejected_payloadOff (s : State) (w : Word) : (s.rejected w).payloadOff = s.payloadOff := rfl
@[simp] theorem State.rejected_totalBits (s : State) (w : Word) : (s.rejected w).totalBits = s.totalBits := rfl
@[simp] theorem State.rejected_totalBytes (s : State) (w : Word) : (s.rejected w).totalBytes = s.totalBytes := rfl
@[simp] theorem State.rejected_hdrLen (s : State) (w : Word) : (s.rejected w).hdrLen = s.hdrLen := rfl
@[simp] theorem State.rejected_result (s : State) (w : Word) : (s.rejected w).result = 0#64 := rfl
@[simp] theorem State.rejected_nsym (s : State) (w : Word) : (s.rejected w).nsym = s.nsym := rfl
@[simp] theorem State.rejected_root (s : State) (w : Word) : (s.rejected w).root = s.root := rfl
@[simp] theorem State.rejected_nnodes (s : State) (w : Word) : (s.rejected w).nnodes = s.nnodes := rfl
@[simp] theorem State.rejected_errInfo (s : State) (w : Word) : (s.rejected w).errInfo = w := rfl
@[simp] theorem State.rejected_te (s : State) (w : Word) : (s.rejected w).te = s.te := rfl
@[simp] theorem State.rejected_hist (s : State) (w : Word) : (s.rejected w).hist = s.hist := rfl
@[simp] theorem State.rejected_len (s : State) (w : Word) : (s.rejected w).len = s.len := rfl
@[simp] theorem State.rejected_code (s : State) (w : Word) : (s.rejected w).code = s.code := rfl
@[simp] theorem State.rejected_node (s : State) (w : Word) : (s.rejected w).node = s.node := rfl
@[simp] theorem State.rejected_running (s : State) (w : Word) : (s.rejected w).running = s.running := rfl
@[simp] theorem State.rejected_mem (s : State) (w : Word) : (s.rejected w).mem = s.mem := rfl
@[simp] theorem State.rejected_rst (s : State) (w : Word) : (s.rejected w).rst = s.rst := rfl
@[simp] theorem State.rejected_events (s : State) (w : Word) : (s.rejected w).events = s.events := rfl
@[simp] theorem State.rejected_rdData (s : State) (w : Word) : (s.rejected w).rdData = s.rdData := rfl
@[simp] theorem State.rejected_memData (s : State) (w : Word) : (s.rejected w).memData = s.memData := rfl
@[simp] theorem State.rejected_draws (s : State) (w : Word) : (s.rejected w).draws = s.draws := rfl

@[simp] theorem State.overrun_ie (s : State) : (s.overrun).ie = s.ie := rfl
@[simp] theorem State.overrun_workers (s : State) : (s.overrun).workers = s.workers := rfl
@[simp] theorem State.overrun_cmd (s : State) : (s.overrun).cmd = s.cmd := rfl
@[simp] theorem State.overrun_status (s : State) : (s.overrun).status = { s.status with ovr := true } := rfl
@[simp] theorem State.overrun_inBase (s : State) : (s.overrun).inBase = s.inBase := rfl
@[simp] theorem State.overrun_inLen (s : State) : (s.overrun).inLen = s.inLen := rfl
@[simp] theorem State.overrun_outBase (s : State) : (s.overrun).outBase = s.outBase := rfl
@[simp] theorem State.overrun_outCap (s : State) : (s.overrun).outCap = s.outCap := rfl
@[simp] theorem State.overrun_origLen (s : State) : (s.overrun).origLen = s.origLen := rfl
@[simp] theorem State.overrun_payloadOff (s : State) : (s.overrun).payloadOff = s.payloadOff := rfl
@[simp] theorem State.overrun_totalBits (s : State) : (s.overrun).totalBits = s.totalBits := rfl
@[simp] theorem State.overrun_totalBytes (s : State) : (s.overrun).totalBytes = s.totalBytes := rfl
@[simp] theorem State.overrun_hdrLen (s : State) : (s.overrun).hdrLen = s.hdrLen := rfl
@[simp] theorem State.overrun_result (s : State) : (s.overrun).result = s.result := rfl
@[simp] theorem State.overrun_nsym (s : State) : (s.overrun).nsym = s.nsym := rfl
@[simp] theorem State.overrun_root (s : State) : (s.overrun).root = s.root := rfl
@[simp] theorem State.overrun_nnodes (s : State) : (s.overrun).nnodes = s.nnodes := rfl
@[simp] theorem State.overrun_errInfo (s : State) : (s.overrun).errInfo = s.errInfo := rfl
@[simp] theorem State.overrun_te (s : State) : (s.overrun).te = s.te := rfl
@[simp] theorem State.overrun_hist (s : State) : (s.overrun).hist = s.hist := rfl
@[simp] theorem State.overrun_len (s : State) : (s.overrun).len = s.len := rfl
@[simp] theorem State.overrun_code (s : State) : (s.overrun).code = s.code := rfl
@[simp] theorem State.overrun_node (s : State) : (s.overrun).node = s.node := rfl
@[simp] theorem State.overrun_running (s : State) : (s.overrun).running = s.running := rfl
@[simp] theorem State.overrun_mem (s : State) : (s.overrun).mem = s.mem := rfl
@[simp] theorem State.overrun_rst (s : State) : (s.overrun).rst = s.rst := rfl
@[simp] theorem State.overrun_events (s : State) : (s.overrun).events = s.events := rfl
@[simp] theorem State.overrun_rdData (s : State) : (s.overrun).rdData = s.rdData := rfl
@[simp] theorem State.overrun_memData (s : State) : (s.overrun).memData = s.memData := rfl
@[simp] theorem State.overrun_draws (s : State) : (s.overrun).draws = s.draws := rfl

@[simp] theorem State.writeIgnored_ie (s : State) : (s.writeIgnored).ie = s.ie := rfl
@[simp] theorem State.writeIgnored_workers (s : State) : (s.writeIgnored).workers = s.workers := rfl
@[simp] theorem State.writeIgnored_cmd (s : State) : (s.writeIgnored).cmd = s.cmd := rfl
@[simp] theorem State.writeIgnored_status (s : State) : (s.writeIgnored).status = { s.status with wign := true } := rfl
@[simp] theorem State.writeIgnored_inBase (s : State) : (s.writeIgnored).inBase = s.inBase := rfl
@[simp] theorem State.writeIgnored_inLen (s : State) : (s.writeIgnored).inLen = s.inLen := rfl
@[simp] theorem State.writeIgnored_outBase (s : State) : (s.writeIgnored).outBase = s.outBase := rfl
@[simp] theorem State.writeIgnored_outCap (s : State) : (s.writeIgnored).outCap = s.outCap := rfl
@[simp] theorem State.writeIgnored_origLen (s : State) : (s.writeIgnored).origLen = s.origLen := rfl
@[simp] theorem State.writeIgnored_payloadOff (s : State) : (s.writeIgnored).payloadOff = s.payloadOff := rfl
@[simp] theorem State.writeIgnored_totalBits (s : State) : (s.writeIgnored).totalBits = s.totalBits := rfl
@[simp] theorem State.writeIgnored_totalBytes (s : State) : (s.writeIgnored).totalBytes = s.totalBytes := rfl
@[simp] theorem State.writeIgnored_hdrLen (s : State) : (s.writeIgnored).hdrLen = s.hdrLen := rfl
@[simp] theorem State.writeIgnored_result (s : State) : (s.writeIgnored).result = s.result := rfl
@[simp] theorem State.writeIgnored_nsym (s : State) : (s.writeIgnored).nsym = s.nsym := rfl
@[simp] theorem State.writeIgnored_root (s : State) : (s.writeIgnored).root = s.root := rfl
@[simp] theorem State.writeIgnored_nnodes (s : State) : (s.writeIgnored).nnodes = s.nnodes := rfl
@[simp] theorem State.writeIgnored_errInfo (s : State) : (s.writeIgnored).errInfo = s.errInfo := rfl
@[simp] theorem State.writeIgnored_te (s : State) : (s.writeIgnored).te = s.te := rfl
@[simp] theorem State.writeIgnored_hist (s : State) : (s.writeIgnored).hist = s.hist := rfl
@[simp] theorem State.writeIgnored_len (s : State) : (s.writeIgnored).len = s.len := rfl
@[simp] theorem State.writeIgnored_code (s : State) : (s.writeIgnored).code = s.code := rfl
@[simp] theorem State.writeIgnored_node (s : State) : (s.writeIgnored).node = s.node := rfl
@[simp] theorem State.writeIgnored_running (s : State) : (s.writeIgnored).running = s.running := rfl
@[simp] theorem State.writeIgnored_mem (s : State) : (s.writeIgnored).mem = s.mem := rfl
@[simp] theorem State.writeIgnored_rst (s : State) : (s.writeIgnored).rst = s.rst := rfl
@[simp] theorem State.writeIgnored_events (s : State) : (s.writeIgnored).events = s.events := rfl
@[simp] theorem State.writeIgnored_rdData (s : State) : (s.writeIgnored).rdData = s.rdData := rfl
@[simp] theorem State.writeIgnored_memData (s : State) : (s.writeIgnored).memData = s.memData := rfl
@[simp] theorem State.writeIgnored_draws (s : State) : (s.writeIgnored).draws = s.draws := rfl

/-! STATUS fields of the updates whose STATUS is computed. -/
@[simp] theorem State.acknowledged_status_done (s : State) (v : Word) :
    (s.acknowledged v).status.done = (s.status.done && !v.getLsbD 1) := rfl
@[simp] theorem State.acknowledged_status_err (s : State) (v : Word) :
    (s.acknowledged v).status.err = (s.status.err && !v.getLsbD 2) := rfl
@[simp] theorem State.acknowledged_status_ovr (s : State) (v : Word) :
    (s.acknowledged v).status.ovr = (s.status.ovr && !v.getLsbD 4) := rfl
@[simp] theorem State.acknowledged_status_wign (s : State) (v : Word) :
    (s.acknowledged v).status.wign = (s.status.wign && !v.getLsbD 5) := rfl
@[simp] theorem State.acknowledged_status_empty (s : State) (v : Word) : (s.acknowledged v).status.empty = s.status.empty := rfl
@[simp] theorem State.acknowledged_status_errCode (s : State) (v : Word) : (s.acknowledged v).status.errCode = s.status.errCode := rfl
@[simp] theorem State.acknowledged_status_opc (s : State) (v : Word) : (s.acknowledged v).status.opc = s.status.opc := rfl
@[simp] theorem State.acknowledged_status_phase (s : State) (v : Word) : (s.acknowledged v).status.phase = s.status.phase := rfl
@[simp] theorem State.accepted_status_done (s : State) (w : Word) (i : Instr) :
    (s.accepted w i).status.done = false := rfl
@[simp] theorem State.accepted_status_err (s : State) (w : Word) (i : Instr) :
    (s.accepted w i).status.err = false := rfl
@[simp] theorem State.accepted_status_empty (s : State) (w : Word) (i : Instr) :
    (s.accepted w i).status.empty = false := rfl
@[simp] theorem State.accepted_status_ovr (s : State) (w : Word) (i : Instr) :
    (s.accepted w i).status.ovr = s.status.ovr := rfl
@[simp] theorem State.accepted_status_wign (s : State) (w : Word) (i : Instr) :
    (s.accepted w i).status.wign = s.status.wign := rfl
@[simp] theorem State.accepted_status_errCode (s : State) (w : Word) (i : Instr) :
    (s.accepted w i).status.errCode = .none := rfl
@[simp] theorem State.accepted_status_opc (s : State) (w : Word) (i : Instr) :
    (s.accepted w i).status.opc = wordOpc w := rfl
@[simp] theorem State.accepted_status_phase (s : State) (w : Word) (i : Instr) :
    (s.accepted w i).status.phase = firstPhase i := rfl
@[simp] theorem State.rejected_status_done (s : State) (w : Word) : (s.rejected w).status.done = false := rfl
@[simp] theorem State.rejected_status_err (s : State) (w : Word) : (s.rejected w).status.err = true := rfl
@[simp] theorem State.rejected_status_empty (s : State) (w : Word) : (s.rejected w).status.empty = false := rfl
@[simp] theorem State.rejected_status_ovr (s : State) (w : Word) : (s.rejected w).status.ovr = s.status.ovr := rfl
@[simp] theorem State.rejected_status_wign (s : State) (w : Word) : (s.rejected w).status.wign = s.status.wign := rfl
@[simp] theorem State.rejected_status_errCode (s : State) (w : Word) : (s.rejected w).status.errCode = .illegalCmd := rfl
@[simp] theorem State.rejected_status_opc (s : State) (w : Word) : (s.rejected w).status.opc = wordOpc w := rfl
@[simp] theorem State.rejected_status_phase (s : State) (w : Word) : (s.rejected w).status.phase = .check := rfl

/-! What a reset keeps and what it sets (70 R311). -/
@[simp] theorem State.engineReset_ie (s : State) : s.engineReset.ie = State.reset.ie := rfl
@[simp] theorem State.engineReset_workers (s : State) : s.engineReset.workers = State.reset.workers := rfl
@[simp] theorem State.engineReset_cmd (s : State) : s.engineReset.cmd = State.reset.cmd := rfl
@[simp] theorem State.engineReset_status (s : State) : s.engineReset.status = State.reset.status := rfl
@[simp] theorem State.engineReset_inBase (s : State) : s.engineReset.inBase = State.reset.inBase := rfl
@[simp] theorem State.engineReset_inLen (s : State) : s.engineReset.inLen = State.reset.inLen := rfl
@[simp] theorem State.engineReset_outBase (s : State) : s.engineReset.outBase = State.reset.outBase := rfl
@[simp] theorem State.engineReset_outCap (s : State) : s.engineReset.outCap = State.reset.outCap := rfl
@[simp] theorem State.engineReset_origLen (s : State) : s.engineReset.origLen = State.reset.origLen := rfl
@[simp] theorem State.engineReset_payloadOff (s : State) : s.engineReset.payloadOff = State.reset.payloadOff := rfl
@[simp] theorem State.engineReset_totalBits (s : State) : s.engineReset.totalBits = State.reset.totalBits := rfl
@[simp] theorem State.engineReset_totalBytes (s : State) : s.engineReset.totalBytes = State.reset.totalBytes := rfl
@[simp] theorem State.engineReset_hdrLen (s : State) : s.engineReset.hdrLen = State.reset.hdrLen := rfl
@[simp] theorem State.engineReset_result (s : State) : s.engineReset.result = State.reset.result := rfl
@[simp] theorem State.engineReset_nsym (s : State) : s.engineReset.nsym = State.reset.nsym := rfl
@[simp] theorem State.engineReset_root (s : State) : s.engineReset.root = State.reset.root := rfl
@[simp] theorem State.engineReset_nnodes (s : State) : s.engineReset.nnodes = State.reset.nnodes := rfl
@[simp] theorem State.engineReset_errInfo (s : State) : s.engineReset.errInfo = State.reset.errInfo := rfl
@[simp] theorem State.engineReset_te (s : State) : s.engineReset.te = State.reset.te := rfl
@[simp] theorem State.engineReset_hist (s : State) : s.engineReset.hist = State.reset.hist := rfl
@[simp] theorem State.engineReset_len (s : State) : s.engineReset.len = State.reset.len := rfl
@[simp] theorem State.engineReset_code (s : State) : s.engineReset.code = State.reset.code := rfl
@[simp] theorem State.engineReset_node (s : State) : s.engineReset.node = State.reset.node := rfl
@[simp] theorem State.engineReset_running (s : State) : s.engineReset.running = State.reset.running := rfl
@[simp] theorem State.engineReset_mem (s : State) : s.engineReset.mem = s.mem := rfl
@[simp] theorem State.engineReset_rst (s : State) : s.engineReset.rst = s.rst := rfl
@[simp] theorem State.engineReset_events (s : State) : s.engineReset.events = s.events := rfl
@[simp] theorem State.engineReset_rdData (s : State) : s.engineReset.rdData = s.rdData := rfl
@[simp] theorem State.engineReset_memData (s : State) : s.engineReset.memData = s.memData := rfl
@[simp] theorem State.engineReset_draws (s : State) : s.engineReset.draws = s.draws := rfl

/-! BUSY and the latch (10 R26, R46(a)). -/
theorem State.busy_of_running {s : State} {run : Running} (h : s.running = some run) : s.busy = true := by simp [State.busy, h]
theorem State.busy_eq_false {s : State} : s.busy = false ↔ s.running = none := by cases h : s.running <;> simp [State.busy, h]
theorem State.raced_of_idle {s : State} (h : s.running = none) : s.raced = false := by simp [State.raced, h]
theorem State.reply_of_idle {s : State} (h : s.running = none) : s.reply = none := by simp [State.reply, h]
theorem State.pos_of_idle {s : State} (h : s.running = none) : s.pos = 0 := by simp [State.pos, h]

end Sys2Proof.Machine
end

