-- ==== Sys2Proof/Laws/Sequencer.lean ====
section
/-!
SUPPORT. What the sequencer's operations can do, said once: exec and step as completions, the run of a plan by induction, and the
phases reached.
-/
namespace Sys2Proof.Machine

/-- Every arm of exec is the completion of its command: no command faults or is refused. -/
theorem exec_eq (i : Instr) (s : State) : exec i s = .next ((commandOf i).completed s) := by cases i <;> rfl

/-- The command of an instruction carries that instruction's name. -/
@[simp] theorem commandOf_name (i : Instr) : (commandOf i).name = i := by cases i <;> rfl

theorem exec_next_iff (i : Instr) (s t : State) : exec i s = .next t ↔ (commandOf i).completed s = t := by
  rw [exec_eq]
  exact ⟨fun h => by injection h, fun h => by rw [h]⟩

theorem State.raced_of_undisturbed {s : State} (h : s.undisturbed = true) : s.raced = false := by
  simp only [State.undisturbed, Bool.and_eq_true, Bool.not_eq_true'] at h
  exact h.1

theorem State.reply_of_undisturbed {s : State} (h : s.undisturbed = true) : s.reply = none := by
  simp only [State.undisturbed, Bool.and_eq_true] at h
  exact Option.isNone_iff_eq_none.mp h.2

theorem Command.busErrorAt_of_no_reply (c : Command) {s : State} (h : s.reply = none) : c.busErrorAt s = none := by
  simp [Command.busErrorAt, h]

/-- The completion of an undisturbed run is the ending of its plan. -/
theorem Command.completed_undisturbed (c : Command) {s : State} (h : s.undisturbed = true) :
    c.completed s = match runPlan c.plan s with
      | .returned t => t.succeeded (c.result t)
      | .raised p e kept => c.failedAt s p e kept := by
  simp only [Command.completed, State.raced_of_undisturbed h,
    Command.busErrorAt_of_no_reply c (State.reply_of_undisturbed h)]
  rfl

theorem Command.completed_raced (c : Command) {s : State} (h : s.raced = true) : c.completed s = s.unconstrained c.name := by
  simp [Command.completed, h]

/-- What a completion can be. -/
theorem Command.completed_cases (c : Command) (s : State) :
    (s.raced = true ∧ c.completed s = s.unconstrained c.name)
      ∨ (∃ p kept a, c.busErrorAt s = some (p, kept, a) ∧ c.completed s = c.failedAt s p ⟨.busError, a⟩ kept)
      ∨ (∃ t, runPlan c.plan s = .returned t ∧ c.completed s = t.succeeded (c.result t))
      ∨ (∃ p e kept, runPlan c.plan s = .raised p e kept ∧ c.completed s = c.failedAt s p e kept) := by
  unfold Command.completed
  split
  · exact .inl ⟨‹_›, rfl⟩
  · right
    split
    · exact .inl ⟨_, _, _, ‹_›, rfl⟩
    · right
      split
      · exact .inl ⟨_, ‹_›, rfl⟩
      · exact .inr ⟨_, _, _, ‹_›, rfl⟩

/-- What a bus error at a point says: the reply names a reached phase after the first, and a faulting address the command may access. -/
theorem Command.busErrorAt_some {c : Command} {s : State} {p : Phase} {kept : State} {a : Word}
    (h : c.busErrorAt s = some (p, kept, a)) :
    ∃ k, s.reply = some (k, a) ∧ 1 ≤ k ∧ s.pos ≤ k ∧ c.accesses s a = true ∧ Config.busFault a = true
      ∧ (reached c.plan s)[k]? = some (p, kept) := by
  unfold Command.busErrorAt at h
  split at h
  · cases h
  · rename_i k a' hr
    split at h
    · rename_i hc
      simp only [Bool.and_eq_true, decide_eq_true_eq] at hc
      simp only [Option.map_eq_some_iff, Prod.mk.injEq] at h
      obtain ⟨x, hx, rfl, rfl, rfl⟩ := h
      exact ⟨k, hr, hc.1.1.1, hc.1.1.2, hc.1.2, hc.2, hx⟩
    · cases h

/-! ### Runs of a plan -/

@[simp] theorem runPlan_nil (s : State) : runPlan [] s = .returned s := rfl
@[simp] theorem reached_nil (s : State) : reached [] s = [] := rfl

theorem runPlan_ok {p : PhaseStep} {ps : List PhaseStep} {s t : State} (g : p.guard s = true) (h : p.body s = .ok t) :
    runPlan (p :: ps) s = runPlan ps t := by simp [runPlan, g, h]

theorem runPlan_error {p : PhaseStep} {ps : List PhaseStep} {s : State} {e : Raise} (g : p.guard s = true)
    (h : p.body s = .error e) : runPlan (p :: ps) s = .raised p.phase e s := by simp [runPlan, g, h]

theorem runPlan_skip {p : PhaseStep} {ps : List PhaseStep} {s : State} (g : p.guard s = false) :
    runPlan (p :: ps) s = runPlan ps s := by simp [runPlan, g]

theorem runPlan_always_ok {ph : Phase} {f : State → Except Raise State} {ps : List PhaseStep} {s t : State}
    (h : f s = .ok t) : runPlan (.always ph f :: ps) s = runPlan ps t := runPlan_ok rfl h

theorem runPlan_always_error {ph : Phase} {f : State → Except Raise State} {ps : List PhaseStep} {s : State} {e : Raise}
    (h : f s = .error e) : runPlan (.always ph f :: ps) s = .raised ph e s := runPlan_error rfl h

theorem reached_ok {p : PhaseStep} {ps : List PhaseStep} {s t : State} (g : p.guard s = true) (h : p.body s = .ok t) :
    reached (p :: ps) s = (p.phase, s) :: reached ps t := by simp [reached, g, h]

theorem reached_error {p : PhaseStep} {ps : List PhaseStep} {s : State} {e : Raise} (g : p.guard s = true)
    (h : p.body s = .error e) : reached (p :: ps) s = [(p.phase, s)] := by simp [reached, g, h]

theorem reached_skip {p : PhaseStep} {ps : List PhaseStep} {s : State} (g : p.guard s = false) :
    reached (p :: ps) s = reached ps s := by simp [reached, g]

/-- A property of states that every phase of a plan keeps holds of how its run ends. -/
theorem runPlan_keeps {P : State → Prop} {ps : List PhaseStep}
    (hk : ∀ p ∈ ps, ∀ s t, P s → p.body s = .ok t → P t) {s : State} (h : P s) :
    match runPlan ps s with
    | .returned t => P t
    | .raised _ _ kept => P kept := by
  induction ps generalizing s with
  | nil => exact h
  | cons p ps ih =>
    have hk' : ∀ q ∈ ps, ∀ s t, P s → q.body s = .ok t → P t := fun q hq => hk q (List.mem_cons_of_mem _ hq)
    cases g : p.guard s with
    | false => rw [runPlan_skip g]; exact ih hk' h
    | true =>
      cases hb : p.body s with
      | error e => rw [runPlan_error g hb]; exact h
      | ok t => rw [runPlan_ok g hb]; exact ih hk' (hk p (List.mem_cons_self ..) s t h hb)

/-- The same of every state a phase of the run starts from. -/
theorem reached_keeps {P : State → Prop} {ps : List PhaseStep}
    (hk : ∀ p ∈ ps, ∀ s t, P s → p.body s = .ok t → P t) {s : State} (h : P s) : ∀ x ∈ reached ps s, P x.2 := by
  induction ps generalizing s with
  | nil => intro x hx; cases hx
  | cons p ps ih =>
    have hk' : ∀ q ∈ ps, ∀ s t, P s → q.body s = .ok t → P t := fun q hq => hk q (List.mem_cons_of_mem _ hq)
    cases g : p.guard s with
    | false => rw [reached_skip g]; exact ih hk' h
    | true =>
      cases hb : p.body s with
      | error e =>
        rw [reached_error g hb]
        intro x hx
        rw [List.mem_singleton.mp hx]
        exact h
      | ok t =>
        rw [reached_ok g hb]
        intro x hx
        rcases List.mem_cons.mp hx with rfl | hx
        · exact h
        · exact ih hk' (hk p (List.mem_cons_self ..) s t h hb) x hx

/-- A raise stops the run in the last phase it reaches, and keeps the state that phase started from. -/
theorem runPlan_raised_reached {ps : List PhaseStep} {s : State} {p : Phase} {e : Raise} {kept : State}
    (h : runPlan ps s = .raised p e kept) : (p, kept) ∈ reached ps s := by
  induction ps generalizing s with
  | nil => cases h
  | cons q ps ih =>
    cases g : q.guard s with
    | false => rw [runPlan_skip g] at h; rw [reached_skip g]; exact ih h
    | true =>
      cases hb : q.body s with
      | error e' =>
        rw [runPlan_error g hb] at h
        rw [reached_error g hb]
        injection h with h1 _ h3
        rw [h1, h3]
        exact List.mem_singleton.mpr rfl
      | ok t =>
        rw [runPlan_ok g hb] at h
        rw [reached_ok g hb]
        exact List.mem_cons_of_mem _ (ih h)

/-- The phases reached are among the plan's, in its order. -/
theorem reached_sublist (ps : List PhaseStep) (s : State) : ((reached ps s).map Prod.fst).Sublist (ps.map PhaseStep.phase) := by
  induction ps generalizing s with
  | nil => exact List.Sublist.slnil
  | cons p ps ih =>
    cases g : p.guard s with
    | false => rw [reached_skip g]; exact (ih s).cons _
    | true =>
      cases hb : p.body s with
      | error e => rw [reached_error g hb]; exact (List.nil_sublist _).cons_cons _
      | ok t => rw [reached_ok g hb]; exact (ih t).cons_cons _

/-! ### Region checks (20 R73) -/

theorem regionCheck_ok {a b : Bool} {s t : State} (h : regionCheck a b s = .ok t) : t = s ∧ regionsOk a b s = true := by
  unfold regionCheck at h
  split at h
  · cases h
  · split at h
    · cases h
    · split at h
      · cases h
      · rename_i h1 h2 h3
        injection h with h
        exact ⟨h.symm, by simp only [regionsOk, Bool.and_eq_true, Bool.not_eq_true']; exact ⟨⟨by simpa using h1, by simpa using h2⟩, by simpa using h3⟩⟩

theorem regionCheck_of_ok {a b : Bool} {s : State} (h : regionsOk a b s = true) : regionCheck a b s = .ok s := by
  simp only [regionsOk, Bool.and_eq_true, Bool.not_eq_true'] at h
  unfold regionCheck
  rw [h.1.1, h.1.2, h.2]
  rfl

/-! ### Steps -/

theorem step_of_latched {s : State} {run : Running} (he : s.events = []) (hr : s.running = some run) :
    step s = exec run.cmd s := by simp [step, he, sequence, hr]

theorem step_of_idle {s : State} (he : s.events = []) (hr : s.running = none) : step s = .next s := by
  simp [step, he, sequence, hr]

theorem step_of_host {s : State} {a : HostAction} {rest : List Event} (he : s.events = .host a :: rest) :
    step s = hostStep a { s with events := rest } := by simp [step, he]

theorem step_of_advance {s : State} {rest : List Event} (he : s.events = .advance :: rest) :
    step s = .next (advancePhase { s with events := rest }) := by simp [step, he]

/-- What a step can be. -/
theorem step_cases (s : State) :
    (s.events = [] ∧ step s = sequence s)
      ∨ (∃ a rest, s.events = .host a :: rest ∧ step s = hostStep a { s with events := rest })
      ∨ (∃ rest, s.events = .advance :: rest ∧ step s = .next (advancePhase { s with events := rest }))
      ∨ (∃ reply rest, s.events = .complete reply :: rest
          ∧ step s = sequence ({ s with events := rest }.withReply reply)) := by
  match h : s.events with
  | [] => exact .inl ⟨rfl, by simp [step, h]⟩
  | .host a :: rest => exact .inr (.inl ⟨a, rest, rfl, by simp [step, h]⟩)
  | .advance :: rest => exact .inr (.inr (.inl ⟨rest, rfl, by simp [step, h]⟩))
  | .complete reply :: rest => exact .inr (.inr (.inr ⟨reply, rest, rfl, by simp [step, h]⟩))

end Sys2Proof.Machine
end

