-- ==== Sys2Proof/Laws/Phases.lean ====
section
/-!
SUPPORT. What each phase procedure can do, said once: when it answers a state, which one. The provers cite these and unfold no phase.
-/
namespace Sys2Proof.Machine

/-- What no phase touches (00 R11): the registers no command writes, the latch, the inputs, and STATUS but for EMPTY. -/
structure PhaseFrame (s t : State) : Prop where
  ie : t.ie = s.ie
  workers : t.workers = s.workers
  cmd : t.cmd = s.cmd
  status : t.status = { s.status with empty := t.status.empty }
  inBase : t.inBase = s.inBase
  inLen : t.inLen = s.inLen
  outBase : t.outBase = s.outBase
  outCap : t.outCap = s.outCap
  result : t.result = s.result
  errInfo : t.errInfo = s.errInfo
  running : t.running = s.running
  rst : t.rst = s.rst
  events : t.events = s.events
  rdData : t.rdData = s.rdData
  memData : t.memData = s.memData
  draws : t.draws = s.draws
  wf : s.mem.wf = true → t.mem.wf = true

theorem PhaseFrame.refl (s : State) : PhaseFrame s s := ⟨rfl, rfl, rfl, rfl, rfl, rfl, rfl, rfl, rfl, rfl, rfl, rfl, rfl, rfl, rfl, rfl, id⟩

theorem PhaseFrame.trans {s t u : State} (h : PhaseFrame s t) (k : PhaseFrame t u) : PhaseFrame s u where
  ie := k.ie.trans h.ie
  workers := k.workers.trans h.workers
  cmd := k.cmd.trans h.cmd
  status := by rw [k.status, h.status]
  inBase := k.inBase.trans h.inBase
  inLen := k.inLen.trans h.inLen
  outBase := k.outBase.trans h.outBase
  outCap := k.outCap.trans h.outCap
  result := k.result.trans h.result
  errInfo := k.errInfo.trans h.errInfo
  running := k.running.trans h.running
  rst := k.rst.trans h.rst
  events := k.events.trans h.events
  rdData := k.rdData.trans h.rdData
  memData := k.memData.trans h.memData
  draws := k.draws.trans h.draws
  wf := k.wf ∘ h.wf

theorem phaseHist_ok {s t : State} (h : phaseHist s = .ok t) :
    t = { s with
      hist := tabulate 256 fun b => BitVec.ofNat 64 (byteCount (inputBytes s) b)
      origLen := s.inLen
      nsym := BitVec.ofNat 9 (countNonzero (byteCount (inputBytes s)))
      status := { s.status with empty := s.status.empty || s.inLen == 0#64 } } := by
  injection h with h
  exact h.symm

theorem phaseBuild_ok {s t : State} (h : phaseBuild s = .ok t) :
    t = { s with
      node := arenaOf (buildMerged s.hist).2
      root := buildRoot s.hist
      nnodes := BitVec.ofNat 9 (buildMerged s.hist).2.length
      nsym := BitVec.ofNat 9 (histLeaves s.hist).length } := by
  injection h with h
  exact h.symm

/-- DERIVE's phase never raises (42 R150). -/
theorem phaseDerive_some {tm : TableMode} {s : State} {p : PathTable} (h : derivePaths s.node s.root = some p) :
    phaseDerive tm s = .ok { s with
      len := pathLens (treeOperands s.node s.root) p
      code := if tm = .freq then pathCodes (treeOperands s.node s.root) p else s.code } := by
  simp [phaseDerive, h]

theorem phaseDerive_ok (tm : TableMode) (s : State) :
    ∃ l c, phaseDerive tm s = .ok { s with len := l, code := c } ∧ (tm = .canon → c = s.code) := by
  unfold phaseDerive
  dsimp only
  split
  · exact ⟨_, _, rfl, fun h => by simp [h]⟩
  · exact ⟨_, _, rfl, fun h => by simp [h]⟩

/-- DERIVE's tables are functions of the arena and ROOT (42 R157), and its lengths of these in both modes (42 R152). -/
theorem phaseDerive_congr {tm tm' : TableMode} {s s' t t' : State} (hn : s.node = s'.node) (hr : s.root = s'.root)
    (h : phaseDerive tm s = .ok t) (h' : phaseDerive tm' s' = .ok t') :
    t.len = t'.len ∧ (tm = .freq → tm' = .freq → t.code = t'.code) := by
  unfold phaseDerive at h h'
  rw [← hn, ← hr] at h'
  dsimp only at h h'
  split at h <;> split at h' <;> first
    | (simp_all; done)
    | (injection h with h; injection h' with h'; subst h; subst h'; simp_all)

theorem phaseCanon_ok {s t : State} (h : phaseCanon s = .ok t) :
    ∃ c n, t = { s with code := c, nsym := n } := by
  unfold phaseCanon at h
  split at h
  · split at h
    · cases h
    · injection h with h
      exact ⟨_, _, h.symm⟩
  · split at h
    · cases h
    · injection h with h
      exact ⟨_, _, h.symm⟩

theorem phaseCtree_ok {s t : State} (h : phaseCtree s = .ok t) :
    ∃ a, insertCodes s (codedBytes s.len) [] = .ok a ∧ t = { s with
      node := arenaOf a
      root := if a = [] then noNode else 0#9
      nnodes := BitVec.ofNat 9 a.length } := by
  unfold phaseCtree at h
  split at h
  · cases h
  · injection h with h
    exact ⟨_, ‹_›, h.symm⟩

theorem lengthPass_ok {s : State} {t : Nat} (h : lengthPass s = .ok t) :
    firstUncoded s.len (inputBytes s) = none ∧ t = totalLen s.len (inputBytes s) ∧ t ≤ 2 ^ 64 - 1 := by
  unfold lengthPass at h
  split at h
  · cases h
  · split at h
    · cases h
    · injection h with h
      exact ⟨‹_›, h.symm, by omega⟩

theorem lengthPass_of_ok {s : State} (h : firstUncoded s.len (inputBytes s) = none)
    (hl : totalLen s.len (inputBytes s) ≤ 2 ^ 64 - 1) : lengthPass s = .ok (totalLen s.len (inputBytes s)) := by
  unfold lengthPass
  rw [h]
  simp only []
  rw [if_neg (by omega)]

theorem phaseEstimate_ok {s t : State} (h : phaseEstimate s = .ok t) :
    ∃ n, lengthPass s = .ok n
      ∧ t = { s with totalBits := BitVec.ofNat 64 n, totalBytes := BitVec.ofNat 64 (ceilDiv n 8) } := by
  unfold phaseEstimate at h
  split at h
  · cases h
  · injection h with h
    exact ⟨_, ‹_›, h.symm⟩

theorem phaseEncode_ok {s t : State} (h : phaseEncode s = .ok t) :
    ∃ n, lengthPass s = .ok n ∧ s.payloadOff.toNat + ceilDiv n 8 ≤ s.outCap.toNat ∧ t = { s with
      mem := s.mem.writeBytes (s.outBase.toNat + s.payloadOff.toNat) (payloadBytes s)
      totalBits := BitVec.ofNat 64 n
      totalBytes := BitVec.ofNat 64 (ceilDiv n 8) } := by
  unfold phaseEncode at h
  split at h
  · cases h
  · split at h
    · cases h
    · injection h with h
      exact ⟨_, ‹_›, by omega, h.symm⟩

theorem phaseWrhdr_ok {tm : TableMode} {s t : State} (h : phaseWrhdr tm s = .ok t) :
    wrhdrLen tm s ≤ s.outCap.toNat ∧ t = { s with
      mem := s.mem.writeBytes s.outBase.toNat (headerBytes tm s.origLen.toNat (headerEntries tm s))
      hdrLen := BitVec.ofNat 64 (wrhdrLen tm s)
      payloadOff := BitVec.ofNat 64 (wrhdrLen tm s)
      te := tm } := by
  unfold phaseWrhdr at h
  split at h
  · cases h
  · injection h with h
    exact ⟨by omega, h.symm⟩

theorem phaseParsehdr_ok {s t : State} (h : phaseParsehdr s = .ok t) :
    ∃ es, headerFault s = none ∧ parseEntries (parsedTe s) s (parsedCount s) 16 0 = .ok es
      ∧ entriesFault (parsedTe s) (parsedOlen s) es = none ∧ t = parsedState (parsedTe s) es s := by
  unfold phaseParsehdr at h
  split at h
  · cases h
  · split at h
    · cases h
    · split at h
      · cases h
      · injection h with h
        exact ⟨_, ‹_›, ‹_›, ‹_›, h.symm⟩

theorem phaseDcheck_ok {s t : State} (h : phaseDcheck s = .ok t) :
    t = s ∧ s.payloadOff.toNat ≤ s.inLen.toNat ∧ s.origLen.toNat ≤ s.outCap.toNat := by
  unfold phaseDcheck at h
  split at h
  · cases h
  · split at h
    · cases h
    · injection h with h
      exact ⟨h.symm, by omega, by omega⟩

theorem phaseDecode_ok {s t : State} (h : phaseDecode s = .ok t) :
    ∃ bs, decodePayload s = .ok bs ∧ t = { s with mem := s.mem.writeBytes s.outBase.toNat bs } := by
  unfold phaseDecode at h
  split at h
  · cases h
  · injection h with h
    exact ⟨_, ‹_›, h.symm⟩

theorem phaseCcheck_ok {tm : TableMode} {s t : State} (h : phaseCcheck tm s = .ok t) :
    t = s ∧ streamNeed tm s ≤ s.outCap.toNat := by
  unfold phaseCcheck at h
  split at h
  · cases h
  · injection h with h
    exact ⟨h.symm, by omega⟩

/-! ### The frame of each phase -/

theorem regionCheck_frame {a b : Bool} {s t : State} (h : regionCheck a b s = .ok t) : PhaseFrame s t :=
  (regionCheck_ok h).1 ▸ PhaseFrame.refl s

theorem phaseHist_frame {s t : State} (h : phaseHist s = .ok t) : PhaseFrame s t := by
  rw [phaseHist_ok h]
  exact ⟨rfl, rfl, rfl, rfl, rfl, rfl, rfl, rfl, rfl, rfl, rfl, rfl, rfl, rfl, rfl, rfl, id⟩

theorem phaseBuild_frame {s t : State} (h : phaseBuild s = .ok t) : PhaseFrame s t := by
  rw [phaseBuild_ok h]
  exact ⟨rfl, rfl, rfl, rfl, rfl, rfl, rfl, rfl, rfl, rfl, rfl, rfl, rfl, rfl, rfl, rfl, id⟩

theorem phaseDerive_frame {tm : TableMode} {s t : State} (h : phaseDerive tm s = .ok t) : PhaseFrame s t := by
  obtain ⟨l, c, e, _⟩ := phaseDerive_ok tm s
  rw [e] at h
  injection h with h
  rw [← h]
  exact ⟨rfl, rfl, rfl, rfl, rfl, rfl, rfl, rfl, rfl, rfl, rfl, rfl, rfl, rfl, rfl, rfl, id⟩

theorem phaseCanon_frame {s t : State} (h : phaseCanon s = .ok t) : PhaseFrame s t := by
  obtain ⟨c, n, rfl⟩ := phaseCanon_ok h
  exact ⟨rfl, rfl, rfl, rfl, rfl, rfl, rfl, rfl, rfl, rfl, rfl, rfl, rfl, rfl, rfl, rfl, id⟩

theorem phaseCtree_frame {s t : State} (h : phaseCtree s = .ok t) : PhaseFrame s t := by
  obtain ⟨a, _, rfl⟩ := phaseCtree_ok h
  exact ⟨rfl, rfl, rfl, rfl, rfl, rfl, rfl, rfl, rfl, rfl, rfl, rfl, rfl, rfl, rfl, rfl, id⟩

theorem phaseEstimate_frame {s t : State} (h : phaseEstimate s = .ok t) : PhaseFrame s t := by
  obtain ⟨n, _, rfl⟩ := phaseEstimate_ok h
  exact ⟨rfl, rfl, rfl, rfl, rfl, rfl, rfl, rfl, rfl, rfl, rfl, rfl, rfl, rfl, rfl, rfl, id⟩

theorem phaseEncode_frame {s t : State} (h : phaseEncode s = .ok t) : PhaseFrame s t := by
  obtain ⟨n, _, _, rfl⟩ := phaseEncode_ok h
  exact ⟨rfl, rfl, rfl, rfl, rfl, rfl, rfl, rfl, rfl, rfl, rfl, rfl, rfl, rfl, rfl, rfl, fun w => Memory.wf_writeBytes w _ _⟩

theorem phaseWrhdr_frame {tm : TableMode} {s t : State} (h : phaseWrhdr tm s = .ok t) : PhaseFrame s t := by
  obtain ⟨_, rfl⟩ := phaseWrhdr_ok h
  exact ⟨rfl, rfl, rfl, rfl, rfl, rfl, rfl, rfl, rfl, rfl, rfl, rfl, rfl, rfl, rfl, rfl, fun w => Memory.wf_writeBytes w _ _⟩

theorem phaseParsehdr_frame {s t : State} (h : phaseParsehdr s = .ok t) : PhaseFrame s t := by
  obtain ⟨es, _, _, _, rfl⟩ := phaseParsehdr_ok h
  clear h
  unfold parsedState
  exact ⟨rfl, rfl, rfl, rfl, rfl, rfl, rfl, rfl, rfl, rfl, rfl, rfl, rfl, rfl, rfl, rfl, id⟩

theorem phaseDcheck_frame {s t : State} (h : phaseDcheck s = .ok t) : PhaseFrame s t :=
  (phaseDcheck_ok h).1 ▸ PhaseFrame.refl s

theorem phaseDecode_frame {s t : State} (h : phaseDecode s = .ok t) : PhaseFrame s t := by
  obtain ⟨bs, _, rfl⟩ := phaseDecode_ok h
  exact ⟨rfl, rfl, rfl, rfl, rfl, rfl, rfl, rfl, rfl, rfl, rfl, rfl, rfl, rfl, rfl, rfl, fun w => Memory.wf_writeBytes w _ _⟩

theorem phaseCcheck_frame {tm : TableMode} {s t : State} (h : phaseCcheck tm s = .ok t) : PhaseFrame s t :=
  (phaseCcheck_ok h).1 ▸ PhaseFrame.refl s

/-- Every phase of every command keeps the frame of a phase. -/
theorem plan_frame (i : Instr) : ∀ p ∈ (commandOf i).plan, ∀ s t, p.body s = .ok t → PhaseFrame s t := by
  intro p hp s t h
  cases i <;>
    simp only [commandOf, cmdHist, cmdBuild, cmdDerive, cmdDeriveC, cmdCanon, cmdCtree, cmdEstimate, cmdEncode, cmdWrhdr,
      cmdWrhdrC, cmdParsehdr, cmdDecode, cmdCompress, cmdCompressC, cmdDecompress, List.mem_cons, List.not_mem_nil,
      or_false] at hp <;>
    rcases hp with rfl | rfl | rfl | rfl | rfl | rfl | rfl | rfl | rfl <;>
    dsimp only [PhaseStep.always] at h <;>
    first
    | exact regionCheck_frame h
    | exact phaseHist_frame h
    | exact phaseBuild_frame h
    | exact phaseDerive_frame h
    | exact phaseCanon_frame h
    | exact phaseCtree_frame h
    | exact phaseEstimate_frame h
    | exact phaseEncode_frame h
    | exact phaseWrhdr_frame h
    | exact phaseParsehdr_frame h
    | exact phaseDcheck_frame h
    | exact phaseDecode_frame h
    | exact phaseCcheck_frame h

end Sys2Proof.Machine
end

