-- ==== Sys2Proof/Laws/Tables.lean ====
section
/-!
SUPPORT. The laws of the RAM tables: what a tabulated RAM holds, which entries a table lists, in which order, and how the number 0 and
an all-zero entry agree.
-/
namespace Sys2Proof.Machine

@[simp] theorem getElem_tabulate {α : Type} (n : Nat) (f : Fin n → α) (i : Nat) (h : i < n) :
    (tabulate n f)[i] = f ⟨i, h⟩ := by
  simp [tabulate]

@[simp] theorem getElem_tabulate_fin {α : Type} (n : Nat) (f : Fin n → α) (i : Fin n) : (tabulate n f)[i] = f i :=
  getElem_tabulate n f i.val i.isLt

@[simp] theorem length_ramValues {w : Nat} (v : Vector (BitVec w) 256) : (ramValues v).length = 256 := by simp [ramValues]

theorem getElem_ramValues {w : Nat} (v : Vector (BitVec w) 256) (b : Nat) (h : b < (ramValues v).length) :
    (ramValues v)[b] = (v[b]'(by simpa using h)).toNat := by
  simp [ramValues]

/-- Which entries a table lists. -/
theorem mem_nonzeroEntries {values : List Nat} {e : Nat × Nat} :
    e ∈ nonzeroEntries values ↔ ∃ h : e.1 < values.length, values[e.1] = e.2 ∧ e.2 ≠ 0 := by
  obtain ⟨b, v⟩ := e
  simp only [nonzeroEntries, List.mem_filterMap, List.mem_zipIdx_iff_getElem?]
  constructor
  · rintro ⟨⟨x, i⟩, hx, h⟩
    dsimp only at hx h
    split at h
    · cases h
    · simp only [Option.some.injEq, Prod.mk.injEq] at h
      obtain ⟨rfl, rfl⟩ := h
      obtain ⟨hi, hv⟩ := List.getElem?_eq_some_iff.mp hx
      exact ⟨hi, hv, ‹_›⟩
  · rintro ⟨h, hv, hne⟩
    exact ⟨(v, b), by simp [h, hv], by simp [hne]⟩

/-- Which bytes a RAM's list of entries names. -/
theorem mem_nonzeroEntries_ram {w : Nat} {v : Vector (BitVec w) 256} {e : Nat × Nat} :
    e ∈ nonzeroEntries (ramValues v) ↔ ∃ h : e.1 < 256, (v[e.1]).toNat = e.2 ∧ e.2 ≠ 0 := by
  rw [mem_nonzeroEntries]
  constructor
  · rintro ⟨h, hv, hne⟩
    exact ⟨by simpa using h, by rw [← hv, getElem_ramValues], hne⟩
  · rintro ⟨h, hv, hne⟩
    exact ⟨by simpa using h, by rw [getElem_ramValues, hv], hne⟩

theorem zipIdx_pairwise (values : List Nat) (k : Nat) : (values.zipIdx k).Pairwise fun x y => x.2 < y.2 := by
  induction values generalizing k with
  | nil => exact List.Pairwise.nil
  | cons v vs ih =>
    rw [List.zipIdx_cons]
    refine List.Pairwise.cons (fun y hy => ?_) (ih (k + 1))
    have := List.le_snd_of_mem_zipIdx hy
    show k < y.2
    omega

/-- The entries are listed in strictly ascending order of the index (45 R203). -/
theorem nonzeroEntries_ascending (values : List Nat) : (nonzeroEntries values).Pairwise fun x y => x.1 < y.1 := by
  refine List.Pairwise.filterMap _ (fun x y hxy a ha b hb => ?_) (zipIdx_pairwise values 0)
  split at ha
  · cases ha
  · split at hb
    · cases hb
    · simp only [Option.some.injEq] at ha hb
      rw [← ha, ← hb]
      exact hxy

theorem length_nonzeroEntries_le (values : List Nat) : (nonzeroEntries values).length ≤ values.length := by
  refine (List.length_filterMap_le _ _).trans ?_
  simp

end Sys2Proof.Machine
end

