-- ==== Sys2Proof/Tests/Slice0.lean ====
section
/-!
SUPPORT. The model's own tests: the well-formedness smoke test, the decode tests, at most two tests for a command with the values of
spec 95 and of the rules' examples, and a witness of the hypotheses of every statement that has some.
-/
namespace Sys2Proof.Machine.Tests

/-! ### Well-formedness (30 R106) -/

theorem test_ill_formed_zero_opcode : opcNonzero 0x000#64 = false ∧ wellFormedWord 0x000#64 = false := by decide
theorem test_ill_formed_unassigned :
    opcAssigned 0x00D#64 = false ∧ wellFormedWord 0x00D#64 = false ∧ wellFormedWord 0x0FF#64 = false := by decide
theorem test_ill_formed_tm : tmAllowed 0x101#64 = false ∧ wellFormedWord 0x101#64 = false := by decide
theorem test_ill_formed_reserved :
    reservedZero 0x203#64 = false ∧ wellFormedWord 0x203#64 = false ∧ wellFormedWord 0x8000000000000001#64 = false := by decide
theorem test_well_formed : wellFormedWord 0x00C#64 = true ∧ wellFormedWord 0x10B#64 = true := by decide

/-! ### Decoding: each word from the fields of 30 R100 (reserved 63:9, TM 8, OPC 7:0) and R103 -/

/-- A command word from its fields. -/
def word (tm : BitVec 1) (opc : BitVec 8) : Word := 0#55 ++ tm ++ opc

theorem test_decode_hist : decode (word 0b0#1 0b00000001#8) = .ok .hist := by decide
theorem test_decode_build : decode (word 0b0#1 0b00000010#8) = .ok .build := by decide
theorem test_decode_derive : decode (word 0b0#1 0b00000011#8) = .ok .derive := by decide
theorem test_decode_deriveC : decode (word 0b1#1 0b00000011#8) = .ok .deriveC := by decide
theorem test_decode_canon : decode (word 0b0#1 0b00000100#8) = .ok .canon := by decide
theorem test_decode_ctree : decode (word 0b0#1 0b00000101#8) = .ok .ctree := by decide
theorem test_decode_estimate : decode (word 0b0#1 0b00000110#8) = .ok .estimate := by decide
theorem test_decode_encode : decode (word 0b0#1 0b00000111#8) = .ok .encode := by decide
theorem test_decode_wrhdr : decode (word 0b0#1 0b00001000#8) = .ok .wrhdr := by decide
theorem test_decode_wrhdrC : decode (word 0b1#1 0b00001000#8) = .ok .wrhdrC := by decide
theorem test_decode_parsehdr : decode (word 0b0#1 0b00001001#8) = .ok .parsehdr := by decide
theorem test_decode_decode : decode (word 0b0#1 0b00001010#8) = .ok .decode := by decide
theorem test_decode_compress : decode (word 0b0#1 0b00001011#8) = .ok .compress := by decide
theorem test_decode_compressC : decode (word 0b1#1 0b00001011#8) = .ok .compressC := by decide
theorem test_decode_decompress : decode (word 0b0#1 0b00001100#8) = .ok .decompress := by decide
theorem test_decode_rejects_by_name : decode (word 0b1#1 0b00001100#8) = .error .tmNotDefined
    ∧ decode (word 0b0#1 0b00001101#8) = .error .unassignedOpcode := by decide
theorem test_decode_lanes : decodeLanes [0x03#8, 0x01#8, 0#8, 0#8, 0#8, 0#8, 0#8, 0#8] = .ok .deriveC
    ∧ decodeLanes [0x03#8, 0x01#8] = .error .notOneWord := by decide

/-! ### Small states -/

/-- "aaaabbbccd" (47 R272). -/
def text : List Byte := [0x61#8, 0x61#8, 0x61#8, 0x61#8, 0x62#8, 0x62#8, 0x62#8, 0x63#8, 0x63#8, 0x64#8]

/-- The text at 0x1000, the output region [0x2000, 0x2040). -/
def src : State :=
  { State.reset with
    mem := Memory.writeBytes [] 0x1000 text, inBase := 0x1000#64, inLen := 10#64, outBase := 0x2000#64, outCap := 64#64 }

/-- The state a command answers. -/
def after (i : Instr) (s : State) : State :=
  match exec i s with
  | .next t => t
  | .fault _ => s
  | .refused _ => s

theorem exec_after (i : Instr) (s : State) : exec i s = .next (after i s) := by
  unfold after
  rw [exec_eq]

/-- A state with given entries of LEN and HIST. -/
def withLens (l : List (Fin 256 × Byte)) : State :=
  { src with len := l.foldl (fun v e => v.set e.1.val e.2) State.reset.len }

/-- A state with given entries of HIST. -/
def withHist (l : List (Fin 256 × Word)) : State :=
  { src with hist := l.foldl (fun v e => v.set e.1.val e.2) State.reset.hist }

/-- HIST a:4, b:3, c:2, d:1 (41 R133). -/
def abcd : State := withHist [(0x61, 4#64), (0x62, 3#64), (0x63, 2#64), (0x64, 1#64)]

/-- The tree-path table of `abcd` (42 R150): the codes left-aligned. -/
def coded : State :=
  { withLens [(0x61, 1#8), (0x62, 2#8), (0x63, 3#8), (0x64, 3#8)] with
    code := (((State.reset.code.set 0x61 0#256).set 0x62 (0b10#256 <<< 254)).set 0x63 (0b111#256 <<< 253)).set 0x64
      (0b110#256 <<< 253) }

/-- The header of 45 R207 and the payload of 44 R180. -/
def freqStream : List Byte :=
  [0x48#8, 0x55#8, 0x46#8, 0x5A#8, 0x01#8, 0x0A#8, 0#8, 0#8, 0#8, 0#8, 0#8, 0#8, 0#8, 0#8, 0x04#8, 0#8]
    ++ [0x61#8, 4#8, 0#8, 0#8, 0#8, 0#8, 0#8, 0#8, 0#8] ++ [0x62#8, 3#8, 0#8, 0#8, 0#8, 0#8, 0#8, 0#8, 0#8]
    ++ [0x63#8, 2#8, 0#8, 0#8, 0#8, 0#8, 0#8, 0#8, 0#8] ++ [0x64#8, 1#8, 0#8, 0#8, 0#8, 0#8, 0#8, 0#8, 0#8]
    ++ [0x0A#8, 0xBF#8, 0xC0#8]

/-- The stream of 45 R208. -/
def canonStream : List Byte :=
  [0x48#8, 0x55#8, 0x46#8, 0x5A#8, 0x01#8, 0x0A#8, 0#8, 0#8, 0#8, 0#8, 0#8, 0#8, 0#8, 0x01#8, 0x04#8, 0#8]
    ++ [0x61#8, 1#8, 0x62#8, 2#8, 0x63#8, 3#8, 0x64#8, 3#8] ++ [0x0A#8, 0xB6#8, 0xE0#8]

/-- A stream as the input region, with an output region of `cap` bytes. -/
def reading (bs : List Byte) (cap : Word) : State :=
  { State.reset with
    mem := Memory.writeBytes [] 0x1000 bs, inBase := 0x1000#64, inLen := BitVec.ofNat 64 bs.length, outBase := 0x2000#64
    outCap := cap }

/-- The tree of `abcd` with a payload as the input region and ORIG_LEN symbols to decode. -/
def decoding (bs : List Byte) (n cap : Word) : State :=
  { reading bs cap with
    node := arenaOf (buildMerged abcd.hist).2, root := 6#9, nnodes := 7#9, origLen := n }

/-- DONE, RESULT and no error. -/
def succeeds (t : State) (r : Word) : Bool := t.status.done && !t.status.err && !t.busy && t.result == r

/-- ERR with a code, its information, its phase, and RESULT 0. -/
def fails (t : State) (c : ErrCode) (info : Word) (p : Phase) : Bool :=
  t.status.err && !t.status.done && !t.busy && t.status.errCode == c && t.errInfo == info && t.status.phase == p
    && t.result == 0#64

/-! ### Commands (spec 95 and the rules' examples) -/

/-- 40 R122. -/
theorem test_hist_example : let t := after .hist src
    succeeds t 10#64 = true ∧ t.hist[0x61] = 4#64 ∧ t.hist[0x64] = 1#64 ∧ t.hist[0x65] = 0#64 ∧ t.nsym = 4#9 := by decide +kernel
/-- 40 R122, corner case. -/
theorem test_hist_empty : let t := after .hist { src with inLen := 0#64 }
    succeeds t 0#64 = true ∧ t.status.empty = true ∧ t.nsym = 0#9 := by decide +kernel
/-- 41 R133. -/
theorem test_build_example : let t := after .build abcd
    succeeds t 7#64 = true ∧ t.root = 6#9 ∧ t.node[4] = internalNode 3 3#9 2#9 ∧ t.node[5] = internalNode 6 1#9 4#9
      ∧ t.node[6] = internalNode 10 0#9 5#9 := by decide +kernel
/-- 41 R134: the sentinel. -/
theorem test_build_one_byte : let t := after .build (withHist [(0x78, 5#64)])
    succeeds t 3#64 = true ∧ t.node[1] = leafNode 256 0 ∧ t.node[2] = internalNode 5 1#9 0#9 ∧ t.nsym = 1#9 := by decide +kernel
/-- 42 R150. -/
theorem test_derive_example : let t := after .derive (after .build abcd)
    succeeds t 4#64 = true ∧ codeWordBits t 0x63 = [true, true, true] ∧ codeWordBits t 0x64 = [true, true, false]
      ∧ t.len[0x61] = 1#8 := by decide +kernel
/-- 42 R150 over shared children: nine levels with LEFT = RIGHT above one leaf; the last path recorded is all 1s. -/
theorem test_derive_shared :
    let s := { src with
      node := arenaOf (leafNode 0x41 0 :: (List.range 9).map fun k => internalNode 0 (BitVec.ofNat 9 k) (BitVec.ofNat 9 k))
      root := 9#9 }
    (after .derive s).len[0x41] = 9#8 ∧ (after .derive s).code[0x41] = 0x1FF#256 <<< 247 := by decide +kernel
/-- 42 R150, TM = 1. -/
theorem test_deriveC_example : let t := after .deriveC (after .build abcd)
    succeeds t 4#64 = true ∧ codeWordBits t 0x63 = [true, true, false] ∧ codeWordBits t 0x64 = [true, true, true]
      ∧ t.nsym = 4#9 := by decide +kernel
/-- 42 R153, R155: a set of lengths that is no complete code. -/
theorem test_canon_kraft : fails (after .canon (withLens [(1, 1#8), (2, 2#8)])) .badTable 0x100#64 .canon = true := by
  decide +kernel
/-- 42 R153. -/
theorem test_canon_example : let t := after .canon coded
    succeeds t 4#64 = true ∧ codeWordBits t 0x62 = [true, false] ∧ codeWordBits t 0x63 = [true, true, false] := by decide +kernel
/-- 46 R232. -/
theorem test_ctree_example : let t := after .ctree (after .canon coded)
    succeeds t 7#64 = true ∧ t.root = 0#9 ∧ t.node[2] = internalNode 0 3#9 4#9 ∧ t.node[6] = leafNode 0x64 0 := by decide +kernel
/-- 46 R232: two equal codes collide at the second byte. -/
theorem test_ctree_collision : fails (after .ctree (withLens [(7, 1#8), (9, 1#8)])) .badTable 9#64 .ctree = true := by
  decide +kernel
/-- 43 R170. -/
theorem test_estimate_example : let t := after .estimate coded
    succeeds t 3#64 = true ∧ t.totalBits = 19#64 := by decide +kernel
/-- 43 R170: the least offset without a code. -/
theorem test_estimate_no_code : fails (after .estimate (withLens [(0x61, 1#8), (0x62, 1#8)])) .noCode 7#64 .estimate = true := by
  decide +kernel
/-- 44 R180. -/
theorem test_encode_example : let t := after .encode coded
    succeeds t 3#64 = true ∧ t.outBytes 3 = [0x0A#8, 0xBF#8, 0xC0#8] := by decide +kernel
/-- 44 R180: the payload must fit after PAYLOAD_OFF; nothing is written. -/
theorem test_encode_small : let s := { coded with payloadOff := 62#64 }
    fails (after .encode s) .bufferTooSmall 65#64 .encode = true ∧ (after .encode s).mem = s.mem := by decide +kernel
/-- 45 R207. -/
theorem test_wrhdr_example : let t := after .wrhdr { abcd with origLen := 10#64 }
    succeeds t 52#64 = true ∧ t.outBytes 52 = freqStream.take 52 ∧ t.payloadOff = 52#64 := by decide +kernel
/-- 45 R208. -/
theorem test_wrhdrC_example : let t := after .wrhdrC { coded with origLen := 10#64 }
    succeeds t 24#64 = true ∧ t.outBytes 24 = canonStream.take 24 ∧ t.te = .canon := by decide +kernel
/-- 45 R210. -/
theorem test_parsehdr_example : let t := after .parsehdr (reading freqStream 0#64)
    succeeds t 52#64 = true ∧ t.hist[0x62] = 3#64 ∧ t.origLen = 10#64 ∧ t.nsym = 4#9 ∧ t.te = .freq := by decide +kernel
/-- 45 R210: a header cut short reports IN_LEN. -/
theorem test_parsehdr_cut :
    fails (after .parsehdr (reading (freqStream.take 51) 0#64)) .corruptHeader 51#64 .parsehdr = true := by decide +kernel
/-- 46 R236. -/
theorem test_decode_example : let t := after .decode (decoding [0x0A#8, 0xBF#8, 0xC0#8] 10#64 10#64)
    succeeds t 10#64 = true ∧ t.outBytes 10 = text := by decide +kernel
/-- 46 R236, R238: a pad bit that is 1. -/
theorem test_decode_pad :
    fails (after .decode (decoding [0x0A#8, 0xBF#8, 0xC1#8] 10#64 10#64)) .corruptPad 10#64 .decode = true := by decide +kernel
/-- 47 R260, R272. -/
theorem test_compress_example : let t := after .compress src
    succeeds t 55#64 = true ∧ t.outBytes 55 = freqStream ∧ t.totalBits = 19#64 ∧ t.root = 6#9 := by decide +kernel
/-- 47 R260: the empty input in a region one byte too small. -/
theorem test_compress_empty_small : let t := after .compress { src with inLen := 0#64, outCap := 15#64 }
    fails t .bufferTooSmall 16#64 .check = true ∧ t.status.empty = true := by decide +kernel
/-- 47 R260, R272. -/
theorem test_compressC_example : let t := after .compressC src
    succeeds t 27#64 = true ∧ t.outBytes 27 = canonStream := by decide +kernel
/-- 47 R265, R272. -/
theorem test_decompress_freq : let t := after .decompress (reading freqStream 10#64)
    succeeds t 10#64 = true ∧ t.outBytes 10 = text ∧ t.nnodes = 7#9 := by decide +kernel
/-- 47 R265, R272, CANON. -/
theorem test_decompress_canon : let t := after .decompress (reading canonStream 10#64)
    succeeds t 10#64 = true ∧ t.outBytes 10 = text := by decide +kernel
/-- 46 R241's example: 54 of the 55 bytes. -/
theorem test_decompress_cut :
    fails (after .decompress (reading (freqStream.take 54) 10#64)) .corruptLength 9#64 .decode = true := by decide +kernel
/-- 44 R187: a boundary byte of two workers. -/
theorem test_parallel_boundary :
    (let len : Vector Byte 256 := ((State.reset.len.set 0x61 1#8).set 0x62 2#8).set 0x63 2#8
     let code : Vector (BitVec 256) 256 := (State.reset.code.set 0x61 (1#256 <<< 255)).set 0x62 (1#256 <<< 254)
     let s := { src with len := len, code := code }
     let xs := List.replicate 20 0x62#8 ++ List.replicate 10 0x63#8 ++ List.replicate 100 0x61#8
     stagedByte s xs 2 11 0 = 0xFC#8 ∧ stagedByte s xs 2 11 1 = 0x03#8 ∧ parallelByte s xs 2 11 = 0xFF#8) := by decide +kernel

/-! ### Steps and the host port -/

/-- A placed word is run by the next step (30 R104). -/
theorem test_step_runs_placed_word :
    (match step (State.reset.withFetchWord 64 0x002) with
      | .next t => t.status.done && t.status.opc == 0x02#8 && t.cmd == 0x002#64
      | .fault _ => false
      | .refused _ => false) = true := by decide +kernel
/-- An illegal placed word is rejected by the next step (30 R104). -/
theorem test_step_rejects_illegal_word :
    (match step (State.reset.withFetchWord 64 0x00D) with
      | .next t => fails t .illegalCmd 0x00D#64 .check
      | .fault _ => false
      | .refused _ => false) = true := by decide +kernel
/-- A 4-byte register access is a host fault (20 R76). -/
theorem test_access_width : hostStep (.regRead 0x018#15 4) src = .fault (.hostAccess 0x018 4) := rfl

/-! ### Witnesses of the hypotheses of the statements, clause by clause at the ends of their ranges -/

/-- The checks of `leadsTo`, as a value. -/
def leads (s : State) (p : List Bool) (sym : Index) : Bool :=
  s.root != noNode && (match followPath s.node s.root p with
    | some i => (nodeAt s.node i).leaf && (nodeAt s.node i).sym == sym
    | none => false)

theorem leadsTo_of_leads {s : State} {p : List Bool} {b : Fin 256} (h : leads s p (BitVec.ofNat 9 b.val) = true) : leadsTo s p b := by
  unfold leads at h
  simp only [Bool.and_eq_true, bne_iff_ne, ne_eq] at h
  refine ⟨h.1, ?_⟩
  have h2 := h.2
  split at h2
  · rename_i i hi
    simp only [Bool.and_eq_true, beq_iff_eq] at h2
    exact ⟨i, hi, h2.1, by rw [h2.2]; simp; omega⟩
  · cases h2

theorem leadsToSentinel_of_leads {s : State} {p : List Bool} (h : leads s p 256#9 = true) : leadsToSentinel s p := by
  unfold leads at h
  simp only [Bool.and_eq_true, bne_iff_ne, ne_eq] at h
  refine ⟨h.1, ?_⟩
  have h2 := h.2
  split at h2
  · rename_i i hi
    simp only [Bool.and_eq_true, beq_iff_eq] at h2
    exact ⟨i, hi, h2.1, h2.2⟩
  · cases h2

/-- A command that runs. -/
def running (i : Instr) : State := src.latched i

theorem witness_DecodeEncodeAgree : decodeLanes [0x0B#8, 0x01#8, 0#8, 0#8, 0#8, 0#8, 0#8, 0#8] = .ok .compressC
    ∧ decode 0x10B#64 = .ok .compressC := by decide
theorem witness_IllegalWords : src.rst = false ∧ src.running = none
    ∧ (0x000#64).extractLsb' 0 8 = 0x00#8 ∧ 0x0D ≤ ((0x00D#64).extractLsb' 0 8).toNat ∧ 0x0D ≤ ((0x0FF#64).extractLsb' 0 8).toNat
    ∧ (0x10C#64).getLsbD 8 = true ∧ (0x201#64).getLsbD 9 = true ∧ (0x8000000000000001#64).getLsbD 63 = true
    ∧ wellFormedWord 0x001#64 = true ∧ wellFormedWord 0x00C#64 = true := by decide
theorem witness_RegisterMap : regAt 0x000#15 ≠ .reserved ∧ regAt 0x088#15 ≠ .reserved ∧ regAt 0x5FF8#15 ≠ .reserved
    ∧ regAt 0x090#15 = .reserved ∧ regAt 0x7F8#15 = .reserved ∧ regAt 0x1800#15 = .reserved ∧ regAt 0x1FF8#15 = .reserved
    ∧ regAt 0x6000#15 = .reserved ∧ regAt 0x7FF8#15 = .reserved := by decide
theorem witness_StatusFields : src.rst = false ∧ src.running = none := ⟨rfl, rfl⟩
theorem witness_CodeAndNodeWindows : coded.rst = false ∧ coded.running = none ∧ (0 / 64 = 0 ∧ 255 / 64 = 3)
    ∧ (0x090#15).toNat % 8 = 0 ∧ (0x7F8#15).toNat % 8 = 0 ∧ (0x1800#15).toNat % 8 = 0 ∧ (0x1FF8#15).toNat % 8 = 0
    ∧ (0x6000#15).toNat % 8 = 0 ∧ (0x7FF8#15).toNat % 8 = 0 := by decide
theorem witness_IssueCommand : src.rst = false ∧ src.running = none ∧ decode 0x001#64 = .ok .hist
    ∧ decode 0x10B#64 = .ok .compressC ∧ decode 0x00D#64 = .error .unassignedOpcode := by decide
theorem witness_IgnoredWritesWhileBusy : (running .hist).rst = false ∧ (running .hist).running.isSome = true
    ∧ (0x018#15).toNat % 8 = 0 ∧ (0x010#15).toNat % 8 = 0 ∧ (0x008#15).toNat % 8 = 0 ∧ (0x7FF8#15).toNat % 8 = 0
    ∧ step src = .next src ∧ src.events = [] := ⟨rfl, rfl, rfl, rfl, rfl, rfl, rfl, rfl⟩
theorem witness_StatusWriteOneToClear : src.rst = false ∧ (running .hist).rst = false ∧ src.running = none ∧ step src = .next src
    ∧ src.events = [] := ⟨rfl, rfl, rfl, rfl, rfl⟩
theorem witness_RegisterAccessWidth : (4 ≠ 8 ∨ (0x018#15).toNat % 8 ≠ 0) ∧ (8 ≠ 8 ∨ (0x01C#15).toNat % 8 ≠ 0)
    ∧ (0x018#15).toNat % 8 = 0 := by decide
theorem witness_IdleRegisterWrites : src.rst = false ∧ src.running = none ∧ (0x7FFFFFFFFFFFFFFF#64).getLsbD 63 = false
    ∧ (0x000#15).toNat % 8 = 0 ∧ (0x050 ≤ (0x050#15).toNat ∧ (0x7F8#15).toNat ≤ 0x7FF) ∧ 0x1800 ≤ (0x1800#15).toNat
    ∧ 0x1800 ≤ (0x7FF8#15).toNat := by decide
theorem witness_SoftwareReset : src.rst = false ∧ (0x8000000000000000#64).getLsbD 63 = true ∧ src.running = none
    ∧ (running .hist).rst = false ∧ (running .hist).running.isSome = true := by decide
theorem witness_ResetInput : ({ src with rst := true } : State).rst = true ∧ (0x018#15).toNat % 8 = 0
    ∧ src.running = none ∧ (running .wrhdr).running = some ⟨.wrhdr, src.workers, false, none, 0⟩
    ∧ 0 < (running .wrhdr).outBase.toNat + ((commandOf .wrhdr).writeSet (running .wrhdr)).1 := by
  refine ⟨rfl, rfl, rfl, rfl, ?_⟩
  decide +kernel
theorem witness_ResetValues : State.reset.isReset ∧ State.reset.events = [] := ⟨rfl, rfl⟩
theorem witness_InterruptLine : src.rst = false ∧ (0x36#64).getLsbD 1 = true ∧ (0x36#64).getLsbD 2 = true ∧ src.running = none
    ∧ decode 0x001#64 = .ok .hist ∧ (0x000#64).getLsbD 63 = false ∧ (0x001#64).getLsbD 63 = false := by decide
theorem witness_ReadsWhileBusy : (running .hist).rst = false
    ∧ (running .hist).running = some ⟨.hist, src.workers, false, none, 0⟩ ∧ Reg.totalBits ≠ .status
    ∧ Reg.totalBits.inWindow = false ∧ writesReg .hist .totalBits = false := ⟨rfl, rfl, by decide, rfl, rfl⟩
theorem witness_StepRunsLatchedCommand : (running .hist).events = []
    ∧ (running .hist).running = some ⟨.hist, src.workers, false, none, 0⟩
    ∧ ({ running .hist with events := [.complete none] } : State).events = [.complete none] ∧ src.events = [] ∧ src.running = none
    ∧ ({ src with events := [.host (.regWrite 0x010#15 8 0x103#64)] } : State).events = [.host (.regWrite 0x010#15 8 0x103#64)]
    ∧ decodeLanes (wordLanes 0x103#64) = .ok .deriveC ∧ decodeTableWord 64 0x103 = some .deriveC :=
  ⟨rfl, rfl, rfl, rfl, rfl, rfl, by decide, by decide⟩
theorem witness_PhaseOrder : (∃ t, runPlan (commandOf .derive).plan State.reset = .returned t)
    ∧ ({ running .hist with events := [.advance] } : State).events = [.advance] ∧ src.running = none
    ∧ (running .hist).running = some ⟨.hist, src.workers, false, none, 0⟩
    ∧ (reached (commandOf .hist).plan { running .hist with events := [] })[0 + 1]? = some (.hist, { running .hist with events := [] })
    ∧ (reached (commandOf .hist).plan { running .hist with events := [] })[1 + 1]? = none := ⟨⟨_, rfl⟩, rfl, rfl, rfl, rfl, rfl⟩
theorem witness_StepKeepsInvariant : State.reset.Inv ∧ step State.reset = .next State.reset := by
  have hw : 1 ≤ Config.maxWorkers.toNat := by
    unfold Config.maxWorkers
    split
    · decide
    · rename_i h
      have : Config.maxWorkersParam.toNat ≠ 0 := fun e => h (BitVec.eq_of_toNat_eq e)
      omega
  exact ⟨⟨rfl, hw, Nat.le_refl _, fun run h => (by cases h), ⟨rfl, fun h => (by cases h)⟩, fun _ => rfl⟩, rfl⟩
theorem witness_CommandFrame : exec .compress src = .next (after .compress src) ∧ src.raced = false
    ∧ Instr.build ∉ [Instr.hist, .compress, .compressC] := ⟨exec_after _ _, rfl, by decide⟩
theorem witness_MemoryFrame : exec .wrhdr src = .next (after .wrhdr src) ∧ src.raced = false
    ∧ 0x1FFF < src.outBase.toNat + ((commandOf .wrhdr).writeSet src).1
    ∧ src.outBase.toNat + ((commandOf .wrhdr).writeSet src).2 ≤ 0x2010
    ∧ ({ src with running := some ⟨.hist, 1#8, true, none, 0⟩ } : State).raced = true
    ∧ regionsOk true true src = true ∧ src.inBase.toNat ≤ 0x1000 ∧ 0x1009 < src.inBase.toNat + src.inLen.toNat := by
  refine ⟨exec_after _ _, rfl, ?_⟩
  decide +kernel
theorem witness_WriteSets : src.raced = false ∧ src.status.err = false ∧ (after .wrhdr src).status.err = false
    ∧ (after .wrhdrC src).status.err = false ∧ (after .encode coded).status.err = false
    ∧ (after .decode (decoding [] 0#64 0#64)).status.err = false ∧ (after .compress src).status.err = false
    ∧ (after .compressC src).status.err = false ∧ (after .decompress (reading canonStream 10#64)).status.err = false := by
  decide +kernel
theorem witness_ErrorLeavesMemory : let s := { src with outCap := 54#64 }
    exec .compress s = .next (after .compress s) ∧ s.raced = false ∧ s.status.err = false ∧ (after .compress s).status.err = true
      ∧ (after .compress s).status.errCode ≠ .busError ∧ (after .compress s).status.errCode.corrupt = false
      ∧ (after .parsehdr src).status.err = true ∧ (after .parsehdr src).status.phase = .parsehdr := by
  refine ⟨exec_after _ _, rfl, rfl, ?_⟩
  decide +kernel
theorem witness_FailedCompletion : src.undisturbed = true
    ∧ ∃ p e kept, runPlan (commandOf .estimate).plan src = .raised p e kept := by
  refine ⟨rfl, .estimate, ⟨.noCode, 0#64⟩, src, ?_⟩
  have h1 : regionCheck true false src = .ok src := regionCheck_of_ok (by decide +kernel)
  have h2 : firstUncoded src.len (inputBytes src) = some 0 := by decide +kernel
  have h3 : phaseEstimate src = .error ⟨.noCode, 0#64⟩ := by simp [phaseEstimate, lengthPass, h2]
  exact (runPlan_always_ok h1).trans (runPlan_always_error h3)
theorem witness_RacedCommandCompletes :
    ({ src with running := some ⟨.hist, 1#8, true, none, 0⟩ } : State).raced = true ∧ 0x1FFF < src.outBase.toNat
      ∧ src.outBase.toNat + src.outCap.toNat ≤ 0x2040
      ∧ (∃ x : Word, Config.mmioBase ≤ x.toNat ∧ x.toNat < Config.mmioBase + 0x8000)
      ∧ (∃ (s : State) (x : Word), (x.toNat < Config.mmioBase ∨ Config.mmioBase + 0x8000 ≤ x.toNat) ∧ s.mem.wf = true
        ∧ s.running.isSome = true ∧ s.outBase.toNat ≤ x.toNat ∧ x.toNat < s.outBase.toNat + s.outCap.toNat)
      ∧ (∃ (s : State) (x : Word), (x.toNat < Config.mmioBase ∨ Config.mmioBase + 0x8000 ≤ x.toNat) ∧ s.mem.wf = true
        ∧ s.running = none)
      ∧ src.rst = false ∧ src.running = none ∧ decode 0x001#64 = .ok .hist := by
  have out : ∃ x : Word, x.toNat < Config.mmioBase ∨ Config.mmioBase + 0x8000 ≤ x.toNat := by
    unfold Config.mmioBase
    by_cases h : Config.mmioPage.toNat = 0
    · exact ⟨0x8000#64, Or.inr (by simp [h])⟩
    · exact ⟨0#64, Or.inl (by simp; omega)⟩
  obtain ⟨x, hx⟩ := out
  refine ⟨by decide, by decide, by decide, ⟨BitVec.ofNat 64 Config.mmioBase, ?_⟩,
    ⟨{ running .hist with outBase := x, outCap := 1#64 }, x, hx, (by decide +kernel : src.mem.wf = true), rfl, Nat.le_refl _, by simp⟩,
    ⟨src, x, hx, by decide +kernel, rfl⟩, rfl, rfl, by decide⟩
  have : Config.mmioBase < 2 ^ 64 := by
    unfold Config.mmioBase
    calc Config.mmioPage.toNat * 0x8000 < 2 ^ 49 * 0x8000 := Nat.mul_lt_mul_of_pos_right Config.mmioPage.isLt (by decide)
      _ = 2 ^ 64 := by decide
  rw [BitVec.toNat_ofNat, Nat.mod_eq_of_lt this]
  exact ⟨Nat.le_refl _, Nat.lt_add_of_pos_right (by decide)⟩
theorem witness_BusErrorDraw :
    (let s : State := { src with running := some ⟨.hist, 1#8, false, some (1, 0x1009#64), 0⟩ }
     s.raced = false ∧ s.reply = some (1, 0x1009#64) ∧ s.pos ≤ 1 ∧ (commandOf .hist).accesses s 0x1009#64 = true
      ∧ (reached (commandOf .hist).plan s)[1]? = some (.hist, s) ∧ s.status.errCode = .none)
    ∧ (∀ a : Word, (commandOf .build).accesses src a = true → Config.busFault a = false) := by
  refine ⟨⟨rfl, rfl, by decide, by decide +kernel, rfl, rfl⟩, fun a h => ?_⟩
  simp only [Command.accesses, Command.readSet, Command.writeSet, commandOf, cmdBuild, noBytes, inSpan] at h
  simp at h
  omega

/-- A HIST of the one byte at `a`, with the memory port's fault reply there. -/
def faulting (a : Word) : State :=
  { src with inBase := a, inLen := 1#64, running := some ⟨.hist, 1#8, false, some (1, a), 0⟩ }

/-- Config.busFault has no body, so that some address faults can only be assumed; wherever one does, the converse has its case. -/
theorem witness_BusErrorDraw_converse (a : Word) (h : Config.busFault a = true) :
    (faulting a).raced = false ∧ (faulting a).status.errCode = .none ∧ exec .hist (faulting a) = .next (after .hist (faulting a))
      ∧ (after .hist (faulting a)).status.errCode = .busError := by
  refine ⟨rfl, rfl, exec_after _ _, ?_⟩
  have hr : regionCheck true false (faulting a) = .ok (faulting a) :=
    regionCheck_of_ok (by have := a.isLt; simp [regionsOk, inWraps, faulting]; omega)
  have ha : cmdHist.accesses (faulting a) a = true := by
    simp [Command.accesses, Command.readSet, cmdHist, allInput, inSpan, faulting]
  have hb : cmdHist.busErrorAt (faulting a) = some (.hist, faulting a, a) := by
    have e : reached cmdHist.plan (faulting a) = [(.check, faulting a), (.hist, faulting a)] := by
      simp [cmdHist, reached, PhaseStep.always, hr, phaseHist]
    have hp : (faulting a).reply = some (1, a) ∧ (faulting a).pos = 0 := ⟨rfl, rfl⟩
    simp [Command.busErrorAt, hp.1, hp.2, ha, h, e]
  have hx : exec .hist (faulting a) = .next (cmdHist.failedAt (faulting a) .hist ⟨.busError, a⟩ (faulting a)) := by
    rw [exec_eq]
    have : (faulting a).raced = false := rfl
    simp [commandOf, Command.completed, this, hb]
  rw [exec_after] at hx
  injection hx with hx
  rw [hx]
  rfl
theorem witness_RegionCheckErrors : src.undisturbed = true ∧ usesIn .hist = true
    ∧ (let s := { src with inBase := 0xFFFFFFFFFFFFFFF7#64 }
       s.inBase.toNat + s.inLen.toNat > 2 ^ 64)
    ∧ usesOut .wrhdr = true ∧ usesIn .wrhdr = false
    ∧ (let s := { src with outBase := 0xFFFFFFFFFFFFFFC1#64 }
       s.inBase.toNat + s.inLen.toNat ≤ 2 ^ 64 ∧ s.outBase.toNat + s.outCap.toNat > 2 ^ 64)
    ∧ usesIn .encode = true ∧ usesOut .encode = true
    ∧ (let s := { src with outBase := 0x1009#64 }
       s.inBase.toNat + s.inLen.toNat ≤ 2 ^ 64 ∧ s.outBase.toNat + s.outCap.toNat ≤ 2 ^ 64 ∧ 0 < s.inLen.toNat
        ∧ 0 < s.outCap.toNat ∧ s.inBase.toNat < s.outBase.toNat + s.outCap.toNat
        ∧ s.outBase.toNat < s.inBase.toNat + s.inLen.toNat)
    ∧ regionsOk true true { src with payloadOff := 11#64 } = true
    ∧ (after .decode { src with payloadOff := 11#64 }).status.errCode = .badRegion := by
  refine ⟨rfl, ?_⟩
  decide +kernel
theorem witness_HistResult : src.undisturbed = true ∧ src.inBase.toNat + src.inLen.toNat ≤ 2 ^ 64
    ∧ (let s := { src with inBase := 0xFFFFFFFFFFFFFFF6#64 }
       s.inBase.toNat + s.inLen.toNat = 2 ^ 64) := by
  refine ⟨rfl, ?_⟩
  decide
theorem witness_WorkersAgree : src.undisturbed = true ∧ src.inBase.toNat + src.inLen.toNat ≤ 2 ^ 64
    ∧ exec .hist src = .next (after .hist src) ∧ 1 ≤ 1 := ⟨rfl, by decide, exec_after _ _, by decide⟩
theorem witness_WorkPartition : 1 ≤ 3 ∧ (0 < 1 ∧ 1 < 3) ∧ (0 < 2 ∧ 2 < 3) ∧ (0 ≤ 3 ∧ 3 ≤ 3) ∧ text.length = 10 := by decide
theorem witness_QueueAndMergeOrder : [(3, 1), (3, 0)] ≠ ([] : List Key) ∧ ([(3, 1), (3, 0)].map Prod.snd).Nodup
    ∧ abcd.undisturbed = true ∧ exec .build abcd = .next (after .build abcd)
    ∧ (after .build abcd).node[(4 : Fin 511)].used = true ∧ (after .build abcd).node[(4 : Fin 511)].leaf = false := by
  refine ⟨by decide, by decide, rfl, exec_after _ _, ?_⟩
  decide +kernel
theorem witness_QueueAndMergeOrder_queued : (after .build abcd).queuedAt 4 1
    ∧ 1 ≠ (after .build abcd).node[(4 : Fin 511)].left.toNat ∧ 1 ≠ (after .build abcd).node[(4 : Fin 511)].right.toNat := by
  unfold State.queuedAt
  decide +kernel
theorem witness_BuildResult : abcd.undisturbed = true ∧ histSymbols src = 0 ∧ 1 ≤ histSymbols (withHist [(0x78, 5#64)])
    ∧ abcd.hist[(0x64 : Fin 256)] ≠ 0#64 := by
  refine ⟨rfl, ?_⟩
  decide +kernel
theorem witness_ArenaInvariants : abcd.undisturbed = true ∧ exec .build abcd = .next (after .build abcd)
    ∧ coded.undisturbed = true ∧ coded.status.err = false ∧ exec .ctree coded = .next (after .ctree coded)
    ∧ (after .ctree coded).status.err = false := by
  refine ⟨rfl, exec_after _ _, rfl, rfl, exec_after _ _, ?_⟩
  decide +kernel
theorem witness_SentinelTree : let s := withHist [(0x78, 5#64)]
    s.undisturbed = true ∧ s.hist[(0x78 : Fin 256)] ≠ 0#64 ∧ ∀ a : Fin 256, a ≠ 0x78 → s.hist[a] = 0#64 := by
  refine ⟨rfl, ?_⟩
  decide +kernel
theorem witness_RootWeight : abcd.undisturbed = true ∧ exec .build abcd = .next (after .build abcd) ∧ 1 ≤ histSymbols abcd
    ∧ src.undisturbed = true ∧ src.inBase.toNat + src.inLen.toNat ≤ 2 ^ 64 ∧ 0 < src.inLen.toNat
    ∧ exec .hist src = .next (after .hist src)
    ∧ exec .build (after .hist src) = .next (after .build (after .hist src)) := by
  refine ⟨rfl, exec_after _ _, by decide +kernel, rfl, by decide, by decide, exec_after _ _, exec_after _ _⟩

/-- A root whose two children are one leaf. -/
def shared : State := { src with node := arenaOf [leafNode 0x41 0, internalNode 0 0#9 0#9], root := 1#9 }

theorem shared_paths : leafPaths shared.node 2 shared.root = some [(0x41, [true]), (0x41, [false])] := by decide +kernel

theorem shared_leads (p : List Bool) (b : Fin 256) :
    leadsTo shared p b ↔ (b.val, p) ∈ [((0x41 : Nat), [true]), (0x41, [false])] := by
  rw [mem_leafPaths _ _ _ _ shared_paths]
  constructor
  · rintro ⟨_, j, h⟩
    exact ⟨j, h.1, h.2.1, h.2.2, b.isLt⟩
  · rintro ⟨j, h1, h2, h3, _⟩
    exact ⟨by decide, j, h1, h2, h3⟩

theorem shared_short (c d : Bool) (p : List Bool) : followPath shared.node shared.root (c :: d :: p) = none := by
  have h : (nodeAt shared.node shared.root).leaf = false := by decide +kernel
  have h' : (nodeAt shared.node ((nodeAt shared.node shared.root).child c)).leaf = true := by cases c <;> decide +kernel
  simp only [followPath, h, h', Bool.true_or, if_true, Bool.false_or]
  split <;> rfl

theorem witness_DeriveCompletes : abcd.undisturbed = true ∧ abcd.root = noNode
    ∧ shared.undisturbed = true ∧ shared.root ≠ noNode ∧ shared.acyclic
    ∧ exec .derive shared = .next (after .derive shared)
    ∧ (∀ p, ¬ leadsTo shared p 0x42) ∧ leadsTo shared [true] 0x41
    ∧ (∀ q, leadsTo shared q 0x41 → q ≠ [true] → visitedBefore q [true])
    ∧ abcd.status.err = false ∧ exec (deriveOf .freq) abcd = .next (after .derive abcd)
    ∧ exec (deriveOf .canon) abcd = .next (after .deriveC abcd)
    ∧ coded.undisturbed = true ∧ coded.status.err = false ∧ exec .canon coded = .next (after .canon coded)
    ∧ (after .canon coded).status.err = false := by
  refine ⟨rfl, rfl, rfl, by decide, ?_, exec_after _ _, fun p => ?_, ?_, fun q hq hne => ?_, rfl, exec_after _ _, exec_after _ _, rfl, rfl,
    exec_after _ _, by decide +kernel⟩
  · intro p hp
    match p, hp with
    | c :: d :: p, _ => exact shared_short c d p
  · rw [shared_leads]
    simp
  · rw [shared_leads]
    simp
  · rw [shared_leads] at hq
    simp only [List.mem_cons, Prod.mk.injEq, List.not_mem_nil, or_false] at hq
    rcases hq with ⟨_, h⟩ | ⟨_, rfl⟩
    · exact absurd h hne
    · exact ⟨[], [], [], rfl, rfl⟩
theorem witness_DeriveOverBuildTree : abcd.undisturbed = true ∧ exec .build abcd = .next (after .build abcd)
    ∧ abcd.hist[(0x60 : Fin 256)] = 0#64 ∧ abcd.hist[(0x61 : Fin 256)] ≠ 0#64 := by
  refine ⟨rfl, exec_after _ _, ?_⟩
  decide +kernel
theorem witness_DeriveCanonOverBuildTree : abcd.undisturbed = true ∧ abcd.root = noNode
    ∧ exec .build abcd = .next (after .build abcd)
    ∧ exec .derive (after .build abcd) = .next (after .derive (after .build abcd)) :=
  ⟨rfl, rfl, exec_after _ _, exec_after _ _⟩
theorem witness_CanonValidity : src.undisturbed = true ∧ lengthsOk src ∧ lengthsOk (withLens [(5, 1#8)])
    ∧ lengthsOk (withLens [(5, 1#8), (6, 1#8)]) ∧ codedSymbols (withLens [(5, 2#8)]) = 1
    ∧ (withLens [(5, 2#8)]).len[(5 : Fin 256)] ≠ 0#8 ∧ (withLens [(5, 2#8)]).len[(5 : Fin 256)] ≠ 1#8
    ∧ 2 ≤ codedSymbols (withLens [(1, 1#8), (2, 2#8)]) ∧ ¬ lengthsOk (withLens [(1, 1#8), (2, 2#8)]) := by
  refine ⟨rfl, ?_⟩
  unfold lengthsOk
  decide +kernel
theorem witness_CanonNumbering : coded.undisturbed = true ∧ lengthsOk coded ∧ exec .canon coded = .next (after .canon coded)
    ∧ coded.len[(0x61 : Fin 256)] ≠ 0#8
    ∧ (∀ a : Fin 256, coded.len[a] ≠ 0#8 → a ≠ 0x61 → canonBefore coded 0x61 a) ∧ canonBefore coded 0x62 0x63
    ∧ (∀ c : Fin 256, coded.len[c] ≠ 0#8 → canonBefore coded 0x62 c → c = 0x63 ∨ canonBefore coded 0x63 c)
    ∧ coded.len[(0x63 : Fin 256)] = coded.len[(0x64 : Fin 256)] := by
  refine ⟨rfl, ?_, exec_after _ _, ?_⟩
  · unfold lengthsOk
    decide +kernel
  · unfold canonBefore
    decide +kernel
theorem witness_PrefixFreedom : abcd.undisturbed = true ∧ abcd.status.err = false ∧ exec .build abcd = .next (after .build abcd)
    ∧ (after .build abcd).status.err = false
    ∧ exec (deriveOf .canon) (after .build abcd) = .next (after .deriveC (after .build abcd))
    ∧ (after .deriveC (after .build abcd)).status.err = false ∧ exec .ctree coded = .next (after .ctree coded)
    ∧ (after .ctree coded).status.err = false ∧ exec (deriveOf .freq) (after .ctree coded) = .next (after .derive (after .ctree coded))
    ∧ (after .derive (after .ctree coded)).status.err = false ∧ exec .canon coded = .next (after .canon coded)
    ∧ (after .canon coded).status.err = false := by
  refine ⟨rfl, rfl, exec_after _ _, ?_, exec_after _ _, ?_, exec_after _ _, ?_, exec_after _ _, ?_, exec_after _ _, ?_⟩ <;>
    decide +kernel
theorem witness_PrefixFreedom_acyclic : shared.undisturbed = true ∧ shared.root ≠ noNode ∧ shared.acyclic
    ∧ (∀ p b, leadsTo shared p b → p.length ≤ 255) ∧ exec .derive shared = .next (after .derive shared) := by
  refine ⟨rfl, by decide, witness_DeriveCompletes.2.2.2.2.1, fun p b h => ?_, exec_after _ _⟩
  rw [shared_leads] at h
  simp only [List.mem_cons, Prod.mk.injEq, List.not_mem_nil, or_false] at h
  rcases h with ⟨_, rfl⟩ | ⟨_, rfl⟩ <;> decide
theorem witness_CtreeResult : coded.undisturbed = true ∧ placeable src (codedBelow src 256)
    ∧ placeable coded (codedBelow coded 256)
    ∧ (let s := withLens [(7, 1#8), (9, 1#8)]
       s.len[(9 : Fin 256)] ≠ 0#8 ∧ placeable s (codedBelow s 9) ∧ ¬ placeable s (codedBelow s 10)) := by
  refine ⟨rfl, ?_, ?_, by decide +kernel, ?_, ?_⟩ <;> unfold placeable <;> decide +kernel
theorem witness_CtreeAfterCanon : coded.undisturbed = true ∧ lengthsOk coded ∧ exec .canon coded = .next (after .canon coded) := by
  refine ⟨rfl, ?_, exec_after _ _⟩
  unfold lengthsOk
  decide +kernel

/-- The largest input: every byte 0, with a code of 255 bits. -/
def huge : State :=
  { State.reset with inLen := 0xFFFFFFFFFFFFFFFF#64, len := State.reset.len.set 0 255#8 }

theorem huge_byte (k : Nat) : inByte huge k = 0#8 := rfl

theorem huge_len : huge.len[(0#8).toFin].toNat ≠ 0 := by decide +kernel

theorem huge_total :
    ((List.range huge.inLen.toNat).map fun k => huge.len[(inByte huge k).toFin].toNat).sum > 2 ^ 64 - 1 := by
  have h : (fun k => huge.len[(inByte huge k).toFin].toNat) = fun _ => 255 := by
    funext k
    simp only [huge_byte]
    rfl
  rw [h, List.map_const', List.sum_replicate, List.length_range, smul_eq_mul]
  decide

theorem witness_EstimateResult : coded.undisturbed = true ∧ coded.inBase.toNat + coded.inLen.toNat ≤ 2 ^ 64
    ∧ (0 < src.inLen.toNat ∧ src.len[(inByte src 0).toFin].toNat = 0)
    ∧ (∀ i, i < coded.inLen.toNat → coded.len[(inByte coded i).toFin].toNat ≠ 0)
    ∧ ((List.range coded.inLen.toNat).map fun k => coded.len[(inByte coded k).toFin].toNat).sum ≤ 2 ^ 64 - 1
    ∧ huge.undisturbed = true ∧ huge.inBase.toNat + huge.inLen.toNat ≤ 2 ^ 64
    ∧ (∀ i, i < huge.inLen.toNat → huge.len[(inByte huge i).toFin].toNat ≠ 0)
    ∧ ((List.range huge.inLen.toNat).map fun k => huge.len[(inByte huge k).toFin].toNat).sum > 2 ^ 64 - 1 := by
  refine ⟨rfl, ?_, ?_, ?_, ?_, rfl, ?_, ?_, huge_total⟩
  iterate 5 decide +kernel
  · intro i _
    exact huge_len
theorem witness_EncodeResult : coded.undisturbed = true ∧ regionsOk true true coded = true
    ∧ (0 < src.inLen.toNat ∧ src.len[(inByte src 0).toFin].toNat = 0) ∧ regionsOk true true src = true
    ∧ (∀ i, i < coded.inLen.toNat → coded.len[(inByte coded i).toFin].toNat ≠ 0)
    ∧ (let t := ((List.range coded.inLen.toNat).map fun k => coded.len[(inByte coded k).toFin].toNat).sum
       t ≤ 2 ^ 64 - 1 ∧ 62 + (t + 7) / 8 > coded.outCap.toNat ∧ 61 + (t + 7) / 8 = coded.outCap.toNat)
    ∧ regionsOk true true huge = true ∧ huge.undisturbed = true
    ∧ ((List.range huge.inLen.toNat).map fun k => huge.len[(inByte huge k).toFin].toNat).sum > 2 ^ 64 - 1 := by
  refine ⟨rfl, ?_, ?_, ?_, ?_, ?_, ?_, rfl, huge_total⟩ <;> decide +kernel
theorem witness_BitPacking : 0 < 8 * (([true] : List Bool).length + 7) / 8 ∧ 7 < 8 * ((([true] : List Bool).length + 7) / 8) := by decide
theorem witness_ParallelEncodeEquivalence : 1 ≤ 1 := by decide
theorem witness_WriteHeader : src.undisturbed = true ∧ src.outBase.toNat + src.outCap.toNat ≤ 2 ^ 64
    ∧ 16 + 9 * ((List.finRange 256).filter fun b => abcd.hist[b].toNat != 0).length = 52
    ∧ 52 > (51#64).toNat ∧ 52 ≤ (52#64).toNat
    ∧ 16 + 2 * ((List.finRange 256).filter fun b => coded.len[b].toNat != 0).length = 24 := by
  refine ⟨rfl, ?_⟩
  decide +kernel

/-- The entries of 45 R207 and R208. -/
def freqEntries : List (Nat × Nat) := [(0x61, 4), (0x62, 3), (0x63, 2), (0x64, 1)]
def canonEntries : List (Nat × Nat) := [(0x61, 1), (0x62, 2), (0x63, 3), (0x64, 3)]

theorem valid_freq : validEntries .freq 10 freqEntries := by
  refine ⟨by decide, by decide, by decide, by decide⟩
theorem valid_canon : validEntries .canon 10 canonEntries := by
  refine ⟨by decide, by decide, by decide, by decide, by decide, fun _ => by decide +kernel⟩
theorem valid_empty : validEntries .freq 0 [] ∧ validEntries .canon 0 [] := by
  refine ⟨⟨by decide, by decide, by decide, by decide⟩, ⟨by decide, by decide, by decide, by decide, by decide, by decide⟩⟩

theorem witness_ParseHeader : (reading freqStream 0#64).undisturbed = true
    ∧ (reading freqStream 0#64).inBase.toNat + (reading freqStream 0#64).inLen.toNat ≤ 2 ^ 64
    ∧ validEntries .freq 10 freqEntries
    ∧ inputBytes (reading freqStream 0#64) = headerBytes .freq 10 freqEntries ++ [0x0A#8, 0xBF#8, 0xC0#8]
    ∧ validEntries .canon 10 canonEntries
    ∧ inputBytes (reading canonStream 0#64) = headerBytes .canon 10 canonEntries ++ [0x0A#8, 0xB6#8, 0xE0#8]
    ∧ (¬ ∃ te olen es rest, validEntries te olen es ∧ inputBytes (reading [] 0#64) = headerBytes te olen es ++ rest)
    ∧ (reading [] 0#64).inLen.toNat ≤ 0
    ∧ ((∀ j, j < 4 → j < (reading (freqStream.take 4) 0#64).inLen.toNat
          ∧ inByte (reading (freqStream.take 4) 0#64) j = [0x48#8, 0x55#8, 0x46#8, 0x5A#8, 0x01#8].getD j 0#8)
        ∧ (reading (freqStream.take 4) 0#64).inLen.toNat ≤ 4) := by
  refine ⟨rfl, by decide, valid_freq, by decide +kernel, valid_canon, by decide +kernel, ?_, by decide, by decide +kernel⟩
  rintro ⟨te, olen, es, rest, _, h⟩
  have h := congrArg List.length h
  simp [headerBytes, magicBytes, reading] at h

/-- A header of 45 R200 from its fields. -/
def header (te : Byte) (olen count : Byte × Byte) (entries : List Byte) : State :=
  reading ([0x48#8, 0x55#8, 0x46#8, 0x5A#8, 0x01#8] ++ [olen.1, olen.2, 0#8, 0#8, 0#8, 0#8, 0#8, 0#8] ++ [te] ++ [count.1, count.2]
    ++ entries) 0#64

theorem witness_ParseHeader_errors :
    (let s := reading (freqStream.take 15) 0#64
     magicOk s ∧ s.inLen.toNat < 16)
    ∧ (let s := header 2#8 (0#8, 0#8) (0#8, 0#8) []
       magicOk s ∧ 16 ≤ s.inLen.toNat ∧ 1 < (inByte s 13).toNat)
    ∧ (let s := header 1#8 (0#8, 0#8) (1#8, 1#8) []
       magicOk s ∧ 16 ≤ s.inLen.toNat ∧ (inByte s 13).toNat = TableMode.canon.toNat ∧ 256 < inNumber s 14 2)
    ∧ (let s := header 0#8 (0#8, 0#8) (0#8, 1#8) []
       magicOk s ∧ (inByte s 13).toNat = TableMode.freq.toNat ∧ inNumber s 14 2 = 256 ∧ s.inLen.toNat < 16 + 9 * 256)
    ∧ (let s := header 1#8 (2#8, 0#8) (2#8, 0#8) [7#8, 1#8, 7#8, 1#8]
       magicOk s ∧ 16 + 2 * 2 = s.inLen.toNat ∧ entryOk .canon s 0 ∧ (inByte s 18).toNat ≤ (inByte s 16).toNat)
    ∧ (let s := header 1#8 (1#8, 0#8) (1#8, 0#8) [7#8, 0#8]
       magicOk s ∧ 16 + 2 * 1 = s.inLen.toNat ∧ entryAt .canon s 16 = 0)
    ∧ (let s := header 0#8 (2#8, 0#8) (1#8, 0#8) [7#8, 1#8, 0#8, 0#8, 0#8, 0#8, 0#8, 0#8, 0#8]
       magicOk s ∧ 16 + 9 * 1 = s.inLen.toNat ∧ entryOk .freq s 0 ∧ entryAt .freq s 16 ≠ inNumber s 5 8)
    ∧ (let s := header 1#8 (0#8, 0#8) (1#8, 0#8) [7#8, 1#8]
       magicOk s ∧ 16 + 2 * 1 = s.inLen.toNat ∧ entryOk .canon s 0 ∧ inNumber s 5 8 = 0)
    ∧ (let s := header 1#8 (1#8, 0#8) (0#8, 0#8) []
       magicOk s ∧ 16 = s.inLen.toNat ∧ inNumber s 14 2 = 0 ∧ inNumber s 5 8 ≠ 0)
    ∧ (let s := header 1#8 (1#8, 0#8) (1#8, 0#8) [7#8, 2#8]
       magicOk s ∧ 16 + 2 * 1 = s.inLen.toNat ∧ entryOk .canon s 0 ∧ inNumber s 5 8 ≠ 0 ∧ entryAt .canon s 16 ≠ 1)
    ∧ (let s := header 1#8 (2#8, 0#8) (2#8, 0#8) [7#8, 1#8, 8#8, 2#8]
       magicOk s ∧ 16 + 2 * 2 = s.inLen.toNat ∧ entryOk .canon s 0 ∧ entryOk .canon s 1 ∧ inNumber s 5 8 ≠ 0
        ∧ ([entryAt .canon s 16, entryAt .canon s 18].map fun v => 2 ^ (255 - v)).sum ≠ 2 ^ 255) := by
  unfold magicOk entryOk
  refine ⟨?_, ?_, ?_, ?_, ?_, ?_, ?_, ?_, ?_, ?_, ?_⟩ <;> decide +kernel
theorem text_leads (s : State) (h : (text.all fun x =>
    !(byteCode coded x).isEmpty && leads s (byteCode coded x) (x.setWidth 9)) = true) :
    ∀ x ∈ text, byteCode coded x ≠ [] ∧ leadsTo s (byteCode coded x) x.toFin := by
  intro x hx
  have := List.all_eq_true.mp h x hx
  simp only [Bool.and_eq_true, Bool.not_eq_true'] at this
  refine ⟨fun e => by simp [e] at this, leadsTo_of_leads ?_⟩
  convert this.2 using 2
  exact BitVec.eq_of_toNat_eq (by simp)

theorem witness_DecodeInvertsPacking : let s := decoding [0x0A#8, 0xBF#8, 0xC0#8] 10#64 10#64
    s.undisturbed = true ∧ s.mem.wf = true ∧ regionsOk true true s = true ∧ s.payloadOff.toNat ≤ s.inLen.toNat
      ∧ text.length = s.origLen.toNat ∧ s.origLen.toNat ≤ s.outCap.toNat
      ∧ (∀ x ∈ text, byteCode coded x ≠ [] ∧ leadsTo s (byteCode coded x) x.toFin)
      ∧ (inputBytes s).drop s.payloadOff.toNat = pack (text.flatMap (byteCode coded)) := by
  refine ⟨rfl, by decide +kernel, by decide +kernel, by decide, by decide, by decide, text_leads _ (by decide +kernel), ?_⟩
  decide +kernel
theorem witness_DecodeErrors :
    (let s := { decoding [0x0A#8] 1#64 1#64 with payloadOff := 2#64 }
     s.undisturbed = true ∧ regionsOk true true s = true ∧ s.inLen.toNat < s.payloadOff.toNat)
    ∧ (let s := { decoding [0x0A#8] 2#64 1#64 with payloadOff := 1#64 }
       regionsOk true true s = true ∧ s.payloadOff.toNat ≤ s.inLen.toNat ∧ s.outCap.toNat < s.origLen.toNat)
    ∧ (let s := { decoding [] 1#64 1#64 with root := noNode }
       regionsOk true true s = true ∧ s.payloadOff.toNat ≤ s.inLen.toNat ∧ s.origLen.toNat ≤ s.outCap.toNat
        ∧ 0 < s.origLen.toNat ∧ s.root = noNode)
    ∧ (let s := decoding [0x0A#8, 0xBF#8, 0xC0#8, 0x00#8] 10#64 10#64
       (∀ x ∈ text, byteCode coded x ≠ [] ∧ leadsTo s (byteCode coded x) x.toFin) ∧ text.length = s.origLen.toNat
        ∧ (inputBytes s).drop s.payloadOff.toNat = pack (text.flatMap (byteCode coded)) ++ [0x00#8])
    ∧ (let s := decoding [0x0A#8, 0xBF#8, 0xC1#8] 10#64 10#64
       (∀ x ∈ text, byteCode coded x ≠ [] ∧ leadsTo s (byteCode coded x) x.toFin) ∧ text.length = s.origLen.toNat
        ∧ true ∈ [false, false, false, false, true]
        ∧ 8 ∣ (text.flatMap (byteCode coded) ++ [false, false, false, false, true]).length
        ∧ (inputBytes s).drop s.payloadOff.toNat = pack (text.flatMap (byteCode coded) ++ [false, false, false, false, true]))
    ∧ (let s := { decoding [0x00#8] 1#64 1#64 with node := arenaOf (buildMerged (withHist [(0x78, 5#64)]).hist).2, root := 2#9 }
       ([] : List Byte).length < s.origLen.toNat ∧ leadsToSentinel s [false]
        ∧ (inputBytes s).drop s.payloadOff.toNat = pack ([false] ++ List.replicate 7 false))
    ∧ (let s := decoding [] 1#64 1#64
       ([] : List Byte).length < s.origLen.toNat ∧ leadsTo s ([] ++ [false]) 0x61
        ∧ (inputBytes s).drop s.payloadOff.toNat = pack [])
    ∧ (let s := decoding [0x03#8] 7#64 7#64
       (∀ x ∈ List.replicate 6 0x61#8, byteCode coded x ≠ [] ∧ leadsTo s (byteCode coded x) x.toFin)
        ∧ (List.replicate 6 0x61#8).length < s.origLen.toNat ∧ leadsTo s ([true, true] ++ [true]) 0x63
        ∧ 8 ∣ ((List.replicate 6 0x61#8).flatMap (byteCode coded) ++ [true, true]).length
        ∧ (inputBytes s).drop s.payloadOff.toNat = pack ((List.replicate 6 0x61#8).flatMap (byteCode coded) ++ [true, true])) := by
  refine ⟨by decide +kernel, by decide +kernel, by decide +kernel, ⟨text_leads _ (by decide +kernel), by decide, by decide +kernel⟩,
    ⟨text_leads _ (by decide +kernel), by decide, by decide, by decide +kernel, by decide +kernel⟩,
    ⟨by decide, leadsToSentinel_of_leads (by decide +kernel), by decide +kernel⟩,
    ⟨by decide, leadsTo_of_leads (by decide +kernel), by decide +kernel⟩,
    ⟨fun x hx => ?_, by decide, leadsTo_of_leads (by decide +kernel), by decide +kernel, by decide +kernel⟩⟩
  exact text_leads _ (by decide +kernel) x (List.eq_of_mem_replicate hx ▸ by decide)
theorem witness_DecodeErrors_missing_child :
    (let s := { decoding [0x80#8] 1#64 1#64 with node := arenaOf [internalNode 0 1#9 noNode, leafNode 0x61 0], root := 0#9 }
     s.undisturbed = true ∧ regionsOk true true s = true ∧ ([] : List Byte).length < s.origLen.toNat ∧ leadsNowhere s [true]
      ∧ 8 ∣ ([true] ++ List.replicate 7 false).length
      ∧ (inputBytes s).drop s.payloadOff.toNat = pack ([true] ++ List.replicate 7 false)) := by
  refine ⟨rfl, by decide +kernel, by decide, ⟨by decide, [], true, 0#9, rfl, rfl, ?_⟩, by decide, by decide +kernel⟩
  decide +kernel
theorem witness_CompressResult : src.undisturbed = true ∧ regionsOk true true src = true
    ∧ (codeStream (compressTables .freq src) (inputBytes src)).length = 19
    ∧ headerLen .freq (headerEntries .freq (compressTables .freq src)).length + (19 + 7) / 8 = 55
    ∧ 55 > (54#64).toNat ∧ 55 ≤ (55#64).toNat
    ∧ regionsOk true true { src with outCap := 54#64 } = true ∧ regionsOk true true { src with outCap := 55#64 } = true := by
  refine ⟨rfl, ?_⟩
  decide +kernel

/-- The largest input of three byte values: 1, 2 and then zeros, whose code words are 2^64 + 1 bits. -/
def vast : State := { State.reset with mem := [(0, 1#8), (1, 2#8)], inLen := 0xFFFFFFFFFFFFFFFF#64 }

theorem vast_bytes (m : Nat) : Memory.readBytes [(0, 1#8), (1, 2#8)] 0 (m + 2) = 1#8 :: 2#8 :: List.replicate m 0#8 := by
  rw [Memory.readBytes, List.range_succ_eq_map, List.range_succ_eq_map]
  simp only [List.map_cons, List.map_map]
  refine congrArg₂ _ rfl (congrArg₂ _ rfl ?_)
  rw [List.eq_replicate_iff]
  refine ⟨by simp, fun b hb => ?_⟩
  obtain ⟨k, _, rfl⟩ := List.mem_map.mp hb
  simp [Memory.read, Memory.unlisted]

/-- The counts of `vast`. -/
def vastHist : Vector Word 256 := ((State.reset.hist.set 0 0xFFFFFFFFFFFFFFFD#64).set 1 1#64).set 2 1#64

theorem vast_counts (m : Nat) (hm : BitVec.ofNat 64 m = 0xFFFFFFFFFFFFFFFD#64) :
    (tabulate 256 fun b => BitVec.ofNat 64 (byteCount (1#8 :: 2#8 :: List.replicate m 0#8) b)) = vastHist := by
  have h : ∀ b : Fin 256, BitVec.ofNat 64 (byteCount (1#8 :: 2#8 :: List.replicate m 0#8) b) = vastHist[b] := by
    intro b
    have hc : byteCount (1#8 :: 2#8 :: List.replicate m 0#8) b
        = (if b = 0 then m else 0) + (if b = 2 then 1 else 0) + (if b = 1 then 1 else 0) := by
      have e : ∀ n : Fin 256, (BitVec.ofNat 8 n.val == BitVec.ofNat 8 b.val) = decide (b = n) := by
        intro n
        by_cases hb : b = n
        · simp [hb]
        · simp only [hb, decide_false, beq_eq_false_iff_ne, ne_eq]
          intro e
          have := congrArg BitVec.toNat e
          simp only [BitVec.toNat_ofNat] at this
          omega
      have e0 := e 0
      have e1 := e 1
      have e2 := e 2
      simp at e0 e1 e2
      simp [byteCount, List.count_cons, List.count_replicate, e0, e1, e2]
    rw [hc]
    have hb := b.isLt
    by_cases h0 : b = 0
    · subst h0
      simp [hm, vastHist]
    · by_cases h1 : b = 1
      · subst h1
        simp [vastHist]
      · by_cases h2 : b = 2
        · subst h2
          simp [vastHist]
        · have n0 : ¬ 0 = b.val := by omega
          have n1 : ¬ 1 = b.val := by omega
          have n2 : ¬ 2 = b.val := by omega
          simp [h0, h1, h2, vastHist, n0, n1, n2, State.reset]
  refine Vector.ext fun i hi => ?_
  rw [getElem_tabulate]
  exact h ⟨i, hi⟩

/-- The lengths COMPRESS's tables give depend on the histogram alone (41 R138, 42 R157). -/
theorem compressTables_len {s : State} {h : Vector Word 256}
    (hh : (tabulate 256 fun b => BitVec.ofNat 64 (byteCount (inputBytes s) b)) = h) :
    (compressTables .freq s).len
      = (afterPhase (phaseDerive .freq) (afterPhase phaseBuild { State.reset with hist := h })).len := by
  obtain ⟨l, c, e, _⟩ := phaseDerive_ok .freq (afterPhase phaseBuild (afterPhase phaseHist s))
  obtain ⟨l', c', e', _⟩ := phaseDerive_ok .freq (afterPhase phaseBuild { State.reset with hist := h })
  have := phaseDerive_congr (by subst hh; rfl) (by subst hh; rfl) e e'
  simp only [compressTables, afterPhase] at *
  rw [e, e']
  exact this.1

theorem vast_bits (s : State) (m : Nat) (hb : inputBytes s = 1#8 :: 2#8 :: List.replicate m 0#8)
    (hm : BitVec.ofNat 64 m = 0xFFFFFFFFFFFFFFFD#64) : (codeStream (compressTables .freq s) (inputBytes s)).length = m + 4 := by
  have hl := compressTables_len (s := s) (h := vastHist) (by rw [hb]; exact vast_counts m hm)
  have lens : ∀ x : Byte, (byteCode (compressTables .freq s) x).length = (compressTables .freq s).len[x.toFin].toNat := by
    intro x
    simp [byteCode, codeWordBits, codeBits, byteIndex]
  have l : (compressTables .freq s).len[(0#8).toFin].toNat = 1 ∧ (compressTables .freq s).len[(1#8).toFin].toNat = 2
      ∧ (compressTables .freq s).len[(2#8).toFin].toNat = 2 := by
    rw [hl]
    decide +kernel
  rw [hb, codeStream, List.length_flatMap]
  simp only [List.map_cons, List.map_replicate, List.sum_cons, List.sum_replicate, lens, l.1, l.2.1, l.2.2, smul_eq_mul]
  omega

theorem vast_overflow : (codeStream (compressTables .freq vast) (inputBytes vast)).length > 2 ^ 64 - 1 := by
  rw [vast_bits vast 0xFFFFFFFFFFFFFFFD (vast_bytes 0xFFFFFFFFFFFFFFFD) (by decide)]
  omega
theorem witness_CompressResult_overflow : vast.undisturbed = true ∧ regionsOk true true vast = true
    ∧ (codeStream (compressTables .freq vast) (inputBytes vast)).length > 2 ^ 64 - 1 := ⟨rfl, by decide +kernel, vast_overflow⟩
theorem witness_StepwiseEquivalence : src.running = none
    ∧ exec (compressOf .freq) (src.latched .compress) = .next (after .compress (src.latched .compress))
    ∧ (after .compress (src.latched .compress)).status.err = false
    ∧ exec (compressOf .canon) (src.latched .compressC) = .next (after .compressC (src.latched .compressC))
    ∧ (after .compressC (src.latched .compressC)).status.err = false := by
  refine ⟨rfl, exec_after _ _, ?_, exec_after _ _, ?_⟩ <;> decide +kernel
theorem witness_StepwiseEquivalence_converse : ∃ u, completeInTurn (stepwise .freq) src u := by
  refine ⟨_, _, ⟨exec_after _ _, ?_⟩, _, ⟨exec_after _ _, ?_⟩, _, ⟨exec_after _ _, ?_⟩, _, ⟨exec_after _ _, ?_⟩, _, ⟨exec_after _ _, ?_⟩, _,
    ⟨exec_after _ _, ?_⟩, rfl⟩ <;> decide +kernel
theorem witness_OutputDeterminism_decompress : let s := reading freqStream 10#64
    let s' := reading freqStream 11#64
    s.undisturbed = true ∧ s'.undisturbed = true ∧ s.mem.wf = true ∧ s'.mem.wf = true ∧ s.status.err = false
      ∧ s'.status.err = false ∧ inputBytes s = inputBytes s' ∧ exec .decompress s = .next (after .decompress s)
      ∧ exec .decompress s' = .next (after .decompress s') ∧ (after .decompress s).status.err = false
      ∧ (after .decompress s').status.err = false := by
  refine ⟨rfl, rfl, ?_, ?_, rfl, rfl, rfl, exec_after _ _, exec_after _ _, ?_, ?_⟩ <;> decide +kernel
theorem witness_OutputDeterminism : let s' := { src with hist := abcd.hist, outCap := 55#64, workers := 1#8 }
    src.undisturbed = true ∧ s'.undisturbed = true ∧ src.mem.wf = true ∧ s'.mem.wf = true ∧ src.status.err = false
      ∧ s'.status.err = false ∧ inputBytes src = inputBytes s' ∧ exec (compressOf .freq) src = .next (after .compress src)
      ∧ exec (compressOf .freq) s' = .next (after .compress s') ∧ (after .compress src).status.err = false
      ∧ (after .compress s').status.err = false := by
  refine ⟨rfl, rfl, ?_, ?_, rfl, rfl, rfl, exec_after _ _, exec_after _ _, ?_, ?_⟩ <;> decide +kernel
theorem witness_ErrorsThatCannotArise : let s := { src with outCap := 54#64 }
    s.raced = false ∧ s.status.errCode = .none ∧ exec (compressOf .freq) s = .next (after .compress s)
      ∧ (after .compress s).status.errCode = .bufferTooSmall ∧ exec .decompress s = .next (after .decompress s)
      ∧ (after .decompress { src with outBase := 0x1009#64 }).status.errCode = .badRegion := by
  refine ⟨rfl, rfl, exec_after _ _, ?_, exec_after _ _, ?_⟩ <;> decide +kernel
theorem witness_DecompressResult :
    (let s := reading freqStream 10#64
     s.undisturbed = true ∧ s.mem.wf = true ∧ regionsOk true true s = true ∧ validEntries .freq text.length freqEntries
      ∧ (∀ x ∈ text, (headerTables .freq freqEntries s).len[x.toFin] ≠ 0#8)
      ∧ inputBytes s = headerBytes .freq text.length freqEntries ++ pack (codeStream (headerTables .freq freqEntries s) text)
      ∧ text.length ≤ s.outCap.toNat)
    ∧ (let s := reading canonStream 9#64
       s.undisturbed = true ∧ s.mem.wf = true ∧ regionsOk true true s = true ∧ validEntries .canon text.length canonEntries
        ∧ (∀ x ∈ text, (headerTables .canon canonEntries s).len[x.toFin] ≠ 0#8)
        ∧ inputBytes s = headerBytes .canon text.length canonEntries ++ pack (codeStream (headerTables .canon canonEntries s) text)
        ∧ s.outCap.toNat < text.length) := by
  refine ⟨⟨rfl, ?_, ?_, valid_freq, ?_⟩, ⟨rfl, ?_, ?_, valid_canon, ?_⟩⟩ <;> decide +kernel

/-- The stream `src` compresses to, as the input region. -/
def packed (tm : TableMode) (n : Nat) (cap : Word) : State :=
  reading ((after (compressOf tm) src).outBytes n) cap

theorem witness_RoundTrip : src.undisturbed = true ∧ src.mem.wf = true ∧ src.status.err = false
    ∧ exec (compressOf .freq) src = .next (after .compress src) ∧ (after .compress src).status.err = false
    ∧ (packed .freq 55 10#64).undisturbed = true ∧ (packed .freq 55 10#64).mem.wf = true
    ∧ regionsOk true true (packed .freq 55 10#64) = true
    ∧ inputBytes (packed .freq 55 10#64) = (after .compress src).outBytes (after .compress src).result.toNat
    ∧ src.inLen.toNat ≤ (packed .freq 55 10#64).outCap.toNat := by
  refine ⟨rfl, ?_, rfl, exec_after _ _, ?_, rfl, ?_⟩ <;> decide +kernel
theorem witness_TruncatedStreamIsCorrupt : src.undisturbed = true ∧ src.mem.wf = true ∧ src.status.err = false
    ∧ exec (compressOf .canon) src = .next (after .compressC src) ∧ (after .compressC src).status.err = false
    ∧ (packed .canon 26 10#64).undisturbed = true ∧ (packed .canon 26 10#64).mem.wf = true
    ∧ regionsOk true true (packed .canon 26 10#64) = true
    ∧ inputBytes (packed .canon 26 10#64) = ((after .compressC src).outBytes (after .compressC src).result.toNat).dropLast
    ∧ src.inLen.toNat ≤ (packed .canon 26 10#64).outCap.toNat := by
  refine ⟨rfl, ?_, rfl, exec_after _ _, ?_, rfl, ?_⟩ <;> decide +kernel

end Sys2Proof.Machine.Tests
end

section
/-!
The byte lanes of a command word, the host's CMD write while idle, the completion step with the memory port's reply, and from these the
statement of 00 R6: a step runs the latched command.
-/
namespace Sys2Proof

/-! ### Byte lanes (20 R74(c)) -/

theorem laneValue_append (bs cs : List Byte) : laneValue (bs ++ cs) = laneValue bs + 256 ^ bs.length * laneValue cs := by
  induction bs with
  | nil => simp [laneValue]
  | cons b bs ih =>
    simp only [List.cons_append, laneValue, ih, List.length_cons, Nat.pow_succ']
    ring

/-- The lowest n lanes of a word hold its value mod 256^n. -/
theorem laneValue_lowLanes (w : Word) (n : Nat) :
    laneValue ((List.range n).map fun k => w.extractLsb' (8 * k) 8) = w.toNat % 256 ^ n := by
  induction n with
  | zero => simp [laneValue, Nat.mod_one]
  | succ n ih =>
    have lane : (w.extractLsb' (8 * n) 8).toNat = w.toNat / 256 ^ n % 256 := by
      simp [Nat.shiftRight_eq_div_pow, Nat.pow_mul]
    rw [List.range_succ, List.map_append, laneValue_append, ih, Nat.mod_pow_succ]
    simp [laneValue, lane]

@[simp] theorem laneValue_wordLanes (w : Word) : laneValue (wordLanes w) = w.toNat :=
  (laneValue_lowLanes w 8).trans (Nat.mod_eq_of_lt w.isLt)

@[simp] theorem length_wordLanes (w : Word) : (wordLanes w).length = 8 := by simp [wordLanes]

/-- The lanes of a word stand for the command the word stands for (30 R108). -/
@[simp] theorem decodeLanes_wordLanes (w : Word) : decodeLanes (wordLanes w) = decode w := by simp [decodeLanes]

end Sys2Proof

namespace Sys2Proof.Machine

/-! ### The CMD write while idle (30 R104) -/

@[simp] theorem regAt_offsetOf_cmd : regAt (offsetOf .cmd) = .cmd := rfl

theorem issue_of_legal {s : State} {w : Word} {i : Instr} (h : Sys2Proof.decode w = .ok i) : issue s w = s.accepted w i := by
  simp [issue, h]

theorem writeReg_of_idle {s : State} (hrst : s.rst = false) (hidle : s.running = none) (r : Reg) (v : Word) :
    writeReg s r v = writeIdle s r v := by simp [writeReg, hrst, State.busy_eq_false.mpr hidle]

theorem hostStep_cmdWrite_of_idle {s : State} (hrst : s.rst = false) (hidle : s.running = none) (w : Word) :
    hostStep (.regWrite (offsetOf .cmd) 8 w) s = .next (issue s w) :=
  congrArg Host.Outcome.next (writeReg_of_idle hrst hidle .cmd w)

/-! ### Steps that run the latched command -/

theorem State.withReply_of_running {s : State} {run : Running} (h : s.running = some run) (reply : Option (Nat × Word)) :
    s.withReply reply = { s with running := some { run with reply := reply } } := by simp [State.withReply, h]

theorem sequence_of_running {s : State} {run : Running} (h : s.running = some run) : sequence s = exec run.cmd s := by
  simp [sequence, h]

theorem step_of_complete {s : State} {reply : Option (Nat × Word)} {rest : List Event} (he : s.events = .complete reply :: rest) :
    step s = sequence ({ s with events := rest }.withReply reply) := by simp [step, he]

theorem State.withFetchWord_of_legal (s : State) {nbits w : Nat} {i : Instr} (h : decodeTableWord nbits w = some i) :
    s.withFetchWord nbits w = { s with rst := false, events := [] }.accepted (Sys2Proof.encode i) i := by
  simp [State.withFetchWord, h]

/-- Settles O17: each clause is the step lemma of its kind of pending event, a CMD write accepted by way of the lanes of its word. -/
theorem stepRunsLatchedCommand : Obligations.StepRunsLatchedCommand := by
  refine ⟨fun s run he hr => step_of_latched he hr, fun s run reply rest he hr => ?complete,
    fun s he hr => step_of_idle he hr, fun s w i rest he hrst hidle hw => ?cmdWrite, fun s w i hw => ?fetched⟩
  case complete =>
    rw [step_of_complete he, State.withReply_of_running (s := { s with events := rest }) hr]
    exact sequence_of_running (run := { run with reply := reply }) rfl
  case cmdWrite =>
    have legal : Sys2Proof.decode w = .ok i := decodeLanes_wordLanes w ▸ hw
    rw [step_of_host he, ← issue_of_legal legal]
    exact hostStep_cmdWrite_of_idle (s := { s with events := rest }) hrst hidle w
  case fetched =>
    rw [State.withFetchWord_of_legal s hw]
    exact step_of_latched (s := State.accepted _ _ i) rfl rfl

end Sys2Proof.Machine
end

section
/-!
The machine's invariant: what each operation of the state, the host port and the sequencer does to it, and from these that every step
keeps it (O20).
-/
namespace Sys2Proof.Machine

/-! ### Legal worker counts and command words (10 R24, 30 R103) -/

theorem one_le_maxWorkers : 1 ≤ Config.maxWorkers.toNat := by
  unfold Config.maxWorkers
  split
  · decide
  · next h => exact Nat.pos_of_ne_zero fun e => h (BitVec.eq_of_toNat_eq e)

theorem legalWorkers_bounds (w : Byte) : 1 ≤ (legalWorkers w).toNat ∧ (legalWorkers w).toNat ≤ Config.maxWorkers.toNat := by
  unfold legalWorkers
  split
  · exact ⟨by decide, one_le_maxWorkers⟩
  · next h =>
    split
    · exact ⟨one_le_maxWorkers, le_rfl⟩
    · exact ⟨Nat.pos_of_ne_zero fun e => h (BitVec.eq_of_toNat_eq e), by omega⟩

theorem opcodeRows_encode : ∀ r ∈ opcodeRows, r.mask = fullMask ∧ r.pattern = Sys2Proof.encode r.instr := by decide

/-- A word decodes to no command but the one it is the word of (30 R103). -/
theorem eq_encode_of_decode {w : Word} {i : Instr} (h : Sys2Proof.decode w = .ok i) : w = Sys2Proof.encode i := by
  unfold Sys2Proof.decode at h
  split at h
  · next r hfind =>
    obtain ⟨hmask, hpattern⟩ := opcodeRows_encode r (List.mem_of_find?_eq_some hfind)
    have hsel : w &&& r.mask = r.pattern := by simpa [OpcodeRow.selects] using List.find?_some hfind
    injection h with h
    rwa [hmask, hpattern, h, show fullMask = BitVec.allOnes 64 from rfl, BitVec.and_allOnes] at hsel
  · cases h

/-! ### PHASE is never 0 while a command runs (10 R29) -/

theorem firstPhase_ne_idle (i : Instr) : firstPhase i ≠ .idle := by cases i <;> decide

theorem idle_not_mem_plan (i : Instr) : Phase.idle ∉ (commandOf i).plan.map PhaseStep.phase := by cases i <;> decide

theorem reached_phase_ne_idle {i : Instr} {s : State} {x : Phase × State} (h : x ∈ reached (commandOf i).plan s) :
    x.1 ≠ .idle := fun e =>
  idle_not_mem_plan i ((reached_sublist _ s).subset (e ▸ List.mem_map_of_mem (f := Prod.fst) h))

/-! ### The frame of a run's ending -/

theorem runPlan_returned_frame {i : Instr} {s t : State} (h : runPlan (commandOf i).plan s = .returned t) : PhaseFrame s t := by
  have := runPlan_keeps (P := PhaseFrame s) (fun p hp u v hu hb => hu.trans (plan_frame i p hp u v hb)) (PhaseFrame.refl s)
  rwa [h] at this

theorem reached_frame {i : Instr} {s : State} {x : Phase × State} (h : x ∈ reached (commandOf i).plan s) : PhaseFrame s x.2 :=
  reached_keeps (P := PhaseFrame s) (fun p hp u v hu hb => hu.trans (plan_frame i p hp u v hb)) (PhaseFrame.refl s) x h

theorem runPlan_raised_frame {i : Instr} {s kept : State} {p : Phase} {e : Raise}
    (h : runPlan (commandOf i).plan s = .raised p e kept) : PhaseFrame s kept := reached_frame (runPlan_raised_reached h)

theorem busErrorAt_frame {i : Instr} {s kept : State} {p : Phase} {a : Word}
    (h : (commandOf i).busErrorAt s = some (p, kept, a)) : PhaseFrame s kept := by
  obtain ⟨k, _, _, _, _, _, hk⟩ := Command.busErrorAt_some h
  exact reached_frame (List.mem_of_getElem? hk)

theorem PhaseFrame.done {s t : State} (f : PhaseFrame s t) : t.status.done = s.status.done := by rw [f.status]
theorem PhaseFrame.err {s t : State} (f : PhaseFrame s t) : t.status.err = s.status.err := by rw [f.status]
theorem PhaseFrame.errCode {s t : State} (f : PhaseFrame s t) : t.status.errCode = s.status.errCode := by rw [f.status]

/-! ### The parts of the invariant -/

/-- The reset state is a matter of the engine's own fields: memory, the inputs and the model's records may be anything. -/
theorem State.isReset_with {s : State} (h : s.isReset) (m : Memory) (r : Bool) (es : List Event) (rd : Word) (md : Byte) (d : Nat) :
    State.isReset { s with mem := m, rst := r, events := es, rdData := rd, memData := md, draws := d } := by
  have e := congrArg (fun u : State => { u with mem := m, rst := r, events := es, rdData := rd, memData := md, draws := d })
    (show s = s.engineReset from h)
  exact e

theorem State.isReset_engineReset (s : State) : s.engineReset.isReset := rfl

theorem State.running_of_isReset {s : State} (h : s.isReset) : s.running = none := by rw [h]; rfl

theorem State.latchOk_of_idle {s : State} (h : s.running = none) : s.latchOk := fun run hr => by simp [h] at hr

theorem State.statusOk_of_not_done {s : State} (h : s.status.done = false) : s.statusOk := by simp [State.statusOk, h]

theorem State.Inv.mem_wf {s : State} (h : s.Inv) : s.mem.wf = true := h.1

theorem State.Inv.latchOk {s : State} (h : s.Inv) : s.latchOk := by
  obtain ⟨_, _, _, hlatch, _⟩ := h
  exact hlatch

/-- Under `rst` no command runs. -/
theorem State.Inv.rst_of_running {s : State} {run : Running} (h : s.Inv) (hr : s.running = some run) : s.rst = false := by
  obtain ⟨_, _, _, _, _, hreset⟩ := h
  refine Bool.eq_false_iff.mpr fun e => ?_
  simp [State.running_of_isReset (hreset e)] at hr

/-- The invariant speaks of memory, WORKERS, the latch, CMD, STATUS, RESULT and ERRINFO only, but under `rst`. -/
theorem State.Inv.congr {s t : State} (h : s.Inv) (rst : t.rst = false) (mem : t.mem.wf = true) (workers : t.workers = s.workers)
    (running : t.running = s.running) (cmd : t.cmd = s.cmd) (status : t.status = s.status) (result : t.result = s.result)
    (errInfo : t.errInfo = s.errInfo) : t.Inv := by
  obtain ⟨_, hlo, hhi, hlatch, hstatus, _⟩ := h
  refine ⟨mem, workers ▸ hlo, workers ▸ hhi, fun run hr => ?_, ?_, fun e => by simp [rst] at e⟩
  · rw [cmd, status, result, errInfo]
    exact hlatch run (running ▸ hr)
  · unfold State.statusOk
    rwa [status]

/-- An idle engine out of reset with canonical memory and legal WORKERS meets the invariant if its STATUS may be shown. -/
theorem State.Inv.of_idle {s t : State} (h : s.Inv) (rst : t.rst = false) (mem : t.mem.wf = true) (workers : t.workers = s.workers)
    (running : t.running = none) (status : t.statusOk) : t.Inv := by
  obtain ⟨_, hlo, hhi, _, _, _⟩ := h
  exact ⟨mem, workers ▸ hlo, workers ▸ hhi, State.latchOk_of_idle running, status, fun e => by simp [rst] at e⟩

/-- A reset state with canonical memory meets the invariant. -/
theorem State.Inv.of_isReset {s : State} (h : s.isReset) (hmem : s.mem.wf = true) : s.Inv := by
  have hworkers : s.workers = Config.maxWorkers := by rw [h]; rfl
  have hdone : s.status.done = false := by rw [h]; rfl
  exact ⟨hmem, hworkers ▸ one_le_maxWorkers, hworkers ▸ le_rfl, State.latchOk_of_idle (State.running_of_isReset h),
    State.statusOk_of_not_done hdone, fun _ => h⟩

/-- Memory may take any canonical contents, and the events and the model's records anything. -/
theorem State.Inv.with_records {s : State} (h : s.Inv) {m : Memory} (hm : m.wf = true) (es : List Event) (rd : Word) (md : Byte)
    (d : Nat) : State.Inv { s with mem := m, events := es, rdData := rd, memData := md, draws := d } := by
  obtain ⟨_, hlo, hhi, hlatch, hstatus, hreset⟩ := h
  exact ⟨hm, hlo, hhi, hlatch, hstatus, fun e => State.isReset_with (hreset e) m s.rst es rd md d⟩

theorem State.Inv.with_events {s : State} (h : s.Inv) (es : List Event) : State.Inv { s with events := es } :=
  h.with_records h.mem_wf es s.rdData s.memData s.draws

/-- What the latch records of a run beside its command and N does not matter to the invariant. -/
theorem State.Inv.with_running {s : State} (h : s.Inv) {run run' : Running} (hr : s.running = some run) (hcmd : run'.cmd = run.cmd)
    (hworkers : run'.workers = run.workers) : State.Inv { s with running := some run' } := by
  have hrst := h.rst_of_running hr
  obtain ⟨hmem, hlo, hhi, hlatch, hstatus, _⟩ := h
  refine ⟨hmem, hlo, hhi, fun r e => ?_, hstatus, fun e => by simp [hrst] at e⟩
  obtain rfl : run' = r := Option.some.inj e
  rw [hcmd, hworkers]
  exact hlatch run hr

theorem State.Inv.withRace {s : State} (h : s.Inv) : s.withRace.Inv := by
  unfold State.withRace
  split
  · next hr => exact h.with_running hr rfl rfl
  · exact h

theorem State.Inv.withReply {s : State} (h : s.Inv) (reply : Option (Nat × Word)) : (s.withReply reply).Inv := by
  unfold State.withReply
  split
  · next hr => exact h.with_running hr rfl rfl
  · exact h

theorem State.Inv.engineReset {s : State} (h : s.Inv) : s.engineReset.Inv := .of_isReset s.isReset_engineReset h.mem_wf

/-! ### Register writes -/

theorem State.Inv.acknowledged {s : State} (h : s.Inv) (hrst : s.rst = false) (v : Word) : (s.acknowledged v).Inv := by
  obtain ⟨hmem, hlo, hhi, hlatch, ⟨hexcl, hdone⟩, _⟩ := h
  refine ⟨hmem, hlo, hhi, fun run hr => ?_, ⟨?_, fun e => hdone ?_⟩, fun e => by simp [hrst] at e⟩
  · obtain ⟨hcmd, hopc, hnotDone, hnotErr, hrest⟩ := hlatch run hr
    exact ⟨hcmd, hopc, by simp [hnotDone], by simp [hnotErr], hrest⟩
  · rw [State.acknowledged_status_done, State.acknowledged_status_err, Bool.and_assoc,
      Bool.and_left_comm (!v.getLsbD 1), ← Bool.and_assoc, hexcl, Bool.false_and]
  · exact Bool.and_elim_left e

theorem State.Inv.with_status_flags {s : State} (h : s.Inv) (hrst : s.rst = false) (ovr wign : Bool) :
    State.Inv { s with status := { s.status with ovr := ovr, wign := wign } } := by
  obtain ⟨hmem, hlo, hhi, hlatch, hstatus, _⟩ := h
  exact ⟨hmem, hlo, hhi, hlatch, hstatus, fun e => by simp [hrst] at e⟩

theorem State.Inv.accepted {s : State} (h : s.Inv) (hrst : s.rst = false) (i : Instr) :
    (s.accepted (Sys2Proof.encode i) i).Inv := by
  obtain ⟨hmem, hlo, hhi, _, _, _⟩ := h
  refine ⟨hmem, hlo, hhi, fun run hr => ?_, State.statusOk_of_not_done rfl, fun e => by simp [hrst] at e⟩
  obtain rfl : _ = run := Option.some.inj hr
  exact ⟨rfl, rfl, rfl, rfl, rfl, firstPhase_ne_idle i, rfl, rfl, hlo, hhi⟩

theorem State.Inv.issue {s : State} (h : s.Inv) (hrst : s.rst = false) (hidle : s.running = none) (w : Word) :
    (issue s w).Inv := by
  unfold Machine.issue
  split
  · next i hdec => exact eq_encode_of_decode hdec ▸ h.accepted hrst i
  · exact h.of_idle hrst h.mem_wf rfl hidle (State.statusOk_of_not_done rfl)

theorem State.Inv.writeCtrl {s : State} (h : s.Inv) (hrst : s.rst = false) (v : Word) : (writeCtrl s v).Inv := by
  unfold Machine.writeCtrl
  split
  · exact h.engineReset
  · obtain ⟨hmem, _, _, hlatch, hstatus, _⟩ := h
    obtain ⟨hlo, hhi⟩ := legalWorkers_bounds (v.extractLsb' 8 8)
    exact ⟨hmem, hlo, hhi, hlatch, hstatus, fun e => by simp [hrst] at e⟩

theorem State.Inv.writeIdle {s : State} (h : s.Inv) (hrst : s.rst = false) (hidle : s.running = none) (r : Reg) (v : Word) :
    (writeIdle s r v).Inv := by
  cases r
  case ctrl => exact h.writeCtrl hrst v
  case cmd => exact h.issue hrst hidle v
  case status => exact h.acknowledged hrst v
  all_goals exact h.congr hrst h.mem_wf rfl rfl rfl rfl rfl rfl

theorem State.Inv.writeBusy {s : State} (h : s.Inv) (hrst : s.rst = false) (r : Reg) (v : Word) : (writeBusy s r v).Inv := by
  unfold Machine.writeBusy
  split
  · exact h.acknowledged hrst v
  · split
    · exact h.with_status_flags hrst true s.status.wign
    · exact h.with_status_flags hrst s.status.ovr true

theorem State.Inv.writeReg {s : State} (h : s.Inv) (r : Reg) (v : Word) : (writeReg s r v).Inv := by
  cases hrst : s.rst with
  | true => simpa [Machine.writeReg, hrst] using h
  | false =>
    cases hrun : s.running with
    | none => rw [writeReg_of_idle hrst hrun]; exact h.writeIdle hrst hrun r v
    | some run =>
      simpa [Machine.writeReg, hrst, State.busy_of_running hrun] using h.writeBusy hrst r v

/-! ### Reads, system memory and the inputs -/

theorem State.Inv.readReg {s : State} (h : s.Inv) (r : Reg) : (readReg s r).Inv := by
  unfold Machine.readReg
  split
  · exact h.with_records h.mem_wf _ _ _ _
  · split
    · exact h.with_records h.mem_wf _ _ _ _
    · exact h.with_records h.mem_wf _ _ _ _

theorem State.Inv.hostStore {s : State} (h : s.Inv) (a : Word) (v : Byte) : (hostStore s a v).Inv := by
  have hstored := h.with_records (Memory.wf_write h.mem_wf a.toNat v) s.events s.rdData s.memData s.draws
  unfold Machine.hostStore
  dsimp only
  split
  · exact hstored.withRace
  · exact hstored

theorem State.Inv.hostLoad {s : State} (h : s.Inv) (a : Word) : (hostLoad s a).Inv := by
  unfold Machine.hostLoad
  split
  · exact h.with_records h.mem_wf _ _ _ _
  · exact h.with_records h.mem_wf _ _ _ _

theorem wf_abandoned {s : State} (w : s.mem.wf = true) : (abandoned s).mem.wf = true := by
  unfold abandoned
  split
  · exact w
  · split
    · exact State.wf_unspecifiedOutput w _ _
    · exact State.wf_unspecifiedOutput w _ _

theorem State.Inv.resetInput {s : State} (h : s.Inv) (level : Bool) : (resetInput s level).Inv := by
  unfold Machine.resetInput
  split
  · exact .of_isReset rfl (wf_abandoned h.mem_wf)
  · split
    · exact .of_isReset rfl h.mem_wf
    · exact h

/-- A guarded host access that is taken. -/
theorem next_of_guard {b : Bool} {f : Fault} {s t : State}
    (h : (if b then .fault f else .next s : Host.Outcome State Fault Refusal) = .next t) : b = false ∧ t = s := by
  cases b with
  | true => cases h
  | false => injection h with h; exact ⟨rfl, h.symm⟩

theorem State.Inv.hostStep {s t : State} (h : s.Inv) {a : HostAction} (ht : hostStep a s = .next t) : t.Inv := by
  cases a with
  | regWrite o w v => obtain ⟨_, rfl⟩ := next_of_guard ht; exact h.writeReg _ _
  | regRead o w => obtain ⟨_, rfl⟩ := next_of_guard ht; exact h.readReg _
  | memWrite x v => rw [Machine.hostStep] at ht; obtain ⟨_, rfl⟩ := next_of_guard ht; exact h.hostStore _ _
  | memRead x => rw [Machine.hostStep] at ht; obtain ⟨_, rfl⟩ := next_of_guard ht; exact h.hostLoad _
  | rst level => injection ht with ht; exact ht ▸ h.resetInput level
  | deviceRegion => injection ht with ht; exact ht ▸ h.withRace

/-! ### The sequencer -/

theorem State.Inv.advancePhase {s : State} (h : s.Inv) : (advancePhase s).Inv := by
  unfold Machine.advancePhase
  split
  · exact h
  · next run hr =>
    split
    · exact h
    · next x hx =>
      have hrst := h.rst_of_running hr
      obtain ⟨hmem, hlo, hhi, hlatch, _, _⟩ := h
      obtain ⟨hcmd, hopc, hdone, herr, hcode, _, hrest⟩ := hlatch run hr
      refine ⟨hmem, hlo, hhi, fun r e => ?_, State.statusOk_of_not_done hdone, fun e => by simp [hrst] at e⟩
      obtain rfl : _ = r := Option.some.inj e
      exact ⟨hcmd, hopc, hdone, herr, hcode, reached_phase_ne_idle (List.mem_of_getElem? hx), hrest⟩

theorem State.Inv.succeeded {s t : State} {run : Running} (h : s.Inv) (hr : s.running = some run) (f : PhaseFrame s t) (r : Word) :
    (t.succeeded r).Inv := by
  obtain ⟨_, _, _, herr, hcode, _⟩ := h.latchOk run hr
  refine h.of_idle (f.rst.trans (h.rst_of_running hr)) (f.wf h.mem_wf) f.workers rfl ?_
  simp [State.statusOk, f.err.trans herr, f.errCode.trans hcode]

theorem State.Inv.failed {s t : State} {run : Running} (h : s.Inv) (hr : s.running = some run) (f : PhaseFrame s t) (p : Phase)
    (e : Raise) : (t.failed p e).Inv := by
  obtain ⟨_, _, hdone, _⟩ := h.latchOk run hr
  refine h.of_idle (f.rst.trans (h.rst_of_running hr)) (f.wf h.mem_wf) f.workers rfl (State.statusOk_of_not_done (f.done.trans hdone))

/-- Unspecified output bytes change memory only, and keep its form. -/
theorem State.Inv.failedAt {s kept : State} {run : Running} (h : s.Inv) (hr : s.running = some run) (f : PhaseFrame s kept)
    (c : Command) (p : Phase) (e : Raise) : (c.failedAt s p e kept).Inv := by
  unfold Command.failedAt
  split
  · obtain ⟨hmem, hlo, hhi, hlatch, hstatus, hreset⟩ := h.failed hr f p e
    exact ⟨State.wf_unspecifiedOutput (f.wf h.mem_wf) _ _, hlo, hhi, hlatch, hstatus,
      fun e => by simp [f.rst.trans (h.rst_of_running hr)] at e⟩
  · exact h.failed hr f p e

/-- What a raced command leaves in STATUS may be shown (log entry 21). -/
theorem statusOk_of_freeStatus {s : State} {t : Status} {d : Nat} (h : s.status = freeStatus t d) : s.statusOk := by
  simp only [State.statusOk, h, freeStatus]
  cases freeBool d 0 <;> simp

theorem State.Inv.unconstrained {s : State} {run : Running} (h : s.Inv) (hr : s.running = some run) (i : Instr) :
    (s.unconstrained i).Inv :=
  h.of_idle (h.rst_of_running hr) (by apply State.wf_unspecifiedOutput; exact h.mem_wf) rfl rfl (statusOk_of_freeStatus rfl)

theorem State.Inv.completed {s : State} {run : Running} (h : s.Inv) (hr : s.running = some run) (i : Instr) :
    ((commandOf i).completed s).Inv := by
  obtain ⟨_, e⟩ | ⟨p, kept, a, hbus, e⟩ | ⟨t, hret, e⟩ | ⟨p, x, kept, hraise, e⟩ := (commandOf i).completed_cases s <;> rw [e]
  · exact h.unconstrained hr _
  · exact h.failedAt hr (busErrorAt_frame hbus) _ _ _
  · exact h.succeeded hr (runPlan_returned_frame hret) _
  · exact h.failedAt hr (runPlan_raised_frame hraise) _ _ _

theorem State.Inv.sequence {s t : State} (h : s.Inv) (ht : sequence s = .next t) : t.Inv := by
  unfold Machine.sequence at ht
  split at ht
  · next run hr => exact (exec_next_iff _ _ _).mp ht ▸ h.completed hr run.cmd
  · injection ht with ht
    exact ht ▸ h

/-- Settles O20: a step is a completion, a host action, a phase start or a reply, and each keeps the invariant. -/
theorem stepKeepsInvariant : Obligations.StepKeepsInvariant := by
  intro s t h ht
  obtain ⟨_, e⟩ | ⟨a, rest, _, e⟩ | ⟨rest, _, e⟩ | ⟨reply, rest, _, e⟩ := step_cases s <;> rw [e] at ht
  · exact h.sequence ht
  · exact (h.with_events rest).hostStep ht
  · injection ht with ht
    exact ht ▸ (h.with_events rest).advancePhase
  · exact ((h.with_events rest).withReply reply).sequence ht

end Sys2Proof.Machine
end

section
/-!
Arenas as lists of entries: when a list of entries, put in the NODE RAM with its root, satisfies 10 R44(a) to (c). The child indices of the
entries in use, and the root beside them, are the indices of the entries, each once.
-/
namespace Sys2Proof.Machine

/-! ### Child indices -/

/-- The indices a LEFT, RIGHT or ROOT value names: none where it is 0x1FF (10 R37, R43). -/
def indexList (c : Index) : List Nat := if c = noNode then [] else [c.toNat]

/-- The child indices of an entry. -/
def childSlots (n : Node) : List Nat := indexList n.left ++ indexList n.right

/-- The child indices of all entries. -/
def childList (a : List Node) : List Nat := a.flatMap childSlots

@[simp] theorem indexList_noNode : indexList noNode = [] := rfl

theorem indexList_of_ne {c : Index} (h : c ≠ noNode) : indexList c = [c.toNat] := if_neg h

theorem mem_indexList {c : Index} {j : Nat} : j ∈ indexList c ↔ c ≠ noNode ∧ c.toNat = j := by
  by_cases h : c = noNode
  · simp [h]
  · simp [indexList_of_ne h, h, eq_comm]

/-- An index that an arena can hold is the number of its 9 bits, and not 0x1FF. -/
theorem toNat_ofNat_index {j : Nat} (h : j < 511) : (BitVec.ofNat 9 j).toNat = j := by
  rw [BitVec.toNat_ofNat, Nat.mod_eq_of_lt (by omega)]

theorem ofNat_index_ne_noNode {j : Nat} (h : j < 511) : BitVec.ofNat 9 j ≠ noNode := fun e => by
  have := congrArg BitVec.toNat e
  rw [toNat_ofNat_index h] at this
  simp [noNode] at this
  omega

theorem indexList_ofNat {j : Nat} (h : j < 511) : indexList (BitVec.ofNat 9 j) = [j] := by
  rw [indexList_of_ne (ofNat_index_ne_noNode h), toNat_ofNat_index h]

@[simp] theorem childSlots_leafNode (sym weight : Nat) : childSlots (leafNode sym weight) = [] := rfl

@[simp] theorem childSlots_bareNode : childSlots bareNode = [] := rfl

theorem mem_childSlots {n : Node} {j : Nat} : j ∈ childSlots n ↔ ∃ c, n.child c ≠ noNode ∧ (n.child c).toNat = j := by
  simp [childSlots, mem_indexList, Node.child]

@[simp] theorem childList_nil : childList [] = [] := rfl

@[simp] theorem childList_append (a b : List Node) : childList (a ++ b) = childList a ++ childList b := List.flatMap_append

@[simp] theorem childList_cons (n : Node) (a : List Node) : childList (n :: a) = childSlots n ++ childList a := List.flatMap_cons

theorem childList_of_childless {a : List Node} (h : ∀ n ∈ a, childSlots n = []) : childList a = [] := by
  simpa [childList] using h

/-- Where the child indices are indices of entries, a child stands in the list. -/
theorem child_lt_of_slots {a : List Node} {roots : List Nat} (h : (childList a ++ roots).Perm (List.range a.length)) {n : Node}
    (hn : n ∈ a) {c : Bool} (hc : n.child c ≠ noNode) : (n.child c).toNat < a.length := by
  have hmem : (n.child c).toNat ∈ childList a := List.mem_flatMap.mpr ⟨n, hn, mem_childSlots.mpr ⟨c, hc, rfl⟩⟩
  exact List.mem_range.mp (h.subset (List.mem_append_left _ hmem))

/-! ### Entries of a list -/

theorem arenaAt_of_lt {a : List Node} {i : Nat} (h : i < a.length) : arenaAt a i = a[i] := by simp [arenaAt, h]

theorem arenaAt_mem {a : List Node} {i : Nat} (h : i < a.length) : arenaAt a i ∈ a := arenaAt_of_lt h ▸ List.getElem_mem h

theorem arenaAt_append_of_lt {a : List Node} {i : Nat} (h : i < a.length) (b : List Node) : arenaAt (a ++ b) i = arenaAt a i := by
  simp [arenaAt, List.getElem?_append_left h]

@[simp] theorem arenaAt_append_length (a : List Node) (n : Node) : arenaAt (a ++ [n]) a.length = n := by simp [arenaAt]

theorem getElem_arenaOf (a : List Node) (i : Fin 511) : (arenaOf a)[i] = arenaAt a i.val := getElem_tabulate_fin ..

theorem nodeAt_arenaOf (a : List Node) {c : Index} (h : c.toNat < 511) : nodeAt (arenaOf a) c = arenaAt a c.toNat := by
  rw [nodeAt, dif_pos h]
  exact getElem_tabulate ..

/-! ### The arena of a list -/

/-- A list of entries that is an arena with root `r`: it fits, every entry is in use, and each index of an entry is either the root or
one child of one entry. -/
structure ArenaList (a : List Node) (r : Index) : Prop where
  length_le : a.length ≤ 511
  used : ∀ n ∈ a, n.used = true
  slots : (childList a ++ indexList r).Perm (List.range a.length)
  root : r = noNode ↔ a = []

theorem ArenaList.nil : ArenaList [] noNode := ⟨by decide, by simp, .refl _, by simp⟩

/-- With no repetition among the child indices, a child has one parent, on one side. -/
theorem parent_unique {a : List Node} (h : (childList a).Nodup) {i i' j : Nat} {c c' : Bool} (hi : i < a.length) (hi' : i' < a.length)
    (hj : j < 511) (hc : (arenaAt a i).child c = BitVec.ofNat 9 j) (hc' : (arenaAt a i').child c' = BitVec.ofNat 9 j) :
    i = i' ∧ c = c' := by
  obtain ⟨hslots, hdisj⟩ := List.nodup_flatMap.mp h
  have slot : ∀ {k d}, (arenaAt a k).child d = BitVec.ofNat 9 j → j ∈ childSlots (arenaAt a k) := fun e =>
    mem_childSlots.mpr ⟨_, e ▸ ofNat_index_ne_noNode hj, by rw [e, toNat_ofNat_index hj]⟩
  have apart : ∀ {k l d d'}, k < l → l < a.length → (arenaAt a k).child d = BitVec.ofNat 9 j →
      (arenaAt a l).child d' = BitVec.ofNat 9 j → False := fun hkl hl hd hd' => by
    have hk := hkl.trans hl
    have := List.pairwise_iff_getElem.mp hdisj _ _ hk hl hkl
    rw [Function.onFun, ← arenaAt_of_lt hk, ← arenaAt_of_lt hl] at this
    exact this (slot hd) (slot hd')
  rcases Nat.lt_trichotomy i i' with hlt | rfl | hlt
  · exact (apart hlt hi' hc hc').elim
  · refine ⟨rfl, ?_⟩
    by_contra hne
    have both : (arenaAt a i).left = BitVec.ofNat 9 j ∧ (arenaAt a i).right = BitVec.ofNat 9 j := by
      cases c <;> cases c' <;> simp_all [Node.child]
    have := hslots _ (arenaAt_mem hi)
    simp [childSlots, both, indexList_ofNat hj] at this
  · exact (apart hlt hi hc' hc).elim

/-- The state whose NODE RAM, NNODES and ROOT are those of an arena list satisfies 10 R44(a) to (c). -/
theorem State.arenaOk_of_arenaList {t : State} {a : List Node} (h : ArenaList a t.root) (hnode : t.node = arenaOf a)
    (hlen : t.nnodes = BitVec.ofNat 9 a.length) : t.arenaOk := by
  have hle := h.length_le
  have hnn : t.nnodes.toNat = a.length := by rw [hlen, BitVec.toNat_ofNat, Nat.mod_eq_of_lt (by omega)]
  have entry : ∀ i : Fin 511, t.node[i] = arenaAt a i.val := fun i => by rw [hnode, getElem_arenaOf]
  refine ⟨⟨fun i hi => ?used, fun i hi => ?empty, ?root⟩, fun i hi => ?linked, fun j hj hroot => ?tree⟩
  case used =>
    have hidx : i < 511 := by omega
    rw [usedAt, hnode, nodeAt_arenaOf a (by rwa [toNat_ofNat_index hidx]), toNat_ofNat_index hidx]
    exact h.used _ (arenaAt_mem (hnn ▸ hi))
  case empty =>
    rw [entry, arenaAt, List.getD_eq_default _ _ (hnn ▸ hi)]
  case root =>
    rw [h.root, ← List.length_eq_zero_iff, ← hnn]
    exact ⟨fun e => BitVec.eq_of_toNat_eq e, fun e => by rw [e]; rfl⟩
  case linked =>
    have child : ∀ c, t.childOk (t.node[i].child c) := fun c => by
      rw [State.childOk, hnn, entry, or_iff_not_imp_left]
      exact child_lt_of_slots h.slots (arenaAt_mem (hnn ▸ hi))
    exact ⟨child false, child true⟩
  case tree =>
    rw [hnn] at hj
    have hidx : j < 511 := by omega
    have hmem : j ∈ childList a := by
      refine (List.mem_append.mp (h.slots.symm.subset (List.mem_range.mpr hj))).resolve_right fun hr => hroot ?_
      rw [← (mem_indexList.mp hr).2, BitVec.ofNat_toNat, BitVec.setWidth_eq]
    obtain ⟨n, hn, hslot⟩ := List.mem_flatMap.mp hmem
    obtain ⟨i, hi, rfl⟩ := List.getElem_of_mem hn
    obtain ⟨c, _, hc⟩ := mem_childSlots.mp hslot
    have hc : (arenaAt a i).child c = BitVec.ofNat 9 j := by
      rw [arenaAt_of_lt hi, ← hc, BitVec.ofNat_toNat, BitVec.setWidth_eq]
    refine ⟨⟨⟨i, by omega⟩, c⟩, ⟨hnn ▸ hi, by rw [entry]; exact hc⟩, fun ⟨i', c'⟩ ⟨hi', hc'⟩ => ?_⟩
    obtain ⟨hii, rfl⟩ := parent_unique (List.nodup_append.mp (h.slots.nodup_iff.mpr List.nodup_range)).1 (hnn ▸ hi') hi hidx
      (entry i' ▸ hc') hc
    exact Prod.ext (Fin.ext hii) rfl

/-- The reset arena is that of the empty list (10 R43). -/
theorem State.reset_arenaOk : State.reset.arenaOk := by
  refine State.arenaOk_of_arenaList ArenaList.nil (Vector.ext fun i hi => ?_) rfl
  simp [State.reset, arenaOf]

end Sys2Proof.Machine
end

section
/-!
BUILD's merge loop keeps a forest: the entries in use, whose roots are the indices in the queue (41 R133, R135).
-/
namespace Sys2Proof.Machine

/-! ### The queue -/

theorem leastKey_mem (k : Key) (ks : List Key) : leastKey k ks ∈ k :: ks := by
  induction ks generalizing k with
  | nil => exact List.mem_cons_self
  | cons x xs ih =>
    rcases List.mem_cons.mp (ih (if keyLess x k then x else k)) with e | hmem
    · rw [leastKey, e]
      split <;> simp
    · exact List.mem_cons_of_mem _ (List.mem_cons_of_mem _ hmem)

@[simp] theorem popLeast_eq_none {q : List Key} : popLeast q = none ↔ q = [] := by cases q <;> simp [popLeast]

/-- A pop takes one key out of the queue. -/
theorem perm_of_popLeast {q q' : List Key} {k : Key} (h : popLeast q = some (k, q')) : q.Perm (k :: q') := by
  cases q with
  | nil => cases h
  | cons x xs =>
    simp only [popLeast, Option.some.injEq, Prod.mk.injEq] at h
    obtain ⟨rfl, rfl⟩ := h
    exact List.perm_cons_erase (leastKey_mem x xs)

/-- One merge: the queue and the arena after the two least keys are popped. -/
inductive Merge (q : List Key) (a : List Node) : List Key → List Node → Prop
  | mk {k l : Key} {q₁ q₂ : List Key} (first : popLeast q = some (k, q₁)) (second : popLeast q₁ = some (l, q₂)) :
    Merge q a (q₂ ++ [(k.1 + l.1, a.length)])
      (a ++ [internalNode (k.1 + l.1) (BitVec.ofNat 9 k.2) (BitVec.ofNat 9 l.2)])

/-- A property each merge keeps holds of what the loop ends with. -/
theorem mergeLoop_keeps {P : List Key → List Node → Prop} (hk : ∀ q a q' a', P q a → Merge q a q' a' → P q' a') (fuel : Nat)
    {q : List Key} {a : List Node} (h : P q a) : P (mergeLoop fuel q a).1 (mergeLoop fuel q a).2 := by
  induction fuel generalizing q a with
  | zero => exact h
  | succ fuel ih =>
    rw [mergeLoop]
    split
    · exact h
    · next k q₁ first =>
      split
      · exact h
      · next l q₂ second => exact ih (hk _ _ _ _ h (.mk first second))

/-- With fuel for every key, the loop ends with at most one key in the queue. -/
theorem mergeLoop_length_le (fuel : Nat) (q : List Key) (a : List Node) (h : q.length ≤ fuel + 1) :
    (mergeLoop fuel q a).1.length ≤ 1 := by
  induction fuel generalizing q a with
  | zero => exact h
  | succ fuel ih =>
    rw [mergeLoop]
    split
    · next hnone => simp [popLeast_eq_none.mp hnone]
    · next k q₁ first =>
      have hlen := (perm_of_popLeast first).length_eq
      split
      · next hnone => simp [popLeast_eq_none.mp hnone, hlen]
      · next l q₂ second =>
        refine ih _ _ ?_
        have hlen' := (perm_of_popLeast second).length_eq
        simp only [List.length_cons, List.length_append, List.length_nil] at hlen hlen' ⊢
        omega

/-! ### The forest -/

/-- The weight and the index of every queued tree agree with the arena, the trees' entries are all there are, inner nodes have two
children and their weights' sum, and neither the arena nor a weight can overflow. -/
structure Forest (q : List Key) (a : List Node) : Prop where
  size : a.length + q.length ≤ 512
  total : (q.map Prod.fst).sum < 2 ^ 72
  used : ∀ n ∈ a, n.used = true
  slots : (childList a ++ q.map Prod.snd).Perm (List.range a.length)
  weights : ∀ k ∈ q, (arenaAt a k.2).weight.toNat = k.1
  strict : ∀ n ∈ a, n.leaf = false → n.left ≠ noNode ∧ n.right ≠ noNode
    ∧ n.weight.toNat = (arenaAt a n.left.toNat).weight.toNat + (arenaAt a n.right.toNat).weight.toNat

theorem Forest.perm {q q' : List Key} {a : List Node} (h : Forest q a) (p : q.Perm q') : Forest q' a where
  size := p.length_eq ▸ h.size
  total := (p.map Prod.fst).sum_nat ▸ h.total
  used := h.used
  slots := ((p.map Prod.snd).append_left _).symm.trans h.slots
  weights := fun k hk => h.weights k (p.symm.subset hk)
  strict := h.strict

theorem Forest.index_lt {q : List Key} {a : List Node} (h : Forest q a) {k : Key} (hk : k ∈ q) : k.2 < a.length :=
  List.mem_range.mp (h.slots.subset (List.mem_append_right _ (List.mem_map_of_mem hk)))

@[simp] theorem weight_internalNode {w : Nat} (h : w < 2 ^ 72) (l r : Index) : (internalNode w l r).weight.toNat = w :=
  Nat.mod_eq_of_lt h

/-- Joining two trees of a forest under a new node gives a forest. -/
theorem Forest.join {q : List Key} {a : List Node} {k l : Key} (h : Forest (k :: l :: q) a) :
    Forest (q ++ [(k.1 + l.1, a.length)]) (a ++ [internalNode (k.1 + l.1) (BitVec.ofNat 9 k.2) (BitVec.ofNat 9 l.2)]) := by
  obtain ⟨hsize, htotal, hused, hslots, hweights, hstrict⟩ := id h
  have hk : k.2 < a.length := h.index_lt (by simp)
  have hl : l.2 < a.length := h.index_lt (by simp)
  simp only [List.length_cons, List.map_cons, List.sum_cons] at hsize htotal
  have hk9 : k.2 < 511 := by omega
  have hl9 : l.2 < 511 := by omega
  refine ⟨?size, ?total, ?used, ?slots, fun x hx => ?weights, fun n hn hleaf => ?strict⟩
  case size => simp only [List.length_append, List.length_cons, List.length_nil]; omega
  case total => simp only [List.map_append, List.map_cons, List.map_nil, List.sum_append, List.sum_cons, List.sum_nil]; omega
  case used =>
    intro n hn
    rcases List.mem_append.mp hn with hn | hn
    · exact hused n hn
    · rw [List.mem_singleton.mp hn]; rfl
  case slots =>
    have hnew : childSlots (internalNode (k.1 + l.1) (BitVec.ofNat 9 k.2) (BitVec.ofNat 9 l.2)) = [k.2, l.2] := by
      show indexList (BitVec.ofNat 9 k.2) ++ indexList (BitVec.ofNat 9 l.2) = _
      rw [indexList_ofNat hk9, indexList_ofNat hl9]
      rfl
    simp only [childList_append, childList_cons, childList_nil, hnew, List.append_nil, List.map_append, List.map_cons, List.map_nil,
      List.length_append, List.length_cons, List.length_nil, List.range_succ, Nat.zero_add]
    rw [← List.append_assoc, List.append_assoc (childList a)]
    exact hslots.append_right _
  case weights =>
    rcases List.mem_append.mp hx with hx | hx
    · have hxq : x ∈ k :: l :: q := by simp [hx]
      rw [arenaAt_append_of_lt (h.index_lt hxq)]
      exact hweights x hxq
    · rw [List.mem_singleton.mp hx, arenaAt_append_length, weight_internalNode (by omega)]
  case strict =>
    rcases List.mem_append.mp hn with hn | hn
    · obtain ⟨hleft, hright, hsum⟩ := hstrict n hn hleaf
      have hl : n.left.toNat < a.length := child_lt_of_slots hslots hn (c := false) hleft
      have hr : n.right.toNat < a.length := child_lt_of_slots hslots hn (c := true) hright
      rw [arenaAt_append_of_lt hl, arenaAt_append_of_lt hr]
      exact ⟨hleft, hright, hsum⟩
    · obtain rfl := List.mem_singleton.mp hn
      refine ⟨ofNat_index_ne_noNode hk9, ofNat_index_ne_noNode hl9, ?_⟩
      show _ = (arenaAt _ (BitVec.ofNat 9 k.2).toNat).weight.toNat + (arenaAt _ (BitVec.ofNat 9 l.2).toNat).weight.toNat
      rw [toNat_ofNat_index hk9, toNat_ofNat_index hl9, arenaAt_append_of_lt hk, arenaAt_append_of_lt hl, hweights k (by simp),
        hweights l (by simp), weight_internalNode (by omega)]

theorem Forest.merge {q q' : List Key} {a a' : List Node} (h : Forest q a) (m : Merge q a q' a') : Forest q' a' := by
  obtain ⟨first, second⟩ := m
  exact (h.perm ((perm_of_popLeast first).trans ((perm_of_popLeast second).cons _))).join

/-! ### The leaves BUILD starts from -/

/-- Each seed is a leaf whose weight is a count of 64 bits (41 R130, R134). -/
theorem seedLeaves_leaf {hist : Vector Word 256} {n : Node} (h : n ∈ seedLeaves hist) :
    ∃ sym w, n = leafNode sym w ∧ w < 2 ^ 64 := by
  have real : ∀ m ∈ histLeaves hist, ∃ sym w, m = leafNode sym w ∧ w < 2 ^ 64 := fun m hm => by
    obtain ⟨e, he, rfl⟩ := List.mem_map.mp hm
    obtain ⟨_, hv, _⟩ := mem_nonzeroEntries_ram.mp he
    exact ⟨e.1, e.2, rfl, hv ▸ BitVec.isLt _⟩
  unfold seedLeaves at h
  split at h
  · rcases List.mem_append.mp h with h | h
    · exact real n h
    · exact ⟨256, 0, List.mem_singleton.mp h, by decide⟩
  · exact real n h

theorem length_histLeaves_le (hist : Vector Word 256) : (histLeaves hist).length ≤ 256 := by
  simpa [histLeaves] using length_nonzeroEntries_le (ramValues hist)

theorem length_seedLeaves_le (hist : Vector Word 256) : (seedLeaves hist).length ≤ 256 := by
  have := length_histLeaves_le hist
  unfold seedLeaves
  split
  · simp only [List.length_append, List.length_cons, List.length_nil]; omega
  · exact this

@[simp] theorem length_seedQueue (leaves : List Node) : (seedQueue leaves).length = leaves.length := by simp [seedQueue]

theorem seedQueue_indices (leaves : List Node) : (seedQueue leaves).map Prod.snd = List.range leaves.length := by
  rw [seedQueue, List.map_map, List.range_eq_range']
  exact List.zipIdx_map_snd 0 leaves

theorem seedQueue_weights (leaves : List Node) : (seedQueue leaves).map Prod.fst = leaves.map fun n => n.weight.toNat := by
  calc (seedQueue leaves).map Prod.fst
    _ = (leaves.zipIdx.map Prod.fst).map fun n => n.weight.toNat := by rw [seedQueue, List.map_map, List.map_map]; rfl
    _ = leaves.map fun n => n.weight.toNat := by rw [List.zipIdx_map_fst]

/-- The leaves, each the only entry of its tree. -/
theorem seed_forest (hist : Vector Word 256) : Forest (seedQueue (seedLeaves hist)) (seedLeaves hist) := by
  have hlen := length_seedLeaves_le hist
  have hweight : ∀ n ∈ seedLeaves hist, n.weight.toNat ≤ 2 ^ 64 - 1 := fun n hn => by
    obtain ⟨sym, w, rfl, hw⟩ := seedLeaves_leaf hn
    exact Nat.le_sub_one_of_lt ((Nat.mod_le w _).trans_lt hw)
  refine ⟨?size, ?total, fun n hn => ?used, ?slots, fun k hk => ?weights, fun n hn hleaf => ?strict⟩
  case size => rw [length_seedQueue]; omega
  case total =>
    rw [seedQueue_weights]
    have hsum := List.sum_le_card_nsmul ((seedLeaves hist).map fun n => n.weight.toNat) (2 ^ 64 - 1) (by simpa using hweight)
    simp only [List.length_map, smul_eq_mul] at hsum
    omega
  case used =>
    obtain ⟨_, _, rfl, _⟩ := seedLeaves_leaf hn
    rfl
  case slots =>
    have childless : ∀ n ∈ seedLeaves hist, childSlots n = [] := fun n hn => by
      obtain ⟨_, _, rfl, _⟩ := seedLeaves_leaf hn
      exact childSlots_leafNode _ _
    rw [childList_of_childless childless, seedQueue_indices]
    exact .refl _
  case weights =>
    obtain ⟨x, hx, rfl⟩ := List.mem_map.mp hk
    obtain ⟨hi, hn⟩ := List.getElem?_eq_some_iff.mp (List.mk_mem_zipIdx_iff_getElem?.mp hx)
    simp [arenaAt_of_lt hi, hn]
  case strict =>
    obtain ⟨_, _, rfl, _⟩ := seedLeaves_leaf hn
    cases hleaf

/-! ### The tree BUILD ends with -/

theorem buildMerged_forest (hist : Vector Word 256) : Forest (buildMerged hist).1 (buildMerged hist).2 :=
  mergeLoop_keeps (P := Forest) (fun _ _ _ _ h m => h.merge m) _ (seed_forest hist)

theorem length_buildMerged_queue_le (hist : Vector Word 256) : (buildMerged hist).1.length ≤ 1 :=
  mergeLoop_length_le _ _ _ (by simp)

theorem buildMerged_arena_eq_nil {hist : Vector Word 256} (h : (buildMerged hist).1 = []) : (buildMerged hist).2 = [] := by
  refine mergeLoop_keeps (P := fun q a => q = [] → a = []) (fun _ _ _ _ _ m => ?_) _ (fun hq => ?_) h
  · obtain ⟨_, _⟩ := m
    simp
  · rw [← List.length_eq_zero_iff, ← length_seedQueue, hq]; rfl

theorem buildMerged_arenaList (hist : Vector Word 256) : ArenaList (buildMerged hist).2 (buildRoot hist) := by
  obtain ⟨hsize, _, hused, hslots, _, _⟩ := buildMerged_forest hist
  have hlen := length_buildMerged_queue_le hist
  unfold buildRoot
  match hq : (buildMerged hist).1 with
  | [] =>
    rw [buildMerged_arena_eq_nil hq]
    exact ArenaList.nil
  | [k] =>
    rw [hq] at hsize hslots
    simp only [List.length_cons, List.length_nil] at hsize
    have hk : k.2 < (buildMerged hist).2.length := (buildMerged_forest hist).index_lt (by simp [hq])
    have hk9 : k.2 < 511 := by omega
    refine ⟨by omega, hused, ?_, iff_of_false (ofNat_index_ne_noNode hk9) (List.ne_nil_of_length_pos (by omega))⟩
    rw [indexList_ofNat hk9]
    exact hslots
  | _ :: _ :: _ => simp [hq] at hlen

/-- The state whose NODE RAM and NNODES are those of a forest satisfies 10 R44(d). -/
theorem State.arenaStrict_of_forest {t : State} {q : List Key} {a : List Node} (h : Forest q a) (hle : a.length ≤ 511)
    (hnode : t.node = arenaOf a) (hlen : t.nnodes = BitVec.ofNat 9 a.length) : t.arenaStrict := by
  intro i hi hleaf
  rw [hlen, BitVec.toNat_ofNat, Nat.mod_eq_of_lt (by omega)] at hi
  rw [hnode, getElem_arenaOf] at hleaf ⊢
  obtain ⟨hleft, hright, hsum⟩ := h.strict _ (arenaAt_mem hi) hleaf
  have hl : (arenaAt a i).left.toNat < a.length := child_lt_of_slots h.slots (arenaAt_mem hi) (c := false) hleft
  have hr : (arenaAt a i).right.toNat < a.length := child_lt_of_slots h.slots (arenaAt_mem hi) (c := true) hright
  rw [nodeAt_arenaOf a (by omega), nodeAt_arenaOf a (by omega)]
  exact ⟨hleft, hright, hsum⟩

end Sys2Proof.Machine
end

section
/-!
CTREE's insertions keep an arena list whose root is entry 0 and whose weights are 0 (46 R232), and from this and BUILD's forest the arena's
invariants (O34).
-/
namespace Sys2Proof.Machine

/-! ### A child put at the next free index -/

theorem childSlots_withChild {n : Node} {c : Bool} {j : Nat} (hc : n.child c = noNode) (hj : j < 511) :
    (childSlots (n.withChild c (BitVec.ofNat 9 j))).Perm (j :: childSlots n) := by
  cases c with
  | false =>
    have hleft : n.left = noNode := hc
    simp [childSlots, Node.withChild, hleft, indexList_ofNat hj]
  | true =>
    have hright : n.right = noNode := hc
    simp [childSlots, Node.withChild, hright, indexList_ofNat hj, List.perm_append_singleton]

@[simp] theorem length_addChild (a : List Node) (i : Nat) (c : Bool) (n : Node) : (addChild a i c n).length = a.length + 1 := by
  simp [addChild]

/-- The new entry's index is one more child index. -/
theorem childList_addChild {a : List Node} {i : Nat} {c : Bool} {n : Node} (hi : i < a.length) (hlen : a.length < 511)
    (hc : (arenaAt a i).child c = noNode) (hn : childSlots n = []) : (childList (addChild a i c n)).Perm (a.length :: childList a) := by
  have split : childList a = childList (a.take i) ++ (childSlots (arenaAt a i) ++ childList (a.drop (i + 1))) := by
    rw [arenaAt_of_lt hi, ← childList_cons, ← List.drop_eq_getElem_cons hi, ← childList_append, List.take_append_drop]
  rw [addChild, List.set_eq_take_append_cons_drop, if_pos hi, split]
  simp only [childList_append, childList_cons, childList_nil, hn, List.append_nil]
  exact (((childSlots_withChild hc hlen).append_right _).append_left _).trans List.perm_middle

/-- What holds of every entry, of the changed parent and of the new entry holds of every entry after. -/
theorem forall_mem_addChild {P : Node → Prop} {a : List Node} {i : Nat} {c : Bool} {n : Node} (h : ∀ m ∈ a, P m)
    (hparent : P ((arenaAt a i).withChild c (BitVec.ofNat 9 a.length))) (hn : P n) : ∀ m ∈ addChild a i c n, P m := by
  intro m hm
  rcases List.mem_append.mp hm with hm | hm
  · rcases List.mem_or_eq_of_mem_set hm with hm | rfl
    · exact h m hm
    · exact hparent
  · exact List.mem_singleton.mp hm ▸ hn

@[simp] theorem Node.withChild_used (n : Node) (c : Bool) (j : Index) : (n.withChild c j).used = n.used := by cases c <;> rfl

@[simp] theorem Node.withChild_weight (n : Node) (c : Bool) (j : Index) : (n.withChild c j).weight = n.weight := by cases c <;> rfl

/-! ### The code tree under construction -/

/-- A tree rooted at entry 0 with weights of 0 (46 R232, 10 R44(e)). -/
structure CodeTreeList (a : List Node) : Prop extends ArenaList a 0#9 where
  weightless : ∀ n ∈ a, n.weight = 0#72

theorem CodeTreeList.ne_nil {a : List Node} (h : CodeTreeList a) : a ≠ [] := fun e => absurd (h.root.mpr e) (by decide)

theorem CodeTreeList.bare : CodeTreeList [bareNode] where
  length_le := by decide
  used := by simp [bareNode, internalNode]
  slots := .refl _
  root := by decide
  weightless := by simp [bareNode, internalNode]

theorem CodeTreeList.addChild {a : List Node} (h : CodeTreeList a) {i : Nat} {c : Bool} {n : Node} (hi : i < a.length)
    (hlen : a.length ≠ Config.arena) (hc : (arenaAt a i).child c = noNode) (hused : n.used = true) (hweight : n.weight = 0#72)
    (hslots : childSlots n = []) : CodeTreeList (addChild a i c n) := by
  have hroom : a.length < 511 := lt_of_le_of_ne h.length_le hlen
  refine ⟨⟨?length, ?used, ?slots, ?root⟩, ?weightless⟩
  case length => rw [length_addChild]; omega
  case used =>
    exact forall_mem_addChild h.used (by rw [Node.withChild_used]; exact h.used _ (arenaAt_mem hi)) hused
  case slots =>
    rw [length_addChild, List.range_succ]
    exact ((childList_addChild hi hroom hc hslots).append_right _).trans
      ((h.slots.cons a.length).trans (List.perm_append_singleton _ _).symm)
  case root => exact iff_of_false (by decide) (List.ne_nil_of_length_pos (by simp))
  case weightless =>
    exact forall_mem_addChild h.weightless (by rw [Node.withChild_weight]; exact h.weightless _ (arenaAt_mem hi)) hweight

theorem CodeTreeList.insertCode {b i : Nat} {a a' : List Node} {p : List Bool} (h : CodeTreeList a) (hi : i < a.length)
    (hins : insertCode b a i p = some a') : CodeTreeList a' := by
  induction p generalizing a i with
  | nil =>
    injection hins with e
    exact e ▸ h
  | cons c cs ih =>
    cases cs with
    | nil =>
      rw [Machine.insertCode] at hins
      split at hins
      · cases hins
      · next hfree =>
        split at hins
        · cases hins
        · next hroom =>
          injection hins with e
          exact e ▸ h.addChild hi hroom (not_not.mp hfree) rfl rfl (childSlots_leafNode b 0)
    | cons d ds =>
      rw [Machine.insertCode] at hins
      split at hins
      · next hfree =>
        split at hins
        · cases hins
        · next hroom => exact ih (h.addChild hi hroom hfree rfl rfl childSlots_bareNode) (by simp) hins
      · next hchild =>
        split at hins
        · cases hins
        · exact ih h (child_lt_of_slots h.slots (arenaAt_mem hi) hchild) hins

/-- The insertions leave no entry at all, where there is no code, or a code tree. -/
theorem insertCodes_codeTree {s : State} {bs : List (Fin 256)} {a a' : List Node} (h : a = [] ∨ CodeTreeList a)
    (hins : insertCodes s bs a = .ok a') : a' = [] ∨ CodeTreeList a' := by
  induction bs generalizing a with
  | nil =>
    injection hins with e
    exact e ▸ h
  | cons b bs ih =>
    rw [insertCodes] at hins
    split at hins
    · cases hins
    · next a₁ hcode =>
      refine ih (.inr (CodeTreeList.insertCode (a := if a = [] then [bareNode] else a) ?_ ?_ hcode)) hins
      · split
        · exact .bare
        · next hne => exact h.resolve_left hne
      · split
        · exact Nat.one_pos
        · next hne => exact List.length_pos_of_ne_nil hne

/-- A successful CTREE's entries are an arena list with its ROOT, and weigh 0. -/
theorem insertCodes_arenaList {s : State} {bs : List (Fin 256)} {a : List Node} (hins : insertCodes s bs [] = .ok a) :
    ArenaList a (if a = [] then noNode else 0#9) ∧ ∀ n ∈ a, n.weight = 0#72 := by
  rcases insertCodes_codeTree (.inl rfl) hins with rfl | h
  · exact ⟨ArenaList.nil, by simp⟩
  · rw [if_neg h.ne_nil]
    exact ⟨h.toArenaList, h.weightless⟩

theorem State.arenaWeightless_of_list {t : State} {a : List Node} (h : ∀ n ∈ a, n.weight = 0#72) (hnode : t.node = arenaOf a) :
    t.arenaWeightless := by
  intro i
  rw [hnode, getElem_arenaOf]
  by_cases hi : i.val < a.length
  · exact h _ (arenaAt_mem hi)
  · rw [arenaAt, List.getD_eq_default _ _ (not_lt.mp hi)]
    rfl

/-! ### Completions -/

theorem Command.failedAt_status_err (c : Command) (s : State) (p : Phase) (e : Raise) (kept : State) :
    (c.failedAt s p e kept).status.err = true := rfl

/-- An undisturbed command that ends without ERR is one whose phases all returned (10 R28, 60 R284). -/
theorem exec_returned {i : Instr} {s t : State} (hu : s.undisturbed = true) (h : exec i s = .next t) (herr : t.status.err = false) :
    ∃ u, runPlan (commandOf i).plan s = .returned u ∧ t = u.succeeded ((commandOf i).result u) := by
  rw [exec_next_iff, Command.completed_undisturbed _ hu] at h
  split at h
  · next u hrun => exact ⟨u, hrun, h.symm⟩
  · rw [← h, Command.failedAt_status_err] at herr
    cases herr

/-- A plan of one phase returns what the phase answers. -/
theorem eq_ok_of_runPlan_single {p : Phase} {f : State → Except Raise State} {s u : State}
    (h : runPlan [.always p f] s = .returned u) : f s = .ok u := by
  cases hf : f s with
  | ok v => rw [runPlan_always_ok hf] at h; injection h with h; rw [h]
  | error e => rw [runPlan_always_error hf] at h; cases h

/-- BUILD's completion, undisturbed (41 R133). -/
theorem exec_build {s : State} (hu : s.undisturbed = true) :
    exec .build s = .next ((afterPhase phaseBuild s).succeeded (nnodesResult (afterPhase phaseBuild s))) := by
  rw [exec_eq, Command.completed_undisturbed _ hu]
  rfl

/-- Settles O34: BUILD's merges keep a forest and CTREE's insertions a code tree, and the arena of either satisfies 10 R44. -/
theorem arenaInvariants : Obligations.ArenaInvariants := by
  refine ⟨State.reset_arenaOk, fun s t hu h => ?build, fun s t hu _ h herr => ?ctree⟩
  case build =>
    rw [exec_build hu] at h
    injection h with h
    have hnode : t.node = arenaOf (buildMerged s.hist).2 := h ▸ rfl
    have hlen : t.nnodes = BitVec.ofNat 9 (buildMerged s.hist).2.length := h ▸ rfl
    have hroot : t.root = buildRoot s.hist := h ▸ rfl
    have hlist := buildMerged_arenaList s.hist
    exact ⟨State.arenaOk_of_arenaList (hroot ▸ hlist) hnode hlen,
      State.arenaStrict_of_forest (buildMerged_forest s.hist) hlist.length_le hnode hlen⟩
  case ctree =>
    obtain ⟨u, hrun, rfl⟩ := exec_returned hu h herr
    obtain ⟨a, hins, rfl⟩ := phaseCtree_ok (eq_ok_of_runPlan_single hrun)
    obtain ⟨hlist, hweight⟩ := insertCodes_arenaList hins
    exact ⟨State.arenaOk_of_arenaList hlist rfl rfl, State.arenaWeightless_of_list hweight rfl⟩

end Sys2Proof.Machine
end

section
/-!
The register port: what each offset names, what the fields of a register's word are, and what a read and a write do while idle
(10 R20 to R43; O4, O5, O6, O9, O11).
-/
namespace Sys2Proof.Machine

/-! ### The register map (10 R20) -/

theorem toNat_ofNat_offset {n : Nat} (h : n < 0x8000) : (BitVec.ofNat 15 n).toNat = n := by
  rw [BitVec.toNat_ofNat, Nat.mod_eq_of_lt h]

theorem toNat_offsetOf_hist (b : Fin 256) : (offsetOf (.hist b)).toNat = 0x0800 + 8 * b.val := toNat_ofNat_offset (by omega)
theorem toNat_offsetOf_len (b : Fin 256) : (offsetOf (.len b)).toNat = 0x1000 + 8 * b.val := toNat_ofNat_offset (by omega)
theorem toNat_offsetOf_code (b : Fin 256) (w : Fin 4) : (offsetOf (.code b w)).toNat = 0x2000 + 32 * b.val + 8 * w.val :=
  toNat_ofNat_offset (by omega)
theorem toNat_offsetOf_node (i : Fin 512) (w : Fin 2) : (offsetOf (.node i w)).toNat = 0x4000 + 16 * i.val + 8 * w.val :=
  toNat_ofNat_offset (by omega)

theorem regAt_of_low {o : BitVec 15} (h : o.toNat < 0x0800) : regAt o = lowReg o.toNat := if_pos h

theorem regAt_of_hist {o : BitVec 15} {b : Fin 256} (h : o.toNat = 0x0800 + 8 * b.val) : regAt o = .hist b := by
  unfold regAt
  rw [if_neg (by omega), if_pos (by omega)]
  exact congrArg Reg.hist (Fin.ext (by simp only [Fin.val_ofNat]; omega))

theorem regAt_of_len {o : BitVec 15} {b : Fin 256} (h : o.toNat = 0x1000 + 8 * b.val) : regAt o = .len b := by
  unfold regAt
  rw [if_neg (by omega), if_neg (by omega), if_pos (by omega)]
  exact congrArg Reg.len (Fin.ext (by simp only [Fin.val_ofNat]; omega))

theorem regAt_of_code {o : BitVec 15} {b : Fin 256} {w : Fin 4} (h : o.toNat = 0x2000 + 32 * b.val + 8 * w.val) :
    regAt o = .code b w := by
  unfold regAt
  rw [if_neg (by omega), if_neg (by omega), if_neg (by omega), if_neg (by omega), if_pos (by omega)]
  exact congrArg₂ Reg.code (Fin.ext (by simp only [Fin.val_ofNat]; omega)) (Fin.ext (by simp only [Fin.val_ofNat]; omega))

theorem regAt_of_node {o : BitVec 15} {i : Fin 512} {w : Fin 2} (h : o.toNat = 0x4000 + 16 * i.val + 8 * w.val) :
    regAt o = .node i w := by
  unfold regAt
  rw [if_neg (by omega), if_neg (by omega), if_neg (by omega), if_neg (by omega), if_neg (by omega), if_pos (by omega)]
  exact congrArg₂ Reg.node (Fin.ext (by simp only [Fin.val_ofNat]; omega)) (Fin.ext (by simp only [Fin.val_ofNat]; omega))

theorem regAt_of_gap {o : BitVec 15} (h : (0x1800 ≤ o.toNat ∧ o.toNat < 0x2000) ∨ 0x6000 ≤ o.toNat) : regAt o = .reserved := by
  unfold regAt
  rcases h with h | h
  · rw [if_neg (by omega), if_neg (by omega), if_neg (by omega), if_pos (by omega)]
  · rw [if_neg (by omega), if_neg (by omega), if_neg (by omega), if_neg (by omega), if_neg (by omega), if_neg (by omega)]

/-- Where a multiple of 8 lies: below the windows, in one of the four windows, or in a gap. -/
theorem offset_cases {o : BitVec 15} (h : o.toNat % 8 = 0) :
    o.toNat < 0x0800 ∨ (∃ b : Fin 256, o.toNat = 0x0800 + 8 * b.val) ∨ (∃ b : Fin 256, o.toNat = 0x1000 + 8 * b.val)
      ∨ (∃ (b : Fin 256) (w : Fin 4), o.toNat = 0x2000 + 32 * b.val + 8 * w.val)
      ∨ (∃ (i : Fin 512) (w : Fin 2), o.toNat = 0x4000 + 16 * i.val + 8 * w.val)
      ∨ (0x1800 ≤ o.toNat ∧ o.toNat < 0x2000) ∨ 0x6000 ≤ o.toNat := by
  have hlt := o.isLt
  by_cases h1 : o.toNat < 0x0800
  · exact .inl h1
  by_cases h2 : o.toNat < 0x1000
  · exact .inr (.inl ⟨⟨(o.toNat - 0x0800) / 8, by omega⟩, by dsimp only; omega⟩)
  by_cases h3 : o.toNat < 0x1800
  · exact .inr (.inr (.inl ⟨⟨(o.toNat - 0x1000) / 8, by omega⟩, by dsimp only; omega⟩))
  by_cases h4 : o.toNat < 0x2000
  · exact .inr (.inr (.inr (.inr (.inr (.inl ⟨by omega, h4⟩)))))
  by_cases h5 : o.toNat < 0x4000
  · exact .inr (.inr (.inr (.inl
      ⟨⟨(o.toNat - 0x2000) / 32, by omega⟩, ⟨(o.toNat - 0x2000) % 32 / 8, by omega⟩, by dsimp only; omega⟩)))
  by_cases h6 : o.toNat < 0x6000
  · exact .inr (.inr (.inr (.inr (.inl
      ⟨⟨(o.toNat - 0x4000) / 16, by omega⟩, ⟨(o.toNat - 0x4000) % 16 / 8, by omega⟩, by dsimp only; omega⟩))))
  · exact .inr (.inr (.inr (.inr (.inr (.inr (not_lt.mp h6))))))

theorem lowReg_of_ge {n : Nat} (h : 0x090 ≤ n) : lowReg n = .reserved := by
  unfold lowReg
  repeat rw [if_neg (by omega)]

/-- The 18 registers, each at its own multiple of 8 (10 R20). -/
theorem lowReg_named : ∀ k : Fin 18, lowReg (8 * k.val) ≠ .reserved ∧ (offsetOf (lowReg (8 * k.val))).toNat = 8 * k.val := by decide

theorem lowReg_of_lt {n : Nat} (h : n % 8 = 0) (hlt : n < 0x090) : lowReg n ≠ .reserved ∧ (offsetOf (lowReg n)).toNat = n := by
  have named := lowReg_named ⟨n / 8, by omega⟩
  rwa [show 8 * (n / 8) = n by omega] at named

theorem lowReg_eq_reserved {n : Nat} (h : n % 8 = 0) : lowReg n = .reserved ↔ 0x090 ≤ n :=
  ⟨fun e => not_lt.mp fun hlt => (lowReg_of_lt h hlt).1 e, lowReg_of_ge⟩

/-- Every name is at its offset, and a reserved offset names none (10 R20, R40 to R43). -/
@[simp] theorem regAt_offsetOf (r : Reg) : regAt (offsetOf r) = r := by
  cases r with
  | hist b => exact regAt_of_hist (toNat_offsetOf_hist b)
  | len b => exact regAt_of_len (toNat_offsetOf_len b)
  | code b w => exact regAt_of_code (toNat_offsetOf_code b w)
  | node i w => exact regAt_of_node (toNat_offsetOf_node i w)
  | _ => rfl

theorem offsetOf_aligned (r : Reg) : (offsetOf r).toNat % 8 = 0 := by
  cases r with
  | hist b => rw [toNat_offsetOf_hist]; omega
  | len b => rw [toNat_offsetOf_len]; omega
  | code b w => rw [toNat_offsetOf_code]; omega
  | node i w => rw [toNat_offsetOf_node]; omega
  | _ => rfl

/-- An offset that names a register or window entry is the offset of that name. -/
theorem offsetOf_regAt {o : BitVec 15} (h : o.toNat % 8 = 0) (hr : regAt o ≠ .reserved) : offsetOf (regAt o) = o := by
  refine BitVec.eq_of_toNat_eq ?_
  obtain hlow | ⟨b, e⟩ | ⟨b, e⟩ | ⟨b, w, e⟩ | ⟨i, w, e⟩ | hgap := offset_cases h
  · rw [regAt_of_low hlow] at hr ⊢
    exact (lowReg_of_lt h (not_le.mp fun hge => hr (lowReg_of_ge hge))).2
  · rw [regAt_of_hist e, toNat_offsetOf_hist, e]
  · rw [regAt_of_len e, toNat_offsetOf_len, e]
  · rw [regAt_of_code e, toNat_offsetOf_code, e]
  · rw [regAt_of_node e, toNat_offsetOf_node, e]
  · exact absurd (regAt_of_gap hgap) hr

/-- The reserved offsets (10 R20). -/
theorem regAt_eq_reserved {o : BitVec 15} (h : o.toNat % 8 = 0) : regAt o = .reserved ↔
    (0x090 ≤ o.toNat ∧ o.toNat ≤ 0x7FF) ∨ (0x1800 ≤ o.toNat ∧ o.toNat ≤ 0x1FFF) ∨ 0x6000 ≤ o.toNat := by
  obtain hlow | ⟨b, e⟩ | ⟨b, e⟩ | ⟨b, w, e⟩ | ⟨i, w, e⟩ | hgap := offset_cases h
  · rw [regAt_of_low hlow, lowReg_eq_reserved h]
    omega
  · exact iff_of_false (by simp [regAt_of_hist e]) (by omega)
  · exact iff_of_false (by simp [regAt_of_len e]) (by omega)
  · exact iff_of_false (by simp [regAt_of_code e]) (by omega)
  · exact iff_of_false (by simp [regAt_of_node e]) (by omega)
  · exact iff_of_true (regAt_of_gap hgap) (by omega)

/-- Settles O4: the map and the offsets of the names are inverse to each other outside the reserved ranges. -/
theorem registerMap : Obligations.RegisterMap :=
  ⟨rfl, fun b => ⟨regAt_offsetOf (.hist b), regAt_offsetOf (.len b), fun w => regAt_offsetOf (.code b w)⟩,
    fun i w => regAt_offsetOf (.node i w), fun r => ⟨offsetOf_aligned r, regAt_offsetOf r⟩, fun _ h => offsetOf_regAt h,
    fun _ h => regAt_eq_reserved h⟩

end Sys2Proof.Machine
end

section
/-!
The fields of a register's word, and what a register-port access does while idle (10 R21 to R43; O5, O6, O9, O11).
-/
namespace Sys2Proof.Machine

/-! ### Fields of a word -/

/-- A field at its own bits. -/
@[simp] theorem extract_field {n k : Nat} (x : BitVec n) (h : k + n ≤ 64) : (x.setWidth 64 <<< k).extractLsb' k n = x := by
  refine BitVec.eq_of_getLsbD_eq fun i hi => ?_
  simp [hi, show k + i < 64 by omega]

/-- A field shows nothing at other bits. -/
@[simp] theorem extract_field_apart {n k j m : Nat} (x : BitVec n) (h : j + m ≤ k ∨ k + n ≤ j) :
    (x.setWidth 64 <<< k).extractLsb' j m = 0#m := by
  refine BitVec.eq_of_getLsbD_eq fun i hi => ?_
  rcases h with h | h
  · simp [show j + i < k by omega]
  · simp [x.getLsbD_of_ge (j + i - k) (by omega)]

@[simp] theorem extract_low_field {n : Nat} (x : BitVec n) (h : n ≤ 64) : (x.setWidth 64).extractLsb' 0 n = x := by
  simpa using extract_field (k := 0) x (by omega)

@[simp] theorem extract_low_field_apart {n j m : Nat} (x : BitVec n) (h : n ≤ j) : (x.setWidth 64).extractLsb' j m = 0#m := by
  simpa using extract_field_apart (k := 0) x (.inr (by omega))

theorem or_field {n k : Nat} (c : Word) (x : BitVec n) (h : k + n ≤ 64) :
    (c ||| x.setWidth 64 <<< k).extractLsb' k n = c.extractLsb' k n ||| x := by
  rw [BitVec.extractLsb'_or, extract_field x h]

theorem or_field_apart {n k j m : Nat} (c : Word) (x : BitVec n) (h : j + m ≤ k ∨ k + n ≤ j) :
    (c ||| x.setWidth 64 <<< k).extractLsb' j m = c.extractLsb' j m := by
  rw [BitVec.extractLsb'_or, extract_field_apart x h, BitVec.or_zero]

theorem bitWord_eq (b : Bool) : bitWord b = (BitVec.ofBool b).setWidth 64 := by cases b <;> rfl

@[simp] theorem getElem_bitWord (b : Bool) (i : Nat) (h : i < 64) : (bitWord b)[i] = (decide (i = 0) && b) := by
  cases b <;> simp [bitWord]

/-! ### The words of the registers -/

section Status
variable (busy : Bool) (t : Status)

/-- BUSY to WIGN (10 R26). -/
theorem statusWord_flags : (statusWord busy t).getLsbD 0 = busy ∧ (statusWord busy t).getLsbD 1 = t.done
    ∧ (statusWord busy t).getLsbD 2 = t.err ∧ (statusWord busy t).getLsbD 3 = t.empty ∧ (statusWord busy t).getLsbD 4 = t.ovr
    ∧ (statusWord busy t).getLsbD 5 = t.wign := by
  refine ⟨?_, ?_, ?_, ?_, ?_, ?_⟩ <;> simp [statusWord]

/-- ERRCODE, OPC and PHASE, and the reserved bits (10 R26). -/
theorem statusWord_fields : (statusWord busy t).extractLsb' 6 2 = 0#2 ∧ (statusWord busy t).extractLsb' 8 8 = t.errCode.toByte
    ∧ (statusWord busy t).extractLsb' 16 8 = t.opc ∧ (statusWord busy t).extractLsb' 24 8 = t.phase.toByte
    ∧ (statusWord busy t).extractLsb' 32 32 = 0#32 := by
  refine ⟨?_, ?_, ?_, ?_, ?_⟩ <;> simp [statusWord, bitWord_eq, BitVec.extractLsb'_or]

end Status

theorem idWord_fields : idWord.extractLsb' 0 32 = 0x4855465A#32 ∧ idWord.extractLsb' 32 8 = 0x01#8
    ∧ idWord.extractLsb' 40 8 = Config.maxWorkers ∧ idWord.extractLsb' 48 16 = 0#16 := by
  have apart : ∀ j m, j + m ≤ 40 ∨ 48 ≤ j →
      idWord.extractLsb' j m = (0x4855465A#64 ||| 0x01#64 <<< 32).extractLsb' j m := fun _ _ => or_field_apart _ Config.maxWorkers
  exact ⟨apart _ _ (by decide), apart _ _ (by decide), (or_field _ Config.maxWorkers (by decide)).trans BitVec.zero_or,
    apart _ _ (by decide)⟩

theorem ctrlWord_fields (s : State) : (ctrlWord s).getLsbD 0 = s.ie ∧ (ctrlWord s).extractLsb' 1 7 = 0#7
    ∧ (ctrlWord s).extractLsb' 8 8 = s.workers ∧ (ctrlWord s).extractLsb' 16 48 = 0#48 := by
  refine ⟨by simp [ctrlWord], ?_, ?_, ?_⟩ <;> simp [ctrlWord, bitWord_eq, BitVec.extractLsb'_or]

theorem treeInfoWord_fields (s : State) : (treeInfoWord s).extractLsb' 0 9 = s.root ∧ (treeInfoWord s).extractLsb' 9 7 = 0#7
    ∧ (treeInfoWord s).extractLsb' 16 9 = s.nnodes ∧ (treeInfoWord s).extractLsb' 25 39 = 0#39 := by
  refine ⟨?_, ?_, ?_, ?_⟩ <;> simp [treeInfoWord, BitVec.extractLsb'_or]

/-- Bit k of a code is in word k div 64 at position 63 - (k mod 64) (10 R42). -/
theorem getLsbD_codeWord (c : BitVec 256) {w : Fin 4} {k : Nat} (hk : k < 256) (hw : k / 64 = w.val) :
    (codeWord c w).getLsbD (63 - k % 64) = c.getMsbD k := by
  rw [codeWord, BitVec.getLsbD_extractLsb', BitVec.getMsbD, decide_eq_true (by omega), decide_eq_true hk,
    show 64 * (3 - w.val) + (63 - k % 64) = 256 - 1 - k by omega]

theorem getElem?_codeBits (c : BitVec 256) {n k : Nat} (h : k < n) : (codeBits c n)[k]? = some (c.getMsbD k) := by
  simp [codeBits, h]

/-- The second word of an arena entry (10 R43). -/
theorem nodeWord_one_fields (n : Node) : (nodeWord n 1).extractLsb' 0 8 = n.weight.extractLsb' 64 8
    ∧ (nodeWord n 1).getLsbD 8 = n.leaf ∧ (nodeWord n 1).getLsbD 9 = n.used ∧ (nodeWord n 1).extractLsb' 16 9 = n.sym
    ∧ (nodeWord n 1).extractLsb' 32 9 = n.left ∧ (nodeWord n 1).extractLsb' 48 9 = n.right
    ∧ (nodeWord n 1).extractLsb' 10 6 = 0#6 ∧ (nodeWord n 1).extractLsb' 25 7 = 0#7 ∧ (nodeWord n 1).extractLsb' 41 7 = 0#7
    ∧ (nodeWord n 1).extractLsb' 57 7 = 0#7 := by
  refine ⟨?_, by simp [nodeWord], by simp [nodeWord], ?_, ?_, ?_, ?_, ?_, ?_, ?_⟩ <;>
    simp [nodeWord, bitWord_eq, BitVec.extractLsb'_or]

theorem regValue_node {s : State} (i : Fin 511) (w : Fin 2) :
    regValue s (.node (i.castLE (by decide)) w) = nodeWord s.node[i] w := dif_pos i.isLt

/-! ### Accesses at aligned offsets (20 R76) -/

theorem hostStep_regRead_of_aligned {o : BitVec 15} (h : o.toNat % 8 = 0) (s : State) :
    hostStep (.regRead o 8) s = .next (readReg s (regAt o)) := by simp [hostStep, badAccess, h]

theorem hostStep_regWrite_of_aligned {o : BitVec 15} (h : o.toNat % 8 = 0) (s : State) (v : Word) :
    hostStep (.regWrite o 8 v) s = .next (writeReg s (regAt o) v) := by simp [hostStep, badAccess, h]

section Idle
variable {s : State} (hrst : s.rst = false) (hidle : s.running = none)
include hrst hidle

theorem hostStep_regRead_of_idle {o : BitVec 15} (h : o.toNat % 8 = 0) :
    hostStep (.regRead o 8) s = .next { s with rdData := regValue s (regAt o) } := by
  rw [hostStep_regRead_of_aligned h]
  simp [readReg, hrst, hidle]

/-- An idle read of a named register or window entry. -/
theorem hostStep_read_of_idle (r : Reg) : hostStep (.regRead (offsetOf r) 8) s = .next { s with rdData := regValue s r } := by
  rw [hostStep_regRead_of_idle hrst hidle (offsetOf_aligned r), regAt_offsetOf]

/-- An idle write to a named register or window entry. -/
theorem hostStep_write_of_idle (r : Reg) (v : Word) : hostStep (.regWrite (offsetOf r) 8 v) s = .next (writeIdle s r v) := by
  rw [hostStep_regWrite_of_aligned (offsetOf_aligned r), regAt_offsetOf, writeReg_of_idle hrst hidle]

/-- An idle read of the NODE window below entry 511. -/
theorem hostStep_readNode_of_idle (i : Fin 511) (w : Fin 2) :
    hostStep (.regRead (offsetOf (.node (i.castLE (by decide)) w)) 8) s = .next { s with rdData := nodeWord s.node[i] w } := by
  rw [hostStep_read_of_idle hrst hidle, regValue_node]

end Idle

/-- Settles O5: an idle read of STATUS returns its word, whose fields these are. -/
theorem statusFields : Obligations.StatusFields := by
  intro s hrst hidle
  obtain ⟨hbusy, hdone, herr, hempty, hovr, hwign⟩ := statusWord_flags s.busy s.status
  exact ⟨_, hostStep_read_of_idle hrst hidle .status, hbusy.trans (State.busy_eq_false.mpr hidle), hdone, herr, hempty, hovr, hwign,
    statusWord_fields s.busy s.status⟩

/-- Settles O6: each read is that of the name at its offset, and the fields are those of the name's word. -/
theorem codeAndNodeWindows : Obligations.CodeAndNodeWindows := by
  intro s hrst hidle reads
  have read := hostStep_read_of_idle hrst hidle
  refine ⟨⟨_, read .id, idWord_fields⟩, ⟨_, read .ctrl, ctrlWord_fields s⟩, read .cmd, read .inBase, read .inLen, read .outBase,
    read .outCap, read .origLen, read .payloadOff, read .totalBits, read .totalBytes, read .hdrLen, read .result, read .errInfo,
    ⟨_, read .nsym, extract_low_field _ (by decide), extract_low_field_apart _ (by decide)⟩,
    ⟨_, read .treeInfo, treeInfoWord_fields s⟩, ?hdrInfo, fun b => read (.hist b),
    fun b => ⟨_, read (.len b), extract_low_field _ (by decide), extract_low_field_apart _ (by decide)⟩, fun o h hres => ?reserved,
    fun b w => ⟨_, read (.code b w), fun k hk hw => ?code⟩,
    fun i => ⟨nodeWord s.node[i] 0, _, hostStep_readNode_of_idle hrst hidle i 0, hostStep_readNode_of_idle hrst hidle i 1, rfl,
      nodeWord_one_fields s.node[i]⟩, read (.node 511 0), read (.node 511 1)⟩
  case hdrInfo =>
    refine (read .hdrInfo).trans ?_
    cases hte : s.te <;> simp [regValue, hte, TableMode.toNat]
  case reserved =>
    refine (hostStep_regRead_of_idle hrst hidle h).trans ?_
    rw [(regAt_eq_reserved h).mpr hres, regValue]
  case code =>
    have hbit := getLsbD_codeWord s.code[b] hk hw
    exact ⟨hbit, fun hlen => hbit ▸ getElem?_codeBits _ hlen⟩

/-- A STATUS write is taken whether or not a command runs (10 R27). -/
theorem hostStep_statusWrite {s : State} (hrst : s.rst = false) (v : Word) :
    hostStep (.regWrite (offsetOf .status) 8 v) s = .next (s.acknowledged v) := by
  rw [hostStep_regWrite_of_aligned (offsetOf_aligned .status), regAt_offsetOf]
  cases hrun : s.running with
  | none => rw [writeReg_of_idle hrst hrun, writeIdle]
  | some run => simp [writeReg, hrst, State.busy_of_running hrun, writeBusy]

/-- While idle, only a CMD write and SRESET change ERRCODE. -/
theorem writeReg_errCode_of_idle {s : State} (hidle : s.running = none) {r : Reg} {v : Word} (hcmd : r ≠ .cmd)
    (hsreset : r = .ctrl → v.getLsbD 63 = false) : (writeReg s r v).status.errCode = s.status.errCode := by
  cases hrst : s.rst with
  | true => simp [writeReg, hrst]
  | false =>
    rw [writeReg_of_idle hrst hidle]
    cases r with
    | cmd => exact absurd rfl hcmd
    | ctrl => simp only [writeIdle, writeCtrl, hsreset rfl]; rfl
    | _ => rfl

theorem readReg_status (s : State) (r : Reg) : (readReg s r).status = s.status := by
  unfold readReg
  split
  · rfl
  · split <;> rfl

theorem State.withRace_status (s : State) : s.withRace.status = s.status := by
  unfold State.withRace
  split <;> rfl

theorem hostStore_status (s : State) (a : Word) (v : Byte) : (hostStore s a v).status = s.status := by
  unfold hostStore
  dsimp only
  split
  · exact State.withRace_status _
  · rfl

theorem hostLoad_status (s : State) (a : Word) : (hostLoad s a).status = s.status := by
  unfold hostLoad
  split <;> rfl

/-- No host action but a CMD write, SRESET and `rst` changes ERRCODE in an idle engine. -/
theorem hostStep_errCode_of_idle {s t : State} (hidle : s.running = none) {a : HostAction}
    (hcmd : ∀ v, a ≠ .regWrite (offsetOf .cmd) 8 v) (hsreset : ∀ v, v.getLsbD 63 = true → a ≠ .regWrite (offsetOf .ctrl) 8 v)
    (hrst : ∀ l, a ≠ .rst l) (ht : hostStep a s = .next t) : t.status.errCode = s.status.errCode := by
  cases a with
  | regWrite o w v =>
    obtain ⟨hgood, rfl⟩ := next_of_guard ht
    obtain ⟨rfl, haligned⟩ : w = 8 ∧ o.toNat % 8 = 0 := by simpa [badAccess] using hgood
    have named : ∀ r, r ≠ .reserved → regAt o = r → o = offsetOf r := fun r hr e => by
      rw [← e, offsetOf_regAt haligned (e ▸ hr)]
    refine writeReg_errCode_of_idle hidle (fun e => ?_) fun e => ?_
    · exact hcmd v (by rw [named _ (by decide) e])
    · exact Bool.eq_false_iff.mpr fun hv => hsreset v hv (by rw [named _ (by decide) e])
  | regRead o w => obtain ⟨_, rfl⟩ := next_of_guard ht; rw [readReg_status]
  | memWrite x v => rw [hostStep] at ht; obtain ⟨_, rfl⟩ := next_of_guard ht; rw [hostStore_status]
  | memRead x => rw [hostStep] at ht; obtain ⟨_, rfl⟩ := next_of_guard ht; rw [hostLoad_status]
  | rst level => exact absurd rfl (hrst level)
  | deviceRegion => injection ht with ht; rw [← ht, State.withRace_status]

theorem sequence_of_idle {s : State} (h : s.running = none) : sequence s = .next s := by simp [sequence, h]

theorem advancePhase_of_idle {s : State} (h : s.running = none) : advancePhase s = s := by simp [advancePhase, h]

theorem State.withReply_of_idle {s : State} (h : s.running = none) (reply : Option (Nat × Word)) : s.withReply reply = s := by
  simp [State.withReply, h]

/-- Settles O9: a STATUS write is an acknowledgement, and an idle engine's other steps leave ERRCODE as it is. -/
theorem statusWriteOneToClear : Obligations.StatusWriteOneToClear := by
  refine ⟨fun s v hrst => hostStep_statusWrite hrst v, fun s t hidle ht hcmd hsreset hrst => ?_⟩
  obtain ⟨_, e⟩ | ⟨a, rest, hev, e⟩ | ⟨rest, _, e⟩ | ⟨reply, rest, _, e⟩ := step_cases s <;> rw [e] at ht
  · rw [sequence_of_idle hidle] at ht
    injection ht with ht
    rw [ht]
  · exact hostStep_errCode_of_idle (s := { s with events := rest }) hidle (fun v ha => hcmd rest v (ha ▸ hev))
      (fun v hv ha => hsreset rest v hv (ha ▸ hev)) (fun l ha => hrst rest l (ha ▸ hev)) ht
  · rw [advancePhase_of_idle (s := { s with events := rest }) hidle] at ht
    injection ht with ht
    rw [← ht]
  · rw [State.withReply_of_idle (s := { s with events := rest }) hidle, sequence_of_idle (s := { s with events := rest }) hidle] at ht
    injection ht with ht
    rw [← ht]

/-- The registers and window entries a host cannot write, and the reserved offsets (10 R20, R21(b)). -/
def Reg.readOnly : Reg → Bool
  | .id | .totalBits | .totalBytes | .hdrLen | .result | .nsym | .treeInfo | .errInfo | .hdrInfo | .code _ _ | .node _ _
  | .reserved => true
  | .ctrl | .cmd | .status | .inBase | .inLen | .outBase | .outCap | .origLen | .payloadOff | .hist _ | .len _ => false

theorem writeIdle_of_readOnly {r : Reg} (h : r.readOnly = true) (s : State) (v : Word) : writeIdle s r v = s := by
  cases r <;> simp_all [Reg.readOnly, writeIdle]

theorem lowReg_readOnly : ∀ k : Fin 18, k = 0 ∨ 10 ≤ k → (lowReg (8 * k.val)).readOnly = true := by decide

/-- The offsets that take no write. -/
theorem regAt_readOnly {o : BitVec 15} (h : o.toNat % 8 = 0)
    (hro : o = 0x000#15 ∨ (0x050 ≤ o.toNat ∧ o.toNat ≤ 0x7FF) ∨ 0x1800 ≤ o.toNat) : (regAt o).readOnly = true := by
  have hro : o.toNat = 0 ∨ (0x050 ≤ o.toNat ∧ o.toNat ≤ 0x7FF) ∨ 0x1800 ≤ o.toNat := hro.imp_left fun e => by rw [e]; rfl
  obtain hlow | ⟨b, e⟩ | ⟨b, e⟩ | ⟨b, w, e⟩ | ⟨i, w, e⟩ | hgap := offset_cases h
  · rw [regAt_of_low hlow]
    by_cases hlt : o.toNat < 0x090
    · have named := lowReg_readOnly ⟨o.toNat / 8, by omega⟩ (by simp only [Fin.ext_iff, Fin.le_def]; omega)
      rwa [show 8 * (o.toNat / 8) = o.toNat by omega] at named
    · rw [lowReg_of_ge (not_lt.mp hlt)]
      rfl
  · omega
  · omega
  · rw [regAt_of_code e]
    rfl
  · rw [regAt_of_node e]
    rfl
  · rw [regAt_of_gap hgap]
    rfl

/-- Settles O11: each write is that of the name at its offset. -/
theorem idleRegisterWrites : Obligations.IdleRegisterWrites := by
  intro s v hrst hidle
  have write := fun r => hostStep_write_of_idle hrst hidle r v
  refine ⟨write .inBase, write .inLen, write .outBase, write .outCap, write .origLen, write .payloadOff, fun b => write (.hist b),
    fun b => ?len, fun hsreset => ?ctrl, fun o h hro => ?readOnly⟩
  case len =>
    rw [← BitVec.setWidth_eq_extractLsb' (by decide)]
    exact write (.len b)
  case ctrl =>
    refine (write .ctrl).trans ?_
    simp only [writeIdle, writeCtrl, hsreset]
    rfl
  case readOnly =>
    rw [hostStep_regWrite_of_aligned h, writeReg_of_idle hrst hidle]
    exact congrArg Host.Outcome.next (writeIdle_of_readOnly (regAt_readOnly h hro) s v)

end Sys2Proof.Machine
end

section
/-!
Runs of a plan: the states a run passes through, plans put together, and what the phases of the engine can raise and write
(00 R11, R12, 60 R283, R285).
-/
namespace Sys2Proof.Machine

/-! ### The states a run passes through -/

/-- The run of a plan passes through a state: one of its phases starts from it, or the run returns it. -/
def Passes (ps : List PhaseStep) (s u : State) : Prop := (∃ p, (p, u) ∈ reached ps s) ∨ runPlan ps s = .returned u

theorem passes_of_reached {ps : List PhaseStep} {s : State} {x : Phase × State} (h : x ∈ reached ps s) : Passes ps s x.2 :=
  .inl ⟨x.1, h⟩

theorem passes_of_raised {ps : List PhaseStep} {s kept : State} {p : Phase} {e : Raise} (h : runPlan ps s = .raised p e kept) :
    Passes ps s kept := .inl ⟨p, runPlan_raised_reached h⟩

@[simp] theorem passes_nil {s u : State} : Passes [] s u ↔ u = s := by simp [Passes, eq_comm]

/-- A property every phase keeps holds of every state a run passes through. -/
theorem Passes.keeps {P : State → Prop} {ps : List PhaseStep} {s u : State} (h : Passes ps s u)
    (hk : ∀ p ∈ ps, ∀ v w, P v → p.body v = .ok w → P w) (hs : P s) : P u := by
  rcases h with ⟨p, hmem⟩ | hret
  · exact reached_keeps hk hs _ hmem
  · have := runPlan_keeps hk hs
    rwa [hret] at this

/-- What a run with a first phase passes through. -/
theorem Passes.cons_cases {p : PhaseStep} {ps : List PhaseStep} {s u : State} (h : Passes (p :: ps) s u) :
    u = s ∨ (p.guard s = false ∧ Passes ps s u) ∨ ∃ t, p.body s = .ok t ∧ Passes ps t u := by
  cases g : p.guard s with
  | false =>
    rw [Passes, reached_skip g, runPlan_skip g] at h
    exact .inr (.inl ⟨rfl, h⟩)
  | true =>
    cases hb : p.body s with
    | error e =>
      rw [Passes, reached_error g hb, runPlan_error g hb] at h
      simp only [List.mem_singleton, Prod.mk.injEq, exists_eq_left, reduceCtorEq, or_false] at h
      exact .inl h
    | ok t =>
      rw [Passes, reached_ok g hb, runPlan_ok g hb] at h
      simp only [List.mem_cons, Prod.mk.injEq, exists_or, exists_eq_left] at h
      exact h.elim (fun h => h.imp_right fun h => .inr ⟨t, rfl, .inl h⟩) fun h => .inr (.inr ⟨t, rfl, .inr h⟩)

/-- A run that always takes its first phase. -/
theorem Passes.always_cases {ph : Phase} {f : State → Except Raise State} {ps : List PhaseStep} {s u : State}
    (h : Passes (.always ph f :: ps) s u) : u = s ∨ ∃ t, f s = .ok t ∧ Passes ps t u := by
  rcases h.cons_cases with h | ⟨hg, _⟩ | h
  · exact .inl h
  · cases hg
  · exact .inr h

/-! ### Plans put together -/

theorem runPlan_append (ps qs : List PhaseStep) (s : State) : runPlan (ps ++ qs) s = match runPlan ps s with
    | .returned t => runPlan qs t
    | .raised p e kept => .raised p e kept := by
  induction ps generalizing s with
  | nil => rfl
  | cons p ps ih =>
    rw [List.cons_append]
    cases g : p.guard s with
    | false => rw [runPlan_skip g, runPlan_skip g, ih]
    | true =>
      cases hb : p.body s with
      | error e => rw [runPlan_error g hb, runPlan_error g hb]
      | ok t => rw [runPlan_ok g hb, runPlan_ok g hb, ih]

theorem reached_append (ps qs : List PhaseStep) (s : State) : reached (ps ++ qs) s = reached ps s ++ match runPlan ps s with
    | .returned t => reached qs t
    | .raised _ _ _ => [] := by
  induction ps generalizing s with
  | nil => rfl
  | cons p ps ih =>
    rw [List.cons_append]
    cases g : p.guard s with
    | false => rw [reached_skip g, reached_skip g, runPlan_skip g, ih]
    | true =>
      cases hb : p.body s with
      | error e => rw [reached_error g hb, reached_error g hb, runPlan_error g hb, List.append_nil]
      | ok t => rw [reached_ok g hb, reached_ok g hb, runPlan_ok g hb, ih, List.cons_append]

/-- The two parts of a plan that returns both return. -/
theorem runPlan_append_returned {ps qs : List PhaseStep} {s t : State} (h : runPlan (ps ++ qs) s = .returned t) :
    ∃ u, runPlan ps s = .returned u ∧ runPlan qs u = .returned t := by
  rw [runPlan_append] at h
  cases hp : runPlan ps s with
  | returned u => exact ⟨u, rfl, by rwa [hp] at h⟩
  | raised p e kept => rw [hp] at h; cases h

theorem runPlan_always_returned {ph : Phase} {f : State → Except Raise State} {ps : List PhaseStep} {s t : State}
    (h : runPlan (.always ph f :: ps) s = .returned t) : ∃ u, f s = .ok u ∧ runPlan ps u = .returned t := by
  cases hf : f s with
  | ok u => exact ⟨u, rfl, by rwa [runPlan_always_ok hf] at h⟩
  | error e => rw [runPlan_always_error hf] at h; cases h

theorem Passes.append_cases {ps qs : List PhaseStep} {s u : State} (h : Passes (ps ++ qs) s u) :
    Passes ps s u ∨ ∃ t, runPlan ps s = .returned t ∧ Passes qs t u := by
  rw [Passes, reached_append, runPlan_append] at h
  cases hp : runPlan ps s with
  | returned t =>
    rw [hp] at h
    simp only [List.mem_append, exists_or, or_assoc] at h
    exact h.elim (fun h => .inl (.inl h)) fun h => .inr ⟨t, rfl, h⟩
  | raised p e kept =>
    rw [hp] at h
    simp only [List.append_nil, reduceCtorEq, or_false] at h
    exact .inl (.inl h)

/-- The first phase reached starts from the state the plan is run from. -/
theorem reached_head {ps : List PhaseStep} (h : ∃ p ∈ ps, ∀ s, p.guard s = true) (s : State) :
    ∃ ph xs, reached ps s = (ph, s) :: xs := by
  induction ps with
  | nil => simp at h
  | cons p ps ih =>
    cases g : p.guard s with
    | true => exact ⟨p.phase, _, by rw [reached, if_pos g]⟩
    | false =>
      rw [reached_skip g]
      refine ih ?_
      obtain ⟨q, hq, hall⟩ := h
      rcases List.mem_cons.mp hq with rfl | hq
      · simp [hall] at g
      · exact ⟨q, hq, hall⟩

theorem stateAfter_append {ph : Phase} {xs : List (Phase × State)} (h : ph ∉ xs.map Prod.fst) (u : State) (y : Phase × State)
    (ys : List (Phase × State)) : stateAfter ph (xs ++ (ph, u) :: y :: ys) = some y.2 := by
  induction xs with
  | nil => simp [stateAfter]
  | cons x xs ih =>
    simp only [List.map_cons, List.mem_cons, not_or] at h
    rw [List.cons_append, stateAfter, if_neg (Ne.symm h.1), ih h.2]

/-- The state after a phase that no phase before it shares its PHASE value with, where the plan goes on. -/
theorem stateAfter_reached {ph : Phase} {f : State → Except Raise State} {pre post : List PhaseStep} {s u t : State}
    (hph : ph ∉ pre.map PhaseStep.phase) (hpost : ∃ q ∈ post, ∀ s, q.guard s = true) (hpre : runPlan pre s = .returned u)
    (hf : f u = .ok t) : stateAfter ph (reached (pre ++ .always ph f :: post) s) = some t := by
  obtain ⟨ph', xs, hxs⟩ := reached_head hpost t
  have hrest : reached (.always ph f :: post) u = (ph, u) :: (ph', t) :: xs := by rw [reached_ok rfl hf, hxs]; rfl
  rw [reached_append, hpre]
  simp only [hrest]
  exact stateAfter_append (fun hmem => hph ((reached_sublist pre s).subset hmem)) u (ph', t) xs

/-- Where a run raises, a phase of the plan raised from the state kept. -/
theorem runPlan_raised_body {ps : List PhaseStep} {s kept : State} {ph : Phase} {e : Raise}
    (h : runPlan ps s = .raised ph e kept) : ∃ p ∈ ps, p.phase = ph ∧ p.body kept = .error e := by
  induction ps generalizing s with
  | nil => cases h
  | cons p ps ih =>
    cases g : p.guard s with
    | false =>
      rw [runPlan_skip g] at h
      obtain ⟨q, hq, hrest⟩ := ih h
      exact ⟨q, List.mem_cons_of_mem _ hq, hrest⟩
    | true =>
      cases hb : p.body s with
      | error e' =>
        rw [runPlan_error g hb] at h
        injection h with hph he hkept
        exact ⟨p, List.mem_cons_self, hph, by rw [← he, ← hkept, hb]⟩
      | ok t =>
        rw [runPlan_ok g hb] at h
        obtain ⟨q, hq, hrest⟩ := ih h
        exact ⟨q, List.mem_cons_of_mem _ hq, hrest⟩

/-- A run behind a RegionCheck (20 R73). -/
theorem Passes.checked_cases {useIn useOut : Bool} {ps : List PhaseStep} {s u : State}
    (h : Passes (.always .check (regionCheck useIn useOut) :: ps) s u) :
    u = s ∨ (regionsOk useIn useOut s = true ∧ Passes ps s u) := by
  refine h.always_cases.imp_right fun ⟨t, hcheck, hrest⟩ => ?_
  obtain ⟨rfl, hreg⟩ := regionCheck_ok hcheck
  exact ⟨hreg, hrest⟩

/-! ### The engine's phases -/

/-- The phases of the engine: each command's plan is made of these (30 R103, 47 R261, R266). -/
inductive EnginePhase : PhaseStep → Prop
  | check (useIn useOut : Bool) : EnginePhase (.always .check (regionCheck useIn useOut))
  | hist : EnginePhase (.always .hist phaseHist)
  | build (guard : State → Bool) : EnginePhase ⟨.build, guard, phaseBuild⟩
  | derive (tm : TableMode) : EnginePhase (.always .derive (phaseDerive tm))
  | canon (guard : State → Bool) : EnginePhase ⟨.canon, guard, phaseCanon⟩
  | ctree (guard : State → Bool) : EnginePhase ⟨.ctree, guard, phaseCtree⟩
  | estimate : EnginePhase (.always .estimate phaseEstimate)
  | encode : EnginePhase (.always .encode phaseEncode)
  | wrhdr (tm : TableMode) : EnginePhase (.always .wrhdr (phaseWrhdr tm))
  | parsehdr : EnginePhase (.always .parsehdr phaseParsehdr)
  | dcheck : EnginePhase (.always .check phaseDcheck)
  | decode : EnginePhase (.always .decode phaseDecode)
  | ccheck (tm : TableMode) : EnginePhase (.always .check (phaseCcheck tm))

/-- A phase the command always runs is one whose guard always holds. -/
theorem EnginePhase.always {ph : Phase} {f : State → Except Raise State} (h : ∀ g, EnginePhase ⟨ph, g, f⟩) :
    EnginePhase (.always ph f) := h _

theorem plan_enginePhase (i : Instr) : ∀ p ∈ (commandOf i).plan, EnginePhase p := by
  cases i <;>
    simp [commandOf, cmdHist, cmdBuild, cmdDerive, cmdDeriveC, cmdCanon, cmdCtree, cmdEstimate, cmdEncode, cmdWrhdr, cmdWrhdrC,
      cmdParsehdr, cmdDecode, cmdCompress, cmdCompressC, cmdDecompress, EnginePhase.check, EnginePhase.hist, EnginePhase.build,
      EnginePhase.derive, EnginePhase.canon, EnginePhase.ctree, EnginePhase.estimate, EnginePhase.encode, EnginePhase.wrhdr,
      EnginePhase.parsehdr, EnginePhase.dcheck, EnginePhase.decode, EnginePhase.ccheck, EnginePhase.always]

/-- A phase that does not write system memory leaves it as it is (60 R285). -/
theorem EnginePhase.mem {p : PhaseStep} (hp : EnginePhase p) (hw : p.phase.writesMemory = false) {s t : State}
    (h : p.body s = .ok t) : t.mem = s.mem := by
  cases hp with
  | check a b => rw [(regionCheck_ok h).1]
  | hist => rw [phaseHist_ok h]
  | build => rw [phaseBuild_ok h]
  | derive tm =>
    obtain ⟨l, c, hok, _⟩ := phaseDerive_ok tm s
    exact Except.ok.inj (hok.symm.trans h) ▸ rfl
  | canon => obtain ⟨c, n, rfl⟩ := phaseCanon_ok h; rfl
  | ctree => obtain ⟨a, _, rfl⟩ := phaseCtree_ok h; rfl
  | estimate => obtain ⟨n, _, rfl⟩ := phaseEstimate_ok h; rfl
  | parsehdr =>
    obtain ⟨es, _, _, _, e⟩ := phaseParsehdr_ok h
    rw [e, parsedState]
  | dcheck => rw [(phaseDcheck_ok h).1]
  | ccheck tm => rw [(phaseCcheck_ok h).1]
  | encode => cases hw
  | wrhdr => cases hw
  | decode => cases hw

end Sys2Proof.Machine
end

section
/-!
Bit packing and the order in which bits are read back (20 R75; O47).
-/
namespace Sys2Proof.Machine

/-! ### One byte -/

theorem bitsValue_concat (bs : List Bool) (b : Bool) : bitsValue (bs ++ [b]) = Nat.bit b (bitsValue bs) := by
  rw [bitsValue, List.foldl_append, Nat.bit_val]
  rfl

/-- The bits of the number of a bit sequence, from the last one up. -/
theorem testBit_bitsValue (bs : List Bool) (i : Nat) : (bitsValue bs).testBit i = bs.reverse.getD i false := by
  induction bs using List.reverseRecOn generalizing i with
  | nil => simp [bitsValue]
  | append_singleton bs b ih =>
    rw [bitsValue_concat, List.reverse_concat]
    cases i with
    | zero => exact Nat.testBit_bit_zero b _
    | succ i => rw [Nat.testBit_bit_succ, ih, List.getD_cons_succ]

theorem getMsbD_packByte (bs : List Bool) {q : Nat} (h : q < 8) : (packByte bs).getMsbD q = bs.getD q false := by
  rw [packByte, BitVec.getMsbD, BitVec.getLsbD_ofNat, testBit_bitsValue, List.getD_eq_getElem _ _ (by simp; omega),
    List.getElem_reverse, List.getElem_map, List.getElem_range]
  simp only [List.length_map, List.length_range]
  rw [show 8 - 1 - (8 - 1 - q) = q by omega, decide_eq_true h, decide_eq_true (by omega)]
  rfl

theorem byteBits_packByte (bs : List Bool) : byteBits (packByte bs) = (List.range 8).map fun q => bs.getD q false :=
  List.map_congr_left fun _ hq => getMsbD_packByte bs (List.mem_range.mp hq)

/-! ### A packing -/

@[simp] theorem length_packBytes (bs : List Bool) (n : Nat) : (packBytes bs n).length = n := by
  induction n generalizing bs with
  | zero => rfl
  | succ n ih => simp [packBytes, ih]

@[simp] theorem length_pack (bs : List Bool) : (pack bs).length = ceilDiv bs.length 8 := length_packBytes bs _

/-- Byte j holds the bits from 8j on. -/
theorem getElem_packBytes (bs : List Bool) {n j : Nat} (h : j < (packBytes bs n).length) :
    (packBytes bs n)[j] = packByte (bs.drop (8 * j)) := by
  induction n generalizing bs j with
  | zero => simp at h
  | succ n ih =>
    cases j with
    | zero => rfl
    | succ j =>
      simp only [packBytes, List.getElem_cons_succ]
      rw [ih, List.drop_drop, Nat.mul_succ, Nat.add_comm]

/-- Unpacked, the n bytes of a packing are the first 8n bits, 0 past the end. -/
theorem unpack_packBytes (bs : List Bool) (n : Nat) :
    unpack (packBytes bs n) = (List.range (8 * n)).map fun k => bs.getD k false := by
  induction n generalizing bs with
  | zero => rfl
  | succ n ih =>
    calc unpack (packBytes bs (n + 1))
      _ = byteBits (packByte bs) ++ unpack (packBytes (bs.drop 8) n) := rfl
      _ = (List.range 8 ++ (List.range (8 * n)).map (8 + ·)).map fun k => bs.getD k false := by
        rw [byteBits_packByte, ih, List.map_append, List.map_map]
        simp [List.getElem?_drop, Function.comp_def]
      _ = _ := by rw [← List.range_add, Nat.mul_succ, Nat.add_comm 8]

/-- A bit sequence filled up with pad bits. -/
theorem map_getD_range {bs : List Bool} {n : Nat} (h : bs.length ≤ n) :
    ((List.range n).map fun k => bs.getD k false) = bs ++ List.replicate (n - bs.length) false := by
  refine List.ext_getElem (by simp; omega) fun k _ _ => ?_
  rw [List.getElem_map, List.getElem_range, List.getElem_append]
  split
  · next hk => rw [List.getD_eq_getElem _ _ hk]
  · next hk => rw [List.getD_eq_default _ _ (not_lt.mp hk), List.getElem_replicate]

/-- Settles O47: byte j of a packing holds the bits from 8j on, and unpacking lists them in order. -/
theorem bitPacking : Obligations.BitPacking := by
  intro bits
  refine ⟨length_pack bits, fun k hk => ?bit, ?order⟩
  case bit =>
    have hj : k / 8 < (pack bits).length := by rw [length_pack]; exact Nat.div_lt_of_lt_mul hk
    have hq : k % 8 < 8 := Nat.mod_lt k (by decide)
    have hbit : ((pack bits)[k / 8]).getMsbD (k % 8) = (bits.drop (8 * (k / 8))).getD (k % 8) false := by
      rw [← getMsbD_packByte _ hq]
      exact congrArg (BitVec.getMsbD · (k % 8)) (getElem_packBytes bits hj)
    rw [BitVec.getMsbD, decide_eq_true hq, Bool.true_and] at hbit
    rw [List.getD_eq_getElem _ _ hj]
    refine hbit.trans ?_
    rw [List.getD_eq_getElem?_getD, List.getElem?_drop, Nat.div_add_mod, List.getD_eq_getElem?_getD]
  case order =>
    exact (unpack_packBytes bits _).trans (map_getD_range (by rw [ceilDiv]; omega))

end Sys2Proof.Machine
end

section
/-!
The host's register accesses by width and alignment (20 R76; O10).
-/
namespace Sys2Proof.Machine

theorem badAccess_eq_true {o : BitVec 15} {n : Nat} : badAccess o n = true ↔ n ≠ 8 ∨ o.toNat % 8 ≠ 0 := by simp [badAccess]

/-- Settles O10: a bad access faults, and an 8-byte access at a multiple of 8 is the register's read or write. -/
theorem registerAccessWidth : Obligations.RegisterAccessWidth := by
  intro s o n v
  refine ⟨fun hbad => ?_, fun hn ho => ?_⟩
  · rw [hostStep, hostStep, if_pos (badAccess_eq_true.mpr hbad)]
    exact ⟨rfl, if_pos (badAccess_eq_true.mpr hbad)⟩
  · subst hn
    exact ⟨⟨_, hostStep_regWrite_of_aligned ho s v⟩, ⟨_, hostStep_regRead_of_aligned ho s⟩⟩

end Sys2Proof.Machine
end

section
/-!
What the phases that write system memory write, and where (20 R72): the lengths of a header, a payload and decoded bytes.
-/
namespace Sys2Proof.Machine

/-! ### Header, payload and decoded bytes -/

@[simp] theorem length_leBytes (v n : Nat) : (leBytes v n).length = n := by
  induction n generalizing v with
  | zero => rfl
  | succ n ih => simp [leBytes, ih]

@[simp] theorem length_entryBytes (tm : TableMode) (e : Nat × Nat) : (entryBytes tm e).length = entrySize tm := by
  cases tm <;> simp [entryBytes, entrySize]

@[simp] theorem length_headerBytes (tm : TableMode) (olen : Nat) (es : List (Nat × Nat)) :
    (headerBytes tm olen es).length = headerLen tm es.length := by
  simp only [headerBytes, magicBytes, headerLen, List.length_append, List.length_cons, List.length_nil, length_leBytes,
    List.length_flatMap, length_entryBytes, List.map_const', List.sum_replicate, smul_eq_mul]
  ring

theorem length_headerEntries_le (tm : TableMode) (s : State) : (headerEntries tm s).length ≤ 256 := by
  cases tm
  · exact (length_nonzeroEntries_le _).trans (length_ramValues s.hist).le
  · exact (length_nonzeroEntries_le _).trans (length_ramValues s.len).le

theorem wrhdrLen_lt (tm : TableMode) (s : State) : wrhdrLen tm s < 2 ^ 64 := by
  have := length_headerEntries_le tm s
  cases tm <;> simp only [wrhdrLen, headerLen, entrySize] <;> omega

theorem length_codeStream (s : State) (xs : List Byte) : (codeStream s xs).length = totalLen s.len xs := by
  rw [codeStream, List.length_flatMap]
  exact congrArg List.sum (List.map_congr_left fun x _ => by simp [byteCode, codeWordBits, codeBits, byteLen, lenNat])

theorem length_payloadBytes {s : State} {n : Nat} (h : lengthPass s = .ok n) : (payloadBytes s).length = ceilDiv n 8 := by
  obtain ⟨_, rfl, _⟩ := lengthPass_ok h
  rw [payloadBytes, length_pack, length_codeStream]

theorem ceilDiv_eight_lt {s : State} {n : Nat} (h : lengthPass s = .ok n) : ceilDiv n 8 < 2 ^ 64 := by
  obtain ⟨_, _, _⟩ := lengthPass_ok h
  rw [ceilDiv]
  omega

theorem length_of_decodeSymbols {node : Vector Node 511} {root : Index} {m k : Nat} {bits left : List Bool} {bs : List Byte}
    (h : decodeSymbols node root m k bits = .ok (bs, left)) : bs.length = m := by
  induction m generalizing k bits left bs with
  | zero => cases h; rfl
  | succ m ih =>
    rw [decodeSymbols] at h
    split at h
    · cases h
    · split at h
      · cases h
      · next hrest =>
        cases h
        rw [List.length_cons, ih hrest]

theorem length_of_decodePayload {s : State} {bs : List Byte} (h : decodePayload s = .ok bs) : bs.length = s.origLen.toNat := by
  rw [decodePayload] at h
  split at h
  · cases h
  · next hsym =>
    split at h
    · cases h
    · cases h
      exact length_of_decodeSymbols hsym

/-! ### Spans of the output region -/

/-- Every byte outside the span of the output region reads in `u` as in `s`. -/
def keepsOutside (s u : State) (span : Nat × Nat) : Prop :=
  ∀ a, (a < s.outBase.toNat + span.1 ∨ s.outBase.toNat + span.2 ≤ a) → u.mem.read a = s.mem.read a

theorem keepsOutside_of_mem {s u : State} (h : u.mem = s.mem) (span : Nat × Nat) : keepsOutside s u span := fun _ _ => by rw [h]

/-- Bytes written inside the span. -/
theorem keepsOutside.write {s u : State} {span : Nat × Nat} (h : keepsOutside s u span) (hbase : u.outBase = s.outBase) {off : Nat}
    {bs : List Byte} (hlo : span.1 ≤ off) (hhi : off + bs.length ≤ span.2) {v : State}
    (hv : v.mem = u.mem.writeBytes (u.outBase.toNat + off) bs) : keepsOutside s v span := fun a ha => by
  rw [hv, hbase, Memory.read_writeBytes_outside _ _ _ (by omega), h a ha]

/-- No byte of the input region is a byte of the output region, where both pass RegionCheck (20 R73). -/
theorem input_outside_output {s : State} (h : regionsOk true true s = true) {a hi : Nat} (lo : Nat) (hhi : hi ≤ s.outCap.toNat)
    (ha : s.inBase.toNat ≤ a ∧ a < s.inBase.toNat + s.inLen.toNat) : a < s.outBase.toNat + lo ∨ s.outBase.toNat + hi ≤ a := by
  simp only [regionsOk, regionsOverlap, Bool.and_eq_true, Bool.true_and, Bool.not_eq_true', Bool.and_eq_false_iff,
    decide_eq_false_iff_not] at h
  omega

/-- Bytes written to the output region leave the input as it is. -/
theorem inputBytes_of_keepsOutside {s u : State} (h : regionsOk true true s = true) {span : Nat × Nat} (hspan : span.2 ≤ s.outCap.toNat)
    (hk : keepsOutside s u span) (hbase : u.inBase = s.inBase) (hlen : u.inLen = s.inLen) : inputBytes u = inputBytes s := by
  rw [inputBytes, inputBytes, hbase, hlen]
  refine List.map_congr_left fun k hmem => hk _ (input_outside_output h span.1 hspan ⟨Nat.le_add_right _ _, ?_⟩)
  have := List.mem_range.mp hmem
  omega

theorem lengthPass_congr {s u : State} (hlen : u.len = s.len) (hin : inputBytes u = inputBytes s) : lengthPass u = lengthPass s := by
  rw [lengthPass, hlen, hin]
  rfl

end Sys2Proof.Machine
end

section
/-!
The write set of each command (20 R72), and that no run writes outside it (60 R286(c)): O22 and O23.
-/
namespace Sys2Proof.Machine

/-! ### Runs without a memory write -/

/-- The phases of a plan that write no system memory. -/
def QuietPlan (ps : List PhaseStep) : Prop := ∀ p ∈ ps, EnginePhase p ∧ p.phase.writesMemory = false

theorem Passes.mem_of_quiet {ps : List PhaseStep} {s u : State} (h : Passes ps s u) (hq : QuietPlan ps) : u.mem = s.mem :=
  h.keeps (P := fun v => v.mem = s.mem) (fun p hp _ _ hv hb => ((hq p hp).1.mem (hq p hp).2 hb).trans hv) rfl

theorem Passes.frame {i : Instr} {s u : State} (h : Passes (commandOf i).plan s u) : PhaseFrame s u :=
  h.keeps (P := PhaseFrame s) (fun p hp v w hv hb => hv.trans (plan_frame i p hp v w hb)) (PhaseFrame.refl s)

/-- A part of a command's plan whose phases write no system memory. -/
theorem quietPlan_of_subset {i : Instr} {ps : List PhaseStep} (h : ps ⊆ (commandOf i).plan)
    (hq : ∀ p ∈ ps.map PhaseStep.phase, p.writesMemory = false) : QuietPlan ps := fun p hp =>
  ⟨plan_enginePhase i p (h hp), hq _ (List.mem_map_of_mem hp)⟩

/-! ### Write sets -/

theorem writeSet_of_writes {c : Command} {s : State} {lo hi : Nat} (h : c.writes (reached c.plan s) s = (lo, hi)) :
    c.writeSet s = (lo, min hi s.outCap.toNat) := by rw [Command.writeSet, h]

theorem writeSet_of_writes_le {c : Command} {s : State} {lo hi : Nat} (h : c.writes (reached c.plan s) s = (lo, hi))
    (hle : hi ≤ s.outCap.toNat) : c.writeSet s = (lo, hi) := by rw [writeSet_of_writes h, min_eq_left hle]

theorem writeSet_le_outCap (c : Command) (s : State) : (c.writeSet s).2 ≤ s.outCap.toNat := Nat.min_le_right _ _

/-- The commands that write no system memory (20 R72). -/
def memoryless : List Instr := [.hist, .build, .derive, .deriveC, .canon, .ctree, .estimate, .parsehdr]

theorem memoryless_quiet {i : Instr} (h : i ∈ memoryless) : QuietPlan (commandOf i).plan :=
  quietPlan_of_subset (List.Subset.refl _) (by revert i; decide)

theorem memoryless_writeSet {i : Instr} (h : i ∈ memoryless) (s : State) : (commandOf i).writeSet s = (0, 0) := by
  refine writeSet_of_writes_le ?_ (Nat.zero_le _)
  simp only [memoryless, List.mem_cons, List.not_mem_nil, or_false] at h
  rcases h with rfl | rfl | rfl | rfl | rfl | rfl | rfl | rfl <;> rfl

/-! ### WRHDR and ENCODE -/

theorem wrhdr_writeSet (tm : TableMode) (s : State) :
    (commandOf (wrhdrOf tm)).writeSet s = (0, min (wrhdrLen tm s) s.outCap.toNat) := by
  cases tm <;> exact writeSet_of_writes rfl

theorem encode_writeSet {s : State} {n : Nat} (h : lengthPass s = .ok n) :
    (commandOf .encode).writeSet s = (s.payloadOff.toNat, min (s.payloadOff.toNat + ceilDiv n 8) s.outCap.toNat) := by
  refine writeSet_of_writes (c := cmdEncode) ?_
  show encodeWrites s = _
  rw [encodeWrites, h]

theorem wrhdr_plan (tm : TableMode) :
    (commandOf (wrhdrOf tm)).plan = [.always .check (regionCheck false true), .always .wrhdr (phaseWrhdr tm)] := by cases tm <;> rfl

/-- What the header's phase writes lies in [0, HDR_LEN). -/
theorem phaseWrhdr_keepsOutside {tm : TableMode} {s t u : State} {hi : Nat} (h : phaseWrhdr tm t = .ok u)
    (hk : keepsOutside s t (0, hi)) (hbase : t.outBase = s.outBase) (hhi : wrhdrLen tm t ≤ hi) : keepsOutside s u (0, hi) := by
  obtain ⟨_, hu⟩ := phaseWrhdr_ok h
  refine hk.write hbase (bs := headerBytes tm t.origLen.toNat (headerEntries tm t)) (Nat.zero_le 0) ?_ (by rw [hu, Nat.add_zero])
  rw [length_headerBytes, Nat.zero_add]
  exact hhi

theorem wrhdr_keepsOutside {tm : TableMode} {s u : State} (h : Passes (commandOf (wrhdrOf tm)).plan s u) :
    keepsOutside s u ((commandOf (wrhdrOf tm)).writeSet s) := by
  have start := keepsOutside_of_mem (s := s) rfl ((commandOf (wrhdrOf tm)).writeSet s)
  rw [wrhdr_plan] at h
  obtain rfl | ⟨_, hrun⟩ := h.checked_cases
  · exact start
  obtain rfl | ⟨t, hwrhdr, hend⟩ := hrun.always_cases
  · exact start
  rw [passes_nil.mp hend, wrhdr_writeSet, min_eq_left (phaseWrhdr_ok hwrhdr).1]
  exact phaseWrhdr_keepsOutside hwrhdr (keepsOutside_of_mem rfl _) rfl le_rfl

/-- What the payload's phase writes lies in [PAYLOAD_OFF, PAYLOAD_OFF + nb). -/
theorem phaseEncode_keepsOutside {s t u : State} {lo hi n : Nat} (h : phaseEncode t = .ok u) (hn : lengthPass t = .ok n)
    (hk : keepsOutside s t (lo, hi)) (hbase : t.outBase = s.outBase) (hlo : lo ≤ t.payloadOff.toNat)
    (hhi : t.payloadOff.toNat + ceilDiv n 8 ≤ hi) : keepsOutside s u (lo, hi) := by
  obtain ⟨m, _, _, rfl⟩ := phaseEncode_ok h
  exact hk.write hbase hlo (by rw [length_payloadBytes hn]; exact hhi) rfl

theorem encode_keepsOutside {s u : State} (h : Passes (commandOf .encode).plan s u) :
    keepsOutside s u ((commandOf .encode).writeSet s) := by
  have start := keepsOutside_of_mem (s := s) rfl ((commandOf .encode).writeSet s)
  obtain rfl | ⟨_, hrun⟩ := Passes.checked_cases h
  · exact start
  obtain rfl | ⟨t, hencode, hend⟩ := hrun.always_cases
  · exact start
  obtain ⟨n, hn, hfits, _⟩ := phaseEncode_ok hencode
  rw [passes_nil.mp hend, encode_writeSet hn, min_eq_left hfits]
  exact phaseEncode_keepsOutside hencode hn (keepsOutside_of_mem rfl _) rfl le_rfl le_rfl

/-! ### DECODE and DECOMPRESS -/

/-- The phases that decode a payload (46 R236). -/
def decodeTail : List PhaseStep := [.always .check phaseDcheck, .always .decode phaseDecode]

/-- What they write lies in [0, ORIG_LEN), once P_DCHECK has found that it fits. -/
theorem decodeTail_keepsOutside {s t u : State} (h : Passes decodeTail t u) (hmem : t.mem = s.mem) (hbase : t.outBase = s.outBase)
    (hcap : t.outCap = s.outCap) : keepsOutside s u (0, min t.origLen.toNat s.outCap.toNat) := by
  have start := keepsOutside_of_mem hmem (0, min t.origLen.toNat s.outCap.toNat)
  obtain rfl | ⟨v, hdcheck, hrun⟩ := h.always_cases
  · exact start
  obtain ⟨rfl, _, hfits⟩ := phaseDcheck_ok hdcheck
  obtain rfl | ⟨w, hdecode, hend⟩ := hrun.always_cases
  · exact start
  obtain ⟨bs, hbs, rfl⟩ := phaseDecode_ok hdecode
  rw [passes_nil.mp hend]
  refine start.write hbase (bs := bs) (Nat.zero_le 0) ?_ rfl
  rw [length_of_decodePayload hbs, Nat.zero_add, ← hcap, min_eq_left hfits]

theorem decode_writeSet (s : State) : (commandOf .decode).writeSet s = (0, min s.origLen.toNat s.outCap.toNat) :=
  writeSet_of_writes (c := cmdDecode) rfl

theorem decode_keepsOutside {s u : State} (h : Passes (commandOf .decode).plan s u) :
    keepsOutside s u ((commandOf .decode).writeSet s) := by
  obtain rfl | ⟨_, hrun⟩ := Passes.checked_cases h
  · exact keepsOutside_of_mem rfl _
  rw [decode_writeSet]
  exact decodeTail_keepsOutside hrun rfl rfl rfl

/-- The phases of DECOMPRESS that rebuild the tree (47 R266). -/
def rebuildPhases : List PhaseStep := [⟨.build, onFreq, phaseBuild⟩, ⟨.canon, onCanon, phaseCanon⟩, ⟨.ctree, onCanon, phaseCtree⟩]

theorem decompress_plan : (commandOf .decompress).plan = [.always .check (regionCheck true true)]
    ++ .always .parsehdr phaseParsehdr :: (rebuildPhases ++ decodeTail) := rfl

theorem rebuild_keeps {p : PhaseStep} (hp : p ∈ rebuildPhases) {s t : State} (h : p.body s = .ok t) :
    t.mem = s.mem ∧ t.origLen = s.origLen ∧ t.outBase = s.outBase ∧ t.outCap = s.outCap := by
  simp only [rebuildPhases, List.mem_cons, List.not_mem_nil, or_false] at hp
  obtain rfl | rfl | rfl := hp
  · rw [phaseBuild_ok h]
    exact ⟨rfl, rfl, rfl, rfl⟩
  · obtain ⟨_, _, rfl⟩ := phaseCanon_ok h
    exact ⟨rfl, rfl, rfl, rfl⟩
  · obtain ⟨_, _, rfl⟩ := phaseCtree_ok h
    exact ⟨rfl, rfl, rfl, rfl⟩

theorem Passes.rebuild_keeps {s u : State} (h : Passes rebuildPhases s u) :
    u.mem = s.mem ∧ u.origLen = s.origLen ∧ u.outBase = s.outBase ∧ u.outCap = s.outCap :=
  h.keeps (P := fun v => v.mem = s.mem ∧ v.origLen = s.origLen ∧ v.outBase = s.outBase ∧ v.outCap = s.outCap)
    (fun _ hp _ _ ⟨hmem, horig, hbase, hcap⟩ hb =>
      have ⟨kmem, korig, kbase, kcap⟩ := Machine.rebuild_keeps hp hb
      ⟨kmem.trans hmem, korig.trans horig, kbase.trans hbase, kcap.trans hcap⟩)
    ⟨rfl, rfl, rfl, rfl⟩

/-- The write set of DECOMPRESS once its header is parsed. -/
theorem decompress_writeSet {s t : State} (hreg : regionsOk true true s = true) (ht : phaseParsehdr s = .ok t) :
    (commandOf .decompress).writeSet s = (0, min t.origLen.toNat s.outCap.toNat) := by
  refine writeSet_of_writes (c := commandOf .decompress) ?_
  show decompressWrites (reached (commandOf .decompress).plan s) = _
  rw [decompressWrites, decompress_plan, stateAfter_reached (by decide)
    ⟨.always .check phaseDcheck, by simp [decodeTail], fun _ => rfl⟩ (runPlan_always_ok (regionCheck_of_ok hreg)) ht]

theorem decompress_keepsOutside {s u : State} (h : Passes (commandOf .decompress).plan s u) :
    keepsOutside s u ((commandOf .decompress).writeSet s) := by
  have start := keepsOutside_of_mem (s := s) rfl ((commandOf .decompress).writeSet s)
  obtain rfl | ⟨hreg, hrun⟩ := Passes.checked_cases h
  · exact start
  obtain rfl | ⟨v, hparse, hrun⟩ := hrun.always_cases
  · exact start
  rw [decompress_writeSet hreg hparse]
  have kmem : v.mem = s.mem := EnginePhase.parsehdr.mem rfl hparse
  have frame := phaseParsehdr_frame hparse
  rcases Passes.append_cases (ps := rebuildPhases) (qs := decodeTail) hrun with hrebuild | ⟨w, hret, htail⟩
  · obtain ⟨hmem, _⟩ := hrebuild.rebuild_keeps
    exact keepsOutside_of_mem (hmem.trans kmem) _
  · obtain ⟨hmem, horig, hbase, hcap⟩ := Passes.rebuild_keeps (.inr hret)
    rw [← horig]
    exact decodeTail_keepsOutside htail (hmem.trans kmem) (hbase.trans frame.outBase) (hcap.trans frame.outCap)

/-! ### COMPRESS -/

/-- The phases of COMPRESS(tm) that make the code table (47 R260). -/
def tablePhases (tm : TableMode) : List PhaseStep :=
  [.always .check (regionCheck true true), .always .hist phaseHist, .always .build phaseBuild, .always .derive (phaseDerive tm)]
    ++ match tm with
      | .freq => []
      | .canon => [.always .canon phaseCanon]

/-- The phases of COMPRESS(tm) that write the stream (47 R260). -/
def streamPhases (tm : TableMode) : List PhaseStep :=
  [.always .check (phaseCcheck tm), .always .wrhdr (phaseWrhdr tm), .always .encode phaseEncode]

theorem compress_plan (tm : TableMode) :
    (commandOf (compressOf tm)).plan = tablePhases tm ++ .always .estimate phaseEstimate :: streamPhases tm := by cases tm <;> rfl

/-- What the tables' phases leave: memory and the regions as they were, which pass RegionCheck, and in NSYM the number of entries the
header has. -/
structure TablesMade (tm : TableMode) (s t : State) : Prop where
  mem : t.mem = s.mem
  outBase : t.outBase = s.outBase
  outCap : t.outCap = s.outCap
  regions : regionsOk true true t = true
  nsym : headerLen tm t.nsym.toNat = wrhdrLen tm t

theorem phaseCanon_nsym {s t : State} (h : phaseCanon s = .ok t) :
    t.nsym = BitVec.ofNat 9 (lenEntries s.len).length ∧ t.len = s.len := by
  unfold phaseCanon at h
  split at h
  · next hes =>
    split at h
    · cases h
    · cases h
      exact ⟨by rw [hes]; rfl, rfl⟩
  · split at h
    · cases h
    · cases h
      exact ⟨rfl, rfl⟩

theorem headerLen_nsym {tm : TableMode} {t : State} (h : t.nsym = BitVec.ofNat 9 (headerEntries tm t).length) :
    headerLen tm t.nsym.toNat = wrhdrLen tm t := by
  have := length_headerEntries_le tm t
  rw [h, BitVec.toNat_ofNat, Nat.mod_eq_of_lt (by omega), wrhdrLen]

theorem tablesMade {tm : TableMode} {s t : State} (h : runPlan (tablePhases tm) s = .returned t) : TablesMade tm s t := by
  obtain ⟨v, hcommon, hcanon⟩ := runPlan_append_returned h
  obtain ⟨s₁, hcheck, hrun₁⟩ := runPlan_always_returned hcommon
  obtain ⟨rfl, hreg⟩ := regionCheck_ok hcheck
  obtain ⟨s₂, hhist, hrun₂⟩ := runPlan_always_returned hrun₁
  obtain ⟨s₃, hbuild, hrun₃⟩ := runPlan_always_returned hrun₂
  obtain ⟨s₄, hderive, hrun₄⟩ := runPlan_always_returned hrun₃
  obtain rfl : s₄ = v := by injection hrun₄
  obtain ⟨l, c, hok, _⟩ := phaseDerive_ok tm s₃
  rw [hok, phaseBuild_ok hbuild, phaseHist_ok hhist] at hderive
  injection hderive with hderive
  subst hderive
  cases tm with
  | freq =>
    obtain rfl : _ = t := by injection hcanon
    exact ⟨rfl, rfl, rfl, hreg, headerLen_nsym (by simp [headerEntries, histLeaves])⟩
  | canon =>
    obtain ⟨x, hphase, hend⟩ := runPlan_always_returned hcanon
    obtain rfl : x = t := by injection hend
    obtain ⟨hnsym, hlen⟩ := phaseCanon_nsym hphase
    refine (fun hn => ?_) (headerLen_nsym (tm := .canon) (t := x) (by rw [hnsym]; simp [headerEntries, hlen, lenEntries]))
    obtain ⟨_, _, rfl⟩ := phaseCanon_ok hphase
    exact ⟨rfl, rfl, rfl, hreg, hn⟩

/-- What COMPRESS(tm) knows of its stream once ESTIMATE has run: the tables are made, and the code words of the input take n bits. -/
structure StreamSized (tm : TableMode) (s t : State) (n : Nat) : Prop extends TablesMade tm s t where
  length : lengthPass t = .ok n
  totalBytes : t.totalBytes.toNat = ceilDiv n 8

theorem streamSized {tm : TableMode} {s t u : State} (h : TablesMade tm s t) (he : phaseEstimate t = .ok u) :
    ∃ n, StreamSized tm s u n := by
  obtain ⟨hmem, hbase, hcap, hreg, hnsym⟩ := h
  obtain ⟨n, hn, rfl⟩ := phaseEstimate_ok he
  have hlen : wrhdrLen tm { t with totalBits := BitVec.ofNat 64 n, totalBytes := BitVec.ofNat 64 (ceilDiv n 8) } = wrhdrLen tm t := by
    cases tm <;> rfl
  exact ⟨n, ⟨hmem, hbase, hcap, hreg, hnsym.trans hlen.symm⟩, hn, Nat.mod_eq_of_lt (ceilDiv_eight_lt hn)⟩

/-- The stream's length is that of its header and its payload. -/
theorem StreamSized.need {tm : TableMode} {s t : State} {n : Nat} (h : StreamSized tm s t n) :
    streamNeed tm t = wrhdrLen tm t + ceilDiv n 8 := by rw [streamNeed, h.nsym, h.totalBytes]

/-- The write set of COMPRESS(tm) once ESTIMATE has run. -/
theorem compress_writeSet {tm : TableMode} {s t u : State} (ht : runPlan (tablePhases tm) s = .returned t)
    (hu : phaseEstimate t = .ok u) :
    (commandOf (compressOf tm)).writeSet s = (0, min (streamNeed tm u) s.outCap.toNat) := by
  have hafter : stateAfter .estimate (reached (commandOf (compressOf tm)).plan s) = some u := by
    rw [compress_plan]
    exact stateAfter_reached (by cases tm <;> decide) ⟨.always .check (phaseCcheck tm), by simp [streamPhases], fun _ => rfl⟩ ht hu
  refine writeSet_of_writes ?_
  have hwrites : (commandOf (compressOf tm)).writes (reached (commandOf (compressOf tm)).plan s) s
      = compressWrites tm (reached (commandOf (compressOf tm)).plan s) := by cases tm <;> rfl
  rw [hwrites, compressWrites, hafter]

/-- The state after the header's phase of COMPRESS(tm): the payload comes after the header, and its length is as it was, as the header
is no part of the input. -/
theorem lengthPass_of_phaseWrhdr {tm : TableMode} {t u : State} (hreg : regionsOk true true t = true) (h : phaseWrhdr tm t = .ok u) :
    u.payloadOff.toNat = wrhdrLen tm t ∧ lengthPass u = lengthPass t := by
  have hk := phaseWrhdr_keepsOutside h (keepsOutside_of_mem rfl (0, wrhdrLen tm t)) rfl le_rfl
  obtain ⟨hfits, hu⟩ := phaseWrhdr_ok h
  have hoff : u.payloadOff.toNat = wrhdrLen tm t := by
    rw [hu]
    exact Nat.mod_eq_of_lt (wrhdrLen_lt tm t)
  exact ⟨hoff, lengthPass_congr (by rw [hu]) (inputBytes_of_keepsOutside hreg hfits hk (by rw [hu]) (by rw [hu]))⟩

theorem streamPhases_keepsOutside {tm : TableMode} {s t u : State} {n : Nat} (hs : StreamSized tm s t n)
    (h : Passes (streamPhases tm) t u) : keepsOutside s u (0, min (streamNeed tm t) s.outCap.toNat) := by
  have start := keepsOutside_of_mem hs.mem (0, min (streamNeed tm t) s.outCap.toNat)
  obtain rfl | ⟨_, hcheck, hrun⟩ := h.always_cases
  · exact start
  obtain ⟨rfl, hfits⟩ := phaseCcheck_ok hcheck
  obtain rfl | ⟨v, hwrhdr, hrun⟩ := hrun.always_cases
  · exact start
  rw [← hs.outCap, min_eq_left hfits, hs.need] at start ⊢
  have header := phaseWrhdr_keepsOutside hwrhdr start hs.outBase (Nat.le_add_right _ _)
  obtain rfl | ⟨w, hencode, hend⟩ := hrun.always_cases
  · exact header
  rw [passes_nil.mp hend]
  obtain ⟨hoff, hlength⟩ := lengthPass_of_phaseWrhdr hs.regions hwrhdr
  exact phaseEncode_keepsOutside hencode (hlength.trans hs.length) header ((phaseWrhdr_frame hwrhdr).outBase.trans hs.outBase)
    (Nat.zero_le _) (by rw [hoff])

theorem tablePhases_quiet (tm : TableMode) : QuietPlan (tablePhases tm) := by
  refine quietPlan_of_subset (i := compressOf tm) ?_ (by cases tm <;> decide)
  rw [compress_plan]
  exact List.subset_append_left _ _

theorem compress_keepsOutside {tm : TableMode} {s u : State} (h : Passes (commandOf (compressOf tm)).plan s u) :
    keepsOutside s u ((commandOf (compressOf tm)).writeSet s) := by
  rw [compress_plan] at h
  obtain hquiet | ⟨t, ht, hrun⟩ := h.append_cases
  · exact keepsOutside_of_mem (hquiet.mem_of_quiet (tablePhases_quiet tm)) _
  obtain rfl | ⟨v, hv, hrun⟩ := hrun.always_cases
  · exact keepsOutside_of_mem (tablesMade ht).mem _
  obtain ⟨n, hsized⟩ := streamSized (tablesMade ht) hv
  rw [compress_writeSet ht hv]
  exact streamPhases_keepsOutside hsized hrun

/-! ### Completions -/

/-- No state a run passes through differs from its start outside the command's write set. -/
theorem Passes.keepsOutside {i : Instr} {s u : State} (h : Passes (commandOf i).plan s u) :
    keepsOutside s u ((commandOf i).writeSet s) := by
  cases i
  case encode => exact encode_keepsOutside h
  case wrhdr => exact wrhdr_keepsOutside (tm := .freq) h
  case wrhdrC => exact wrhdr_keepsOutside (tm := .canon) h
  case decode => exact decode_keepsOutside h
  case compress => exact compress_keepsOutside (tm := .freq) h
  case compressC => exact compress_keepsOutside (tm := .canon) h
  case decompress => exact decompress_keepsOutside h
  all_goals exact keepsOutside_of_mem (h.mem_of_quiet (memoryless_quiet (by decide))) _

/-- A failed completion makes unspecified at most the bytes of the write set (60 R286). -/
theorem Command.failedAt_keepsOutside {c : Command} {s kept : State} (hbase : kept.outBase = s.outBase)
    (hk : keepsOutside s kept (c.writeSet s)) (p : Phase) (e : Raise) :
    keepsOutside s (c.failedAt s p e kept) (c.writeSet s) := by
  intro a ha
  unfold Command.failedAt
  split
  · refine Eq.trans ?_ (hk a ha)
    refine Memory.read_writeBytes_outside _ _ _ ?_
    rw [length_freeBytes, hbase]
    omega
  · exact hk a ha

/-- A completion is raced, a failure in a state the run passes through, or a success in the state it returns. -/
theorem Command.completed_passes (c : Command) {s : State} (h : s.raced = false) :
    (∃ p e kept, Passes c.plan s kept ∧ c.completed s = c.failedAt s p e kept)
      ∨ ∃ t, Passes c.plan s t ∧ c.completed s = t.succeeded (c.result t) := by
  obtain ⟨hraced, _⟩ | ⟨p, kept, a, hbus, e⟩ | ⟨t, hret, e⟩ | ⟨p, x, kept, hraise, e⟩ := c.completed_cases s
  · simp [h] at hraced
  · obtain ⟨k, _, _, _, _, _, hk⟩ := Command.busErrorAt_some hbus
    exact .inl ⟨p, _, kept, passes_of_reached (List.mem_of_getElem? hk), e⟩
  · exact .inr ⟨t, .inr hret, e⟩
  · exact .inl ⟨p, x, kept, passes_of_raised hraise, e⟩

theorem completed_keepsOutside {i : Instr} {s : State} (h : s.raced = false) :
    keepsOutside s ((commandOf i).completed s) ((commandOf i).writeSet s) := by
  obtain ⟨p, e, kept, hk, hc⟩ | ⟨t, ht, hc⟩ := (commandOf i).completed_passes h <;> rw [hc]
  · exact Command.failedAt_keepsOutside hk.frame.outBase hk.keepsOutside p e
  · exact ht.keepsOutside

/-- A raced command changes no byte outside the output region (20 R85). -/
theorem unconstrained_keepsOutside (s : State) (i : Instr) : keepsOutside s (s.unconstrained i) (0, s.outCap.toNat) :=
  fun _ ha => State.read_unspecifiedOutput _ 0 s.outCap.toNat ha (Nat.zero_le _)

/-- Settles O22: what a completion writes lies in the write set, or in the output region when the command was raced; the input region
is apart from both. -/
theorem memoryFrame : Obligations.MemoryFrame := by
  intro i s t a ht
  rw [exec_next_iff] at ht
  have fair : s.raced = false → keepsOutside s t ((commandOf i).writeSet s) := fun h => ht ▸ completed_keepsOutside h
  have raced : s.raced = true → keepsOutside s t (0, s.outCap.toNat) := fun h => by
    rw [← ht, Command.completed_raced _ h]
    exact unconstrained_keepsOutside s _
  refine ⟨fun h => fair h a, fun h => raced h a, fun hreg hlo hhi => ?_⟩
  cases h : s.raced with
  | false => exact fair h a (input_outside_output hreg _ (writeSet_le_outCap _ s) ⟨hlo, hhi⟩)
  | true => exact raced h a (input_outside_output hreg 0 le_rfl ⟨hlo, hhi⟩)

end Sys2Proof.Machine
end

section
/-!
The write set of each command in the values it leaves on success (20 R72): O23.
-/
namespace Sys2Proof.Machine

/-! ### Completions without ERR -/

/-- A command that was not raced and ends without ERR is one whose phases all returned (10 R28, 60 R284). -/
theorem exec_returned_of_fair {i : Instr} {s t : State} (hraced : s.raced = false) (h : exec i s = .next t)
    (herr : t.status.err = false) :
    ∃ u, runPlan (commandOf i).plan s = .returned u ∧ t = u.succeeded ((commandOf i).result u) := by
  rw [exec_next_iff] at h
  obtain ⟨hr, _⟩ | ⟨p, kept, a, _, e⟩ | ⟨u, hret, e⟩ | ⟨p, x, kept, _, e⟩ := (commandOf i).completed_cases s
  · simp [hraced] at hr
  · rw [← h, e, Command.failedAt_status_err] at herr
    cases herr
  · exact ⟨u, hret, h.symm.trans e⟩
  · rw [← h, e, Command.failedAt_status_err] at herr
    cases herr

theorem runPlan_checked_returned {useIn useOut : Bool} {ps : List PhaseStep} {s t : State}
    (h : runPlan (.always .check (regionCheck useIn useOut) :: ps) s = .returned t) :
    regionsOk useIn useOut s = true ∧ runPlan ps s = .returned t := by
  obtain ⟨u, hcheck, hrun⟩ := runPlan_always_returned h
  obtain ⟨rfl, hreg⟩ := regionCheck_ok hcheck
  exact ⟨hreg, hrun⟩

/-! ### The write set on success -/

/-- A command with an empty write set leaves memory as it was, on every outcome. -/
theorem completed_mem_of_memoryless {i : Instr} (hi : i ∈ memoryless) {s : State} (h : s.raced = false) :
    ((commandOf i).completed s).mem = s.mem := by
  obtain ⟨p, e, kept, hk, hc⟩ | ⟨t, ht, hc⟩ := (commandOf i).completed_passes h <;> rw [hc]
  · refine Eq.trans ?_ (hk.mem_of_quiet (memoryless_quiet hi))
    rw [Command.failedAt, memoryless_writeSet hi]
    split <;> rfl
  · exact ht.mem_of_quiet (memoryless_quiet hi)

theorem wrhdr_writeSet_of_returned {tm : TableMode} {s u : State} (h : runPlan (commandOf (wrhdrOf tm)).plan s = .returned u) :
    (commandOf (wrhdrOf tm)).writeSet s = (0, u.hdrLen.toNat) := by
  rw [wrhdr_plan] at h
  obtain ⟨hfits, rfl⟩ := phaseWrhdr_ok (eq_ok_of_runPlan_single (runPlan_checked_returned h).2)
  rw [wrhdr_writeSet, min_eq_left hfits]
  exact congrArg (Prod.mk 0) (Nat.mod_eq_of_lt (wrhdrLen_lt tm s)).symm

theorem encode_writeSet_of_returned {s u : State} (h : runPlan (commandOf .encode).plan s = .returned u) :
    (commandOf .encode).writeSet s = (s.payloadOff.toNat, s.payloadOff.toNat + u.totalBytes.toNat) := by
  obtain ⟨n, hn, hfits, rfl⟩ := phaseEncode_ok (eq_ok_of_runPlan_single (runPlan_checked_returned h).2)
  rw [encode_writeSet hn, min_eq_left hfits]
  exact congrArg (fun k => (_, _ + k)) (Nat.mod_eq_of_lt (ceilDiv_eight_lt hn)).symm

/-- A payload that decodes is one whose bytes fit, and leaves ORIG_LEN and OUT_CAP as they were. -/
theorem decodeTail_returned {s u : State} (h : runPlan decodeTail s = .returned u) :
    s.origLen.toNat ≤ s.outCap.toNat ∧ u.origLen = s.origLen ∧ u.outCap = s.outCap := by
  obtain ⟨v, hdcheck, hrun⟩ := runPlan_always_returned h
  obtain ⟨rfl, _, hfits⟩ := phaseDcheck_ok hdcheck
  obtain ⟨bs, _, rfl⟩ := phaseDecode_ok (eq_ok_of_runPlan_single hrun)
  exact ⟨hfits, rfl, rfl⟩

theorem decode_writeSet_of_returned {s u : State} (h : runPlan (commandOf .decode).plan s = .returned u) :
    (commandOf .decode).writeSet s = (0, s.origLen.toNat) := by
  obtain ⟨hfits, _⟩ := decodeTail_returned (runPlan_checked_returned h).2
  rw [decode_writeSet, min_eq_left hfits]

theorem decompress_writeSet_of_returned {s u : State} (h : runPlan (commandOf .decompress).plan s = .returned u) :
    (commandOf .decompress).writeSet s = (0, u.origLen.toNat) := by
  obtain ⟨hreg, hrun⟩ := runPlan_checked_returned h
  obtain ⟨v, hparse, hrun⟩ := runPlan_always_returned hrun
  obtain ⟨w, hrebuild, htail⟩ := runPlan_append_returned (ps := rebuildPhases) hrun
  obtain ⟨_, horig, _, hcap⟩ := Passes.rebuild_keeps (.inr hrebuild)
  obtain ⟨hfits, horig', _⟩ := decodeTail_returned htail
  rw [decompress_writeSet hreg hparse, ← horig, horig', min_eq_left]
  rwa [hcap, (phaseParsehdr_frame hparse).outCap] at hfits

theorem compress_writeSet_of_returned {tm : TableMode} {s u : State} (h : runPlan (commandOf (compressOf tm)).plan s = .returned u) :
    (commandOf (compressOf tm)).writeSet s = (0, u.hdrLen.toNat + u.totalBytes.toNat) := by
  rw [compress_plan] at h
  obtain ⟨t, ht, hrun⟩ := runPlan_append_returned h
  obtain ⟨v, hv, hrun⟩ := runPlan_always_returned hrun
  obtain ⟨n, hsized⟩ := streamSized (tablesMade ht) hv
  obtain ⟨v, hcheck, hchecked⟩ := runPlan_always_returned hrun
  obtain ⟨rfl, hfits⟩ := phaseCcheck_ok hcheck
  obtain ⟨w, hwrhdr, hwritten⟩ := runPlan_always_returned hchecked
  obtain ⟨_, hlength⟩ := lengthPass_of_phaseWrhdr hsized.regions hwrhdr
  obtain ⟨m, hm, _, rfl⟩ := phaseEncode_ok (eq_ok_of_runPlan_single hwritten)
  obtain rfl : n = m := Except.ok.inj ((hlength.trans hsized.length).symm.trans hm)
  have hhdr : w.hdrLen.toNat = wrhdrLen tm v := by
    rw [(phaseWrhdr_ok hwrhdr).2]
    exact Nat.mod_eq_of_lt (wrhdrLen_lt tm v)
  rw [compress_writeSet ht hv, ← hsized.outCap, min_eq_left hfits, hsized.need]
  exact congrArg₂ (fun j k => (0, j + k)) hhdr.symm (Nat.mod_eq_of_lt (ceilDiv_eight_lt hm)).symm

/-- Settles O23: the commands that write no memory have an empty write set, and each other one that ends without ERR returned from all its
phases, whose sizes are the registers' values. -/
theorem writeSets : Obligations.WriteSets := by
  intro s t hraced _
  refine ⟨fun i hi h => ⟨memoryless_writeSet hi s, ?_⟩, fun tm h herr => ?_, fun h herr => ?_, fun h herr => ?_, fun tm h herr => ?_,
    fun h herr => ?_⟩
  · rw [← (exec_next_iff i s t).mp h]
    exact completed_mem_of_memoryless hi hraced
  all_goals obtain ⟨u, hret, rfl⟩ := exec_returned_of_fair hraced h herr
  · exact (wrhdr_writeSet_of_returned hret :)
  · exact (encode_writeSet_of_returned hret :)
  · exact (decode_writeSet_of_returned hret :)
  · exact (compress_writeSet_of_returned hret :)
  · exact (decompress_writeSet_of_returned hret :)

end Sys2Proof.Machine
end

section
/-!
What the engine's phases raise (60 R280, R281): the checks' own codes, never BUS_ERROR.
-/
namespace Sys2Proof.Machine

/-! ### The raises of the phases -/

/-- A raise made by a check of the command itself (60 R280): not BUS_ERROR, and BAD_REGION only where the regions fail or with 4. -/
def CheckRaise (s : State) (e : Raise) : Prop :=
  e.code ≠ .busError ∧ (e.code = .badRegion → regionsOk true true s = false ∨ e.info = 4#64)

theorem checkRaise_of_code {s : State} {e : Raise} {c : ErrCode} (h : e.code = c) (hbus : c ≠ .busError) (hregion : c ≠ .badRegion) :
    CheckRaise s e := ⟨h ▸ hbus, fun hc => absurd (h.symm.trans hc) hregion⟩

theorem checkRaise_of_corrupt {s : State} {e : Raise} (h : e.code.corrupt = true) : CheckRaise s e := by
  refine checkRaise_of_code rfl ?_ ?_ <;> intro hc <;> rw [hc] at h <;> cases h

theorem regionCheck_error {useIn useOut : Bool} {s : State} {e : Raise} (h : regionCheck useIn useOut s = .error e) :
    e.code = .badRegion ∧ regionsOk useIn useOut s = false := by
  have hbad : regionsOk useIn useOut s = false := by
    refine Bool.eq_false_iff.mpr fun hok => ?_
    rw [regionCheck_of_ok hok] at h
    cases h
  refine ⟨?_, hbad⟩
  unfold regionCheck at h
  split at h
  · cases h; rfl
  · split at h
    · cases h; rfl
    · split at h <;> cases h
      rfl

/-- Regions that pass for both uses pass for either. -/
theorem regionsOk_of_both {s : State} (h : regionsOk true true s = true) (useIn useOut : Bool) : regionsOk useIn useOut s = true := by
  simp only [regionsOk, Bool.true_and, Bool.and_eq_true, Bool.not_eq_true'] at h
  obtain ⟨⟨hin, hout⟩, hoverlap⟩ := h
  simp [regionsOk, hin, hout, hoverlap]

theorem phaseCanon_error {s : State} {e : Raise} (h : phaseCanon s = .error e) : e.code = .badTable := by
  unfold phaseCanon at h
  split at h
  · split at h <;> cases h
    rfl
  · split at h <;> cases h
    rfl

theorem insertCodes_error {s : State} {bs : List (Fin 256)} {a : List Node} {e : Raise} (h : insertCodes s bs a = .error e) :
    e.code = .badTable := by
  induction bs generalizing a with
  | nil => cases h
  | cons b bs ih =>
    rw [insertCodes] at h
    split at h
    · cases h; rfl
    · exact ih h

theorem phaseCtree_error {s : State} {e : Raise} (h : phaseCtree s = .error e) : e.code = .badTable := by
  unfold phaseCtree at h
  split at h
  · next herr => cases h; exact insertCodes_error herr
  · cases h

theorem lengthPass_error {s : State} {e : Raise} (h : lengthPass s = .error e) : e.code = .noCode ∨ e.code = .sizeOverflow := by
  unfold lengthPass at h
  split at h
  · cases h; exact .inl rfl
  · split at h <;> cases h
    exact .inr rfl

theorem phaseEstimate_error {s : State} {e : Raise} (h : phaseEstimate s = .error e) : e.code = .noCode ∨ e.code = .sizeOverflow := by
  unfold phaseEstimate at h
  split at h
  · next herr => cases h; exact lengthPass_error herr
  · cases h

theorem phaseEncode_error {s : State} {e : Raise} (h : phaseEncode s = .error e) :
    (e.code = .noCode ∨ e.code = .sizeOverflow) ∨ e.code = .bufferTooSmall := by
  unfold phaseEncode at h
  split at h
  · next herr => cases h; exact .inl (lengthPass_error herr)
  · split at h <;> cases h
    exact .inr rfl

theorem phaseWrhdr_error {tm : TableMode} {s : State} {e : Raise} (h : phaseWrhdr tm s = .error e) : e.code = .bufferTooSmall := by
  unfold phaseWrhdr at h
  split at h <;> cases h
  rfl

theorem phaseCcheck_error {tm : TableMode} {s : State} {e : Raise} (h : phaseCcheck tm s = .error e) : e.code = .bufferTooSmall := by
  unfold phaseCcheck at h
  split at h <;> cases h
  rfl

theorem phaseDcheck_error {s : State} {e : Raise} (h : phaseDcheck s = .error e) :
    e = ⟨.badRegion, 4#64⟩ ∨ e.code = .bufferTooSmall := by
  unfold phaseDcheck at h
  split at h
  · cases h; exact .inl rfl
  · split at h <;> cases h
    exact .inr rfl

theorem headerFault_corrupt {s : State} {e : Raise} (h : headerFault s = some e) : e.code.corrupt = true := by
  unfold headerFault at h
  split at h
  · cases h; rfl
  · iterate 5
      split at h
      · cases h; rfl
    cases h

theorem parseEntries_corrupt {te : TableMode} {s : State} {k o lo : Nat} {e : Raise} (h : parseEntries te s k o lo = .error e) :
    e.code.corrupt = true := by
  induction k generalizing o lo with
  | zero => cases h
  | succ k ih =>
    rw [parseEntries] at h
    split at h
    · cases h; rfl
    · split at h
      · cases h; rfl
      · split at h
        · next herr => cases h; exact ih herr
        · cases h

theorem entriesFault_corrupt {te : TableMode} {olen : Nat} {es : List (Nat × Nat)} {e : Raise} (h : entriesFault te olen es = some e) :
    e.code.corrupt = true := by
  unfold entriesFault at h
  split at h
  · split at h <;> cases h
    rfl
  · iterate 2
      split at h
      · cases h; rfl
    split at h <;> cases h
    rfl

theorem phaseParsehdr_error {s : State} {e : Raise} (h : phaseParsehdr s = .error e) : e.code.corrupt = true := by
  unfold phaseParsehdr at h
  split at h
  · next herr => cases h; exact headerFault_corrupt herr
  · split at h
    · next herr => cases h; exact parseEntries_corrupt herr
    · split at h
      · next herr => cases h; exact entriesFault_corrupt herr
      · cases h

theorem walkCode_corrupt {node : Vector Node 511} {root i : Index} {k : Nat} {bits : List Bool} {e : Raise}
    (h : walkCode node root k i bits = .error e) : e.code.corrupt = true := by
  induction bits generalizing i with
  | nil =>
    rw [walkCode] at h
    split at h
    · cases h
    · split at h <;> cases h <;> rfl
  | cons c cs ih =>
    rw [walkCode] at h
    split at h
    · cases h
    · split at h
      · cases h; rfl
      · exact ih h

theorem decodeSymbol_corrupt {node : Vector Node 511} {root : Index} {k : Nat} {bits : List Bool} {e : Raise}
    (h : decodeSymbol node root k bits = .error e) : e.code.corrupt = true := by
  unfold decodeSymbol at h
  split at h
  · cases h; rfl
  · split at h
    · next herr => cases h; exact walkCode_corrupt herr
    · split at h <;> cases h
      rfl

theorem decodeSymbols_corrupt {node : Vector Node 511} {root : Index} {m k : Nat} {bits : List Bool} {e : Raise}
    (h : decodeSymbols node root m k bits = .error e) : e.code.corrupt = true := by
  induction m generalizing k bits with
  | zero => cases h
  | succ m ih =>
    rw [decodeSymbols] at h
    split at h
    · next herr => cases h; exact decodeSymbol_corrupt herr
    · split at h
      · next herr => cases h; exact ih herr
      · cases h

theorem endFault_corrupt {m n : Nat} {left : List Bool} {e : Raise} (h : endFault m n left = some e) : e.code.corrupt = true := by
  unfold endFault at h
  split at h
  · cases h; rfl
  · split at h <;> cases h
    rfl

theorem phaseDecode_error {s : State} {e : Raise} (h : phaseDecode s = .error e) : e.code.corrupt = true := by
  unfold phaseDecode decodePayload at h
  split at h
  · next herr =>
    cases h
    split at herr
    · next herr' => cases herr; exact decodeSymbols_corrupt herr'
    · split at herr
      · next herr' => cases herr; exact endFault_corrupt herr'
      · cases herr
  · cases h

theorem EnginePhase.checkRaise {p : PhaseStep} (hp : EnginePhase p) {s : State} {e : Raise} (h : p.body s = .error e) :
    CheckRaise s e := by
  cases hp with
  | check useIn useOut =>
    obtain ⟨hcode, hbad⟩ := regionCheck_error h
    refine ⟨by rw [hcode]; decide, fun _ => .inl (Bool.eq_false_iff.mpr fun hok => ?_)⟩
    rw [regionsOk_of_both hok] at hbad
    cases hbad
  | hist => cases h
  | build => cases h
  | derive tm =>
    obtain ⟨l, c, hok, _⟩ := phaseDerive_ok tm s
    cases hok.symm.trans h
  | canon => exact checkRaise_of_code (phaseCanon_error h) (by decide) (by decide)
  | ctree => exact checkRaise_of_code (phaseCtree_error h) (by decide) (by decide)
  | estimate => obtain hc | hc := phaseEstimate_error h <;> exact checkRaise_of_code hc (by decide) (by decide)
  | encode =>
    obtain (hc | hc) | hc := phaseEncode_error h <;> exact checkRaise_of_code hc (by decide) (by decide)
  | wrhdr => exact checkRaise_of_code (phaseWrhdr_error h) (by decide) (by decide)
  | parsehdr => exact checkRaise_of_corrupt (phaseParsehdr_error h)
  | dcheck =>
    obtain rfl | hc := phaseDcheck_error h
    · exact ⟨by decide, fun _ => .inr rfl⟩
    · exact checkRaise_of_code hc (by decide) (by decide)
  | decode => exact checkRaise_of_corrupt (phaseDecode_error h)
  | ccheck => exact checkRaise_of_code (phaseCcheck_error h) (by decide) (by decide)

/-- The raise that ends a run is a check's, in a state with the run's regions. -/
theorem runPlan_checkRaise {i : Instr} {s kept : State} {p : Phase} {e : Raise} (h : runPlan (commandOf i).plan s = .raised p e kept) :
    CheckRaise s e := by
  obtain ⟨q, hq, _, hbody⟩ := runPlan_raised_body h
  obtain ⟨hbus, hregion⟩ := (plan_enginePhase i q hq).checkRaise hbody
  have frame := runPlan_raised_frame h
  refine ⟨hbus, fun hc => (hregion hc).imp_left fun hbad => ?_⟩
  rwa [regionsOk, inWraps, outWraps, regionsOverlap, frame.inBase, frame.inLen, frame.outBase, frame.outCap] at hbad

end Sys2Proof.Machine
end

section
/-!
RegionCheck's three raises (20 R73; O28), and when a command ends with BUS_ERROR (20 R80, 60 R283; O27).
-/
namespace Sys2Proof.Machine

/-! ### RegionCheck (20 R73) -/

/-- A command that uses a region checks the regions it uses before any other work. -/
theorem plan_checked {i : Instr} (h : (usesIn i || usesOut i) = true) :
    ∃ ps, (commandOf i).plan = .always .check (regionCheck (usesIn i) (usesOut i)) :: ps := by
  cases i
  case build | derive | deriveC | canon | ctree => cases h
  all_goals exact ⟨_, rfl⟩

theorem exec_of_regionCheck_error {i : Instr} {s : State} {e : Raise} (hu : s.undisturbed = true)
    (huses : (usesIn i || usesOut i) = true) (h : regionCheck (usesIn i) (usesOut i) s = .error e) :
    exec i s = .next (s.failed .check e) := by
  obtain ⟨ps, hplan⟩ := plan_checked huses
  rw [exec_eq, Command.completed_undisturbed _ hu, hplan, runPlan_always_error h]
  rfl

/-- Settles O28: the three raises of RegionCheck in their order, and every other BAD_REGION is P_DCHECK's. -/
theorem regionCheckErrors : Obligations.RegionCheckErrors := by
  intro i s hu
  refine ⟨fun hin hwrap => ?input, fun hout hin hwrap => ?output, fun hin hout hi ho hlen hcap hlt hgt => ?overlap,
    fun hreg t ht hcode hbad => ?other⟩
  case input =>
    have hwraps : inWraps s = true := decide_eq_true hwrap
    exact exec_of_regionCheck_error hu (by simp [hin]) (by simp [regionCheck, hin, hwraps])
  case output =>
    have hno : (usesIn i && inWraps s) = false := by
      cases h : usesIn i with
      | false => rfl
      | true => exact decide_eq_false (not_lt.mpr (hin h))
    have hwraps : outWraps s = true := decide_eq_true hwrap
    exact exec_of_regionCheck_error hu (by simp [hout]) (by simp [regionCheck, hno, hout, hwraps])
  case overlap =>
    have hnoIn : inWraps s = false := decide_eq_false (not_lt.mpr hi)
    have hnoOut : outWraps s = false := decide_eq_false (not_lt.mpr ho)
    have hoverlap : regionsOverlap s = true := by simp [regionsOverlap, hlen, hcap, hlt, hgt]
    exact exec_of_regionCheck_error hu (by simp [hin]) (by simp [regionCheck, hin, hout, hnoIn, hnoOut, hoverlap])
  case other =>
    rw [exec_eq, Command.completed_undisturbed _ hu, Host.Outcome.next.injEq] at ht
    split at ht
    · next u hret =>
      rw [← ht, State.succeeded_status, (runPlan_returned_frame hret).errCode, hcode] at hbad
      cases hbad
    · next p e kept hraise =>
      rw [← ht] at hbad ⊢
      exact ((runPlan_checkRaise hraise).2 hbad).resolve_left (by simp [hreg])

/-! ### BUS_ERROR (20 R80) -/

/-- A reply in a reached phase after the first, at an address the command may access, draws a BUS_ERROR where the address faults. -/
theorem busErrorAt_of_reply {c : Command} {s kept : State} {k : Nat} {a : Word} {p : Phase} (hreply : s.reply = some (k, a))
    (hk : 1 ≤ k) (hpos : s.pos ≤ k) (hacc : c.accesses s a = true) (hreached : (reached c.plan s)[k]? = some (p, kept)) :
    c.busErrorAt s = if Config.busFault a then some (p, kept, a) else none := by
  cases hf : Config.busFault a <;> simp [Command.busErrorAt, hreply, hk, hpos, hacc, hf, hreached]

theorem completed_of_busErrorAt {c : Command} {s kept : State} {p : Phase} {a : Word} (hraced : s.raced = false)
    (h : c.busErrorAt s = some (p, kept, a)) : c.completed s = c.failedAt s p ⟨.busError, a⟩ kept := by
  simp [Command.completed, hraced, h]

/-- Without a draw a command ends with no BUS_ERROR. -/
theorem completed_errCode_ne_busError {i : Instr} {s : State} (hraced : s.raced = false) (hcode : s.status.errCode = .none)
    (h : (commandOf i).busErrorAt s = none) : ((commandOf i).completed s).status.errCode ≠ .busError := by
  obtain ⟨hr, _⟩ | ⟨p, kept, a, hbus, _⟩ | ⟨u, hret, e⟩ | ⟨p, x, kept, hraise, e⟩ := (commandOf i).completed_cases s
  · simp [hraced] at hr
  · simp [h] at hbus
  · rw [e, State.succeeded_status, (runPlan_returned_frame hret).errCode, hcode]
    decide
  · rw [e]
    exact (runPlan_checkRaise hraise).1

/-- A failed completion of a run that reached `kept` (60 R284(4)). -/
theorem Command.failedWith_failedAt {c : Command} {s kept : State} (f : PhaseFrame s kept) (p : Phase) (e : Raise) :
    failedWith s (c.failedAt s p e kept) p e.code e.info := by
  unfold Command.failedAt
  have hstatus := congrArg (fun t : Status => { t with err := true, errCode := e.code, phase := p }) f.status
  split <;> exact ⟨rfl, rfl, rfl, hstatus⟩

theorem Command.sameRegs_failedAt (c : Command) (s kept : State) (p : Phase) (e : Raise) :
    sameRegs (fun _ => true) kept (c.failedAt s p e kept) := by
  unfold Command.failedAt
  split <;> simp [sameRegs]

/-- Outside a phase that writes memory a failure leaves memory as the earlier phases committed it (60 R286(a)). -/
theorem Command.failedAt_mem {c : Command} {s kept : State} {p : Phase} (hp : p.writesMemory = false) (e : Raise) :
    (c.failedAt s p e kept).mem = kept.mem := by simp [Command.failedAt, leavesBytes, hp]

theorem readSet_of_reads {c : Command} {s : State} (h : c.reads s = noBytes) : c.readSet s = (0, 0) := by
  rw [Command.readSet, h]
  exact congrArg (Prod.mk 0) (Nat.zero_min _)

@[simp] theorem inSpan_empty (base : Word) (a : Nat) : inSpan base (0, 0) a = false := by
  simp only [inSpan, Bool.and_eq_false_iff, decide_eq_false_iff_not]
  omega

/-- A command that uses no region accesses no address. -/
theorem accesses_of_no_region {i : Instr} (h : (usesIn i || usesOut i) = false) (s : State) (a : Word) :
    (commandOf i).accesses s a = false := by
  have hi : i ∈ memoryless ∧ (commandOf i).reads s = noBytes := by
    cases i
    case build | derive | deriveC | canon | ctree => exact ⟨by decide, rfl⟩
    all_goals cases h
  obtain ⟨hmem, hreads⟩ := hi
  simp [Command.accesses, readSet_of_reads hreads, memoryless_writeSet hmem]

/-- Settles O27: the draw decides between a failure with BUS_ERROR at the reply's phase and the run's own ending, which is never one. -/
theorem busErrorDraw : Obligations.BusErrorDraw := by
  refine ⟨fun i s kept k a p hraced hreply hk hpos hacc hreached hcode => ⟨_, exec_eq i s, fun hf => ?noFault, fun hf => ?fault⟩,
    fun i s t hraced hcode hnone ht => ?never, fun i s t hraced hcode ht hbus => ?converse⟩
  case noFault =>
    have draw := busErrorAt_of_reply hreply hk hpos hacc hreached
    rw [hf] at draw
    exact completed_errCode_ne_busError hraced hcode draw
  case fault =>
    have draw := busErrorAt_of_reply hreply hk hpos hacc hreached
    rw [hf] at draw
    rw [completed_of_busErrorAt hraced draw]
    refine ⟨Command.failedWith_failedAt (busErrorAt_frame draw) p _, Command.sameRegs_failedAt .., fun hw he hd => ?_⟩
    exact Command.failedAt_mem (by cases p <;> simp_all [Phase.writesMemory]) _
  case never =>
    rw [← (exec_next_iff i s t).mp ht]
    refine completed_errCode_ne_busError hraced hcode (Option.eq_none_iff_forall_ne_some.mpr fun ⟨p, kept, a⟩ h => ?_)
    obtain ⟨_, _, _, _, hacc, hf, _⟩ := Command.busErrorAt_some h
    simp [hnone a hacc] at hf
  case converse =>
    rw [exec_next_iff] at ht
    cases hdraw : (commandOf i).busErrorAt s with
    | none => exact absurd (ht ▸ hbus) (completed_errCode_ne_busError hraced hcode hdraw)
    | some x =>
      obtain ⟨p, kept, a⟩ := x
      obtain ⟨k, hreply, hk, hpos, hacc, hf, hreached⟩ := Command.busErrorAt_some hdraw
      have failed := Command.failedWith_failedAt (c := commandOf i) (busErrorAt_frame hdraw) p ⟨.busError, a⟩
      have regs := (commandOf i).sameRegs_failedAt s kept p ⟨.busError, a⟩
      rw [← completed_of_busErrorAt hraced hdraw, ht] at failed regs
      obtain ⟨_, _, hinfo, hstatus⟩ := id failed
      have hphase : t.status.phase = p := by rw [hstatus]
      rw [hphase, hinfo]
      refine ⟨k, kept, hreply, hk, hpos, hacc, hf, ?first, hreached, failed, regs⟩
      case first =>
        have huses : (usesIn i || usesOut i) = true := by
          by_contra hno
          rw [accesses_of_no_region (Bool.eq_false_iff.mpr hno)] at hacc
          cases hacc
        obtain ⟨ps, hplan⟩ := plan_checked huses
        simp [hplan, reached, PhaseStep.always]

end Sys2Proof.Machine
end

section
/-!
The completion of a raced command (20 R85), and what a host store, a host load and the marks of a race are (20 R71, R78(d), R84,
30 R110): O26.
-/
namespace Sys2Proof.Machine

/-! ### The raced completion (20 R85) -/

/-- The causes a raced command may end with are the 13 causes of an error (60 R280). -/
theorem errCodes_getD_ne_none (k : Nat) : errCodes.getD k .busError ≠ .none := by
  have hmem : errCodes.getD k .busError ∈ errCodes := by
    rcases lt_or_ge k errCodes.length with hk | hk
    · rw [List.getD_eq_getElem _ _ hk]
      exact List.getElem_mem hk
    · rw [List.getD_eq_default _ _ hk]
      decide
  have hall : ∀ c ∈ errCodes, c ≠ .none := by decide
  exact hall _ hmem

@[simp] theorem State.unconstrained_status (s : State) (i : Instr) : (s.unconstrained i).status = freeStatus s.status s.draws := rfl

/-- A raced command ends with DONE or with ERR, and with ERR an error code (log entry 21). -/
theorem freeStatus_ends (t : Status) (d : Nat) : (freeStatus t d).done = !(freeStatus t d).err
    ∧ ((freeStatus t d).err = true → (freeStatus t d).errCode ≠ .none) := by
  refine ⟨(Bool.not_not _).symm, fun herr => ?_⟩
  have hfree : freeBool d 0 = false := by simpa [freeStatus] using herr
  simp only [freeStatus, hfree]
  exact errCodes_getD_ne_none _

theorem ite_of_kept {α : Type} {written : Bool} (h : (!written) = true) (free kept : α) : (if written then free else kept) = kept := by
  simp_all

/-- No register outside the write set changes (20 R85). -/
theorem State.sameRegs_unconstrained (s : State) (i : Instr) : sameRegs (fun r => !writesReg i r) s (s.unconstrained i) :=
  ⟨rfl, rfl, rfl, rfl, rfl, rfl, rfl, fun h => ite_of_kept h _ _, fun h => ite_of_kept h _ _, fun h => ite_of_kept h _ _,
    fun h => ite_of_kept h _ _, fun h => ite_of_kept h _ _, fun h => ite_of_kept h _ _,
    fun h => ⟨ite_of_kept h _ _, ite_of_kept h _ _⟩, fun h => ite_of_kept h _ _,
    fun b h => congrArg (·[b]) (ite_of_kept h _ s.hist), fun b h => congrArg (·[b]) (ite_of_kept h _ s.len),
    fun b _ h => congrArg (·[b]) (ite_of_kept h _ s.code), fun n _ h => congrArg (·[n]) (ite_of_kept h _ s.node)⟩

/-! ### The marks of a race, host stores and loads -/

theorem inWindow_eq_true {a : Nat} : inWindow a = true ↔ Config.mmioBase ≤ a ∧ a < Config.mmioBase + 0x8000 := by simp [inWindow]

theorem inWindow_eq_false {a : Nat} : inWindow a = false ↔ a < Config.mmioBase ∨ Config.mmioBase + 0x8000 ≤ a := by
  rw [← Bool.not_eq_true, inWindow_eq_true]
  omega

theorem inInput_eq (s : State) (a : Nat) :
    inInput s a = decide (s.inBase.toNat ≤ a ∧ a < s.inBase.toNat + s.inLen.toNat) := (Bool.decide_and _ _).symm

theorem inOutput_eq (s : State) (a : Nat) :
    inOutput s a = decide (s.outBase.toNat ≤ a ∧ a < s.outBase.toNat + s.outCap.toNat) := (Bool.decide_and _ _).symm

/-- The mark of a race is put on the command that runs, if one does. -/
theorem State.withRace_eq (s : State) : s.withRace = { s with running := s.running.map fun run => { run with raced := true } } := by
  unfold State.withRace
  split
  · next run hr => rw [hr]; rfl
  · next hr => rw [hr]; exact congrArg (fun r => { s with running := r }) hr

/-- A host store writes its byte, and marks the command that runs as raced where the byte is of its regions (20 R85). -/
theorem hostStore_eq (s : State) (x : Word) (v : Byte) : hostStore s x v = { s with
    mem := s.mem.write x.toNat v
    running := s.running.map fun run => { run with raced := run.raced || inInput s x.toNat || inOutput s x.toNat } } := by
  cases hr : s.running with
  | none => simp [hostStore, State.busy, hr]
  | some run =>
    cases hin : inInput s x.toNat <;> cases hout : inOutput s x.toNat <;>
      simp [hostStore, State.busy, State.withRace, hr, hin, hout]

theorem touchesWindow_eq_true {base len : Word} : touchesWindow base len = true ↔
    0 < len.toNat ∧ base.toNat < Config.mmioBase + 0x8000 ∧ Config.mmioBase < base.toNat + len.toNat := by simp [touchesWindow]

/-- WRM is one byte store after another (30 R110). -/
theorem stmtWrm_eq (x : Word) (bs : List Byte) :
    stmtWrm x bs = bs.zipIdx.map fun b => .host (.memWrite (x + BitVec.ofNat 64 b.2) b.1) := by
  induction bs generalizing x with
  | nil => rfl
  | cons b bs ih =>
    have hnext : ∀ k, x + 1#64 + BitVec.ofNat 64 k = x + BitVec.ofNat 64 (k + 1) := fun k => by
      rw [BitVec.add_assoc, ← BitVec.ofNat_add, Nat.add_comm]
    simp [stmtWrm, ih, hnext, List.zipIdx_cons, List.zipIdx_succ, Function.comp_def]

theorem hostStep_memWrite {x : Word} (h : inWindow x.toNat = false) (s : State) (v : Byte) :
    hostStep (.memWrite x v) s = .next { s with
      mem := s.mem.write x.toNat v
      running := s.running.map fun run => { run with raced := run.raced || inInput s x.toNat || inOutput s x.toNat } } := by
  rw [← hostStore_eq]
  simp [hostStep, h]

theorem hostStep_memRead {x : Word} (h : inWindow x.toNat = false) (s : State) :
    hostStep (.memRead x) s = .next (hostLoad s x) := by simp [hostStep, h]

/-- Settles O26: a raced completion is the unconstrained outcome, and a host access outside the register window a store or a load. -/
theorem racedCommandCompletes : Obligations.RacedCommandCompletes := by
  refine ⟨fun i s hraced => ?completes,
    fun s x v => ⟨fun hin => ?fault, fun hout => ⟨fun w => ?store, fun h => ?load, fun hr ho => ?busyLoad⟩⟩,
    fun s => congrArg Host.Outcome.next s.withRace_eq, fun s w i hrst hidle hw => ?accepted, stmtWrm_eq⟩
  case completes =>
    refine ⟨s.unconstrained i, ?_, rfl, ?_⟩
    · rw [exec_eq, Command.completed_raced _ hraced, commandOf_name]
    · obtain ⟨hends, herr⟩ := freeStatus_ends s.status s.draws
      obtain ⟨_, hdone⟩ := statusOk_of_freeStatus (s.unconstrained_status i)
      exact ⟨hends, hdone, herr, s.sameRegs_unconstrained i, unconstrained_keepsOutside s i⟩
  case fault =>
    have hwin := inWindow_eq_true.mpr hin
    constructor <;> simp [hostStep, hwin]
  case store =>
    refine ⟨_, hostStep_memWrite (inWindow_eq_false.mpr hout) s v, ?_, Memory.read_write_same w x.isLt v,
      fun a ha => Memory.read_write_ne _ v ha⟩
    rw [inInput_eq, inOutput_eq]
  case load =>
    have hno : (s.busy && inOutput s x.toNat) = false := by
      rw [inOutput_eq, Bool.and_eq_false_iff]
      exact h.imp_left State.busy_eq_false.mpr
    rw [hostStep_memRead (inWindow_eq_false.mpr hout), hostLoad, hno]
    rfl
  case busyLoad =>
    have hyes : (s.busy && inOutput s x.toNat) = true := by
      rw [inOutput_eq, Bool.and_eq_true]
      exact ⟨hr, ho⟩
    refine ⟨Config.free 8 s.draws 0, ?_⟩
    rw [hostStep_memRead (inWindow_eq_false.mpr hout), hostLoad, hyes]
    rfl
  case accepted =>
    refine ⟨_, hostStep_cmdWrite_of_idle hrst hidle w, ?_⟩
    rw [issue_of_legal hw]
    show (touchesWindow s.inBase s.inLen || touchesWindow s.outBase s.outCap) = true ↔ _
    rw [Bool.or_eq_true, touchesWindow_eq_true, touchesWindow_eq_true]

end Sys2Proof.Machine
end

section
/-!
The decoder and the encoder (30 R103, R106, R108): the words of the map are the encoder's, byte lanes hold exactly one word, and which
words are illegal.
-/
namespace Sys2Proof

/-! ### The words of the map (30 R103, R111) -/

theorem decode_encode (i : Instr) : decode (encode i) = .ok i := by cases i <;> decide

theorem decode_eq_ok {w : Word} {i : Instr} : decode w = .ok i ↔ w = encode i :=
  ⟨Machine.eq_encode_of_decode, fun h => h ▸ decode_encode i⟩

theorem encode_injective : Function.Injective encode := fun i j h =>
  Except.ok.inj ((decode_encode i).symm.trans (h ▸ decode_encode j))

/-! ### Byte lanes (20 R74(c)) -/

theorem laneValue_lt (bs : List Byte) : laneValue bs < 256 ^ bs.length := by
  induction bs with
  | nil => exact Nat.one_pos
  | cons b bs ih =>
    have := b.isLt
    rw [laneValue, List.length_cons, Nat.pow_succ']
    omega

/-- Lists of lanes of one length that hold the same value are the same. -/
theorem eq_of_laneValue_eq {bs cs : List Byte} (hlen : bs.length = cs.length) (h : laneValue bs = laneValue cs) : bs = cs := by
  induction bs generalizing cs with
  | nil => exact (List.eq_nil_of_length_eq_zero hlen.symm).symm
  | cons b bs ih =>
    cases cs with
    | nil => cases hlen
    | cons c cs =>
      have hb := b.isLt
      have hc := c.isLt
      simp only [laneValue] at h
      have hhead : b = c := BitVec.eq_of_toNat_eq (by omega)
      have htail : bs = cs := ih (Nat.succ.inj hlen) (by omega)
      rw [hhead, htail]

/-- Lanes that decode are the eight lanes of the command's word. -/
theorem eq_wordLanes_of_decodeLanes {bs : List Byte} {i : Instr} (h : decodeLanes bs = .ok i) : bs = wordLanes (encode i) := by
  unfold decodeLanes at h
  split at h
  · next hlen =>
    have hlt : laneValue bs < 2 ^ 64 := lt_of_lt_of_eq (laneValue_lt bs) (by rw [hlen]; rfl)
    refine eq_of_laneValue_eq (hlen.trans (length_wordLanes _).symm) ?_
    rw [laneValue_wordLanes, ← decode_eq_ok.mp h, BitVec.toNat_ofNat, Nat.mod_eq_of_lt hlt]
  · cases h

/-- Settles O2: a command's word has one list of lanes, and it alone decodes to the command. -/
theorem decodeEncodeAgree : Obligations.DecodeEncodeAgree :=
  ⟨fun i => (decodeLanes_wordLanes _).trans (decode_encode i), fun _ _ => eq_wordLanes_of_decodeLanes, fun _ _ => decode_eq_ok,
    decodeLanes_wordLanes⟩

/-! ### Illegal words (30 R106) -/

/-- The row of a command (30 R103). -/
def rowOf (i : Instr) : OpcodeRow := ⟨encode i, fullMask, i⟩

theorem rowOf_mem (i : Instr) : rowOf i ∈ opcodeRows := by cases i <;> decide

theorem eq_rowOf_of_mem {r : OpcodeRow} (h : r ∈ opcodeRows) : r = rowOf r.instr := by
  obtain ⟨hmask, hpattern⟩ := Machine.opcodeRows_encode r h
  rw [rowOf, ← hmask, ← hpattern]

theorem and_fullMask (w : Word) : w &&& fullMask = w := BitVec.and_allOnes

/-- The OPC and the TM that R106(a) to (c) allow are those of a row. -/
theorem exists_row_of_fields : ∀ (opc : Fin 13) (tm : Bool), opc.val ≠ 0 → (tm = true → opc.val ∈ [3, 8, 11]) →
    ∃ r ∈ opcodeRows, r.pattern.toNat = opc.val + 256 * tm.toNat := by decide

/-- A bit of 63:9 is 1 exactly when the field they make is not 0. -/
theorem reservedZero_eq_false {w : Word} : reservedZero w = false ↔ ∃ k, 9 ≤ k ∧ k < 64 ∧ w.getLsbD k = true := by
  rw [reservedZero, beq_eq_false_iff_ne, ne_eq, BitVec.eq_of_getLsbD_eq_iff]
  push Not
  constructor
  · rintro ⟨i, hi, hbit⟩
    exact ⟨9 + i, by omega, by omega, by simpa [hi] using hbit⟩
  · rintro ⟨k, hlo, hhi, hbit⟩
    exact ⟨k - 9, by omega, by simp [show k - 9 < 55 by omega, show 9 + (k - 9) = k by omega, hbit]⟩

/-- With bits 63:9 at 0 a word is its TM and its OPC (30 R100). -/
theorem toNat_of_reservedZero {w : Word} (h : reservedZero w = true) : w.toNat = (wordOpc w).toNat + 256 * (wordTm w).toNat := by
  have hres : w.toNat / 512 = 0 := by
    have hfield := congrArg BitVec.toNat (eq_of_beq h)
    rw [BitVec.extractLsb'_toNat, Nat.shiftRight_eq_div_pow, BitVec.toNat_ofNat] at hfield
    omega
  have hopc : (wordOpc w).toNat = w.toNat % 256 := by simp [wordOpc]
  have htm : (wordTm w).toNat = w.toNat / 256 % 2 := Nat.toNat_testBit w.toNat 8
  omega

theorem opcTakesTm_iff {w : Word} : opcTakesTm w = true ↔ (wordOpc w).toNat ∈ [3, 8, 11] := by
  simp [opcTakesTm, BitVec.toNat_eq, or_assoc]

/-- A word is legal exactly when it is the word of a command. -/
theorem wellFormedWord_eq_true {w : Word} : wellFormedWord w = true ↔ ∃ i, w = encode i := by
  constructor
  · intro h
    simp only [wellFormedWord, Bool.and_eq_true] at h
    obtain ⟨⟨⟨hopc, hassigned⟩, htm⟩, hres⟩ := h
    have hne : (wordOpc w).toNat ≠ 0 := fun e => by simp [opcNonzero, BitVec.eq_of_toNat_eq (y := 0#8) e] at hopc
    have htakes : wordTm w = true → (wordOpc w).toNat ∈ [3, 8, 11] := fun ht =>
      opcTakesTm_iff.mp (by simpa [tmAllowed, ht] using htm)
    obtain ⟨r, hr, hpattern⟩ := exists_row_of_fields ⟨_, of_decide_eq_true hassigned⟩ (wordTm w) hne htakes
    refine ⟨r.instr, BitVec.eq_of_toNat_eq ?_⟩
    rw [toNat_of_reservedZero hres, ← hpattern, (Machine.opcodeRows_encode r hr).2]
  · rintro ⟨i, rfl⟩
    cases i <;> decide

theorem decode_cases (w : Word) : (∃ i, decode w = .ok i) ∨ decode w = .error (illegalReason w) := by
  unfold decode
  split
  · exact .inl ⟨_, rfl⟩
  · exact .inr rfl

theorem decode_of_illegal {w : Word} (h : wellFormedWord w = false) : decode w = .error (illegalReason w) :=
  (decode_cases w).resolve_left fun ⟨i, hi⟩ => by
    rw [wellFormedWord_eq_true.mpr ⟨i, decode_eq_ok.mp hi⟩] at h
    cases h

/-- The clauses of R106, in its words. -/
theorem wellFormedWord_eq_false {w : Word} : wellFormedWord w = false ↔
    wordOpc w = 0x00#8 ∨ 0x0D ≤ (wordOpc w).toNat
      ∨ (wordTm w = true ∧ wordOpc w ≠ 0x03#8 ∧ wordOpc w ≠ 0x08#8 ∧ wordOpc w ≠ 0x0B#8)
      ∨ ∃ k, 9 ≤ k ∧ k < 64 ∧ w.getLsbD k = true := by
  simp only [wellFormedWord, Bool.and_eq_false_iff, reservedZero_eq_false, or_assoc]
  simp [opcNonzero, opcAssigned, tmAllowed, opcTakesTm, and_assoc]

/-- A word of the map selects its command's row and no other (30 R103). -/
theorem existsUnique_row (i : Instr) : ∃! r, r ∈ opcodeRows ∧ encode i &&& r.mask = r.pattern := by
  refine ⟨rowOf i, ⟨rowOf_mem i, and_fullMask _⟩, fun r ⟨hr, hsel⟩ => ?_⟩
  rw [eq_rowOf_of_mem hr] at hsel ⊢
  exact congrArg rowOf (encode_injective ((and_fullMask _).symm.trans hsel)).symm

/-- Settles O1: the 15 words are the encoder's, and each other word fails a clause of R106. -/
theorem specWordsDecode : Obligations.SpecWordsDecode := by
  constructor
  · and_intros <;> exact decode_eq_ok.mpr rfl
  · and_intros <;> exact decode_of_illegal (by decide)

end Sys2Proof

namespace Sys2Proof.Machine

theorem issue_of_illegal {s : State} {w : Word} {e : IllegalWord} (h : Sys2Proof.decode w = .error e) : issue s w = s.rejected w := by
  simp [issue, h]

/-- Settles O3: the illegal words are those the model calls ill-formed, and every other one is a command's word. -/
theorem illegalWords : Obligations.IllegalWords := by
  intro w illegal
  have hillegal : illegal ↔ wellFormedWord w = false := wellFormedWord_eq_false.symm
  refine ⟨fun h => ⟨⟨_, decode_of_illegal (hillegal.mp h)⟩, fun s hrst hidle => ?_⟩, fun h => ?_⟩
  · rw [writeReg_of_idle hrst hidle]
    exact issue_of_illegal (decode_of_illegal (hillegal.mp h))
  · obtain ⟨i, rfl⟩ := wellFormedWord_eq_true.mp (Bool.not_eq_false _ ▸ mt hillegal.mpr h)
    exact existsUnique_row i

/-- Settles O7: a CMD write while idle is `issue`, which accepts a legal word and rejects an illegal one. -/
theorem issueCommand : Obligations.IssueCommand := by
  intro s w hrst hidle
  have hwrite := hostStep_cmdWrite_of_idle hrst hidle w
  refine ⟨fun i hi => ⟨s.accepted w i, ?_, rfl, fun hevents => step_of_latched (s := s.accepted w i) hevents rfl⟩, fun e he => ?_⟩
  · rw [← issue_of_legal hi]
    exact hwrite
  · exact hwrite.trans (congrArg _ (issue_of_illegal he))

end Sys2Proof.Machine
end

section
/-!
The frame of every command (30 R109): which registers and RAMs each phase may write, and what a completion keeps of the state its run
passes through; from these O21.
-/
namespace Sys2Proof.Machine

/-! ### The frame relations -/

theorem sameRegs.refl (keep : Reg → Bool) (s : State) : sameRegs keep s s := by simp [sameRegs]

theorem sameRegs.trans {keep : Reg → Bool} {s t u : State} (h : sameRegs keep s t) (k : sameRegs keep t u) : sameRegs keep s u := by
  obtain ⟨ie, workers, cmd, inBase, inLen, outBase, outCap, origLen, payloadOff, totalBits, totalBytes, hdrLen, nsym, tree, te, hist,
    len, code, node⟩ := h
  obtain ⟨ie', workers', cmd', inBase', inLen', outBase', outCap', origLen', payloadOff', totalBits', totalBytes', hdrLen', nsym',
    tree', te', hist', len', code', node'⟩ := k
  exact ⟨ie'.trans ie, workers'.trans workers, cmd'.trans cmd, inBase'.trans inBase, inLen'.trans inLen,
    outBase'.trans outBase, outCap'.trans outCap, fun r => (origLen' r).trans (origLen r),
    fun r => (payloadOff' r).trans (payloadOff r), fun r => (totalBits' r).trans (totalBits r),
    fun r => (totalBytes' r).trans (totalBytes r), fun r => (hdrLen' r).trans (hdrLen r), fun r => (nsym' r).trans (nsym r),
    fun r => ⟨(tree' r).1.trans (tree r).1, (tree' r).2.trans (tree r).2⟩, fun r => (te' r).trans (te r),
    fun b r => (hist' b r).trans (hist b r), fun b r => (len' b r).trans (len b r),
    fun b w r => (code' b w r).trans (code b w r), fun b w r => (node' b w r).trans (node b w r)⟩

/-- A frame that keeps more registers keeps fewer. -/
theorem sameRegs.mono {keep keep' : Reg → Bool} {s t : State} (h : sameRegs keep s t) (hk : ∀ r, keep' r = true → keep r = true) :
    sameRegs keep' s t := by
  obtain ⟨ie, workers, cmd, inBase, inLen, outBase, outCap, origLen, payloadOff, totalBits, totalBytes, hdrLen, nsym, tree, te, hist,
    len, code, node⟩ := h
  exact ⟨ie, workers, cmd, inBase, inLen, outBase, outCap, fun r => origLen (hk _ r), fun r => payloadOff (hk _ r),
    fun r => totalBits (hk _ r), fun r => totalBytes (hk _ r), fun r => hdrLen (hk _ r), fun r => nsym (hk _ r),
    fun r => tree (hk _ r), fun r => te (hk _ r), fun b r => hist b (hk _ r), fun b r => len b (hk _ r),
    fun b w r => code b w (hk _ r), fun b w r => node b w (hk _ r)⟩

theorem sameRest.trans {s t u : State} (h : sameRest s t) (k : sameRest t u) : sameRest s u := by
  simp_all [sameRest]

theorem PhaseFrame.sameRest {s t : State} (f : PhaseFrame s t) : sameRest s t :=
  ⟨by rw [f.status], by rw [f.status], by rw [f.status], f.rst, f.events, f.rdData, f.memData⟩

/-! ### What each phase may write -/

/-- The registers and RAMs a phase may write (30 R109, by the phases of 40 to 47). -/
def phaseWrites (p : Phase) : Reg → Bool
  | .origLen => p ∈ [Phase.hist, .parsehdr]
  | .payloadOff | .hdrLen | .hdrInfo => p ∈ [Phase.wrhdr, .parsehdr]
  | .totalBits | .totalBytes => p ∈ [Phase.estimate, .encode]
  | .nsym => p ∈ [Phase.hist, .build, .canon, .parsehdr]
  | .treeInfo | .node _ _ => p ∈ [Phase.build, .ctree]
  | .hist _ => p ∈ [Phase.hist, .parsehdr]
  | .len _ => p ∈ [Phase.derive, .parsehdr]
  | .code _ _ => p ∈ [Phase.derive, .canon]
  | .id | .ctrl | .cmd | .status | .inBase | .inLen | .outBase | .outCap | .result | .errInfo | .reserved => false

/-- A phase changes no register or RAM but those it may write, and EMPTY only where it is HIST (40 R122). -/
theorem EnginePhase.keeps {p : PhaseStep} (hp : EnginePhase p) {s t : State} (h : p.body s = .ok t) :
    sameRegs (fun r => !phaseWrites p.phase r) s t ∧ (p.phase ≠ .hist → t.status.empty = s.status.empty) := by
  cases hp with
  | check => rw [(regionCheck_ok h).1]; exact ⟨.refl _ _, fun _ => rfl⟩
  | dcheck => rw [(phaseDcheck_ok h).1]; exact ⟨.refl _ _, fun _ => rfl⟩
  | ccheck => rw [(phaseCcheck_ok h).1]; exact ⟨.refl _ _, fun _ => rfl⟩
  | hist => rw [phaseHist_ok h]; simp [sameRegs, phaseWrites, PhaseStep.always]
  | build => rw [phaseBuild_ok h]; simp [sameRegs, phaseWrites]
  | derive tm =>
    obtain ⟨l, c, hok, _⟩ := phaseDerive_ok tm s
    rw [← Except.ok.inj (hok.symm.trans h)]
    simp [sameRegs, phaseWrites, PhaseStep.always]
  | canon => obtain ⟨c, n, rfl⟩ := phaseCanon_ok h; simp [sameRegs, phaseWrites]
  | ctree => obtain ⟨a, _, rfl⟩ := phaseCtree_ok h; simp [sameRegs, phaseWrites]
  | estimate => obtain ⟨n, _, rfl⟩ := phaseEstimate_ok h; simp [sameRegs, phaseWrites, PhaseStep.always]
  | encode => obtain ⟨n, _, _, rfl⟩ := phaseEncode_ok h; simp [sameRegs, phaseWrites, PhaseStep.always]
  | wrhdr => obtain ⟨_, rfl⟩ := phaseWrhdr_ok h; simp [sameRegs, phaseWrites, PhaseStep.always]
  | parsehdr =>
    obtain ⟨es, _, _, _, e⟩ := phaseParsehdr_ok h
    rw [e, parsedState]
    simp [sameRegs, phaseWrites, PhaseStep.always]
  | decode => obtain ⟨bs, _, rfl⟩ := phaseDecode_ok h; simp [sameRegs, phaseWrites, PhaseStep.always]

/-- A command's write set holds those of its phases (30 R109). -/
theorem writesReg_of_phaseWrites {i : Instr} {p : Phase} (hp : p ∈ (commandOf i).plan.map PhaseStep.phase) {r : Reg}
    (h : phaseWrites p r = true) : writesReg i r = true := by
  cases r <;> simp only [phaseWrites, writesReg, decide_eq_true_eq, Bool.false_eq_true] at h ⊢
  all_goals
    revert p
    cases i <;> decide

theorem hist_not_mem_plan {i : Instr} (h : i ∉ [Instr.hist, .compress, .compressC]) :
    Phase.hist ∉ (commandOf i).plan.map PhaseStep.phase := by
  revert h
  cases i <;> decide

/-! ### The states a run passes through -/

theorem Passes.sameRegs {i : Instr} {s u : State} (h : Passes (commandOf i).plan s u) : sameRegs (fun r => !writesReg i r) s u := by
  refine h.keeps (P := Machine.sameRegs _ s) (fun p hp v w hv hb => hv.trans ?_) (.refl _ _)
  obtain ⟨hregs, _⟩ := (plan_enginePhase i p hp).keeps hb
  refine hregs.mono fun r hr => ?_
  rw [Bool.not_eq_true', Bool.eq_false_iff] at hr ⊢
  exact fun hw => hr (writesReg_of_phaseWrites (List.mem_map_of_mem hp) hw)

theorem Passes.empty {i : Instr} {s u : State} (h : Passes (commandOf i).plan s u) (hi : i ∉ [Instr.hist, .compress, .compressC]) :
    u.status.empty = s.status.empty := by
  refine h.keeps (P := fun v => v.status.empty = s.status.empty) (fun p hp v w hv hb => ?_) rfl
  obtain ⟨_, hempty⟩ := (plan_enginePhase i p hp).keeps hb
  exact (hempty fun e => hist_not_mem_plan hi (e ▸ List.mem_map_of_mem hp)).trans hv

/-- A completion of a run that ended in `u`: every register but RESULT and ERRINFO is as the run left it, and so is STATUS but for
how it ended (10 R28). -/
def Ends (u t : State) : Prop := sameRegs (fun _ => true) u t ∧ sameRest u t ∧ t.status.empty = u.status.empty

theorem Ends.failedAt (c : Command) (s u : State) (p : Phase) (e : Raise) : Ends u (c.failedAt s p e u) := by
  refine ⟨c.sameRegs_failedAt s u p e, ?_⟩
  unfold Command.failedAt
  split <;> simp [sameRest]

theorem Ends.succeeded (u : State) (r : Word) : Ends u (u.succeeded r) := by
  simp [Ends, Machine.sameRegs, sameRest]

theorem completed_ends {c : Command} {s : State} (h : s.raced = false) : ∃ u, Passes c.plan s u ∧ Ends u (c.completed s) := by
  obtain ⟨p, e, u, hu, hc⟩ | ⟨u, hu, hc⟩ := c.completed_passes h <;> rw [hc]
  · exact ⟨u, hu, .failedAt c s u p e⟩
  · exact ⟨u, hu, .succeeded u _⟩

theorem State.sameRest_unconstrained (s : State) (i : Instr) : sameRest s (s.unconstrained i) := ⟨rfl, rfl, rfl, rfl, rfl, rfl, rfl⟩

/-- Settles O21: the phases of a run write inside the command's write set, and a completion, a raced one too, keeps the rest. -/
theorem commandFrame : Obligations.CommandFrame := by
  intro i s t ht
  rw [exec_next_iff] at ht
  subst ht
  cases hraced : s.raced with
  | true =>
    rw [Command.completed_raced _ hraced, commandOf_name]
    exact ⟨s.sameRegs_unconstrained i, s.sameRest_unconstrained i, fun h => by cases h⟩
  | false =>
    obtain ⟨u, hu, hregs, hrest, hempty⟩ := completed_ends (c := commandOf i) hraced
    exact ⟨hu.sameRegs.trans (hregs.mono fun _ _ => rfl), hu.frame.sameRest.trans hrest, fun _ hi => hempty.trans (hu.empty hi)⟩

end Sys2Proof.Machine
end

section
/-!
The phases a run reaches, in order (30 R103, 47 R261, R266), and the advance event that shows the next one (10 R29): O18.
-/
namespace Sys2Proof.Machine

/-! ### The phases of a run -/

/-- The run of a plan reaches the phases of a list in order, all of them when it returns. -/
def Runs (ps : List PhaseStep) (s : State) (phases : List Phase) : Prop :=
  (reached ps s).map Prod.fst <+: phases ∧ ∀ t, runPlan ps s = .returned t → (reached ps s).map Prod.fst = phases

theorem Runs.nil (s : State) : Runs [] s [] := ⟨List.prefix_rfl, fun _ _ => rfl⟩

theorem Runs.skip {p : PhaseStep} {ps : List PhaseStep} {s : State} {phases : List Phase} (g : p.guard s = false)
    (h : Runs ps s phases) : Runs (p :: ps) s phases := by
  rwa [Runs, reached_skip g, runPlan_skip g]

theorem Runs.error {p : PhaseStep} {ps : List PhaseStep} {s : State} {e : Raise} (g : p.guard s = true) (hb : p.body s = .error e)
    (phases : List Phase) : Runs (p :: ps) s (p.phase :: phases) := by
  rw [Runs, reached_error g hb, runPlan_error g hb]
  exact ⟨⟨phases, rfl⟩, fun t ht => by cases ht⟩

theorem Runs.ok {p : PhaseStep} {ps : List PhaseStep} {s t : State} {phases : List Phase} (g : p.guard s = true)
    (hb : p.body s = .ok t) (h : Runs ps t phases) : Runs (p :: ps) s (p.phase :: phases) := by
  rw [Runs, reached_ok g hb, runPlan_ok g hb]
  exact ⟨(List.prefix_cons_inj _).mpr h.1, fun u hu => congrArg (List.cons _) (h.2 u hu)⟩

/-- A run whose guards are settled by a property that every phase keeps reaches the phases whose guards hold. -/
theorem runs_of_guards {P : State → Prop} {taken : PhaseStep → Bool} {ps : List PhaseStep}
    (hk : ∀ p ∈ ps, ∀ s t, P s → p.body s = .ok t → P t) (hg : ∀ p ∈ ps, ∀ s, P s → p.guard s = taken p) {s : State} (h : P s) :
    Runs ps s ((ps.filter taken).map PhaseStep.phase) := by
  induction ps generalizing s with
  | nil => exact .nil s
  | cons p ps ih =>
    obtain ⟨hgp, hg⟩ := List.forall_mem_cons.mp hg
    obtain ⟨hkp, hk⟩ := List.forall_mem_cons.mp hk
    have g := hgp s h
    cases htaken : taken p with
    | false =>
      rw [List.filter_cons_of_neg (by simp [htaken])]
      exact .skip (g.trans htaken) (ih hk hg h)
    | true =>
      rw [List.filter_cons_of_pos htaken, List.map_cons]
      cases hb : p.body s with
      | error e => exact .error (g.trans htaken) hb _
      | ok t => exact .ok (g.trans htaken) hb (ih hk hg (hkp s t h hb))

/-! ### The phases of each command -/

/-- A command but DECOMPRESS always runs the phases of its plan, and they are those of R103. -/
theorem plan_unguarded {i : Instr} (hi : i ≠ .decompress) :
    (∀ p ∈ (commandOf i).plan, ∀ s, p.guard s = true) ∧ ∀ te, (commandOf i).plan.map PhaseStep.phase = phaseSeq te i := by
  cases i
  case decompress => exact absurd rfl hi
  all_goals
    refine ⟨?_, fun _ => rfl⟩
    simp [commandOf, cmdHist, cmdBuild, cmdDerive, cmdDeriveC, cmdCanon, cmdCtree, cmdEstimate, cmdEncode, cmdWrhdr, cmdWrhdrC,
      cmdParsehdr, cmdDecode, cmdCompress, cmdCompressC, PhaseStep.always]

theorem runs_unguarded {i : Instr} (hi : i ≠ .decompress) (s : State) (te : TableMode) :
    Runs (commandOf i).plan s (phaseSeq te i) := by
  obtain ⟨hguard, hphases⟩ := plan_unguarded hi
  have hruns := runs_of_guards (P := fun _ => True) (taken := fun _ => true) (ps := (commandOf i).plan) (s := s)
    (fun _ _ _ _ _ _ => trivial) (fun p hp s _ => hguard p hp s) trivial
  rwa [List.filter_true, hphases te] at hruns

theorem EnginePhase.te {p : PhaseStep} (hp : EnginePhase p) (hw : phaseWrites p.phase .hdrInfo = false) {s t : State}
    (h : p.body s = .ok t) : t.te = s.te := by
  obtain ⟨⟨_, _, _, _, _, _, _, _, _, _, _, _, _, _, hte, _⟩, _⟩ := hp.keeps h
  exact hte (by simp [hw])

/-- The phases of DECOMPRESS behind PARSEHDR (47 R266). -/
def rebuildTail : List PhaseStep := rebuildPhases ++ decodeTail

/-- No phase behind PARSEHDR changes the header's table encoding. -/
theorem rebuildTail_te {p : PhaseStep} (hp : p ∈ rebuildTail) {s t : State} (h : p.body s = .ok t) : t.te = s.te := by
  have hplan : p ∈ (commandOf .decompress).plan := by
    rw [decompress_plan]
    exact List.mem_append_right _ (List.mem_cons_of_mem _ hp)
  have hwrites : ∀ ph ∈ rebuildTail.map PhaseStep.phase, phaseWrites ph .hdrInfo = false := by decide
  exact (plan_enginePhase _ p hplan).te (hwrites _ (List.mem_map_of_mem hp)) h

/-- The header's table encoding settles which phases follow PARSEHDR (47 R266). -/
theorem rebuildTail_guard {p : PhaseStep} (hp : p ∈ rebuildTail) {s t : State} (h : t.te = s.te) : p.guard t = p.guard s := by
  simp only [rebuildTail, rebuildPhases, decodeTail, List.cons_append, List.nil_append, List.mem_cons, List.not_mem_nil,
    or_false] at hp
  obtain rfl | rfl | rfl | rfl | rfl := hp <;> simp [onFreq, onCanon, PhaseStep.always, h]

theorem rebuildTail_phases (s : State) :
    .check :: .parsehdr :: (rebuildTail.filter fun p => p.guard s).map PhaseStep.phase = phaseSeq s.te .decompress := by
  cases h : s.te <;> simp [rebuildTail, rebuildPhases, decodeTail, onFreq, onCanon, PhaseStep.always, phaseSeq, h]

theorem runs_rebuildTail (s : State) : Runs rebuildTail s ((rebuildTail.filter fun p => p.guard s).map PhaseStep.phase) :=
  runs_of_guards (P := fun t => t.te = s.te) (fun _ hp _ _ ht hb => (rebuildTail_te hp hb).trans ht)
    (fun _ hp _ ht => rebuildTail_guard hp ht) rfl

theorem runPlan_rebuildTail_te {s t : State} (h : runPlan rebuildTail s = .returned t) : t.te = s.te := by
  have hk := runPlan_keeps (P := fun t => t.te = s.te) (fun _ hp _ _ ht hb => (rebuildTail_te hp hb).trans ht) (s := s) rfl
  rwa [h] at hk

/-- DECOMPRESS follows the table encoding that its PARSEHDR reads. -/
theorem runs_decompress (s : State) : ∃ te, Runs (commandOf .decompress).plan s (phaseSeq te .decompress)
    ∧ ∀ t, runPlan (commandOf .decompress).plan s = .returned t → t.te = te := by
  rw [decompress_plan, List.singleton_append]
  cases hcheck : regionCheck true true s with
  | error e =>
    refine ⟨.freq, .error rfl hcheck _, fun t ht => ?_⟩
    rw [runPlan_always_error hcheck] at ht
    cases ht
  | ok v =>
    rw [runPlan_always_ok hcheck]
    cases hparse : phaseParsehdr v with
    | error e =>
      refine ⟨.freq, .ok rfl hcheck (.error rfl hparse _), fun t ht => ?_⟩
      rw [runPlan_always_error hparse] at ht
      cases ht
    | ok u =>
      rw [runPlan_always_ok hparse, ← rebuildTail]
      refine ⟨u.te, ?_, fun t ht => runPlan_rebuildTail_te ht⟩
      rw [← rebuildTail_phases]
      exact .ok rfl hcheck (.ok rfl hparse (runs_rebuildTail u))

/-- The phases a run reaches are those of R103 in order, for the table encoding the run ends with. -/
theorem runs_phaseSeq (i : Instr) (s : State) : ∃ te, Runs (commandOf i).plan s (phaseSeq te i)
    ∧ ∀ t, runPlan (commandOf i).plan s = .returned t → phaseSeq t.te i = phaseSeq te i := by
  by_cases hi : i = .decompress
  · subst hi
    obtain ⟨te, hruns, hte⟩ := runs_decompress s
    exact ⟨te, hruns, fun t ht => by rw [hte t ht]⟩
  · obtain ⟨_, hphases⟩ := plan_unguarded hi
    exact ⟨.freq, runs_unguarded hi s _, fun t _ => (hphases _).symm.trans (hphases _)⟩

/-! ### The advance event (10 R29, 20 R87) -/

theorem advancePhase_at_end {s : State} {run : Running} (hrun : s.running = some run)
    (h : (reached (commandOf run.cmd).plan s)[run.pos + 1]? = none) : advancePhase s = s := by
  simp [advancePhase, hrun, h]

theorem advancePhase_next {s start : State} {run : Running} {p : Phase} (hrun : s.running = some run)
    (h : (reached (commandOf run.cmd).plan s)[run.pos + 1]? = some (p, start)) :
    advancePhase s = { s with running := some { run with pos := run.pos + 1 }, status := { s.status with phase := p } } := by
  simp [advancePhase, hrun, h]

/-- Settles O18: a run reaches the phases of R103 whose guards hold, in order, and an advance event shows the next one. -/
theorem phaseOrder : Obligations.PhaseOrder := by
  refine ⟨fun i s => ?_, fun i s t ht => ?_, fun s rest hevents => ?_⟩
  · obtain ⟨te, ⟨hprefix, _⟩, _⟩ := runs_phaseSeq i s
    exact ⟨te, hprefix⟩
  · obtain ⟨te, ⟨_, hall⟩, hte⟩ := runs_phaseSeq i s
    exact (hall t ht).trans (hte t ht).symm
  · rw [step_of_advance hevents]
    exact ⟨fun hidle => congrArg _ (advancePhase_of_idle hidle), fun run hrun =>
      ⟨fun hend => congrArg _ (advancePhase_at_end hrun hend), fun p start hnext => congrArg _ (advancePhase_next hrun hnext)⟩⟩

end Sys2Proof.Machine
end

section
/-!
The partition Part(L, N) of the input over N workers (40 R120): its boundaries, and the workers' ranges in order: O31.
-/
namespace Sys2Proof.Machine

/-! ### The boundaries -/

@[simp] theorem partBound_zero (l n : Nat) : partBound l n 0 = 0 := rfl

theorem partBound_of_inner {l n k : Nat} (h : 0 < k) (hk : k < n) : partBound l n k = Config.block * (k * l / n / Config.block) := by
  rw [partBound, if_neg h.ne', if_neg hk.not_ge]

theorem partBound_of_le {l n k : Nat} (hn : 1 ≤ n) (hk : n ≤ k) : partBound l n k = l := by
  rw [partBound, if_neg (by omega), if_pos hk]

theorem partBound_le (l n k : Nat) : partBound l n k ≤ l := by
  rw [partBound]
  split
  · exact Nat.zero_le l
  · split
    · exact le_rfl
    · next hk =>
      calc Config.block * (k * l / n / Config.block)
        _ ≤ k * l / n := Nat.mul_div_le _ _
        _ ≤ l := Nat.div_le_of_le_mul (Nat.mul_le_mul_right l (not_le.mp hk).le)

theorem partBound_mono {l n j k : Nat} (hn : 1 ≤ n) (h : j ≤ k) : partBound l n j ≤ partBound l n k := by
  rcases Nat.eq_zero_or_pos j with rfl | hj
  · exact Nat.zero_le _
  · by_cases hk : n ≤ k
    · exact (partBound_le l n j).trans (partBound_of_le hn hk).ge
    · rw [partBound_of_inner hj (by omega), partBound_of_inner (by omega) (by omega)]
      exact Nat.mul_le_mul_left _ (Nat.div_le_div_right (Nat.div_le_div_right (Nat.mul_le_mul_right l h)))

/-! ### The workers' ranges -/

/-- The bytes below a boundary and the next worker's range are the bytes below the next boundary. -/
theorem take_partBound_succ (xs : List Byte) {n : Nat} (hn : 1 ≤ n) (k : Nat) :
    xs.take (partBound xs.length n (k + 1)) = xs.take (partBound xs.length n k) ++ workerInput xs n k := by
  have hmono : partBound xs.length n k ≤ partBound xs.length n (k + 1) := partBound_mono hn (Nat.le_succ k)
  rw [workerInput, ← min_eq_left hmono, ← List.take_take, min_eq_left hmono, List.take_append_drop]

theorem length_take_partBound (xs : List Byte) (n k : Nat) : (xs.take (partBound xs.length n k)).length = partBound xs.length n k :=
  List.length_take_of_le (partBound_le _ n k)

/-- The ranges of the first m workers, in order, are the bytes below the m-th boundary. -/
theorem flatten_workerInput_below (xs : List Byte) {n : Nat} (hn : 1 ≤ n) (m : Nat) :
    ((List.range m).map (workerInput xs n)).flatten = xs.take (partBound xs.length n m) := by
  induction m with
  | zero => simp
  | succ m ih => rw [List.range_succ, List.map_append, List.flatten_append, ih, take_partBound_succ xs hn]; simp

theorem take_partBound_last (xs : List Byte) {n : Nat} (hn : 1 ≤ n) : xs.take (partBound xs.length n n) = xs := by
  rw [partBound_of_le hn le_rfl, List.take_length]

theorem flatten_workerInputs (xs : List Byte) {n : Nat} (hn : 1 ≤ n) : ((List.range n).map (workerInput xs n)).flatten = xs :=
  (flatten_workerInput_below xs hn n).trans (take_partBound_last xs hn)

/-- Settles O31: the boundaries by cases of the rule's formula, the ranges by induction on the number of workers. -/
theorem workPartition : Obligations.WorkPartition := fun l n hn =>
  ⟨partBound_zero l n, partBound_of_le hn le_rfl, fun _ h hk => partBound_of_inner h hk, fun _ _ h _ => partBound_mono hn h,
    fun xs _ => flatten_workerInputs xs hn⟩

end Sys2Proof.Machine
end

section
/-!
The payload of N workers and the merge unit (44 R181 to R183): where each worker's bits stand in the code stream, and from that each byte
written: O48.
-/
namespace Sys2Proof.Machine

/-! ### The workers' bits in the code stream (44 R181, R182) -/

theorem totalLen_append (len : Vector Byte 256) (xs ys : List Byte) : totalLen len (xs ++ ys) = totalLen len xs + totalLen len ys := by
  simp [totalLen]

theorem codeStream_append (s : State) (xs ys : List Byte) : codeStream s (xs ++ ys) = codeStream s xs ++ codeStream s ys :=
  List.flatMap_append

@[simp] theorem workerOffset_zero (len : Vector Byte 256) (xs : List Byte) (n : Nat) : workerOffset len xs n 0 = 0 := rfl

theorem workerOffset_succ (len : Vector Byte 256) (xs : List Byte) (n k : Nat) :
    workerOffset len xs n (k + 1) = workerOffset len xs n k + workerLen len xs n k := by
  simp [workerOffset, List.range_succ]

/-- A worker's bits start where the bytes below its range end. -/
theorem workerOffset_eq (len : Vector Byte 256) (xs : List Byte) {n : Nat} (hn : 1 ≤ n) (k : Nat) :
    workerOffset len xs n k = totalLen len (xs.take (partBound xs.length n k)) := by
  induction k with
  | zero => rfl
  | succ k ih => rw [workerOffset_succ, ih, take_partBound_succ xs hn, totalLen_append, workerLen]

theorem workersTotal_eq (len : Vector Byte 256) (xs : List Byte) {n : Nat} (hn : 1 ≤ n) : workersTotal len xs n = totalLen len xs :=
  (workerOffset_eq len xs hn n).trans (congrArg _ (take_partBound_last xs hn))

@[simp] theorem length_workerBits (s : State) (xs : List Byte) (n k : Nat) : (workerBits s xs n k).length = workerLen s.len xs n k :=
  length_codeStream s _

/-- The code stream around a worker's bits. -/
theorem codeStream_eq_around_worker (s : State) (xs : List Byte) {n : Nat} (hn : 1 ≤ n) (k : Nat) :
    codeStream s xs = codeStream s (xs.take (partBound xs.length n k))
      ++ (workerBits s xs n k ++ codeStream s (xs.drop (partBound xs.length n (k + 1)))) := by
  rw [workerBits, ← List.append_assoc, ← codeStream_append, ← take_partBound_succ xs hn, ← codeStream_append, List.take_append_drop]

/-- Bit p of the stream, as the worker holds it whose range p lies in. -/
theorem getD_workerBits (s : State) (xs : List Byte) {n : Nat} (hn : 1 ≤ n) {k p : Nat} (hlo : workerOffset s.len xs n k ≤ p)
    (hhi : p < workerOffset s.len xs n (k + 1)) :
    (workerBits s xs n k).getD (p - workerOffset s.len xs n k) false = (codeStream s xs).getD p false := by
  have hlen : (codeStream s (xs.take (partBound xs.length n k))).length = workerOffset s.len xs n k := by
    rw [length_codeStream, workerOffset_eq _ _ hn]
  rw [workerOffset_succ] at hhi
  rw [codeStream_eq_around_worker s xs hn k, List.getD_append_right _ _ _ _ (hlen ▸ hlo), hlen,
    List.getD_append _ _ _ _ (by rw [length_workerBits]; omega)]

/-- Every bit below the end of the first m workers' bits lies in the range of one of them. -/
theorem exists_worker_of_lt (len : Vector Byte 256) (xs : List Byte) (n : Nat) {m p : Nat} (h : p < workerOffset len xs n m) :
    ∃ k < m, workerOffset len xs n k ≤ p ∧ p < workerOffset len xs n (k + 1) := by
  induction m with
  | zero => simp at h
  | succ m ih =>
    by_cases hp : p < workerOffset len xs n m
    · obtain ⟨k, hk, hrange⟩ := ih hp
      exact ⟨k, hk.trans (Nat.lt_succ_self m), hrange⟩
    · exact ⟨m, Nat.lt_succ_self m, not_lt.mp hp, h⟩

/-! ### The bytes written (44 R182, R183) -/

theorem getMsbD_packByte_drop (bs : List Bool) (k : Nat) {q : Nat} (hq : q < 8) :
    (packByte (bs.drop k)).getMsbD q = bs.getD (k + q) false := by
  rw [getMsbD_packByte _ hq, List.getD_eq_getElem?_getD, List.getElem?_drop, List.getD_eq_getElem?_getD]

/-- An interior byte holds the stream's bits. -/
theorem getMsbD_interiorByte (s : State) (xs : List Byte) {n j k q : Nat} (hn : 1 ≤ n) (h : interiorTo s xs n j k = true) (hq : q < 8) :
    (interiorByte s xs n j k).getMsbD q = (codeStream s xs).getD (8 * j + q) false := by
  simp only [interiorTo, Bool.and_eq_true, decide_eq_true_eq] at h
  rw [interiorByte, getMsbD_packByte_drop _ _ hq, ← Nat.sub_add_comm h.1]
  exact getD_workerBits s xs hn (by omega) (by omega)

theorem getMsbD_stagedByte (s : State) (xs : List Byte) (n j k : Nat) {q : Nat} (hq : q < 8) :
    (stagedByte s xs n j k).getMsbD q = stagedBit s xs n j k q := by
  rw [stagedByte, getMsbD_packByte _ hq]
  simp [hq]

/-- A staged bit is 1 exactly where the stream's bit is 1 and lies in the worker's range. -/
theorem stagedBit_eq_true {s : State} {xs : List Byte} {n j k q : Nat} (hn : 1 ≤ n) : stagedBit s xs n j k q = true ↔
    (workerOffset s.len xs n k ≤ 8 * j + q ∧ 8 * j + q < workerOffset s.len xs n (k + 1))
      ∧ (codeStream s xs).getD (8 * j + q) false = true := by
  rw [stagedBit]
  split
  · next h => rw [getD_workerBits s xs hn h.1 h.2, and_iff_right h]
  · next h => exact iff_of_false Bool.false_ne_true fun hr => h hr.1

/-- A bit of the merge unit's OR is 1 exactly where one of the bytes has a 1. -/
theorem getMsbD_foldl_or {α : Type} (l : List α) (f : α → Byte) (v : Byte) (q : Nat) :
    (l.foldl (fun v k => v ||| f k) v).getMsbD q = true ↔ v.getMsbD q = true ∨ ∃ k ∈ l, (f k).getMsbD q = true := by
  induction l generalizing v with
  | nil => simp
  | cons x l ih => simp [ih, BitVec.getMsbD_or, or_assoc]

/-- The merged byte holds the stream's bits: each 1 is staged by the worker whose range it lies in. -/
theorem getMsbD_mergedByte (s : State) (xs : List Byte) {n j q : Nat} (hn : 1 ≤ n) (hq : q < 8) :
    (mergedByte s xs n j).getMsbD q = (codeStream s xs).getD (8 * j + q) false := by
  rw [Bool.eq_iff_iff, mergedByte, getMsbD_foldl_or]
  constructor
  · rintro (h | ⟨k, _, h⟩)
    · simp at h
    · rw [getMsbD_stagedByte s xs n j k hq, stagedBit_eq_true hn] at h
      exact h.2
  · intro h
    have hp : 8 * j + q < workerOffset s.len xs n n := by
      rw [workerOffset_eq _ _ hn, take_partBound_last xs hn, ← length_codeStream]
      by_contra hend
      rw [List.getD_eq_default _ _ (not_lt.mp hend)] at h
      cases h
    obtain ⟨k, hk, hrange⟩ := exists_worker_of_lt s.len xs n hp
    refine .inr ⟨k, List.mem_range.mpr hk, ?_⟩
    rw [getMsbD_stagedByte s xs n j k hq]
    exact (stagedBit_eq_true hn).mpr ⟨hrange, h⟩

/-- Payload byte j is the packing's byte j, by whichever unit it is written. -/
theorem parallelByte_eq (s : State) (xs : List Byte) {n : Nat} (hn : 1 ≤ n) (j : Nat) :
    parallelByte s xs n j = packByte ((codeStream s xs).drop (8 * j)) := by
  refine BitVec.eq_of_getMsbD_eq fun q hq => ?_
  rw [getMsbD_packByte_drop _ _ hq, parallelByte]
  split
  · next k hk => exact getMsbD_interiorByte s xs hn (List.find?_some hk) hq
  · exact getMsbD_mergedByte s xs hn hq

/-- Settles O48: the payload has the packing's length, and each byte of it is the packing's. -/
theorem parallelEncodeEquivalence : Obligations.ParallelEncodeEquivalence := by
  intro s n hn
  have hlen : (parallelPayload s (inputBytes s) n).length = (pack (codeStream s (inputBytes s))).length := by
    rw [parallelPayload, List.length_map, List.length_range, workersTotal_eq _ _ hn, length_pack, length_codeStream]
  refine List.ext_getElem hlen fun j hj hj' => ?_
  calc (parallelPayload s (inputBytes s) n)[j]
    _ = parallelByte s (inputBytes s) n j := by simp [parallelPayload]
    _ = packByte ((codeStream s (inputBytes s)).drop (8 * j)) := parallelByte_eq s _ hn j
    _ = (pack (codeStream s (inputBytes s)))[j] := (getElem_packBytes _ hj').symm

end Sys2Proof.Machine
end

section
/-!
HIST's completion and its counts (40 R122), and the workers' reductions over Part(L, N) (40 R121, R123, 43 R171): O29, O30.
-/
namespace Sys2Proof.Machine

/-! ### Counts of bytes -/

theorem byteCount_le_length (xs : List Byte) (b : Fin 256) : byteCount xs b ≤ xs.length := List.count_le_length

/-- A count of input bytes fits a histogram entry. -/
theorem byteCount_inputBytes_lt (s : State) (b : Fin 256) : byteCount (inputBytes s) b < 2 ^ 64 :=
  ((byteCount_le_length _ b).trans (length_inputBytes s).le).trans_lt s.inLen.isLt

theorem byteCount_inputBytes (s : State) (b : Fin 256) :
    byteCount (inputBytes s) b = (List.range s.inLen.toNat).countP fun k => inByte s k == BitVec.ofNat 8 b.val :=
  List.countP_map

theorem countNonzero_le (f : Fin 256 → Nat) : countNonzero f ≤ 256 := List.countP_le_length.trans List.length_finRange.le

/-- Every byte is counted under exactly one value. -/
theorem sum_byteCount (xs : List Byte) : ((List.finRange 256).map (byteCount xs)).sum = xs.length := by
  have hcount (b : Fin 256) : byteCount xs b = (xs.map BitVec.toFin : Multiset (Fin 256)).count b := by
    have hfin : (BitVec.ofNat 8 b.val).toFin = b := Fin.ext (Nat.mod_eq_of_lt b.isLt)
    have hmap := List.count_map_of_injective xs BitVec.toFin (fun _ _ => BitVec.eq_of_toFin_eq) (BitVec.ofNat 8 b.val)
    rw [Multiset.coe_count, byteCount, ← hmap, hfin]
  calc ((List.finRange 256).map (byteCount xs)).sum
    _ = ∑ b : Fin 256, (xs.map BitVec.toFin : Multiset (Fin 256)).count b := by
      rw [Fin.sum_univ_def]
      exact congrArg List.sum (List.map_congr_left fun b _ => hcount b)
    _ = xs.length := by
      rw [Multiset.sum_count_eq_card fun b _ => Finset.mem_univ b]
      simp

/-! ### HIST -/

/-- HIST's completion, undisturbed, where the input region does not wrap (40 R122). -/
theorem exec_hist {s : State} (hu : s.undisturbed = true) (hin : s.inBase.toNat + s.inLen.toNat ≤ 2 ^ 64) :
    exec .hist s = .next ((afterPhase phaseHist s).succeeded s.inLen) := by
  have hcheck : regionCheck true false s = .ok s := regionCheck_of_ok (by simpa [regionsOk, inWraps] using hin)
  have hrun : runPlan (commandOf .hist).plan s = .returned (afterPhase phaseHist s) := runPlan_always_ok hcheck
  rw [exec_eq, Command.completed_undisturbed _ hu, hrun]
  rfl

theorem toNat_hist_afterPhase (s : State) (b : Fin 256) : (afterPhase phaseHist s).hist[b].toNat = byteCount (inputBytes s) b := by
  rw [show (afterPhase phaseHist s).hist = tabulate 256 fun b => BitVec.ofNat 64 (byteCount (inputBytes s) b) from rfl,
    getElem_tabulate_fin, BitVec.toNat_ofNat, Nat.mod_eq_of_lt (byteCount_inputBytes_lt s b)]

/-- NSYM counts the nonzero buckets. -/
theorem toNat_nsym_afterPhase_hist (s : State) :
    (afterPhase phaseHist s).nsym.toNat = (List.finRange 256).countP fun b => (afterPhase phaseHist s).hist[b] != 0#64 := by
  have hbucket (b : Fin 256) : (byteCount (inputBytes s) b != 0) = ((afterPhase phaseHist s).hist[b] != 0#64) := by
    rw [← toNat_hist_afterPhase s b, Bool.eq_iff_iff, bne_iff_ne, bne_iff_ne, Ne, Ne, BitVec.toNat_eq]
    rfl
  have hfit : countNonzero (byteCount (inputBytes s)) < 2 ^ 9 := (countNonzero_le _).trans_lt (by decide)
  calc (afterPhase phaseHist s).nsym.toNat
    _ = countNonzero (byteCount (inputBytes s)) := Nat.mod_eq_of_lt hfit
    _ = _ := List.countP_congr fun b _ => by rw [hbucket b]

/-- Settles O29: HIST commits the counts of the input bytes, which fit the entries and NSYM. -/
theorem histResult : Obligations.HistResult := fun s hu hin =>
  ⟨_, _, exec_hist hu hin, fun b => (toNat_hist_afterPhase s b).trans (byteCount_inputBytes s b), toNat_nsym_afterPhase_hist s⟩

/-! ### The workers' reductions -/

theorem workersCount_eq (xs : List Byte) {n : Nat} (hn : 1 ≤ n) (b : Fin 256) : workersCount xs n b = byteCount xs b := by
  conv_rhs => rw [← flatten_workerInputs xs hn, byteCount, List.count_flatten, List.map_map]
  rfl

/-- The least uncoded offset worker k reports, counted from the start of the input (43 R171). -/
def workerUncoded (len : Vector Byte 256) (xs : List Byte) (n k : Nat) : Option Nat :=
  (firstUncoded len (workerInput xs n k)).map fun o => partBound xs.length n k + o

theorem workersUncoded_def (len : Vector Byte 256) (xs : List Byte) (n : Nat) :
    workersUncoded len xs n = ((List.range n).filterMap (workerUncoded len xs n)).min? := rfl

/-- The least uncoded offset below a boundary comes before every one of the next worker's range. -/
theorem firstUncoded_take_succ (len : Vector Byte 256) (xs : List Byte) {n : Nat} (hn : 1 ≤ n) (k : Nat) :
    firstUncoded len (xs.take (partBound xs.length n (k + 1)))
      = (firstUncoded len (xs.take (partBound xs.length n k))).or (workerUncoded len xs n k) := by
  rw [take_partBound_succ xs hn, firstUncoded, List.findIdx?_append, length_take_partBound]
  simp only [workerUncoded, firstUncoded, Nat.add_comm]

theorem firstUncoded_lt {len : Vector Byte 256} {xs : List Byte} {i : Nat} (h : firstUncoded len xs = some i) : i < xs.length :=
  (List.findIdx?_eq_some_iff_findIdx_eq.mp h).1

theorem le_of_workerUncoded {len : Vector Byte 256} {xs : List Byte} {n k i : Nat} (h : workerUncoded len xs n k = some i) :
    partBound xs.length n k ≤ i := by
  obtain ⟨o, _, rfl⟩ := Option.map_eq_some_iff.mp h
  exact Nat.le_add_right _ _

/-- The least offset the first m workers report is the least one below their boundary. -/
theorem min?_workerUncoded (len : Vector Byte 256) (xs : List Byte) {n : Nat} (hn : 1 ≤ n) (m : Nat) :
    ((List.range m).filterMap (workerUncoded len xs n)).min? = firstUncoded len (xs.take (partBound xs.length n m)) := by
  induction m with
  | zero => rfl
  | succ m ih =>
    rw [List.range_succ, List.filterMap_append, firstUncoded_take_succ len xs hn]
    cases hbelow : firstUncoded len (xs.take (partBound xs.length n m)) with
    | none =>
      rw [hbelow, List.min?_eq_none_iff] at ih
      rw [ih]
      cases hw : workerUncoded len xs n m <;> simp [hw]
    | some i =>
      have hi : i < partBound xs.length n m := length_take_partBound xs n m ▸ firstUncoded_lt hbelow
      obtain ⟨hmem, hle⟩ := List.min?_eq_some_iff.mp (ih.trans hbelow)
      refine List.min?_eq_some_iff.mpr ⟨List.mem_append_left _ hmem, fun o ho => ?_⟩
      rcases List.mem_append.mp ho with ho | ho
      · exact hle o ho
      · obtain ⟨k, hk, hw⟩ := List.mem_filterMap.mp ho
        rw [List.mem_singleton.mp hk] at hw
        exact hi.le.trans (le_of_workerUncoded hw)

theorem workersUncoded_eq (len : Vector Byte 256) (xs : List Byte) {n : Nat} (hn : 1 ≤ n) :
    workersUncoded len xs n = firstUncoded len xs := by
  rw [workersUncoded_def, min?_workerUncoded len xs hn, take_partBound_last xs hn]

/-- Settles O30: the counts of all values sum to the input's length, and each reduction over the workers' ranges is the function of the
whole input. -/
theorem workersAgree : Obligations.WorkersAgree := by
  refine ⟨fun s t hu hin ht => ?hist, fun s n hn => ⟨workersTotal_eq _ _ hn, workersUncoded_eq _ _ hn⟩⟩
  case hist =>
    rw [exec_hist hu hin] at ht
    injection ht with ht
    have hhist (b : Fin 256) : t.hist[b].toNat = byteCount (inputBytes s) b := ht ▸ toNat_hist_afterPhase s b
    have hlen : t.origLen = s.inLen := ht ▸ rfl
    refine ⟨?_, hlen, fun n hn b => (workersCount_eq _ hn b).trans (hhist b).symm⟩
    rw [List.map_congr_left fun b _ => hhist b, sum_byteCount, length_inputBytes, hlen]

end Sys2Proof.Machine
end

section
/-!
The entries of a RAM that are not 0, as a filter over all bytes; a lookup in a table without repeated keys; and a code entry read back as
its bits (10 R36, R42, 41 R130).
-/
namespace Sys2Proof.Machine

/-! ### Nonzero entries of a RAM -/

theorem toList_eq_map_finRange {α : Type} (v : Vector α 256) : v.toList = (List.finRange 256).map fun b => v[b] :=
  List.ext_getElem (by simp) fun i _ _ => by simp

/-- The bytes whose entry is not 0, ascending. -/
def nonzeroBytes {w : Nat} (v : Vector (BitVec w) 256) : List (Fin 256) := (List.finRange 256).filter fun b => v[b] != 0#w

@[simp] theorem mem_nonzeroBytes {w : Nat} {v : Vector (BitVec w) 256} {b : Fin 256} : b ∈ nonzeroBytes v ↔ v[b] ≠ 0#w := by
  simp [nonzeroBytes]

theorem nonzeroBytes_ascending {w : Nat} (v : Vector (BitVec w) 256) : (nonzeroBytes v).Pairwise (· < ·) :=
  (List.pairwise_lt_finRange 256).filter _

theorem length_nonzeroBytes {w : Nat} (v : Vector (BitVec w) 256) : (nonzeroBytes v).length = v.toList.countP fun x => x != 0#w := by
  rw [nonzeroBytes, ← List.countP_eq_length_filter, toList_eq_map_finRange, List.countP_map]
  rfl

/-- The entries of a RAM are those of its nonzero bytes. -/
theorem nonzeroEntries_ramValues {w : Nat} (v : Vector (BitVec w) 256) :
    nonzeroEntries (ramValues v) = (nonzeroBytes v).map fun b => (b.val, v[b].toNat) := by
  have hzip : (ramValues v).zipIdx = (List.finRange 256).map fun b => (v[b].toNat, b.val) :=
    List.ext_getElem (by simp) fun i _ _ => by simp [getElem_ramValues]
  rw [nonzeroEntries, hzip, List.filterMap_map, nonzeroBytes, ← List.filterMap_eq_map, List.filterMap_filter]
  refine congrArg (List.filterMap · _) (funext fun b => ?_)
  have hzero : v[b].toNat = 0 ↔ v[b] = 0#w := (BitVec.toNat_eq (x := v[b]) (y := 0#w)).symm
  by_cases hb : v[b] = 0#w <;> simp_all

theorem length_nonzeroEntries_ramValues {w : Nat} (v : Vector (BitVec w) 256) :
    (nonzeroEntries (ramValues v)).length = v.toList.countP fun x => x != 0#w := by
  rw [nonzeroEntries_ramValues, List.length_map, length_nonzeroBytes]

/-- What the nonzero entries sum to, as a sum over all bytes. -/
theorem sum_map_nonzeroBytes {w : Nat} (v : Vector (BitVec w) 256) (f : Fin 256 → Nat) :
    ((nonzeroBytes v).map f).sum = ((List.finRange 256).map fun b => if v[b] = 0#w then 0 else f b).sum := by
  have hlist (l : List (Fin 256)) :
      ((l.filter fun b => v[b] != 0#w).map f).sum = (l.map fun b => if v[b] = 0#w then 0 else f b).sum := by
    induction l with
    | nil => rfl
    | cons b l ih => by_cases hb : v[b] = 0#w <;> simp_all
  exact hlist _

/-! ### Lookups -/

/-- With no key twice, a lookup finds the value of each key. -/
theorem lookup_of_mem {β : Type} {t : List (Nat × β)} (hnodup : (t.map Prod.fst).Nodup) {k : Nat} {x : β} (h : (k, x) ∈ t) :
    t.lookup k = some x := by
  obtain ⟨l₁, l₂, rfl⟩ := List.append_of_mem h
  refine List.lookup_eq_some_iff.mpr ⟨l₁, l₂, rfl, fun _ he => bne_iff_ne.mpr fun hk => ?_⟩
  rw [List.map_append, List.map_cons, List.nodup_append] at hnodup
  obtain ⟨_, _, hdisj⟩ := hnodup
  exact hdisj _ (List.mem_map_of_mem he) k List.mem_cons_self hk.symm

theorem lookup_of_not_mem {β : Type} {t : List (Nat × β)} {k : Nat} (h : k ∉ t.map Prod.fst) : t.lookup k = none :=
  List.lookup_eq_none_iff.mpr fun _ he => bne_iff_ne.mpr fun hk => h (hk ▸ List.mem_map_of_mem he)

/-! ### Code entries -/

theorem getMsbD_codeEntry {p : List Bool} (h : p.length ≤ 256) {k : Nat} (hk : k < p.length) : (codeEntry p).getMsbD k = p[k] := by
  rw [codeEntry, BitVec.getMsbD, BitVec.getLsbD_ofNat, Nat.testBit_mul_two_pow, testBit_bitsValue,
    List.getD_eq_getElem _ _ (by rw [List.length_reverse]; omega), List.getElem_reverse, decide_eq_true (by omega),
    decide_eq_true (by omega), decide_eq_true (by omega)]
  simp only [Bool.true_and]
  congr 1
  omega

/-- A path of at most 256 bits is what its entry reads back as. -/
theorem codeBits_codeEntry {p : List Bool} (h : p.length ≤ 256) : codeBits (codeEntry p) p.length = p :=
  List.ext_getElem (by simp [codeBits]) fun k _ hk => by simpa [codeBits] using getMsbD_codeEntry h hk

@[simp] theorem codeEntry_nil : codeEntry [] = 0#256 := by simp [codeEntry, bitsValue]

end Sys2Proof.Machine
end

section
/-!
The code table of a tree in an arena: every leaf's path, and what BUILD's merges make of the leaves' tables (41 R133, R136, 42 R150).
-/
namespace Sys2Proof.Machine

/-! ### The table of a tree -/

/-- Entry `i` of the list is the root of a strict binary tree, and the table holds the symbol and the path of each of its leaves, the
sentinel's among them, the leaf visited last first (42 R150). -/
inductive TreeTable (a : List Node) : Nat → PathTable → Prop
  | leaf {i : Nat} (hi : i < a.length) (hleaf : (arenaAt a i).leaf = true) : TreeTable a i [((arenaAt a i).sym.toNat, [])]
  | inner {i : Nat} {r l : PathTable} (hi : i < a.length) (hleaf : (arenaAt a i).leaf = false)
      (right : TreeTable a (arenaAt a i).right.toNat r) (left : TreeTable a (arenaAt a i).left.toNat l) :
      TreeTable a i (stepped true r ++ stepped false l)

@[simp] theorem length_stepped (bit : Bool) (t : PathTable) : (stepped bit t).length = t.length := by simp [stepped]

@[simp] theorem stepped_fst (bit : Bool) (t : PathTable) : (stepped bit t).map Prod.fst = t.map Prod.fst := by
  simp [stepped, Function.comp_def]

theorem mem_stepped {bit : Bool} {t : PathTable} {e : Nat × List Bool} (h : e ∈ stepped bit t) :
    ∃ f ∈ t, e.1 = f.1 ∧ e.2.length = f.2.length + 1 := by
  obtain ⟨f, hf, rfl⟩ := List.mem_map.mp h
  exact ⟨f, hf, rfl, rfl⟩

/-- The entries of byte values: DERIVE records no path to the sentinel (42 R150). -/
def byteEntries (t : PathTable) : PathTable := t.filter fun e => decide (e.1 < 256)

theorem byteEntries_stepped (bit : Bool) (t : PathTable) : byteEntries (stepped bit t) = stepped bit (byteEntries t) := by
  simp [byteEntries, stepped, List.filter_map, Function.comp_def]

namespace TreeTable

variable {a : List Node} {i : Nat} {t : PathTable}

theorem index_lt (h : TreeTable a i t) : i < a.length := by cases h <;> assumption

theorem length_pos (h : TreeTable a i t) : 0 < t.length := by
  induction h with
  | leaf => exact Nat.one_pos
  | inner _ _ _ _ hr _ => simp only [List.length_append, length_stepped]; omega

/-- Entries put after a tree leave it as it is. -/
theorem append (h : TreeTable a i t) (b : List Node) : TreeTable (a ++ b) i t := by
  have hlen : a.length ≤ (a ++ b).length := by simp
  induction h with
  | leaf hi hleaf =>
    rw [← arenaAt_append_of_lt hi b] at hleaf ⊢
    exact .leaf (hi.trans_le hlen) hleaf
  | inner hi hleaf _ _ hr hl =>
    rw [← arenaAt_append_of_lt hi b] at hleaf hr hl
    exact .inner (hi.trans_le hlen) hleaf hr hl

/-- A path has fewer edges than the tree has leaves (41 R136). -/
theorem length_path_lt (h : TreeTable a i t) {e : Nat × List Bool} (he : e ∈ t) : e.2.length < t.length := by
  induction h generalizing e with
  | leaf => rw [List.mem_singleton.mp he]; exact Nat.one_pos
  | inner _ _ right left hr hl =>
    have hrpos := right.length_pos
    have hlpos := left.length_pos
    simp only [List.length_append, length_stepped]
    rcases List.mem_append.mp he with he | he <;> obtain ⟨f, hf, _, hlen⟩ := mem_stepped he
    · have := hr hf; omega
    · have := hl hf; omega

/-- In a tree of several leaves every path has an edge. -/
theorem path_length_pos (h : TreeTable a i t) (ht : 2 ≤ t.length) {e : Nat × List Bool} (he : e ∈ t) : 1 ≤ e.2.length := by
  cases h with
  | leaf => simp at ht
  | inner =>
    rcases List.mem_append.mp he with he | he <;> obtain ⟨f, _, _, hlen⟩ := mem_stepped he <;> omega

/-- The Kraft equality: a strict tree's path lengths fill the code space (42 R155). -/
theorem kraft (h : TreeTable a i t) {n : Nat} (hn : t.length ≤ n + 1) : (t.map fun e => 2 ^ (n - e.2.length)).sum = 2 ^ n := by
  induction h generalizing n with
  | leaf => simp
  | inner _ _ right left hr hl =>
    have hrpos := right.length_pos
    have hlpos := left.length_pos
    simp only [List.length_append, length_stepped] at hn
    obtain ⟨m, rfl⟩ : ∃ m, n = m + 1 := ⟨n - 1, by omega⟩
    have half (bit : Bool) (u : PathTable) :
        (stepped bit u).map (fun e => 2 ^ (m + 1 - e.2.length)) = u.map fun e => 2 ^ (m - e.2.length) := by
      simp [stepped, Function.comp_def]
    rw [List.map_append, List.sum_append, half, half, hr (by omega), hl (by omega), Nat.pow_succ]
    omega

/-- The plain recursion over a tree gives its table of byte values. -/
theorem leafPaths (h : TreeTable a i t) (ha : a.length ≤ 511) {c : Index} (hc : c.toNat = i) {d : Nat} (hd : t.length ≤ d) :
    Machine.leafPaths (arenaOf a) d c = some (byteEntries t) := by
  have hnode {j : Nat} (hj : j < a.length) {c : Index} (hc : c.toNat = j) : nodeAt (arenaOf a) c = arenaAt a j := by
    rw [nodeAt_arenaOf a (by omega), hc]
  have hchild {j : Nat} {u : PathTable} (hu : TreeTable a j u) {c : Index} (hc : c.toNat = j) : c ≠ noNode := by
    rintro rfl
    have := hu.index_lt
    simp [noNode] at hc
    omega
  induction h generalizing c d with
  | leaf hi hleaf =>
    obtain ⟨d, rfl⟩ : ∃ m, d = m + 1 := ⟨d - 1, by simp at hd; omega⟩
    simp only [Machine.leafPaths, hnode hi hc, hleaf, if_true, byteEntries, List.filter_cons, List.filter_nil, decide_eq_true_eq]
  | inner hi hleaf right left hr hl =>
    have hrpos := right.length_pos
    have hlpos := left.length_pos
    simp only [List.length_append, length_stepped] at hd
    obtain ⟨d, rfl⟩ : ∃ m, d = m + 1 := ⟨d - 1, by omega⟩
    simp only [Machine.leafPaths, hnode hi hc, hleaf, Bool.false_eq_true, if_false, if_neg (hchild right rfl), if_neg (hchild left rfl)]
    rw [hr rfl (by omega), hl rfl (by omega)]
    simp only [← byteEntries_stepped]
    simp [byteEntries]

end TreeTable

/-! ### BUILD's tables -/

/-- Every queued tree has a table, and together the tables list the given symbols. -/
def Tabled (syms : List Nat) (q : List Key) (a : List Node) : Prop :=
  ∃ table : Nat → PathTable, (∀ k ∈ q, TreeTable a k.2 (table k.2))
    ∧ (q.flatMap fun k => (table k.2).map Prod.fst).Perm syms

theorem Tabled.perm {syms : List Nat} {q q' : List Key} {a : List Node} (h : Tabled syms q a) (p : q.Perm q') : Tabled syms q' a := by
  obtain ⟨table, htree, hsyms⟩ := h
  exact ⟨table, fun k hk => htree k (p.symm.subset hk), (p.symm.flatMap_right _).trans hsyms⟩

/-- The tables after the trees at `k` and `l` are joined under entry `n`. -/
def joinTables (table : Nat → PathTable) (n k l : Nat) : Nat → PathTable :=
  Function.update table n (stepped true (table l) ++ stepped false (table k))

@[simp] theorem joinTables_self (table : Nat → PathTable) (n k l : Nat) :
    joinTables table n k l n = stepped true (table l) ++ stepped false (table k) := Function.update_self ..

theorem joinTables_of_ne {n i : Nat} (h : i ≠ n) (table : Nat → PathTable) (k l : Nat) : joinTables table n k l i = table i :=
  Function.update_of_ne h ..

/-- Joining two trees joins their tables. -/
theorem Tabled.join {syms : List Nat} {q : List Key} {a : List Node} {k l : Key} (h : Tabled syms (k :: l :: q) a)
    (ha : a.length ≤ 511) :
    Tabled syms (q ++ [(k.1 + l.1, a.length)]) (a ++ [internalNode (k.1 + l.1) (BitVec.ofNat 9 k.2) (BitVec.ofNat 9 l.2)]) := by
  obtain ⟨table, htree, hsyms⟩ := h
  have hk := htree k (by simp)
  have hl := htree l (by simp)
  have hkept : ∀ x ∈ q, joinTables table a.length k.2 l.2 x.2 = table x.2 := fun x hx =>
    joinTables_of_ne (htree x (by simp [hx])).index_lt.ne table _ _
  refine ⟨joinTables table a.length k.2 l.2, fun x hx => ?tree, ?syms⟩
  case tree =>
    rcases List.mem_append.mp hx with hx | hx
    · rw [hkept x hx]
      exact (htree x (by simp [hx])).append _
    · obtain rfl := List.mem_singleton.mp hx
      rw [joinTables_self]
      have hk9 : (BitVec.ofNat 9 k.2).toNat = k.2 := toNat_ofNat_index (hk.index_lt.trans_le ha)
      have hl9 : (BitVec.ofNat 9 l.2).toNat = l.2 := toNat_ofNat_index (hl.index_lt.trans_le ha)
      refine .inner (by simp) (by simp [internalNode]) ?_ ?_ <;> simp only [arenaAt_append_length, internalNode]
      · exact hl9.symm ▸ hl.append _
      · exact hk9.symm ▸ hk.append _
  case syms =>
    have hq : (q.flatMap fun x => (joinTables table a.length k.2 l.2 x.2).map Prod.fst) = q.flatMap fun x => (table x.2).map Prod.fst :=
      List.flatMap_congr fun x hx => by rw [hkept x hx]
    refine .trans ?_ hsyms
    simp only [List.flatMap_append, hq, List.flatMap_cons, List.flatMap_nil, joinTables_self, List.map_append, stepped_fst,
      List.append_nil]
    exact (List.perm_append_comm.append_left _).trans (List.perm_append_comm.trans (by rw [List.append_assoc]))

theorem Tabled.merge {syms : List Nat} {q q' : List Key} {a a' : List Node} (h : Tabled syms q a) (hforest : Forest q a)
    (m : Merge q a q' a') : Tabled syms q' a' := by
  obtain ⟨first, second⟩ := m
  have hperm := (perm_of_popLeast first).trans ((perm_of_popLeast second).cons _)
  refine (h.perm hperm).join ?_
  have hsize := (hforest.perm hperm).size
  simp only [List.length_cons] at hsize
  omega

/-! ### The leaves of the bytes that occur -/

theorem histLeaves_eq (hist : Vector Word 256) : histLeaves hist = (nonzeroBytes hist).map fun b => leafNode b.val hist[b].toNat := by
  rw [histLeaves, nonzeroEntries_ramValues, List.map_map]
  rfl

@[simp] theorem length_histLeaves (hist : Vector Word 256) : (histLeaves hist).length = (nonzeroBytes hist).length := by
  rw [histLeaves_eq, List.length_map]

theorem seedLeaves_of_single {hist : Vector Word 256} (h : (nonzeroBytes hist).length = 1) :
    seedLeaves hist = histLeaves hist ++ [leafNode 256 0] := if_pos ((length_histLeaves hist).trans h)

theorem seedLeaves_of_not_single {hist : Vector Word 256} (h : (nonzeroBytes hist).length ≠ 1) : seedLeaves hist = histLeaves hist :=
  if_neg (length_histLeaves hist ▸ h)

/-- With a byte that occurs there are at least two leaves (41 R134). -/
theorem length_seedLeaves {hist : Vector Word 256} (h : 1 ≤ (nonzeroBytes hist).length) :
    (seedLeaves hist).length = max (nonzeroBytes hist).length 2 := by
  by_cases hone : (nonzeroBytes hist).length = 1
  · simp [seedLeaves_of_single hone, hone]
  · rw [seedLeaves_of_not_single hone, length_histLeaves]
    omega

/-- The symbols of the leaves, the sentinel's 256 among them. -/
def seedSymbols (hist : Vector Word 256) : List Nat := (seedLeaves hist).map fun n => n.sym.toNat

theorem histLeaves_symbols (hist : Vector Word 256) :
    (histLeaves hist).map (fun n => n.sym.toNat) = (nonzeroBytes hist).map Fin.val := by
  rw [histLeaves_eq, List.map_map]
  exact List.map_congr_left fun b _ => Nat.mod_eq_of_lt (by omega)

theorem seedSymbols_of_not_single {hist : Vector Word 256} (h : (nonzeroBytes hist).length ≠ 1) :
    seedSymbols hist = (nonzeroBytes hist).map Fin.val := by
  rw [seedSymbols, seedLeaves_of_not_single h, histLeaves_symbols]

theorem seedSymbols_bytes (hist : Vector Word 256) :
    (seedSymbols hist).filter (fun x => decide (x < 256)) = (nonzeroBytes hist).map Fin.val := by
  have hbytes : ((nonzeroBytes hist).map Fin.val).filter (fun x => decide (x < 256)) = (nonzeroBytes hist).map Fin.val :=
    List.filter_eq_self.mpr fun x hx => by
      obtain ⟨b, _, rfl⟩ := List.mem_map.mp hx
      exact decide_eq_true b.isLt
  by_cases hone : (nonzeroBytes hist).length = 1
  · rw [seedSymbols, seedLeaves_of_single hone, List.map_append, histLeaves_symbols, List.filter_append, hbytes]
    simp [leafNode]
  · rw [seedSymbols_of_not_single hone, hbytes]

theorem map_arenaAt_range {α : Type} (a : List Node) (f : Node → α) :
    ((List.range a.length).map fun i => f (arenaAt a i)) = a.map f :=
  List.ext_getElem (by simp) fun i _ hi => by
    simp only [List.getElem_map, List.getElem_range, arenaAt_of_lt (List.length_map f ▸ hi)]

/-- The leaves BUILD starts from, each with the table of its own symbol. -/
theorem seed_tabled (hist : Vector Word 256) : Tabled (seedSymbols hist) (seedQueue (seedLeaves hist)) (seedLeaves hist) := by
  refine ⟨fun i => [((arenaAt (seedLeaves hist) i).sym.toNat, [])], fun k hk => .leaf ((seed_forest hist).index_lt hk) ?leaf, ?syms⟩
  case leaf =>
    obtain ⟨_, _, hleaf, _⟩ := seedLeaves_leaf (arenaAt_mem ((seed_forest hist).index_lt hk))
    rw [hleaf]
    rfl
  case syms =>
    have hsyms : ((seedQueue (seedLeaves hist)).flatMap fun k =>
        [((arenaAt (seedLeaves hist) k.2).sym.toNat, ([] : List Bool))].map Prod.fst) = seedSymbols hist := by
      rw [seedSymbols, ← map_arenaAt_range, ← seedQueue_indices, List.map_map, List.map_eq_flatMap]
      rfl
    rw [hsyms]

/-- BUILD's queue ends with one key, and ROOT is its index (41 R133). -/
theorem buildMerged_queue {hist : Vector Word 256} (h : seedLeaves hist ≠ []) :
    ∃ k, (buildMerged hist).1 = [k] ∧ (buildRoot hist).toNat = k.2 := by
  have hne : (buildMerged hist).1 ≠ [] := by
    refine mergeLoop_keeps (P := fun q _ => q ≠ []) (fun _ _ _ _ _ m => ?_) _ (List.ne_nil_of_length_pos ?_)
    · obtain ⟨_, _⟩ := m
      simp
    · rw [length_seedQueue]
      exact List.length_pos_of_ne_nil h
  have hsize := (buildMerged_forest hist).size
  obtain ⟨k, hq⟩ := List.length_eq_one_iff.mp
    (Nat.le_antisymm (length_buildMerged_queue_le hist) (List.length_pos_of_ne_nil hne))
  have hk : k.2 < (buildMerged hist).2.length := (buildMerged_forest hist).index_lt (by simp [hq])
  refine ⟨k, hq, ?_⟩
  rw [hq, List.length_singleton] at hsize
  rw [buildRoot, hq]
  exact toNat_ofNat_index (by omega)

/-- BUILD's tree has a table, of the leaves it started from. -/
theorem buildMerged_table {hist : Vector Word 256} (h : seedLeaves hist ≠ []) :
    ∃ t, TreeTable (buildMerged hist).2 (buildRoot hist).toNat t ∧ (t.map Prod.fst).Perm (seedSymbols hist) := by
  have htabled : Forest (buildMerged hist).1 (buildMerged hist).2
      ∧ Tabled (seedSymbols hist) (buildMerged hist).1 (buildMerged hist).2 :=
    mergeLoop_keeps (P := fun q a => Forest q a ∧ Tabled (seedSymbols hist) q a)
      (fun _ _ _ _ ⟨hf, ht⟩ m => ⟨hf.merge m, ht.merge hf m⟩) _ ⟨seed_forest hist, seed_tabled hist⟩
  obtain ⟨k, hq, hroot⟩ := buildMerged_queue h
  obtain ⟨_, table, htree, hsyms⟩ := htabled
  rw [hq] at htree hsyms
  exact ⟨table k.2, hroot ▸ htree k List.mem_cons_self, by simpa using hsyms⟩

end Sys2Proof.Machine
end

section
/-!
DERIVE over the tree BUILD made: its table of bytes and paths, the LEN and CODE entries this table gives, and their Kraft sum (41 R136,
42 R150, R151; O38).
-/
namespace Sys2Proof.Machine

/-! ### The table DERIVE reads off BUILD's tree -/

/-- What the table of BUILD's tree says: DERIVE's traversal gives it, it lists exactly the paths to bytes' leaves, one for each byte that
occurs, of at least one edge and fewer than the tree has leaves, and the paths of several bytes fill the code space. -/
structure BuildTable (hist : Vector Word 256) (t : PathTable) : Prop where
  derived : derivePaths (arenaOf (buildMerged hist).2) (buildRoot hist) = some t
  leads : ∀ u : State, u.node = arenaOf (buildMerged hist).2 → u.root = buildRoot hist →
    ∀ p (b : Fin 256), leadsTo u p b ↔ (b.val, p) ∈ t
  bytes : (t.map Prod.fst).Perm ((nonzeroBytes hist).map Fin.val)
  path_pos : ∀ e ∈ t, 1 ≤ e.2.length
  path_lt : ∀ e ∈ t, e.2.length < max t.length 2
  kraft : 2 ≤ t.length → (t.map fun e => 2 ^ (255 - e.2.length)).sum = 2 ^ 255

/-- The paths of a tree whose table the plain recursion gives. -/
theorem leadsTo_iff_mem_of_leafPaths {u : State} {d : Nat} {t : PathTable} (hroot : u.root ≠ noNode)
    (h : leafPaths u.node d u.root = some t) (p : List Bool) (b : Fin 256) : leadsTo u p b ↔ (b.val, p) ∈ t := by
  rw [mem_leafPaths _ _ _ _ h, leadsTo]
  simp [hroot, b.isLt]

/-- With no byte that occurs there is no entry and no tree (41 R133). -/
theorem buildMerged_of_no_bytes {hist : Vector Word 256} (h : (nonzeroBytes hist).length = 0) : buildMerged hist = ([], []) := by
  have hleaves : seedLeaves hist = [] := by
    rw [seedLeaves_of_not_single (by omega), ← List.length_eq_zero_iff, length_histLeaves, h]
  rw [buildMerged, hleaves]
  rfl

theorem buildRoot_of_no_bytes {hist : Vector Word 256} (h : (nonzeroBytes hist).length = 0) : buildRoot hist = noNode := by
  rw [buildRoot, buildMerged_of_no_bytes h]

theorem seedLeaves_ne_nil {hist : Vector Word 256} (h : 1 ≤ (nonzeroBytes hist).length) : seedLeaves hist ≠ [] :=
  List.ne_nil_of_length_pos (by rw [length_seedLeaves h]; omega)

theorem buildTable_of_no_bytes {hist : Vector Word 256} (h : (nonzeroBytes hist).length = 0) : BuildTable hist [] where
  derived := by rw [buildRoot_of_no_bytes h, derivePaths, if_pos rfl]
  leads := fun u _ hu p b => by simp [leadsTo, hu, buildRoot_of_no_bytes h]
  bytes := by simp [List.length_eq_zero_iff.mp h]
  path_pos := by simp
  path_lt := by simp
  kraft := by simp

theorem buildTable_of_bytes {hist : Vector Word 256} (h : 1 ≤ (nonzeroBytes hist).length) : ∃ t, BuildTable hist t := by
  have hseeds := length_seedLeaves h
  have hle := length_seedLeaves_le hist
  obtain ⟨full, htree, hsyms⟩ := buildMerged_table (seedLeaves_ne_nil h)
  have hfull : full.length = max (nonzeroBytes hist).length 2 := by
    rw [← hseeds, ← List.length_map (as := full) Prod.fst, hsyms.length_eq, seedSymbols, List.length_map]
  have hlist := buildMerged_arenaList hist
  have hroot : buildRoot hist ≠ noNode := fun e => by
    have := htree.index_lt
    rw [hlist.root.mp e] at this
    simp at this
  have hpaths : leafPaths (arenaOf (buildMerged hist).2) Config.arena (buildRoot hist) = some (byteEntries full) :=
    htree.leafPaths hlist.length_le rfl (by rw [Config.arena]; omega)
  have hbytes : ((byteEntries full).map Prod.fst).Perm ((nonzeroBytes hist).map Fin.val) := by
    have hkept := hsyms.filter fun x => decide (x < 256)
    rwa [seedSymbols_bytes, List.filter_map] at hkept
  have hlen : (byteEntries full).length = (nonzeroBytes hist).length := by simpa using hbytes.length_eq
  exact ⟨byteEntries full, {
    derived := derivePaths_leafPaths hroot hpaths
    leads := fun u hnode hu => leadsTo_iff_mem_of_leafPaths (hu ▸ hroot) (hnode ▸ hu ▸ hpaths)
    bytes := hbytes
    path_pos := fun e he => htree.path_length_pos (by omega) (List.mem_of_mem_filter he)
    path_lt := fun e he => by
      rw [hlen, ← hfull]
      exact htree.length_path_lt (List.mem_of_mem_filter he)
    kraft := fun hn => by
      have hall : byteEntries full = full := List.filter_eq_self.mpr (List.length_filter_eq_length_iff.mp (hlen.trans (by omega)))
      rw [hall]
      exact htree.kraft (by omega) }⟩

theorem exists_buildTable (hist : Vector Word 256) : ∃ t, BuildTable hist t := by
  rcases Nat.eq_zero_or_pos (nonzeroBytes hist).length with h | h
  · exact ⟨[], buildTable_of_no_bytes h⟩
  · exact buildTable_of_bytes h

namespace BuildTable

variable {hist : Vector Word 256} {t : PathTable}

theorem length_eq (h : BuildTable hist t) : t.length = (nonzeroBytes hist).length := by simpa using h.bytes.length_eq

theorem nodup (h : BuildTable hist t) : (t.map Prod.fst).Nodup :=
  h.bytes.nodup_iff.mpr ((nonzeroBytes_ascending hist).imp (fun h => h.ne) |>.map _ fun _ _ => Fin.val_ne_of_ne)

theorem path_le (h : BuildTable hist t) {e : Nat × List Bool} (he : e ∈ t) : e.2.length ≤ 255 := by
  have hlt := h.path_lt e he
  have hlen := length_histLeaves_le hist
  rw [length_histLeaves, ← h.length_eq] at hlen
  omega

theorem mem_keys (h : BuildTable hist t) {b : Fin 256} : b.val ∈ t.map Prod.fst ↔ hist[b] ≠ 0#64 := by
  rw [h.bytes.mem_iff, List.mem_map_of_injective Fin.val_injective, mem_nonzeroBytes]

/-- A byte that does not occur has no path. -/
theorem pathOf_of_zero (h : BuildTable hist t) {b : Fin 256} (hb : hist[b] = 0#64) : pathOf t b = [] := by
  rw [pathOf, lookup_of_not_mem fun hmem => h.mem_keys.mp hmem hb]
  rfl

theorem pathOf_of_mem (h : BuildTable hist t) {b : Fin 256} {p : List Bool} (hp : (b.val, p) ∈ t) : pathOf t b = p := by
  rw [pathOf, lookup_of_mem h.nodup hp]
  rfl

/-- A byte that occurs has its path in the table. -/
theorem pathOf_mem (h : BuildTable hist t) {b : Fin 256} (hb : hist[b] ≠ 0#64) : (b.val, pathOf t b) ∈ t := by
  obtain ⟨⟨_, p⟩, hp, rfl⟩ := List.mem_map.mp (h.mem_keys.mpr hb)
  rwa [h.pathOf_of_mem hp]

theorem length_pathOf_le (h : BuildTable hist t) (b : Fin 256) : (pathOf t b).length ≤ 255 := by
  by_cases hb : hist[b] = 0#64
  · simp [h.pathOf_of_zero hb]
  · exact h.path_le (h.pathOf_mem hb)

theorem fitsCode_pathOf (h : BuildTable hist t) (b : Fin 256) : fitsCode (pathOf t b) = true := decide_eq_true (h.length_pathOf_le b)

/-! ### The tables DERIVE writes -/

theorem pathLens_getElem (h : BuildTable hist t) (ops : List Nat) (b : Fin 256) :
    (pathLens ops t)[b] = BitVec.ofNat 8 (pathOf t b).length := by
  rw [pathLens, getElem_tabulate_fin, if_pos (h.fitsCode_pathOf b)]

theorem pathCodes_getElem (h : BuildTable hist t) (ops : List Nat) (b : Fin 256) : (pathCodes ops t)[b] = codeEntry (pathOf t b) := by
  rw [pathCodes, getElem_tabulate_fin, if_pos (h.fitsCode_pathOf b)]

theorem toNat_pathLens (h : BuildTable hist t) (ops : List Nat) (b : Fin 256) : (pathLens ops t)[b].toNat = (pathOf t b).length := by
  rw [h.pathLens_getElem, BitVec.toNat_ofNat, Nat.mod_eq_of_lt (by have := h.length_pathOf_le b; omega)]

/-- A byte has a length exactly when it occurs. -/
theorem pathLens_eq_zero (h : BuildTable hist t) (ops : List Nat) (b : Fin 256) : (pathLens ops t)[b] = 0#8 ↔ hist[b] = 0#64 := by
  rw [BitVec.toNat_eq, h.toNat_pathLens]
  constructor
  · intro hlen
    by_contra hb
    have hpos : 1 ≤ (pathOf t b).length := h.path_pos _ (h.pathOf_mem hb)
    exact absurd (hlen ▸ hpos) (by decide)
  · intro hb
    simp [h.pathOf_of_zero hb]

theorem nonzeroBytes_pathLens (h : BuildTable hist t) (ops : List Nat) : nonzeroBytes (pathLens ops t) = nonzeroBytes hist :=
  List.filter_congr fun b _ => by rw [Bool.eq_iff_iff, bne_iff_ne, bne_iff_ne, Ne, h.pathLens_eq_zero]

/-- The Kraft sum over the LEN table is that over the tree's paths. -/
theorem kraft_pathLens (h : BuildTable hist t) (ops : List Nat) :
    ((pathLens ops t).toList.map fun l => if l = 0#8 then 0 else 2 ^ (255 - l.toNat)).sum
      = (t.map fun e => 2 ^ (255 - e.2.length)).sum := by
  have hkeys : (t.map Prod.fst).map (fun k => 2 ^ (255 - ((t.lookup k).getD []).length)) = t.map fun e => 2 ^ (255 - e.2.length) := by
    rw [List.map_map]
    exact List.map_congr_left fun e he => by simp [lookup_of_mem h.nodup he]
  calc ((pathLens ops t).toList.map fun l => if l = 0#8 then 0 else 2 ^ (255 - l.toNat)).sum
    _ = ((nonzeroBytes (pathLens ops t)).map fun b => 2 ^ (255 - (pathLens ops t)[b].toNat)).sum := by
      rw [sum_map_nonzeroBytes, toList_eq_map_finRange, List.map_map]
      rfl
    _ = (((nonzeroBytes hist).map Fin.val).map fun k => 2 ^ (255 - ((t.lookup k).getD []).length)).sum := by
      rw [h.nonzeroBytes_pathLens, List.map_map]
      exact congrArg List.sum (List.map_congr_left fun b _ => by rw [h.toNat_pathLens]; rfl)
    _ = _ := by rw [← hkeys, (h.bytes.map _).sum_nat]

end BuildTable

/-! ### DERIVE after BUILD -/

/-- The tree BUILD leaves, undisturbed, with the engine idle (41 R133). -/
theorem build_tree {s t : State} (hu : s.undisturbed = true) (h : exec .build s = .next t) :
    t.node = arenaOf (buildMerged s.hist).2 ∧ t.root = buildRoot s.hist ∧ t.nnodes = BitVec.ofNat 9 (buildMerged s.hist).2.length
      ∧ t.running = none := by
  rw [exec_build hu] at h
  injection h with h
  exact h ▸ ⟨rfl, rfl, rfl, rfl⟩

theorem undisturbed_of_idle {s : State} (h : s.running = none) : s.undisturbed = true := by
  simp [State.undisturbed, State.raced, State.reply, h]

/-- DERIVE's completion, undisturbed, over an arena with a table (42 R150). -/
theorem exec_derive {s : State} {t : PathTable} (hu : s.undisturbed = true) (h : derivePaths s.node s.root = some t) :
    exec .derive s = .next (State.succeeded
      { s with
        len := pathLens (treeOperands s.node s.root) t
        code := pathCodes (treeOperands s.node s.root) t }
      (BitVec.ofNat 64 (lenEntries (pathLens (treeOperands s.node s.root) t)).length)) := by
  have hrun := runPlan_always_ok (ph := .derive) (ps := []) (phaseDerive_some (tm := .freq) h)
  rw [if_pos rfl] at hrun
  rw [exec_eq, Command.completed_undisturbed _ hu, show (commandOf .derive).plan = [.always .derive (phaseDerive .freq)] from rfl, hrun]
  rfl

/-- DERIVE over the tree BUILD made from `s` commits the entries of the tree's table, and counts the bytes that occur. -/
theorem exec_derive_of_build {s t : State} {table : PathTable} (hu : s.undisturbed = true) (h : exec .build s = .next t)
    (htable : BuildTable s.hist table) :
    ∃ u, exec .derive t = .next u ∧ doneWith t u t.status.empty (BitVec.ofNat 64 (histSymbols s))
      ∧ u.len = pathLens (treeOperands t.node t.root) table ∧ u.code = pathCodes (treeOperands t.node t.root) table
      ∧ ∀ p (b : Fin 256), leadsTo u p b ↔ (b.val, p) ∈ table := by
  obtain ⟨hnode, hroot, _, hidle⟩ := build_tree hu h
  have hcount : (lenEntries (pathLens (treeOperands t.node t.root) table)).length = histSymbols s := by
    rw [lenEntries, List.length_map, length_nonzeroEntries_ramValues, ← length_nonzeroBytes, htable.nonzeroBytes_pathLens,
      length_nonzeroBytes, histSymbols]
  refine ⟨_, exec_derive (undisturbed_of_idle hidle) (hnode ▸ hroot ▸ htable.derived), ?done, rfl, rfl, ?leads⟩
  case done => exact ⟨rfl, by rw [State.succeeded_result, hcount], rfl, rfl⟩
  case leads => exact htable.leads _ hnode hroot

/-- The lengths of a BUILD tree are ones CANON accepts (42 R155). -/
theorem lengthsOk_of_buildTable {u : State} {hist : Vector Word 256} {table : PathTable} (h : BuildTable hist table) {ops : List Nat}
    (hlen : u.len = pathLens ops table) : lengthsOk u := by
  have hcoded : codedSymbols u = table.length := by
    rw [codedSymbols, hlen, ← length_nonzeroBytes, h.nonzeroBytes_pathLens, h.length_eq]
  rcases Nat.lt_trichotomy table.length 1 with hn | hn | hn
  · exact .inl (by omega)
  · refine .inr (.inl ⟨hcoded.trans hn, fun l hl hne => ?_⟩)
    rw [hlen, toList_eq_map_finRange] at hl
    obtain ⟨b, _, rfl⟩ := List.mem_map.mp hl
    have hmem := h.pathOf_mem (mt (h.pathLens_eq_zero ops b).mpr hne)
    have hpos : 1 ≤ (pathOf table b).length := h.path_pos _ hmem
    have hlt : (pathOf table b).length < max table.length 2 := h.path_lt _ hmem
    have hbit : (pathOf table b).length = 1 := by omega
    rw [h.pathLens_getElem, hbit]
  · exact .inr (.inr ⟨hcoded ▸ hn, by rw [hlen, h.kraft_pathLens, h.kraft hn]⟩)

/-- The bits of a byte's entry are its path (42 R151). -/
theorem codeWordBits_of_buildTable {u : State} {hist : Vector Word 256} {table : PathTable} (h : BuildTable hist table) {ops : List Nat}
    (hlen : u.len = pathLens ops table) (hcode : u.code = pathCodes ops table) (b : Fin 256) : codeWordBits u b = pathOf table b := by
  rw [codeWordBits, hlen, hcode, h.toNat_pathLens, h.pathCodes_getElem]
  exact codeBits_codeEntry ((h.length_pathOf_le b).trans (by decide))

/-- A byte that does not occur has no code (41 R136). -/
theorem uncoded_of_buildTable {u : State} {hist : Vector Word 256} {table : PathTable} (h : BuildTable hist table) {ops : List Nat}
    (hlen : u.len = pathLens ops table) (hcode : u.code = pathCodes ops table) {b : Fin 256} (hb : hist[b] = 0#64) :
    u.len[b] = 0#8 ∧ u.code[b] = 0#256 := by
  rw [hlen, hcode, h.pathLens_eq_zero, h.pathCodes_getElem, h.pathOf_of_zero hb, codeEntry_nil]
  exact ⟨hb, rfl⟩

/-- Settles O38: DERIVE commits the paths of the table of BUILD's tree, which an induction over the tree bounds and weighs. -/
theorem deriveOverBuildTree : Obligations.DeriveOverBuildTree := by
  intro s t hu h
  obtain ⟨table, htable⟩ := exists_buildTable s.hist
  obtain ⟨u, hderive, hdone, hlen, hcode, hleads⟩ := exec_derive_of_build hu h htable
  refine ⟨u, hderive, hdone, fun b hb => uncoded_of_buildTable htable hlen hcode hb, fun b hb => ?coded,
    lengthsOk_of_buildTable htable hlen⟩
  case coded =>
    have hmem := htable.pathOf_mem hb
    rw [codeWordBits_of_buildTable htable hlen hcode, hlen, hcode, htable.toNat_pathLens, htable.pathCodes_getElem]
    exact ⟨htable.path_pos _ hmem, (hleads _ _).mpr hmem, rfl, fun p hp => (htable.pathOf_of_mem ((hleads p b).mp hp)).symm⟩

end Sys2Proof.Machine
end

section
/-!
The order of BUILD's queue, and the two least queued keys that each merge takes (41 R132, R133, R135; O32).
-/
namespace Sys2Proof.Machine

/-! ### The least key -/

/-- The queue's order is the lexicographic one. -/
theorem keyLess_iff {a b : Key} : keyLess a b = true ↔ toLex a < toLex b := by
  simp [keyLess, Prod.Lex.toLex_lt_toLex]

theorem leastKey_le (k : Key) (ks : List Key) : ∀ x ∈ k :: ks, toLex (leastKey k ks) ≤ toLex x := by
  induction ks generalizing k with
  | nil => simp [leastKey]
  | cons y ys ih =>
    have hless : toLex (if keyLess y k then y else k) ≤ toLex k ∧ toLex (if keyLess y k then y else k) ≤ toLex y := by
      split
      · next h => exact ⟨(keyLess_iff.mp h).le, le_rfl⟩
      · next h => exact ⟨le_rfl, not_lt.mp (mt keyLess_iff.mpr h)⟩
    have hfirst := ih (if keyLess y k then y else k) _ List.mem_cons_self
    intro x hx
    rw [leastKey]
    rcases List.mem_cons.mp hx with rfl | hx
    · exact hfirst.trans hless.1
    · rcases List.mem_cons.mp hx with rfl | hx
      · exact hfirst.trans hless.2
      · exact ih _ x (List.mem_cons_of_mem _ hx)

/-- What a pop answers: a least key of the queue, and the rest. -/
theorem popLeast_some {q q' : List Key} {k : Key} (h : popLeast q = some (k, q')) :
    k ∈ q ∧ q' = q.erase k ∧ ∀ x ∈ q, toLex k ≤ toLex x := by
  cases q with
  | nil => cases h
  | cons y ys =>
    simp only [popLeast, Option.some.injEq, Prod.mk.injEq] at h
    obtain ⟨rfl, rfl⟩ := h
    exact ⟨leastKey_mem y ys, rfl, leastKey_le y ys⟩

/-- A least key comes before every other key. -/
theorem lt_of_least {q : List Key} {k x : Key} (hleast : ∀ x ∈ q, toLex k ≤ toLex x) (hx : x ∈ q) (hne : x ≠ k) :
    toLex k < toLex x := (hleast x hx).lt_of_ne fun e => hne (toLex.injective e).symm

/-! ### What a merge takes -/

/-- The key of entry `j`. -/
def keyAt (a : List Node) (j : Nat) : Key := ((arenaAt a j).weight.toNat, j)

/-- Entry `j` waits in the queue: no entry has taken it as a child. -/
def Waiting (a : List Node) (j : Nat) : Prop := j < a.length ∧ j ∉ childList a

/-- `l` has the least key of the waiting entries and `r` the next. -/
structure LeastTwo (a : List Node) (l r : Nat) : Prop where
  left : Waiting a l
  right : Waiting a r
  ordered : toLex (keyAt a l) < toLex (keyAt a r)
  least : ∀ j, Waiting a j → j ≠ l → j ≠ r → toLex (keyAt a r) < toLex (keyAt a j)

theorem Forest.indices_nodup {q : List Key} {a : List Node} (h : Forest q a) : (q.map Prod.snd).Nodup :=
  (List.nodup_append.mp (h.slots.nodup_iff.mpr List.nodup_range)).2.1

/-- The waiting entries are those the queue holds. -/
theorem Forest.waiting_iff {q : List Key} {a : List Node} (h : Forest q a) {j : Nat} : Waiting a j ↔ j ∈ q.map Prod.snd := by
  obtain ⟨_, _, hdisj⟩ := List.nodup_append.mp (h.slots.nodup_iff.mpr List.nodup_range)
  have hmem : j < a.length ↔ j ∈ childList a ∨ j ∈ q.map Prod.snd := by
    rw [← List.mem_range, ← h.slots.mem_iff, List.mem_append]
  rw [Waiting, hmem]
  constructor
  · rintro ⟨hj, hchild⟩
    exact hj.resolve_left hchild
  · intro hj
    exact ⟨.inr hj, fun hchild => hdisj j hchild j hj rfl⟩

theorem Forest.keyAt_eq {q : List Key} {a : List Node} (h : Forest q a) {k : Key} (hk : k ∈ q) : keyAt a k.2 = k :=
  Prod.ext (h.weights k hk) rfl

/-- The two keys a merge pops are the two least. -/
theorem Forest.leastTwo {q q₁ q₂ : List Key} {a : List Node} {k l : Key} (h : Forest q a)
    (first : popLeast q = some (k, q₁)) (second : popLeast q₁ = some (l, q₂)) : LeastTwo a k.2 l.2 := by
  obtain ⟨hk, _, hkleast⟩ := popLeast_some first
  obtain ⟨hl₁, _, hlleast⟩ := popLeast_some second
  have hperm := perm_of_popLeast first
  have hl : l ∈ q := hperm.symm.subset (List.mem_cons_of_mem _ hl₁)
  have hne : l ≠ k := by
    rintro rfl
    have hnodup := (hperm.map Prod.snd).nodup_iff.mp h.indices_nodup
    exact (List.nodup_cons.mp hnodup).1 (List.mem_map_of_mem hl₁)
  refine ⟨h.waiting_iff.mpr (List.mem_map_of_mem hk), h.waiting_iff.mpr (List.mem_map_of_mem hl), ?ordered, fun j hj hjk hjl => ?least⟩
  case ordered =>
    rw [h.keyAt_eq hk, h.keyAt_eq hl]
    exact lt_of_least hkleast hl hne
  case least =>
    obtain ⟨x, hx, rfl⟩ := List.mem_map.mp (h.waiting_iff.mp hj)
    have hx₁ : x ∈ q₁ := (List.mem_cons.mp (hperm.subset hx)).resolve_left fun e => hjk (congrArg Prod.snd e)
    rw [h.keyAt_eq hl, h.keyAt_eq hx]
    exact lt_of_least hlleast hx₁ fun e => hjl (congrArg Prod.snd e)

/-! ### The children of BUILD's inner nodes -/

/-- Each inner node has taken the two least of the entries that waited when it was made. -/
def MergedInOrder (a : List Node) : Prop := ∀ i < a.length, (arenaAt a i).leaf = false →
  LeastTwo (a.take i) (arenaAt a i).left.toNat (arenaAt a i).right.toNat

theorem MergedInOrder.merge {q q' : List Key} {a a' : List Node} (h : MergedInOrder a) (hforest : Forest q a) (m : Merge q a q' a') :
    MergedInOrder a' := by
  obtain @⟨k, l, q₁, q₂, first, second⟩ := m
  have hlen : a.length ≤ 511 := by
    have hsize := hforest.size
    rw [(perm_of_popLeast first).length_eq, List.length_cons] at hsize
    omega
  have hleast := hforest.leastTwo first second
  intro i hi hleaf
  rw [List.length_append, List.length_singleton] at hi
  rcases Nat.lt_succ_iff_lt_or_eq.mp hi with hi | rfl
  · rw [arenaAt_append_of_lt hi] at hleaf ⊢
    rw [List.take_append_of_le_length hi.le]
    exact h i hi hleaf
  · rw [List.take_left, arenaAt_append_length]
    simp only [internalNode, toNat_ofNat_index (hleast.left.1.trans_le hlen), toNat_ofNat_index (hleast.right.1.trans_le hlen)]
    exact hleast

theorem buildMerged_mergedInOrder (hist : Vector Word 256) : MergedInOrder (buildMerged hist).2 := by
  have hseed : MergedInOrder (seedLeaves hist) := fun i hi hleaf => by
    obtain ⟨_, _, hnode, _⟩ := seedLeaves_leaf (arenaAt_mem hi)
    rw [hnode] at hleaf
    cases hleaf
  exact (mergeLoop_keeps (P := fun q a => Forest q a ∧ MergedInOrder a)
    (fun _ _ _ _ ⟨hf, ho⟩ m => ⟨hf.merge m, ho.merge hf m⟩) _ ⟨seed_forest hist, hseed⟩).2

/-- An index an arena can hold names a child of an entry exactly when LEFT or RIGHT is its number. -/
theorem mem_childSlots_of_lt {n : Node} {j : Nat} (hj : j < 511) : j ∈ childSlots n ↔ n.left.toNat = j ∨ n.right.toNat = j := by
  have hnamed {c : Index} : j ∈ indexList c ↔ c.toNat = j := by
    rw [mem_indexList, and_iff_right_iff_imp]
    rintro hc rfl
    simp [noNode] at hc
    omega
  rw [childSlots, List.mem_append, hnamed, hnamed]

theorem mem_childList_take {a : List Node} {i j : Nat} (hi : i ≤ a.length) (hj : j < 511) :
    j ∈ childList (a.take i) ↔ ∃ k < i, (arenaAt a k).left.toNat = j ∨ (arenaAt a k).right.toNat = j := by
  simp only [childList, List.mem_flatMap, List.mem_take_iff_getElem, mem_childSlots_of_lt hj]
  constructor
  · rintro ⟨_, ⟨k, hk, rfl⟩, hc⟩
    rw [← arenaAt_of_lt] at hc
    exact ⟨k, hk.trans_le (Nat.min_le_left _ _), hc⟩
  · rintro ⟨k, hk, hc⟩
    rw [arenaAt_of_lt (hk.trans_le hi)] at hc
    exact ⟨_, ⟨k, Nat.lt_min.mpr ⟨hk, hk.trans_le hi⟩, rfl⟩, hc⟩

section Arena

variable {t : State} {a : List Node} (hnode : t.node = arenaOf a)
include hnode

theorem lt_length_of_used {i : Fin 511} (hused : t.node[i].used = true) : i.val < a.length := by
  by_contra hi
  rw [hnode, getElem_arenaOf, arenaAt, List.getD_eq_default _ _ (not_lt.mp hi)] at hused
  cases hused

theorem queuedAt_iff_waiting (ha : a.length ≤ 511) {i j : Nat} (hi : i ≤ a.length) : t.queuedAt i j ↔ Waiting (a.take i) j := by
  rw [State.queuedAt, Waiting, List.length_take_of_le hi]
  refine and_congr_right fun hj => ?_
  rw [mem_childList_take hi (by omega)]
  simp only [hnode, getElem_arenaOf]
  constructor
  · rintro hfree ⟨k, hk, hc⟩
    exact hc.elim (hfree ⟨k, by omega⟩ hk).1 (hfree ⟨k, by omega⟩ hk).2
  · intro hfree k hk
    exact not_or.mp fun hc => hfree ⟨k.val, hk, hc⟩

theorem keyBefore_iff (ha : a.length ≤ 511) {x y : Nat} (hx : x < a.length) (hy : y < a.length) :
    t.keyBefore x y ↔ toLex (keyAt a x) < toLex (keyAt a y) := by
  have hx9 := toNat_ofNat_index (hx.trans_le ha)
  have hy9 := toNat_ofNat_index (hy.trans_le ha)
  rw [State.keyBefore, hnode, nodeAt_arenaOf a (by omega), nodeAt_arenaOf a (by omega), hx9, hy9, Prod.Lex.toLex_lt_toLex,
    BitVec.toNat_eq]
  rfl

end Arena

theorem keyAt_take {a : List Node} {i j : Nat} (h : j < (a.take i).length) : keyAt (a.take i) j = keyAt a j := by
  rw [keyAt, keyAt, arenaAt_of_lt h, List.getElem_take, arenaAt_of_lt]

/-- In the arena BUILD leaves, an inner node's children are the two least of the entries queued when it was made. -/
theorem children_least_of_build {s t : State} (hu : s.undisturbed = true) (h : exec .build s = .next t) {i : Fin 511}
    (hused : t.node[i].used = true) (hleaf : t.node[i].leaf = false) :
    t.queuedAt i.val t.node[i].left.toNat ∧ t.queuedAt i.val t.node[i].right.toNat
      ∧ t.keyBefore t.node[i].left.toNat t.node[i].right.toNat
      ∧ ∀ j, t.queuedAt i.val j → j ≠ t.node[i].left.toNat → j ≠ t.node[i].right.toNat →
          t.keyBefore t.node[i].right.toNat j := by
  obtain ⟨hnode, _, _, _⟩ := build_tree hu h
  have ha := (buildMerged_arenaList s.hist).length_le
  have hi := lt_length_of_used hnode hused
  have hentry : t.node[i] = arenaAt (buildMerged s.hist).2 i.val := by rw [hnode, getElem_arenaOf]
  rw [hentry] at hleaf ⊢
  obtain ⟨hl, hr, hordered, hleast⟩ := buildMerged_mergedInOrder s.hist i hi hleaf
  have hbelow {j : Nat} (hj : Waiting ((buildMerged s.hist).2.take i) j) : j < (buildMerged s.hist).2.length :=
    hj.1.trans_le (List.length_take_le' _ _)
  rw [keyAt_take hl.1, keyAt_take hr.1] at hordered
  refine ⟨(queuedAt_iff_waiting hnode ha hi.le).mpr hl, (queuedAt_iff_waiting hnode ha hi.le).mpr hr,
    (keyBefore_iff hnode ha (hbelow hl) (hbelow hr)).mpr hordered, fun j hj hjl hjr => ?_⟩
  have hj := (queuedAt_iff_waiting hnode ha hi.le).mp hj
  refine (keyBefore_iff hnode ha (hbelow hr) (hbelow hj)).mpr ?_
  rw [← keyAt_take hr.1, ← keyAt_take hj.1]
  exact hleast j hj hjl hjr

/-- Settles O32: a pop answers the least key of the lexicographic order, and what a merge pops is what the arena shows as queued. -/
theorem queueAndMergeOrder : Obligations.QueueAndMergeOrder := by
  refine ⟨fun q hq _ => ?pop, fun h merges => ?distinct, fun s t hu h i hused hleaf => children_least_of_build hu h hused hleaf,
    fun s t hu h i hused hleaf => ?below⟩
  case pop =>
    obtain ⟨⟨k, q'⟩, hpop⟩ := Option.ne_none_iff_exists'.mp (mt popLeast_eq_none.mp hq)
    obtain ⟨hk, rfl, hleast⟩ := popLeast_some hpop
    refine ⟨k, hpop, hk, fun x hx hne => Prod.Lex.toLex_lt_toLex.mp (lt_of_least hleast hx hne), fun y hy hyleast => ?_⟩
    by_contra hne
    exact (hleast y hy).not_gt (Prod.Lex.toLex_lt_toLex.mpr (hyleast k hk (Ne.symm hne)))
  case distinct =>
    exact (mergeLoop_keeps (P := Forest) (fun _ _ _ _ h m => h.merge m) merges (seed_forest h)).indices_nodup
  case below =>
    obtain ⟨⟨hl, _⟩, ⟨hr, _⟩, hordered, _⟩ := children_least_of_build hu h hused hleaf
    simp only [State.keyBefore, BitVec.ofNat_toNat, BitVec.setWidth_eq] at hordered
    exact ⟨hl, hr, hordered⟩

end Sys2Proof.Machine
end

section
/-!
What BUILD's arena holds: the seeded leaves at its start, the number of its entries, ROOT as the last, and its weights (41 R130, R133,
R137; O33, O36).
-/
namespace Sys2Proof.Machine

/-! ### Leaves and counts -/

/-- In an ascending list an element stands after as many others as are below it. -/
theorem getElem?_countP_lt {l : List (Fin 256)} (h : l.Pairwise (· < ·)) {b : Fin 256} (hb : b ∈ l) :
    l[l.countP fun a => decide (a < b)]? = some b := by
  induction l with
  | nil => cases hb
  | cons x xs ih =>
    obtain ⟨hx, hxs⟩ := List.pairwise_cons.mp h
    rcases List.mem_cons.mp hb with rfl | hb
    · have hnone : xs.countP (fun a => decide (a < b)) = 0 := List.countP_eq_zero.mpr fun a ha => by simpa using (hx a ha).le
      simp [hnone]
    · simp [hx b hb, ih hxs hb]

/-- The merges leave the leaves where they are. -/
theorem seedLeaves_prefix (hist : Vector Word 256) : seedLeaves hist <+: (buildMerged hist).2 :=
  mergeLoop_keeps (P := fun _ a => seedLeaves hist <+: a) (fun _ _ _ _ h m => by
    obtain ⟨_, _⟩ := m
    exact h.trans (List.prefix_append _ _)) _ List.prefix_rfl

theorem histLeaves_prefix (hist : Vector Word 256) : histLeaves hist <+: (buildMerged hist).2 := by
  refine List.IsPrefix.trans ?_ (seedLeaves_prefix hist)
  by_cases hone : (nonzeroBytes hist).length = 1
  · rw [seedLeaves_of_single hone]
    exact List.prefix_append _ _
  · rw [seedLeaves_of_not_single hone]

/-- The leaf of a byte that occurs, at the index of its place among these bytes (41 R130). -/
theorem arenaAt_leaf {hist : Vector Word 256} {b : Fin 256} (hb : hist[b] ≠ 0#64) :
    arenaAt (buildMerged hist).2 ((nonzeroBytes hist).countP fun a => decide (a < b)) = leafNode b.val hist[b].toNat := by
  have hplace := getElem?_countP_lt (nonzeroBytes_ascending hist) (mem_nonzeroBytes.mpr hb)
  have hleaf : (histLeaves hist)[(nonzeroBytes hist).countP fun a => decide (a < b)]? = some (leafNode b.val hist[b].toNat) := by
    rw [histLeaves_eq, List.getElem?_map, hplace]
    rfl
  obtain ⟨hlt, _⟩ := List.getElem?_eq_some_iff.mp hleaf
  obtain ⟨rest, hrest⟩ := histLeaves_prefix hist
  rw [arenaAt, List.getD_eq_getElem?_getD, ← hrest, List.getElem?_append_left hlt, hleaf]
  rfl

/-- With a byte that occurs, n leaves become 2n - 1 entries (41 R133). -/
theorem length_buildMerged_arena {hist : Vector Word 256} (h : 1 ≤ (nonzeroBytes hist).length) :
    (buildMerged hist).2.length + 1 = 2 * max (nonzeroBytes hist).length 2 := by
  have hcount : (buildMerged hist).2.length + (buildMerged hist).1.length = 2 * (seedLeaves hist).length := by
    refine mergeLoop_keeps (P := fun q a => a.length + q.length = 2 * (seedLeaves hist).length) (fun q a _ _ hlen m => ?_) _
      (by rw [length_seedQueue]; omega)
    obtain ⟨first, second⟩ := m
    rw [(perm_of_popLeast first).length_eq, List.length_cons, (perm_of_popLeast second).length_eq, List.length_cons] at hlen
    simp only [List.length_append, List.length_singleton]
    omega
  obtain ⟨k, hq, _⟩ := buildMerged_queue (seedLeaves_ne_nil h)
  rwa [hq, List.length_singleton, length_seedLeaves h] at hcount

/-- ROOT is the last entry (41 R133). -/
theorem buildRoot_last {hist : Vector Word 256} (h : 1 ≤ (nonzeroBytes hist).length) :
    (buildRoot hist).toNat + 1 = (buildMerged hist).2.length := by
  have hlast : ∀ n, n + 1 = (buildMerged hist).2.length → n ∈ (buildMerged hist).1.map Prod.snd := by
    refine mergeLoop_keeps (P := fun q a => ∀ n, n + 1 = a.length → n ∈ q.map Prod.snd)
      (fun q a _ _ _ m n hn => ?_) _ fun n hn => ?_
    · obtain ⟨_, _⟩ := m
      have : n = a.length := by simpa using hn
      simp [this]
    · rw [seedQueue_indices, List.mem_range]
      omega
  obtain ⟨k, hq, hroot⟩ := buildMerged_queue (seedLeaves_ne_nil h)
  have hcount := length_buildMerged_arena h
  have hk := hlast ((buildMerged hist).2.length - 1) (by omega)
  rw [hq, List.map_singleton, List.mem_singleton] at hk
  omega

theorem histSymbols_eq (s : State) : histSymbols s = (nonzeroBytes s.hist).length := (length_nonzeroBytes s.hist).symm

/-- Settles O33: the leaves stay at the arena's start, each merge adds one entry, and the last one made is the tree's root. -/
theorem buildResult : Obligations.BuildResult := by
  intro s hu
  have hle := length_histLeaves_le s.hist
  rw [length_histLeaves] at hle
  refine ⟨_, _, _, _, exec_build hu, ?nsym, fun hzero => ?empty, fun hone => ?full, fun b hb => ?leaf⟩
  case nsym =>
    rw [histSymbols_eq, ← length_histLeaves]
    exact Nat.mod_eq_of_lt (by rw [length_histLeaves]; omega)
  case empty =>
    rw [histSymbols_eq] at hzero
    have hmerged := buildMerged_of_no_bytes hzero
    exact ⟨buildRoot_of_no_bytes hzero, congrArg (fun m : List Key × List Node => BitVec.ofNat 9 m.2.length) hmerged⟩
  case full =>
    rw [histSymbols_eq] at hone ⊢
    have hcount := length_buildMerged_arena hone
    have hnn : (BitVec.ofNat 9 (buildMerged s.hist).2.length).toNat = (buildMerged s.hist).2.length := Nat.mod_eq_of_lt (by omega)
    have hroot := buildRoot_last hone
    exact ⟨hnn.trans (by omega), hroot.trans hnn.symm, hnn.trans_le (by omega)⟩
  case leaf =>
    have hplace : ((List.finRange 256).countP fun a => decide (a < b) && s.hist[a] != 0#64)
        = (nonzeroBytes s.hist).countP fun a => decide (a < b) := List.countP_filter.symm
    have hlt : (nonzeroBytes s.hist).countP (fun a => decide (a < b)) < 511 := List.countP_le_length.trans_lt (by omega)
    rw [hplace]
    refine (nodeAt_arenaOf _ (by rwa [toNat_ofNat_index hlt])).trans ?_
    rw [toNat_ofNat_index hlt, arenaAt_leaf hb, leafNode, BitVec.ofNat_toNat]

/-! ### Weights -/

/-- The sum of the counts (41 R137). -/
def histTotal (hist : Vector Word 256) : Nat := ((List.finRange 256).map fun b => hist[b].toNat).sum

theorem histTotal_eq (hist : Vector Word 256) : histTotal hist = ((nonzeroBytes hist).map fun b => hist[b].toNat).sum := by
  rw [histTotal, sum_map_nonzeroBytes]
  refine congrArg List.sum (List.map_congr_left fun b _ => ?_)
  split
  · next hb => rw [hb]; rfl
  · rfl

theorem weight_leafNode {sym w : Nat} (h : w < 2 ^ 64) : (leafNode sym w).weight.toNat = w := Nat.mod_eq_of_lt (by omega)

/-- The leaves' weights sum to the sum of the counts; the sentinel weighs nothing. -/
theorem sum_seedQueue (hist : Vector Word 256) : ((seedQueue (seedLeaves hist)).map Prod.fst).sum = histTotal hist := by
  have hreal : ((histLeaves hist).map fun n => n.weight.toNat).sum = histTotal hist := by
    rw [histLeaves_eq, List.map_map, histTotal_eq]
    exact congrArg List.sum (List.map_congr_left fun b _ => weight_leafNode hist[b].isLt)
  rw [seedQueue_weights]
  by_cases hone : (nonzeroBytes hist).length = 1
  · rw [seedLeaves_of_single hone, List.map_append, List.sum_append, hreal]
    simp [leafNode]
  · rw [seedLeaves_of_not_single hone, hreal]

/-- The queued weights sum to a total no entry's weight is above. -/
def WeighsUpTo (total : Nat) (q : List Key) (a : List Node) : Prop :=
  (q.map Prod.fst).sum = total ∧ ∀ n ∈ a, n.weight.toNat ≤ total

theorem WeighsUpTo.merge {total : Nat} {q q' : List Key} {a a' : List Node} (h : WeighsUpTo total q a) (m : Merge q a q' a') :
    WeighsUpTo total q' a' := by
  obtain ⟨hsum, hle⟩ := h
  obtain ⟨first, second⟩ := m
  rw [((perm_of_popLeast first).map Prod.fst).sum_nat, List.map_cons, List.sum_cons,
    ((perm_of_popLeast second).map Prod.fst).sum_nat, List.map_cons, List.sum_cons] at hsum
  refine ⟨by simp; omega, fun n hn => ?_⟩
  rcases List.mem_append.mp hn with hn | hn
  · exact hle n hn
  · rw [List.mem_singleton.mp hn]
    exact (Nat.mod_le _ _).trans (by omega)

theorem buildMerged_weighs (hist : Vector Word 256) : WeighsUpTo (histTotal hist) (buildMerged hist).1 (buildMerged hist).2 := by
  refine mergeLoop_keeps (P := WeighsUpTo (histTotal hist)) (fun _ _ _ _ h m => h.merge m) _ ⟨sum_seedQueue hist, fun n hn => ?_⟩
  rw [← sum_seedQueue, seedQueue_weights]
  exact List.le_sum_of_mem (List.mem_map_of_mem hn)

theorem histTotal_lt (hist : Vector Word 256) : histTotal hist < 2 ^ 72 := sum_seedQueue hist ▸ (seed_forest hist).total

/-- The root weighs what all leaves weigh together. -/
theorem weight_buildRoot {hist : Vector Word 256} (h : 1 ≤ (nonzeroBytes hist).length) :
    (nodeAt (arenaOf (buildMerged hist).2) (buildRoot hist)).weight.toNat = histTotal hist := by
  obtain ⟨k, hq, hroot⟩ := buildMerged_queue (seedLeaves_ne_nil h)
  obtain ⟨hsum, _⟩ := buildMerged_weighs hist
  have hlast := buildRoot_last h
  have hle := (buildMerged_arenaList hist).length_le
  rw [nodeAt_arenaOf _ (by omega), hroot, (buildMerged_forest hist).weights k (by simp [hq]), ← hsum, hq]
  simp

/-- Settles O36: each merge keeps the sum of the queued weights, and at the end the root is all that is queued. -/
theorem rootWeight : Obligations.RootWeight := by
  refine ⟨fun s t hu h hone => ?weights, fun r s t hu hin hpos hhist hbuild => ?hist⟩
  case weights =>
    rw [histSymbols_eq] at hone
    obtain ⟨hnode, hroot, _, _⟩ := build_tree hu h
    refine ⟨fun i => ?_, histTotal_lt s.hist, hnode ▸ hroot ▸ weight_buildRoot hone⟩
    rw [hnode, getElem_arenaOf]
    by_cases hi : i.val < (buildMerged s.hist).2.length
    · exact (buildMerged_weighs s.hist).2 _ (arenaAt_mem hi)
    · rw [arenaAt, List.getD_eq_default _ _ (not_lt.mp hi)]
      exact Nat.zero_le _
  case hist =>
    rw [exec_hist hu hin] at hhist
    injection hhist with hhist
    have hcount (b : Fin 256) : s.hist[b].toNat = byteCount (inputBytes r) b := hhist ▸ toNat_hist_afterPhase r b
    have htotal : histTotal s.hist = r.inLen.toNat := by
      rw [histTotal, List.map_congr_left fun b _ => hcount b, sum_byteCount, length_inputBytes]
    have hone : 1 ≤ (nonzeroBytes s.hist).length := by
      by_contra hzero
      rw [histTotal_eq, List.eq_nil_of_length_eq_zero (Nat.lt_one_iff.mp (not_le.mp hzero))] at htotal
      exact hpos.ne htotal
    have hidle : s.running = none := hhist ▸ rfl
    obtain ⟨hnode, hroot, _, _⟩ := build_tree (undisturbed_of_idle hidle) hbuild
    rw [hnode, hroot, weight_buildRoot hone, htotal]

end Sys2Proof.Machine
end

section
/-!
The tree of one byte and the sentinel, and the code DERIVE reads off it (41 R134; O35).
-/
namespace Sys2Proof.Machine

/-- The arena of one byte: its leaf, the sentinel's, and their parent with the sentinel at LEFT. -/
def sentinelArena (b : Fin 256) (w : Nat) : List Node := [leafNode b.val w, leafNode 256 0, internalNode w 1#9 0#9]

theorem nonzeroBytes_of_single {hist : Vector Word 256} {b : Fin 256} (hb : hist[b] ≠ 0#64)
    (hother : ∀ a : Fin 256, a ≠ b → hist[a] = 0#64) : nonzeroBytes hist = [b] := by
  refine List.perm_singleton.mp ((List.perm_ext_iff_of_nodup ?_ (List.nodup_singleton b)).mpr fun a => ?_)
  · exact (nonzeroBytes_ascending hist).imp fun h => h.ne
  · rw [mem_nonzeroBytes, List.mem_singleton]
    exact ⟨fun ha => by_contra fun hne => ha (hother a hne), fun e => e ▸ hb⟩

/-- The sentinel's key comes before that of a byte that occurs. -/
theorem popLeast_sentinel {w : Nat} (h : 0 < w) : popLeast [(w, 0), (0, 1)] = some ((0, 1), [(w, 0)]) := by
  simp [popLeast, leastKey, keyLess, h, h.ne']

/-- BUILD of one byte: the sentinel's key is the lesser, and one merge ends the loop. -/
theorem buildMerged_of_single {hist : Vector Word 256} {b : Fin 256} (h : nonzeroBytes hist = [b]) :
    buildMerged hist = ([(hist[b].toNat, 2)], sentinelArena b hist[b].toNat) := by
  have hpos : 0 < hist[b].toNat := by
    have hb : hist[b] ≠ 0#64 := mem_nonzeroBytes.mp (h ▸ List.mem_singleton_self b)
    exact Nat.pos_of_ne_zero fun e => hb (BitVec.eq_of_toNat_eq e)
  have hleaves : seedLeaves hist = [leafNode b.val hist[b].toNat, leafNode 256 0] := by
    rw [seedLeaves_of_single (by rw [h]; rfl), histLeaves_eq, h]
    rfl
  have hqueue : seedQueue (seedLeaves hist) = [(hist[b].toNat, 0), (0, 1)] := by
    rw [hleaves]
    simp only [seedQueue, List.zipIdx_cons, List.zipIdx_nil, List.map_cons, List.map_nil, weight_leafNode hist[b].isLt,
      weight_leafNode (sym := 256) (w := 0) (by decide)]
  rw [buildMerged, hqueue, hleaves]
  simp only [List.length_cons, List.length_nil, Nat.zero_add, Nat.reduceAdd, mergeLoop, popLeast_sentinel hpos]
  simp [popLeast, leastKey, sentinelArena]

/-- RIGHT leads from the root to the byte's leaf. -/
theorem leadsTo_of_sentinelArena {t : State} {b : Fin 256} {w : Nat} (hnode : t.node = arenaOf (sentinelArena b w))
    (hroot : t.root = 2#9) : leadsTo t [true] b := by
  have hparent : nodeAt t.node 2#9 = internalNode w 1#9 0#9 := by
    rw [hnode, nodeAt_arenaOf _ (by decide)]
    rfl
  have hbyte : nodeAt t.node 0#9 = leafNode b.val w := by
    rw [hnode, nodeAt_arenaOf _ (by decide)]
    rfl
  have hsym : (leafNode b.val w).sym.toNat = b.val := Nat.mod_eq_of_lt (by omega)
  refine ⟨hroot ▸ by decide, 0#9, ?_, by rw [hbyte]; rfl, by rw [hbyte, hsym]⟩
  rw [hroot, followPath, hparent]
  rfl

/-- Settles O35: one merge makes the three entries, and the table of the tree they form has the one path. -/
theorem sentinelTree : Obligations.SentinelTree := by
  intro s b hu hb hother
  have hmerged := buildMerged_of_single (nonzeroBytes_of_single hb hother)
  have ht := exec_build hu
  generalize (afterPhase phaseBuild s).succeeded (nnodesResult (afterPhase phaseBuild s)) = t at ht
  obtain ⟨hnode, hroot, hnnodes, _⟩ := build_tree hu ht
  obtain ⟨table, htable⟩ := exists_buildTable s.hist
  obtain ⟨u, hderive, _, hlen, hcode, _⟩ := exec_derive_of_build hu ht htable
  have hleads := htable.leads t hnode hroot [true] b
  rw [hmerged] at hnode hnnodes
  rw [buildRoot, hmerged] at hroot
  have hpath : pathOf table b = [true] := htable.pathOf_of_mem (hleads.mp (leadsTo_of_sentinelArena hnode hroot))
  refine ⟨t, u, ht, hderive, ?_, ?_, ?_, hroot, hnnodes, ?_, ?_, fun a ha => uncoded_of_buildTable htable hlen hcode (hother a ha)⟩
  · rw [hnode, getElem_arenaOf, ← BitVec.ofNat_toNat]
    rfl
  · rw [hnode, getElem_arenaOf]
    rfl
  · rw [hnode, getElem_arenaOf, ← BitVec.ofNat_toNat]
    rfl
  · rw [hlen, htable.pathLens_getElem, hpath]
    rfl
  · rw [codeWordBits_of_buildTable htable hlen hcode, hpath]

end Sys2Proof.Machine
end

section
/-!
The lengths CANON reads, its order of the bytes, and the sets of lengths it accepts (42 R153, R155; O40).
-/
namespace Sys2Proof.Machine

/-! ### The lengths CANON reads -/

theorem lenEntries_eq (len : Vector Byte 256) : lenEntries len = (nonzeroBytes len).map fun b => (len[b].toNat, b.val) := by
  rw [lenEntries, nonzeroEntries_ramValues, List.map_map]
  rfl

theorem codedSymbols_eq (s : State) : codedSymbols s = (nonzeroBytes s.len).length := (length_nonzeroBytes s.len).symm

theorem length_lenEntries (s : State) : (lenEntries s.len).length = codedSymbols s := by
  rw [lenEntries_eq, List.length_map, codedSymbols_eq]

theorem codedSymbols_le (s : State) : codedSymbols s ≤ 256 := by
  rw [codedSymbols_eq]
  simpa [nonzeroBytes] using List.length_filter_le (fun b => s.len[b] != 0#8) (List.finRange 256)

/-- What the codes of a LEN table fill of the code space, in 2^255ths (42 R155). -/
def kraftTotal (len : Vector Byte 256) : Nat := (len.toList.map fun l => if l = 0#8 then 0 else 2 ^ (255 - l.toNat)).sum

theorem kraftTotal_eq (len : Vector Byte 256) : kraftTotal len = ((nonzeroBytes len).map fun b => 2 ^ (255 - len[b].toNat)).sum := by
  rw [kraftTotal, sum_map_nonzeroBytes, toList_eq_map_finRange, List.map_map]
  rfl

theorem kraftSum_lenEntries (len : Vector Byte 256) : kraftSum ((lenEntries len).map Prod.fst) = kraftTotal len := by
  rw [kraftSum, lenEntries_eq, kraftTotal_eq, List.map_map, List.map_map]
  rfl

/-- R155's cases: no length, the one length 1, or several that satisfy the Kraft equality. -/
theorem lengthsOk_iff (s : State) : lengthsOk s ↔
    codedSymbols s = 0 ∨ (codedSymbols s = 1 ∧ ∀ l ∈ s.len.toList, l ≠ 0#8 → l = 1#8)
    ∨ (2 ≤ codedSymbols s ∧ kraftTotal s.len = 2 ^ 255) := Iff.rfl

/-- The one byte with a length. -/
theorem lenEntries_of_single {s : State} {b : Fin 256} (h : codedSymbols s = 1) (hb : s.len[b] ≠ 0#8) :
    lenEntries s.len = [(s.len[b].toNat, b.val)] := by
  obtain ⟨c, hc⟩ := List.length_eq_one_iff.mp ((codedSymbols_eq s).symm.trans h)
  have hbc : b = c := List.mem_singleton.mp (hc ▸ mem_nonzeroBytes.mpr hb)
  rw [lenEntries_eq, hc, hbc]
  rfl

theorem exists_single {s : State} (h : codedSymbols s = 1) : ∃ b : Fin 256, s.len[b] ≠ 0#8 := by
  obtain ⟨b, hb⟩ := List.length_eq_one_iff.mp ((codedSymbols_eq s).symm.trans h)
  exact ⟨b, mem_nonzeroBytes.mp (hb ▸ List.mem_singleton_self b)⟩

/-! ### The phase -/

/-- The state CANON commits (42 R153). -/
def State.canonized (s : State) : State := { s with code := canonTable s.len, nsym := BitVec.ofNat 9 (codedSymbols s) }

theorem phaseCanon_single {s : State} {b : Fin 256} (h : codedSymbols s = 1) (hb : s.len[b] ≠ 0#8) :
    phaseCanon s = if s.len[b].toNat ≠ 1 then .error ⟨.badTable, BitVec.ofNat 64 b.val⟩ else .ok s.canonized := by
  rw [phaseCanon, lenEntries_of_single h hb, State.canonized, h]

theorem phaseCanon_not_single {s : State} (h : codedSymbols s ≠ 1) :
    phaseCanon s = if 2 ≤ codedSymbols s ∧ kraftTotal s.len ≠ 2 ^ 255 then .error ⟨.badTable, 0x100#64⟩ else .ok s.canonized := by
  unfold phaseCanon
  split
  · next hes => exact absurd ((length_lenEntries s).symm.trans (congrArg List.length hes)) h
  · rw [length_lenEntries, kraftSum_lenEntries, State.canonized]

theorem phaseCanon_of_lengthsOk {s : State} (h : lengthsOk s) : phaseCanon s = .ok s.canonized := by
  rcases (lengthsOk_iff s).mp h with h | ⟨h, hone⟩ | ⟨h, hkraft⟩
  · rw [phaseCanon_not_single (by omega), if_neg (by omega)]
  · obtain ⟨b, hb⟩ := exists_single h
    have hlen : s.len[b] = 1#8 := hone _ (by simp) hb
    rw [phaseCanon_single h hb, if_neg (by simp [hlen])]
  · rw [phaseCanon_not_single (by omega), if_neg (by simp [hkraft])]

theorem phaseCanon_of_long_single {s : State} {b : Fin 256} (h : codedSymbols s = 1) (hb : s.len[b] ≠ 0#8) (hone : s.len[b] ≠ 1#8) :
    phaseCanon s = .error ⟨.badTable, BitVec.ofNat 64 b.val⟩ := by
  have hne : s.len[b].toNat ≠ 1 := fun e => hone (BitVec.eq_of_toNat_eq e)
  rw [phaseCanon_single h hb, if_pos hne]

theorem phaseCanon_of_not_kraft {s : State} (h : 2 ≤ codedSymbols s) (hbad : ¬ lengthsOk s) :
    phaseCanon s = .error ⟨.badTable, 0x100#64⟩ := by
  have hkraft : kraftTotal s.len ≠ 2 ^ 255 := fun e => hbad ((lengthsOk_iff s).mpr (.inr (.inr ⟨h, e⟩)))
  rw [phaseCanon_not_single (by omega), if_pos ⟨h, hkraft⟩]

/-- CANON accepts no other lengths than R155's. -/
theorem lengthsOk_of_phaseCanon {s t : State} (h : phaseCanon s = .ok t) : lengthsOk s ∧ t = s.canonized := by
  have hok : lengthsOk s := by
    by_contra hbad
    rcases Nat.lt_trichotomy (codedSymbols s) 1 with hn | hn | hn
    · exact hbad (.inl (by omega))
    · obtain ⟨b, hb⟩ := exists_single hn
      by_cases hone : s.len[b] = 1#8
      · refine hbad (.inr (.inl ⟨hn, fun l hl hne => ?_⟩))
        rw [toList_eq_map_finRange] at hl
        obtain ⟨c, _, rfl⟩ := List.mem_map.mp hl
        have hsame := (lenEntries_of_single hn hb).symm.trans (lenEntries_of_single hn hne)
        simp only [List.cons.injEq, Prod.mk.injEq, and_true] at hsame
        rw [← Fin.ext hsame.2, hone]
      · rw [phaseCanon_of_long_single hn hb hone] at h
        cases h
    · rw [phaseCanon_of_not_kraft hn hbad] at h
      cases h
  rw [phaseCanon_of_lengthsOk hok] at h
  injection h with h
  exact ⟨hok, h.symm⟩

/-! ### Bytes without a code -/

theorem canonNext_bytes (prev c : Nat) (es : List (Nat × Nat)) : (canonNext prev c es).map Prod.fst = es.map Prod.snd := by
  induction es generalizing prev c with
  | nil => rfl
  | cons e es ih => simp [canonNext, ih]

theorem canonCodes_bytes (es : List (Nat × Nat)) : (canonCodes es).map Prod.fst = es.map Prod.snd := by
  cases es with
  | nil => rfl
  | cons e es => simp [canonCodes, canonNext_bytes]

theorem canonOrder_perm (len : Vector Byte 256) : (canonOrder len).Perm (lenEntries len) := List.perm_insertionSort _ _

/-- The bytes CANON numbers are those with a length. -/
theorem canonCodes_keys (len : Vector Byte 256) :
    ((canonCodes (canonOrder len)).map Prod.fst).Perm ((nonzeroBytes len).map Fin.val) := by
  rw [canonCodes_bytes]
  refine ((canonOrder_perm len).map _).trans ?_
  rw [lenEntries_eq, List.map_map]
  exact .refl _

theorem canonTable_of_zero {len : Vector Byte 256} {b : Fin 256} (h : len[b] = 0#8) : (canonTable len)[b] = 0#256 := by
  have hkey : b.val ∉ (canonCodes (canonOrder len)).map Prod.fst := by
    rw [(canonCodes_keys len).mem_iff, List.mem_map_of_injective Fin.val_injective, mem_nonzeroBytes]
    exact not_not.mpr h
  rw [canonTable, getElem_tabulate_fin, lookup_of_not_mem hkey]

/-! ### The command -/

/-- A command completes in one state only. -/
theorem exec_next_unique {i : Instr} {s t u : State} (h : exec i s = .next t) (h' : exec i s = .next u) : t = u :=
  ((exec_next_iff i s t).mp h).symm.trans ((exec_next_iff i s u).mp h')

/-- The completion of an undisturbed run whose phases all return. -/
theorem exec_of_returned {i : Instr} {s t : State} (hu : s.undisturbed = true) (h : runPlan (commandOf i).plan s = .returned t) :
    exec i s = .next (t.succeeded ((commandOf i).result t)) := by
  rw [exec_eq, Command.completed_undisturbed _ hu, h]

/-- The completion of an undisturbed run in which a phase raises. -/
theorem exec_of_raised {i : Instr} {s kept : State} {p : Phase} {e : Raise} (hu : s.undisturbed = true)
    (h : runPlan (commandOf i).plan s = .raised p e kept) : exec i s = .next ((commandOf i).failedAt s p e kept) := by
  rw [exec_eq, Command.completed_undisturbed _ hu, h]

/-- CANON's success: its RESULT is NSYM, the number of bytes with a code (10 R35). -/
theorem exec_canon {s : State} (hu : s.undisturbed = true) (h : lengthsOk s) :
    exec .canon s = .next (s.canonized.succeeded (BitVec.ofNat 64 (codedSymbols s))) := by
  have hresult : (BitVec.ofNat 9 (codedSymbols s)).setWidth 64 = BitVec.ofNat 64 (codedSymbols s) := by
    have := codedSymbols_le s
    refine BitVec.eq_of_toNat_eq ?_
    simp only [BitVec.toNat_setWidth, BitVec.toNat_ofNat]
    omega
  rw [← hresult]
  exact exec_of_returned (i := .canon) hu (runPlan_always_ok (phaseCanon_of_lengthsOk h))

theorem exec_canon_error {s : State} (hu : s.undisturbed = true) {e : Raise} (h : phaseCanon s = .error e) :
    exec .canon s = .next (s.failed .canon e) :=
  exec_of_raised (i := .canon) hu (runPlan_always_error h)

/-- Settles O40: the phase's branches are R155's cases, on the number of lengths and their Kraft sum. -/
theorem canonValidity : Obligations.CanonValidity := by
  intro s hu
  refine ⟨fun hok => ?accepted, fun b hone hb hlong => ?single, fun htwo hbad => ?kraft⟩
  case accepted => exact ⟨canonTable s.len, exec_canon hu hok, fun b hb => canonTable_of_zero hb⟩
  case single => exact exec_canon_error hu (phaseCanon_of_long_single hone hb hlong)
  case kraft => exact exec_canon_error hu (phaseCanon_of_not_kraft htwo hbad)

end Sys2Proof.Machine
end

section
/-!
The canonical numbering: the codes fill the code space in the order of the key (LEN[b], b), each from where the codes before it end
(42 R153, R154; O41).
-/
namespace Sys2Proof.Machine

/-! ### The order of the bytes -/

theorem canonBefore_asymm {s : State} {a b : Fin 256} (h : canonBefore s a b) : ¬ canonBefore s b a := by
  rintro (hlt | ⟨heq, hlt⟩) <;> rcases h with hlt' | ⟨heq', hlt'⟩
  · omega
  · rw [heq'] at hlt; omega
  · rw [heq] at hlt'; omega
  · omega

theorem canonBefore_trans {s : State} {a b c : Fin 256} (h : canonBefore s a b) (h' : canonBefore s b c) : canonBefore s a c := by
  rcases h with hlt | ⟨heq, hlt⟩ <;> rcases h' with hlt' | ⟨heq', hlt'⟩
  · exact .inl (by omega)
  · exact .inl (heq' ▸ hlt)
  · exact .inl (heq ▸ hlt')
  · exact .inr ⟨heq.trans heq', hlt.trans hlt'⟩

theorem canonBefore_total {s : State} {a b : Fin 256} (h : a ≠ b) : canonBefore s a b ∨ canonBefore s b a := by
  rcases Nat.lt_trichotomy s.len[a].toNat s.len[b].toNat with hlt | heq | hlt
  · exact .inl (.inl hlt)
  · have heq := BitVec.eq_of_toNat_eq heq
    exact (lt_or_gt_of_ne h).imp (fun hlt => .inr ⟨heq, hlt⟩) fun hlt => .inr ⟨heq.symm, hlt⟩
  · exact .inr (.inl hlt)

/-- The key (LEN[b], b) of a byte (42 R153). -/
def canonKey (len : Vector Byte 256) (b : Fin 256) : Nat × Nat := (len[b].toNat, b.val)

theorem canonLe_iff {x y : Nat × Nat} : canonLe x y = true ↔ x.1 < y.1 ∨ (x.1 = y.1 ∧ x.2 ≤ y.2) := by simp [canonLe]

/-- The order of S, on the bytes. -/
abbrev keyLe (len : Vector Byte 256) (a b : Fin 256) : Prop := canonLe (canonKey len a) (canonKey len b) = true

theorem keyLe_iff {len : Vector Byte 256} {a b : Fin 256} :
    keyLe len a b ↔ len[a].toNat < len[b].toNat ∨ (len[a].toNat = len[b].toNat ∧ a.val ≤ b.val) := canonLe_iff

theorem canonBefore_of_keyLe {s : State} {a b : Fin 256} (h : keyLe s.len a b) (hne : a ≠ b) : canonBefore s a b := by
  rcases keyLe_iff.mp h with hlt | ⟨heq, hle⟩
  · exact .inl hlt
  · exact .inr ⟨BitVec.eq_of_toNat_eq heq, lt_of_le_of_ne hle hne⟩

/-- The bytes of S in order (42 R153). -/
def canonBytes (len : Vector Byte 256) : List (Fin 256) := (nonzeroBytes len).insertionSort (keyLe len)

theorem canonOrder_eq (len : Vector Byte 256) : canonOrder len = (canonBytes len).map (canonKey len) := by
  rw [canonOrder, lenEntries_eq]
  exact (List.map_insertionSort (keyLe len) _ (canonKey len) _ fun _ _ _ _ => Iff.rfl).symm

theorem canonBytes_perm (len : Vector Byte 256) : (canonBytes len).Perm (nonzeroBytes len) := List.perm_insertionSort _ _

theorem nodup_nonzeroBytes {w : Nat} (v : Vector (BitVec w) 256) : (nonzeroBytes v).Nodup :=
  (nonzeroBytes_ascending v).imp fun h => h.ne

theorem nodup_canonBytes (len : Vector Byte 256) : (canonBytes len).Nodup :=
  (canonBytes_perm len).nodup_iff.mpr (nodup_nonzeroBytes len)

theorem canonBytes_sorted (s : State) : (canonBytes s.len).Pairwise (canonBefore s) := by
  have hle : (canonBytes s.len).Pairwise (keyLe s.len) := by
    have : Std.Total (keyLe s.len) := ⟨fun a b => by rw [keyLe_iff, keyLe_iff]; omega⟩
    have : IsTrans (Fin 256) (keyLe s.len) := ⟨fun a b c => by rw [keyLe_iff, keyLe_iff, keyLe_iff]; omega⟩
    exact List.pairwise_insertionSort (keyLe s.len) _
  exact hle.imp₂ (fun _ _ => canonBefore_of_keyLe) (nodup_canonBytes s.len)

/-! ### The code space -/

/-- The part of the code space one code takes, in 2^255ths (42 R155). -/
def codeSpan (s : State) (b : Fin 256) : Nat := 2 ^ (255 - s.len[b].toNat)

/-- The bytes whose codes come before that of `b`. -/
def codedBefore (s : State) (b : Fin 256) : Finset (Fin 256) :=
  Finset.univ.filter fun a => s.len[a] ≠ 0#8 ∧ (s.len[a].toNat < s.len[b].toNat ∨ (s.len[a] = s.len[b] ∧ a < b))

@[simp] theorem mem_codedBefore {s : State} {a b : Fin 256} : a ∈ codedBefore s b ↔ s.len[a] ≠ 0#8 ∧ canonBefore s a b := by
  simp [codedBefore, canonBefore]

/-- Where the code of `b` starts in the code space: after the codes before it. -/
def codeStart (s : State) (b : Fin 256) : Nat := ∑ a ∈ codedBefore s b, codeSpan s a

theorem not_mem_codedBefore_self (s : State) (b : Fin 256) : b ∉ codedBefore s b := fun h => by
  have hself := (mem_codedBefore.mp h).2
  exact canonBefore_asymm hself hself

/-- A code ends where it and the codes before it are counted. -/
theorem codeStart_add_codeSpan (s : State) (b : Fin 256) :
    codeStart s b + codeSpan s b = ∑ a ∈ insert b (codedBefore s b), codeSpan s a := by
  rw [Finset.sum_insert (not_mem_codedBefore_self s b), codeStart, Nat.add_comm]

/-- A code ends before a later one starts. -/
theorem codeEnd_le_codeStart {s : State} {a b : Fin 256} (ha : s.len[a] ≠ 0#8) (h : canonBefore s a b) :
    codeStart s a + codeSpan s a ≤ codeStart s b := by
  rw [codeStart_add_codeSpan]
  refine Finset.sum_le_sum_of_subset (Finset.insert_subset (mem_codedBefore.mpr ⟨ha, h⟩) fun c hc => ?_)
  obtain ⟨hlen, hbefore⟩ := mem_codedBefore.mp hc
  exact mem_codedBefore.mpr ⟨hlen, canonBefore_trans hbefore h⟩

/-- The next code starts where the one before it ends. -/
theorem codeStart_next {s : State} {a b : Fin 256} (ha : s.len[a] ≠ 0#8) (h : canonBefore s a b)
    (hnext : ∀ c : Fin 256, s.len[c] ≠ 0#8 → canonBefore s a c → c = b ∨ canonBefore s b c) :
    codeStart s b = codeStart s a + codeSpan s a := by
  refine Nat.le_antisymm ?_ (codeEnd_le_codeStart ha h)
  rw [codeStart_add_codeSpan]
  refine Finset.sum_le_sum_of_subset fun c hc => ?_
  obtain ⟨hlen, hbefore⟩ := mem_codedBefore.mp hc
  by_cases hca : c = a
  · exact hca ▸ Finset.mem_insert_self c _
  · refine Finset.mem_insert_of_mem (mem_codedBefore.mpr ⟨hlen, ?_⟩)
    by_contra hnot
    have hac : canonBefore s a c := (canonBefore_total (Ne.symm hca)).resolve_right hnot
    rcases hnext c hlen hac with rfl | hbc
    · exact canonBefore_asymm hbefore hbefore
    · exact canonBefore_asymm hbefore hbc

theorem codeStart_first {s : State} {b : Fin 256} (h : ∀ a : Fin 256, s.len[a] ≠ 0#8 → a ≠ b → canonBefore s b a) :
    codeStart s b = 0 := by
  refine Finset.sum_eq_zero fun a ha => ?_
  obtain ⟨hlen, hbefore⟩ := mem_codedBefore.mp ha
  have hne : a ≠ b := fun e => not_mem_codedBefore_self s b (e ▸ ha)
  exact absurd (h a hlen hne) (canonBefore_asymm hbefore)

theorem kraftTotal_eq_sum (s : State) : kraftTotal s.len = ∑ b ∈ (nonzeroBytes s.len).toFinset, codeSpan s b := by
  rw [kraftTotal_eq, List.sum_toFinset _ (nodup_nonzeroBytes s.len)]
  rfl

/-- Every code ends within what all codes fill. -/
theorem codeEnd_le_kraftTotal {s : State} {b : Fin 256} (hb : s.len[b] ≠ 0#8) :
    codeStart s b + codeSpan s b ≤ kraftTotal s.len := by
  rw [codeStart_add_codeSpan, kraftTotal_eq_sum]
  refine Finset.sum_le_sum_of_subset (Finset.insert_subset ?_ fun c hc => ?_) <;> rw [List.mem_toFinset, mem_nonzeroBytes]
  · exact hb
  · exact (mem_codedBefore.mp hc).1

/-- The lengths CANON accepts do not fill more than the code space (42 R155). -/
theorem kraftTotal_le_of_lengthsOk {s : State} (h : lengthsOk s) : kraftTotal s.len ≤ 2 ^ 255 := by
  rcases (lengthsOk_iff s).mp h with h | ⟨h, _⟩ | ⟨_, hkraft⟩
  · rw [kraftTotal_eq, List.length_eq_zero_iff.mp ((codedSymbols_eq s).symm.trans h)]
    exact Nat.zero_le _
  · obtain ⟨b, hb⟩ := List.length_eq_one_iff.mp ((codedSymbols_eq s).symm.trans h)
    rw [kraftTotal_eq, hb, List.map_singleton, List.sum_singleton]
    exact Nat.pow_le_pow_right (by decide) (Nat.sub_le _ _)
  · exact hkraft.le

/-! ### The numbers CANON assigns -/

/-- After a code the numbers go on from where it ends. -/
theorem canonNext_start {prev c l b : Nat} {es₁ es₂ : List (Nat × Nat)}
    (hsorted : (prev :: (es₁ ++ (l, b) :: es₂).map Prod.fst).Pairwise (· ≤ ·)) (hl : l ≤ 255) :
    ∃ n, (b, n) ∈ canonNext prev c (es₁ ++ (l, b) :: es₂)
      ∧ n * 2 ^ (255 - l) = (c + 1) * 2 ^ (255 - prev) + kraftSum (es₁.map Prod.fst) := by
  have shift {k m n : Nat} (hkm : k ≤ m) (hm : m ≤ 255) : n * 2 ^ (m - k) * 2 ^ (255 - m) = n * 2 ^ (255 - k) := by
    rw [Nat.mul_assoc, ← Nat.pow_add, Nat.add_comm, Nat.sub_add_sub_cancel hm hkm]
  induction es₁ generalizing prev c with
  | nil =>
    have hle : prev ≤ l := List.rel_of_pairwise_cons hsorted (by simp)
    exact ⟨_, List.mem_cons_self, by simp [shift hle hl, kraftSum]⟩
  | cons e es₁ ih =>
    obtain ⟨l₁, b₁⟩ := e
    obtain ⟨hprev, hrest⟩ := List.pairwise_cons.mp hsorted
    have hl₁ : l₁ ≤ l := List.rel_of_pairwise_cons hrest (by simp)
    obtain ⟨n, hmem, hn⟩ := ih (c := (c + 1) * 2 ^ (l₁ - prev)) hrest
    refine ⟨n, List.mem_cons_of_mem _ hmem, ?_⟩
    rw [hn, Nat.add_mul, shift (hprev l₁ (by simp)) (hl₁.trans hl), kraftSum, kraftSum, List.map_cons, List.map_cons, List.sum_cons]
    omega

/-- A byte's number, shifted to the length 255, is what the codes before it fill. -/
theorem canonCodes_start {l b : Nat} {es₁ es₂ : List (Nat × Nat)}
    (hsorted : ((es₁ ++ (l, b) :: es₂).map Prod.fst).Pairwise (· ≤ ·)) (hl : l ≤ 255) :
    ∃ n, (b, n) ∈ canonCodes (es₁ ++ (l, b) :: es₂) ∧ n * 2 ^ (255 - l) = kraftSum (es₁.map Prod.fst) := by
  cases es₁ with
  | nil => exact ⟨0, List.mem_cons_self, by simp [kraftSum]⟩
  | cons e es₁ =>
    obtain ⟨n, hmem, hn⟩ := canonNext_start (c := 0) hsorted hl
    exact ⟨n, List.mem_cons_of_mem _ hmem, by simp [hn, kraftSum]⟩

/-- The numbers of `canonCodes` start the codes where `codeStart` says. -/
theorem canonCodes_lookup {s : State} {b : Fin 256} (hb : s.len[b] ≠ 0#8) :
    ∃ n, (canonCodes (canonOrder s.len)).lookup b.val = some n ∧ n * codeSpan s b = codeStart s b := by
  have hcoded {a : Fin 256} : a ∈ canonBytes s.len ↔ s.len[a] ≠ 0#8 := (canonBytes_perm s.len).mem_iff.trans mem_nonzeroBytes
  obtain ⟨before, after, hsplit⟩ := List.append_of_mem (hcoded.mpr hb)
  have hsorted := canonBytes_sorted s
  have hlens : ((canonOrder s.len).map Prod.fst).Pairwise (· ≤ ·) := by
    rw [canonOrder_eq, List.map_map]
    refine hsorted.map _ fun a c h => ?_
    rcases h with h | ⟨h, _⟩
    · exact h.le
    · exact (congrArg BitVec.toNat h).le
  have horder : canonOrder s.len = before.map (canonKey s.len) ++ (s.len[b].toNat, b.val) :: after.map (canonKey s.len) := by
    rw [canonOrder_eq, hsplit, List.map_append, List.map_cons]
    rfl
  obtain ⟨n, hmem, hn⟩ := canonCodes_start (horder ▸ hlens) (by have := s.len[b].isLt; omega)
  refine ⟨n, lookup_of_mem ?nodup (horder ▸ hmem), hn.trans ?start⟩
  case nodup =>
    exact (canonCodes_keys s.len).nodup_iff.mpr ((nodup_nonzeroBytes s.len).map Fin.val_injective)
  case start =>
    rw [hsplit, List.pairwise_append] at hsorted
    obtain ⟨_, hafter, hacross⟩ := hsorted
    have hset : codedBefore s b = before.toFinset := by
      ext a
      rw [mem_codedBefore, List.mem_toFinset, ← hcoded, hsplit, List.mem_append, List.mem_cons]
      constructor
      · rintro ⟨hmem | rfl | hmem, h⟩
        · exact hmem
        · exact absurd h (canonBefore_asymm h)
        · exact absurd (List.rel_of_pairwise_cons hafter hmem) (canonBefore_asymm h)
      · exact fun hmem => ⟨.inl hmem, hacross a hmem b List.mem_cons_self⟩
    have hnodup : before.Nodup := (hsplit ▸ nodup_canonBytes s.len).of_append_left
    rw [codeStart, hset, List.sum_toFinset _ hnodup, kraftSum, List.map_map, List.map_map]
    rfl

/-! ### The code table -/

/-- A left-aligned numeral reads back as its number. -/
theorem bitsValue_numeralEntry {c l : Nat} (hl : l ≤ 256) (hc : c < 2 ^ l) : bitsValue (codeBits (numeralEntry c l) l) = c := by
  refine Nat.eq_of_testBit_eq fun i => ?_
  rw [testBit_bitsValue]
  by_cases hi : i < l
  · rw [List.getD_eq_getElem _ _ (by simpa [codeBits] using hi), List.getElem_reverse]
    simp only [codeBits, List.getElem_map, List.getElem_range, List.length_map, List.length_range]
    rw [BitVec.getMsbD, numeralEntry, BitVec.getLsbD_ofNat, Nat.testBit_mul_two_pow, decide_eq_true (by omega), decide_eq_true (by omega),
      decide_eq_true (by omega)]
    simp only [Bool.true_and]
    congr 1
    omega
  · rw [List.getD_eq_default _ _ (by simpa [codeBits] using hi), Nat.testBit_lt_two_pow]
    exact hc.trans_le (Nat.pow_le_pow_right (by decide) (by omega))

/-- What CANON's table says of a byte with a code: its entry is the numeral of its number, and its code starts where the codes before
it end. -/
theorem codeNumber_of_canonTable {t : State} (hcode : t.code = canonTable t.len) (hkraft : kraftTotal t.len ≤ 2 ^ 255) {b : Fin 256}
    (hb : t.len[b] ≠ 0#8) :
    t.code[b] = numeralEntry (codeNumber t b) t.len[b].toNat ∧ codeNumber t b * codeSpan t b = codeStart t b := by
  obtain ⟨n, hlookup, hn⟩ := canonCodes_lookup hb
  have hl : t.len[b].toNat ≤ 255 := by have := t.len[b].isLt; omega
  have hentry : t.code[b] = numeralEntry n t.len[b].toNat := by
    rw [hcode, canonTable, getElem_tabulate_fin, hlookup]
    rfl
  have hspace : 2 ^ 255 = 2 ^ t.len[b].toNat * codeSpan t b := by rw [codeSpan, ← Nat.pow_add, Nat.add_sub_cancel' hl]
  have hlt : n < 2 ^ t.len[b].toNat := by
    have hend := (codeEnd_le_kraftTotal hb).trans hkraft
    have hpos : 0 < codeSpan t b := Nat.two_pow_pos _
    rw [← hn, hspace] at hend
    exact Nat.lt_of_mul_lt_mul_right (a := codeSpan t b) (by omega)
  have hnumber : codeNumber t b = n := by
    rw [codeNumber, codeWordBits, hentry, bitsValue_numeralEntry (by omega) hlt]
  rw [hnumber]
  exact ⟨hentry, hn⟩

theorem canonicalCodes_of_canonTable {t : State} (hcode : t.code = canonTable t.len) (hkraft : kraftTotal t.len ≤ 2 ^ 255) :
    t.canonicalCodes := by
  refine ⟨fun b hb => hcode ▸ canonTable_of_zero hb, fun b hb => (codeNumber_of_canonTable hcode hkraft hb).1, fun b hb hfirst => ?first,
    fun a b ha hb hab hnext => ?next⟩
  case first =>
    have hstart := (codeNumber_of_canonTable hcode hkraft hb).2
    rw [codeStart_first hfirst] at hstart
    exact (Nat.mul_eq_zero.mp hstart).resolve_right (Nat.two_pow_pos _).ne'
  case next =>
    have hle : t.len[a].toNat ≤ t.len[b].toNat := hab.elim Nat.le_of_lt fun h => (congrArg BitVec.toNat h.1).le
    have hspan : codeSpan t a = 2 ^ (t.len[b].toNat - t.len[a].toNat) * codeSpan t b := by
      have := t.len[b].isLt
      rw [codeSpan, codeSpan, ← Nat.pow_add]
      congr 1
      omega
    refine Nat.eq_of_mul_eq_mul_right (Nat.two_pow_pos (255 - t.len[b].toNat)) ?_
    calc codeNumber t b * codeSpan t b
      _ = codeStart t b := (codeNumber_of_canonTable hcode hkraft hb).2
      _ = codeStart t a + codeSpan t a := codeStart_next ha hab hnext
      _ = (codeNumber t a + 1) * codeSpan t a := by rw [← (codeNumber_of_canonTable hcode hkraft ha).2, Nat.succ_mul]
      _ = _ := by rw [hspan, Nat.mul_assoc, codeSpan]

/-- Of two codes of one length, that of the lower byte has the lower number (42 R154). -/
theorem codeNumber_lt_of_same_length {t : State} (hcode : t.code = canonTable t.len) (hkraft : kraftTotal t.len ≤ 2 ^ 255)
    {a b : Fin 256} (ha : t.len[a] ≠ 0#8) (hlen : t.len[a] = t.len[b]) (hab : a < b) : codeNumber t a < codeNumber t b := by
  have hspan : codeSpan t a = codeSpan t b := by rw [codeSpan, codeSpan, hlen]
  have hend := codeEnd_le_codeStart ha (.inr ⟨hlen, hab⟩)
  rw [← (codeNumber_of_canonTable hcode hkraft ha).2, ← (codeNumber_of_canonTable hcode hkraft (hlen ▸ ha)).2, hspan,
    ← Nat.succ_mul] at hend
  exact Nat.le_of_mul_le_mul_right hend (Nat.two_pow_pos _)

/-- Settles O41: each code's number, shifted to the length 255, is what the codes before it fill of the code space. -/
theorem canonNumbering : Obligations.CanonNumbering := by
  intro s t hu hok h
  have ht := exec_next_unique h (exec_canon hu hok)
  have hlen : t.len = s.len := ht ▸ rfl
  have hcode : t.code = canonTable t.len := ht ▸ rfl
  have hkraft : kraftTotal t.len ≤ 2 ^ 255 := hlen ▸ kraftTotal_le_of_lengthsOk hok
  obtain ⟨_, hentry, hfirst, hnext⟩ := canonicalCodes_of_canonTable hcode hkraft
  simp only [canonBefore, ← hlen]
  exact ⟨hentry, hfirst, hnext, fun a b => codeNumber_lt_of_same_length hcode hkraft⟩

end Sys2Proof.Machine
end

section
/-!
DERIVE over every arena, and DERIVE and CANON as functions of what they read (42 R150, R152, R157; O37).
-/
namespace Sys2Proof.Machine

/-! ### The path visited last -/

theorem visitedBefore_asymm {p q : List Bool} (h : visitedBefore p q) : ¬ visitedBefore q p := by
  rintro ⟨r', x', y', hq, hp⟩
  obtain ⟨r, x, y, rfl, rfl⟩ := h
  induction r generalizing r' with
  | nil => cases r' <;> simp_all
  | cons c r ih =>
    cases r' with
    | nil => simp_all
    | cons c' r' =>
      simp only [List.cons_append, List.cons.injEq] at hq hp
      exact ih r' hp.2 hq.2

/-- A lookup finds the path the traversal records last (42 R150). -/
theorem pathOf_of_last {t : PathTable} {b : Fin 256} {p : List Bool} (horder : t.Pairwise fun e f => visitedBefore f.2 e.2)
    (hp : (b.val, p) ∈ t) (hlast : ∀ q, (b.val, q) ∈ t → q ≠ p → visitedBefore q p) : pathOf t b = p := by
  cases hlookup : t.lookup b.val with
  | none => exact absurd (List.lookup_eq_none_iff.mp hlookup _ hp) (by simp)
  | some q =>
    rw [pathOf, hlookup, Option.getD_some]
    by_contra hne
    obtain ⟨before, after, rfl, hbefore⟩ := List.lookup_eq_some_iff.mp hlookup
    have hq := hlast q (by simp) hne
    rcases List.mem_append.mp hp with hmem | hmem
    · exact absurd (hbefore _ hmem) (by simp)
    · rcases List.mem_cons.mp hmem with heq | hmem
      · exact hne (congrArg Prod.snd heq).symm
      · have hlater := List.rel_of_pairwise_cons (List.pairwise_append.mp horder).2.1 hmem
        exact visitedBefore_asymm hlater hq

theorem pathOf_of_no_path {t : PathTable} {b : Fin 256} (h : ∀ p, (b.val, p) ∉ t) : pathOf t b = [] := by
  have hkey : b.val ∉ t.map Prod.fst := fun hmem => by
    obtain ⟨⟨_, p⟩, hp, rfl⟩ := List.mem_map.mp hmem
    exact h p hp
  rw [pathOf, lookup_of_not_mem hkey]
  rfl

/-- A path that is recorded for a byte is one of the table's. -/
theorem mem_of_pathOf_ne_nil {t : PathTable} {b : Fin 256} (h : pathOf t b ≠ []) : (b.val, pathOf t b) ∈ t := by
  cases hlookup : t.lookup b.val with
  | none => exact absurd (by rw [pathOf, hlookup]; rfl) h
  | some p =>
    obtain ⟨_, _, rfl, _⟩ := List.lookup_eq_some_iff.mp hlookup
    rw [pathOf, hlookup]
    simp

theorem pathLens_of_fits {t : PathTable} {b : Fin 256} (h : (pathOf t b).length ≤ 255) (ops : List Nat) :
    (pathLens ops t)[b] = BitVec.ofNat 8 (pathOf t b).length := by
  rw [pathLens, getElem_tabulate_fin, fitsCode, decide_eq_true h, if_pos rfl]

theorem pathCodes_of_fits {t : PathTable} {b : Fin 256} (h : (pathOf t b).length ≤ 255) (ops : List Nat) :
    (pathCodes ops t)[b] = codeEntry (pathOf t b) := by
  rw [pathCodes, getElem_tabulate_fin, fitsCode, decide_eq_true h, if_pos rfl]

/-! ### Arenas without a cycle -/

/-- What the table of an arena without a cycle says: DERIVE's traversal gives it, and it lists the paths to bytes' leaves, the one
visited last first. -/
structure ArenaTable (s : State) (t : PathTable) : Prop where
  derived : derivePaths s.node s.root = some t
  leads : ∀ p (b : Fin 256), leadsTo s p b ↔ (b.val, p) ∈ t
  order : t.Pairwise fun e f => visitedBefore f.2 e.2

theorem exists_arenaTable {s : State} (hroot : s.root ≠ noNode) (h : s.acyclic) : ∃ t, ArenaTable s t := by
  obtain ⟨t, ht⟩ := leafPaths_of_short s.node Config.arena s.root h
  exact ⟨t, derivePaths_leafPaths hroot ht, leadsTo_iff_mem_of_leafPaths hroot ht, leafPaths_order _ _ _ _ ht⟩

/-! ### Completions -/

theorem exec_derive_of_phase {s u : State} (hu : s.undisturbed = true) (h : phaseDerive .freq s = .ok u) :
    exec .derive s = .next (u.succeeded (codedResult u)) :=
  exec_of_returned (i := .derive) hu (runPlan_always_ok h)

theorem exec_deriveC_of_phases {s u v : State} (hu : s.undisturbed = true) (h : phaseDerive .canon s = .ok u)
    (hcanon : phaseCanon u = .ok v) : exec .deriveC s = .next (v.succeeded (codedResult v)) :=
  exec_of_returned (i := .deriveC) hu ((runPlan_always_ok h).trans (runPlan_always_ok hcanon))

theorem exec_deriveC_error {s u : State} {e : Raise} (hu : s.undisturbed = true) (h : phaseDerive .canon s = .ok u)
    (hcanon : phaseCanon u = .error e) : exec .deriveC s = .next (u.failed .canon e) :=
  exec_of_raised (i := .deriveC) hu ((runPlan_always_ok h).trans (runPlan_always_error hcanon))

theorem codedResult_eq (t : State) : codedResult t = BitVec.ofNat 64 (codedSymbols t) := by rw [codedResult, length_lenEntries]

theorem codedSymbols_eq_countP (t : State) : codedSymbols t = (List.finRange 256).countP fun b => t.len[b] != 0#8 := by
  rw [codedSymbols, toList_eq_map_finRange, List.countP_map]
  rfl

/-- The empty tree gives DERIVE an empty table (42 R150). -/
theorem derivePaths_of_noNode {s : State} (h : s.root = noNode) : derivePaths s.node s.root = some [] := if_pos h

/-! ### What an outcome is a function of -/

/-- How a CANON phase over the lengths of `u` leaves a completion `t`. -/
structure CanonOutcome (u t : State) : Prop where
  len : t.len = u.len
  accepted : lengthsOk u → t.status.err = u.status.err ∧ t.code = canonTable u.len ∧ t.nsym = BitVec.ofNat 9 (codedSymbols u)
  refused : ¬ lengthsOk u → t.status.err = true

theorem lengthsOk_congr {u u' : State} (h : u.len = u'.len) : lengthsOk u ↔ lengthsOk u' := by
  simp only [lengthsOk, codedSymbols, h]

theorem CanonOutcome.congr {u u' t t' : State} (h : CanonOutcome u t) (h' : CanonOutcome u' t') (hlen : u.len = u'.len)
    (herr : u.status.err = false) (herr' : u'.status.err = false) :
    t.status.err = t'.status.err ∧ (t.status.err = false → t.code = t'.code ∧ t.nsym = t'.nsym) := by
  by_cases hok : lengthsOk u
  · obtain ⟨ht, hcode, hnsym⟩ := h.accepted hok
    obtain ⟨ht', hcode', hnsym'⟩ := h'.accepted ((lengthsOk_congr hlen).mp hok)
    refine ⟨by rw [ht, ht', herr, herr'], fun _ => ⟨?_, ?_⟩⟩
    · rw [hcode, hcode', hlen]
    · rw [hnsym, hnsym', codedSymbols, codedSymbols, hlen]
  · have ht := h.refused hok
    have ht' := h'.refused (mt (lengthsOk_congr hlen).mpr hok)
    exact ⟨ht.trans ht'.symm, fun hf => by simp [ht] at hf⟩

theorem canonOutcome_of_ok {u v : State} (h : phaseCanon u = .ok v) (r : Word) : CanonOutcome u (v.succeeded r) := by
  obtain ⟨hok, rfl⟩ := lengthsOk_of_phaseCanon h
  exact ⟨rfl, fun _ => ⟨rfl, rfl, rfl⟩, fun hbad => absurd hok hbad⟩

theorem canonOutcome_of_error {u : State} {e : Raise} (h : phaseCanon u = .error e) (p : Phase) : CanonOutcome u (u.failed p e) where
  len := rfl
  accepted hok := by
    rw [phaseCanon_of_lengthsOk hok] at h
    cases h
  refused _ := rfl

theorem exec_canon_outcome {s t : State} (hu : s.undisturbed = true) (h : exec .canon s = .next t) : CanonOutcome s t := by
  cases hphase : phaseCanon s with
  | ok v =>
    obtain ⟨hok, _⟩ := lengthsOk_of_phaseCanon hphase
    rw [exec_next_unique h (exec_canon hu hok)]
    exact canonOutcome_of_ok (phaseCanon_of_lengthsOk hok) _
  | error e =>
    rw [exec_next_unique h (exec_canon_error hu hphase)]
    exact canonOutcome_of_error hphase .canon

/-- DERIVE.C leaves DERIVE's lengths and CANON's outcome over them (42 R152). -/
theorem exec_deriveC_outcome {s t u : State} (hu : s.undisturbed = true) (h : exec .deriveC s = .next t)
    (hphase : phaseDerive .canon s = .ok u) : CanonOutcome u t := by
  cases hcanon : phaseCanon u with
  | ok v =>
    rw [exec_next_unique h (exec_deriveC_of_phases hu hphase hcanon)]
    exact canonOutcome_of_ok hcanon _
  | error e =>
    rw [exec_next_unique h (exec_deriveC_error hu hphase hcanon)]
    exact canonOutcome_of_error hcanon .canon

/-- DERIVE in either mode leaves the lengths of its DERIVE phase. -/
theorem len_of_exec_deriveOf {tm : TableMode} {s t u : State} (hu : s.undisturbed = true) (h : exec (deriveOf tm) s = .next t)
    (hphase : phaseDerive tm s = .ok u) : t.len = u.len := by
  cases tm with
  | freq =>
    rw [exec_next_unique h (exec_derive_of_phase hu hphase)]
    rfl
  | canon => exact (exec_deriveC_outcome hu h hphase).len

/-! ### DERIVE completes -/

theorem derive_completes {s : State} (hu : s.undisturbed = true) :
    ∃ l cd, exec .derive s = .next { s with
        len := l, code := cd, running := none
        result := BitVec.ofNat 64 ((List.finRange 256).countP fun b => l[b] != 0#8)
        status := { s.status with done := true, phase := .idle } }
      ∧ (s.root = noNode → ∀ b : Fin 256, l[b] = 0#8 ∧ cd[b] = 0#256) := by
  obtain ⟨l, cd, hphase, _⟩ := phaseDerive_ok .freq s
  refine ⟨l, cd, ?_, fun hroot b => ?_⟩
  · rw [exec_derive_of_phase hu hphase, codedResult_eq, codedSymbols_eq_countP]
    rfl
  · rw [phaseDerive_some (derivePaths_of_noNode hroot), if_pos rfl] at hphase
    injection hphase with hphase
    obtain rfl : _ = l := congrArg State.len hphase
    obtain rfl : _ = cd := congrArg State.code hphase
    have hfits : (pathOf [] b).length ≤ 255 := Nat.zero_le _
    exact ⟨pathLens_of_fits hfits _, (pathCodes_of_fits hfits _).trans codeEntry_nil⟩

/-- DERIVE's entries over an arena with a table. -/
theorem exec_derive_entries {s t : State} {table : PathTable} (hu : s.undisturbed = true) (htable : ArenaTable s table)
    (h : exec .derive s = .next t) {b : Fin 256} (hfits : (pathOf table b).length ≤ 255) :
    t.len[b] = BitVec.ofNat 8 (pathOf table b).length ∧ t.code[b] = codeEntry (pathOf table b) := by
  rw [exec_next_unique h (exec_derive hu htable.derived)]
  exact ⟨pathLens_of_fits hfits _, pathCodes_of_fits hfits _⟩

/-- Settles O37: the traversal's table lists the paths to bytes' leaves in the reverse of its order, and each phase is a function of
the arena, of ROOT and of LEN. -/
theorem deriveCompletes : Obligations.DeriveCompletes := by
  refine ⟨fun s hu => derive_completes hu, fun s t b hu hroot hacyclic h => ?paths,
    fun tm tm' s s' t t' hu hu' hnode hroot h h' => ?derive, fun s s' t t' hu hu' hlen herr herr' h h' => ?canon⟩
  case paths =>
    obtain ⟨table, htable⟩ := exists_arenaTable hroot hacyclic
    refine ⟨fun hnone => ?_, fun p hp hlast hlong => ?_⟩
    · have hpath : pathOf table b = [] := pathOf_of_no_path fun p hp => hnone p ((htable.leads p b).mpr hp)
      have hentries := exec_derive_entries hu htable h (b := b) (by simp [hpath])
      rwa [hpath, codeEntry_nil] at hentries
    · have hpath : pathOf table b = p :=
        pathOf_of_last htable.order ((htable.leads p b).mp hp) fun q hq => hlast q ((htable.leads q b).mpr hq)
      exact hpath ▸ exec_derive_entries hu htable h (hpath.symm ▸ hlong)
  case derive =>
    obtain ⟨l, c, hphase, _⟩ := phaseDerive_ok tm s
    obtain ⟨l', c', hphase', _⟩ := phaseDerive_ok tm' s'
    obtain ⟨hlen, hcode⟩ := phaseDerive_congr hnode hroot hphase hphase'
    refine ⟨?_, ?_, ?_⟩
    · rw [len_of_exec_deriveOf hu h hphase, len_of_exec_deriveOf hu' h' hphase', hlen]
    · rintro rfl rfl
      rw [exec_next_unique h (exec_derive_of_phase hu hphase), exec_next_unique h' (exec_derive_of_phase hu' hphase')]
      exact hcode rfl rfl
    · rintro rfl rfl herr herr'
      exact (exec_deriveC_outcome hu h hphase).congr (exec_deriveC_outcome hu' h' hphase') hlen herr herr'
  case canon => exact (exec_canon_outcome hu h).congr (exec_canon_outcome hu' h') hlen herr herr'

end Sys2Proof.Machine
end

section
/-!
DERIVE.C over the empty tree and over the tree BUILD made (42 R150, R152, R153; O39).
-/
namespace Sys2Proof.Machine

/-! ### The DERIVE phase of DERIVE.C -/

/-- The state after DERIVE.C's DERIVE phase, over an arena with a table (42 R152). -/
def State.withTableLens (s : State) (t : PathTable) : State := { s with len := pathLens (treeOperands s.node s.root) t }

theorem phaseDerive_canon {s : State} {t : PathTable} (h : derivePaths s.node s.root = some t) :
    phaseDerive .canon s = .ok (s.withTableLens t) := phaseDerive_some h

theorem exec_deriveC {s : State} {t : PathTable} (hu : s.undisturbed = true) (h : derivePaths s.node s.root = some t)
    (hok : lengthsOk (s.withTableLens t)) :
    exec .deriveC s = .next ((s.withTableLens t).canonized.succeeded (BitVec.ofNat 64 (codedSymbols (s.withTableLens t)))) := by
  rw [exec_deriveC_of_phases hu (phaseDerive_canon h) (phaseCanon_of_lengthsOk hok), codedResult_eq]
  rfl

/-! ### The empty tree -/

theorem pathLens_nil (ops : List Nat) : pathLens ops [] = Vector.replicate 256 0#8 := by
  refine Vector.ext fun i hi => ?_
  have hfits : (pathOf [] ⟨i, hi⟩).length ≤ 255 := Nat.zero_le _
  exact (pathLens_of_fits hfits ops).trans (Vector.getElem_replicate hi).symm

theorem canonTable_replicate : canonTable (Vector.replicate 256 0#8) = Vector.replicate 256 0#256 := by
  refine Vector.ext fun i hi => ?_
  have hzero : (Vector.replicate 256 0#8)[(⟨i, hi⟩ : Fin 256)] = 0#8 := Vector.getElem_replicate hi
  exact (canonTable_of_zero hzero).trans (Vector.getElem_replicate hi).symm

theorem codedSymbols_replicate {s : State} (h : s.len = Vector.replicate 256 0#8) : codedSymbols s = 0 := by
  rw [codedSymbols, h, Vector.toList_replicate, List.countP_replicate]
  rfl

theorem exec_deriveC_of_noNode {s : State} (hu : s.undisturbed = true) (h : s.root = noNode) :
    exec .deriveC s = .next { s with
      len := Vector.replicate 256 0#8, code := Vector.replicate 256 0#256, nsym := 0#9, result := 0#64, running := none
      status := { s.status with done := true, phase := .idle } } := by
  have hlens : (s.withTableLens []).len = Vector.replicate 256 0#8 := pathLens_nil _
  have hzero : codedSymbols (s.withTableLens []) = 0 := codedSymbols_replicate hlens
  rw [exec_deriveC hu (derivePaths_of_noNode h) (.inl hzero), State.canonized, hzero, hlens, canonTable_replicate,
    State.withTableLens, pathLens_nil]
  rfl

/-! ### The tree BUILD made -/

theorem codedSymbols_of_buildTable {u : State} {hist : Vector Word 256} {table : PathTable} (h : BuildTable hist table) {ops : List Nat}
    (hlen : u.len = pathLens ops table) : codedSymbols u = (nonzeroBytes hist).length := by
  rw [codedSymbols_eq, hlen, h.nonzeroBytes_pathLens]

/-- Settles O39: the lengths of BUILD's tree are ones CANON accepts, and CANON's table is their canonical numbering. -/
theorem deriveCanonOverBuildTree : Obligations.DeriveCanonOverBuildTree := by
  refine ⟨fun s hu hroot => exec_deriveC_of_noNode hu hroot, fun s t u hu hbuild hderive => ?_⟩
  obtain ⟨table, htable⟩ := exists_buildTable s.hist
  obtain ⟨u', hderive', _, hulen, _, _⟩ := exec_derive_of_build hu hbuild htable
  obtain rfl := exec_next_unique hderive hderive'
  obtain ⟨hnode, hroot, _, hidle⟩ := build_tree hu hbuild
  have hpaths : derivePaths t.node t.root = some table := hnode ▸ hroot ▸ htable.derived
  have hok : lengthsOk (t.withTableLens table) := lengthsOk_of_buildTable htable rfl
  have hcount : codedSymbols (t.withTableLens table) = histSymbols s :=
    (codedSymbols_of_buildTable htable rfl).trans (histSymbols_eq s).symm
  refine ⟨_, exec_deriveC (undisturbed_of_idle hidle) hpaths hok, ⟨rfl, ?result, rfl, rfl⟩, fun b => ?len, ?nsym, fun b hb => ?uncoded,
    canonicalCodes_of_canonTable rfl (kraftTotal_le_of_lengthsOk hok)⟩
  case result => rw [State.succeeded_result, hcount]
  case len => rw [hulen]; rfl
  case nsym =>
    have hle := codedSymbols_le (t.withTableLens table)
    rw [State.succeeded_nsym, State.canonized, BitVec.toNat_ofNat, Nat.mod_eq_of_lt (by omega), hcount]
  case uncoded => exact canonTable_of_zero ((htable.pathLens_eq_zero _ b).mpr hb)

end Sys2Proof.Machine
end

section
/-!
Prefix-freedom: the codes of a tree are the paths to its leaves, and canonical codes take disjoint parts of the code space (42 R156; O42).
-/
namespace Sys2Proof.Machine

/-! ### The paths of a tree -/

theorem followPath_append (node : Vector Node 511) (i : Index) (p q : List Bool) :
    followPath node i (p ++ q) = (followPath node i p).bind fun j => followPath node j q := by
  induction p generalizing i with
  | nil => rfl
  | cons c p ih =>
    simp only [List.cons_append, followPath]
    split
    · rfl
    · exact ih _

/-- No path goes on from a leaf. -/
theorem followPath_of_leaf {node : Vector Node 511} {i j : Index} {p : List Bool} (hleaf : (nodeAt node i).leaf = true)
    (h : followPath node i p = some j) : i = j := by
  cases p with
  | nil => exact Option.some.inj h
  | cons c p => simp [followPath, hleaf] at h

/-- No path to one byte's leaf begins with the path to another's. -/
theorem leadsTo_eq_of_prefix {s : State} {p q : List Bool} {a b : Fin 256} (ha : leadsTo s p a) (hb : leadsTo s q b) (h : p <+: q) :
    a = b := by
  obtain ⟨r, rfl⟩ := h
  obtain ⟨_, i, hp, hleaf, hi⟩ := ha
  obtain ⟨_, j, hq, _, hj⟩ := hb
  rw [followPath_append, hp, Option.bind_some] at hq
  rw [← followPath_of_leaf hleaf hq] at hj
  exact Fin.ext (hi.symm.trans hj)

theorem codesPrefixFree_of_leadsTo {s t : State} (h : ∀ b : Fin 256, t.len[b] ≠ 0#8 → leadsTo s (codeWordBits t b) b) :
    codesPrefixFree t := fun a b hne ha hb hpre => hne (leadsTo_eq_of_prefix (h a ha) (h b hb) hpre)

/-- DERIVE over an arena without a cycle whose paths are codes gives each byte with a length its path. -/
theorem codesPrefixFree_of_acyclic {s t : State} (hu : s.undisturbed = true) (hroot : s.root ≠ noNode) (hacyclic : s.acyclic)
    (hshort : ∀ p b, leadsTo s p b → p.length ≤ 255) (h : exec .derive s = .next t) : codesPrefixFree t := by
  obtain ⟨table, htable⟩ := exists_arenaTable hroot hacyclic
  refine codesPrefixFree_of_leadsTo (s := s) fun b hb => ?_
  have hpath : pathOf table b ≠ [] := fun hnil => by
    refine hb ?_
    rw [(exec_derive_entries hu htable h (b := b) (by simp [hnil])).1, hnil]
    rfl
  have hleads : leadsTo s (pathOf table b) b := (htable.leads _ b).mpr (mem_of_pathOf_ne_nil hpath)
  have hle := hshort _ b hleads
  obtain ⟨hlen, hcode⟩ := exec_derive_entries hu htable h hle
  have hbits : codeWordBits t b = pathOf table b := by
    rw [codeWordBits, hlen, hcode, BitVec.toNat_ofNat, Nat.mod_eq_of_lt (by omega), codeBits_codeEntry (by omega)]
  exact hbits.symm ▸ hleads

/-- DERIVE over the empty tree gives no byte a code. -/
theorem codesPrefixFree_of_noNode {s t : State} (hu : s.undisturbed = true) (hroot : s.root = noNode) (h : exec .derive s = .next t) :
    codesPrefixFree t := by
  obtain ⟨l, cd, hderive, hempty⟩ := derive_completes hu
  rw [exec_next_unique h hderive]
  exact fun a _ _ ha => absurd (hempty hroot a).1 ha

/-! ### Canonical codes -/

theorem bitsValue_append (p q : List Bool) : bitsValue (p ++ q) = bitsValue p * 2 ^ q.length + bitsValue q := by
  induction q using List.reverseRecOn with
  | nil => simp [bitsValue]
  | append_singleton q b ih =>
    rw [← List.append_assoc, bitsValue_concat, bitsValue_concat, ih, Nat.bit_val, Nat.bit_val, List.length_append, List.length_singleton]
    ring

theorem bitsValue_lt (p : List Bool) : bitsValue p < 2 ^ p.length := by
  induction p using List.reverseRecOn with
  | nil => simp [bitsValue]
  | append_singleton p b ih =>
    rw [bitsValue_concat, Nat.bit_val, List.length_append, List.length_singleton, Nat.pow_succ]
    have := b.toNat_le
    omega

theorem length_codeWordBits (s : State) (b : Fin 256) : (codeWordBits s b).length = s.len[b].toNat := by
  simp [codeWordBits, codeBits]

/-- A code that begins with another's bits starts inside the other's part of the code space. -/
theorem code_space_of_prefix {s : State} {a b : Fin 256} (h : codeWordBits s a <+: codeWordBits s b) :
    s.len[a].toNat ≤ s.len[b].toNat ∧ codeNumber s b * codeSpan s b < codeNumber s a * codeSpan s a + codeSpan s a := by
  obtain ⟨r, hr⟩ := h
  have hlen : s.len[b].toNat = s.len[a].toNat + r.length := by
    rw [← length_codeWordBits, ← length_codeWordBits, ← hr, List.length_append]
  have hspan : codeSpan s a = 2 ^ r.length * codeSpan s b := by
    have := s.len[b].isLt
    rw [codeSpan, codeSpan, ← Nat.pow_add]
    congr 1
    omega
  refine ⟨by omega, ?_⟩
  calc codeNumber s b * codeSpan s b
    _ < (codeNumber s a * 2 ^ r.length + 2 ^ r.length) * codeSpan s b := by
      refine Nat.mul_lt_mul_of_pos_right ?_ (Nat.two_pow_pos _)
      rw [codeNumber, codeNumber, ← hr, bitsValue_append]
      exact Nat.add_lt_add_left (bitsValue_lt r) _
    _ = _ := by rw [hspan, Nat.add_mul, Nat.mul_assoc]

theorem codesPrefixFree_of_canonTable {t : State} (hcode : t.code = canonTable t.len) (hkraft : kraftTotal t.len ≤ 2 ^ 255) :
    codesPrefixFree t := by
  intro a b hne ha hb hpre
  obtain ⟨hle, hinside⟩ := code_space_of_prefix hpre
  rw [(codeNumber_of_canonTable hcode hkraft ha).2, (codeNumber_of_canonTable hcode hkraft hb).2] at hinside
  rcases canonBefore_total (s := t) hne with hab | hba
  · exact absurd (codeEnd_le_codeStart ha hab) (not_le.mpr hinside)
  · have hsame : t.len[a] = t.len[b] := by
      rcases hba with hlt | ⟨heq, _⟩
      · omega
      · exact heq.symm
    have hnumber : codeNumber t a = codeNumber t b := by
      rw [codeNumber, codeNumber, hpre.eq_of_length (by rw [length_codeWordBits, length_codeWordBits, hsame])]
    have hlt : codeNumber t b < codeNumber t a :=
      codeNumber_lt_of_same_length hcode hkraft hb hsame.symm (hba.elim (fun h => by omega) And.right)
    omega

theorem CanonOutcome.codesPrefixFree {u t : State} (h : CanonOutcome u t) (herr : t.status.err = false) : codesPrefixFree t := by
  have hok : lengthsOk u := by
    by_contra hbad
    simp [h.refused hbad] at herr
  obtain ⟨_, hcode, _⟩ := h.accepted hok
  exact codesPrefixFree_of_canonTable (h.len.symm ▸ hcode) (h.len.symm ▸ kraftTotal_le_of_lengthsOk hok)

theorem codesPrefixFree_of_deriveC {s t : State} (hu : s.undisturbed = true) (h : exec .deriveC s = .next t)
    (herr : t.status.err = false) : codesPrefixFree t := by
  obtain ⟨_, _, hphase, _⟩ := phaseDerive_ok .canon s
  exact (exec_deriveC_outcome hu h hphase).codesPrefixFree herr

/-! ### The depths of CTREE's entries -/

/-- Every entry of the tree at entry 0 has a depth, one below its parent's, and none is below the longest code. -/
structure Leveled (depth : Nat → Nat) (a : List Node) : Prop where
  root : depth 0 = 0
  le : ∀ i, i < a.length → depth i ≤ 255
  child : ∀ i c, i < a.length → (arenaAt a i).child c ≠ noNode → depth ((arenaAt a i).child c).toNat = depth i + 1

theorem Node.child_withChild_same (n : Node) (c : Bool) (j : Index) : (n.withChild c j).child c = j := by cases c <;> rfl

theorem Node.child_withChild_of_ne (n : Node) {c d : Bool} (h : d ≠ c) (j : Index) : (n.withChild c j).child d = n.child d := by
  obtain rfl := Bool.eq_not_iff.mpr h
  cases c <;> rfl

theorem arenaAt_addChild_length (a : List Node) (i : Nat) (c : Bool) (n : Node) : arenaAt (addChild a i c n) a.length = n := by
  simp [addChild, arenaAt]

theorem arenaAt_addChild_self {a : List Node} {i : Nat} (hi : i < a.length) (c : Bool) (n : Node) :
    arenaAt (addChild a i c n) i = (arenaAt a i).withChild c (BitVec.ofNat 9 a.length) := by
  rw [addChild, arenaAt_append_of_lt (by simpa using hi), arenaAt_of_lt (by simpa using hi), List.getElem_set_self]

theorem arenaAt_addChild_of_ne {a : List Node} {i j : Nat} (hj : j < a.length) (h : j ≠ i) (c : Bool) (n : Node) :
    arenaAt (addChild a i c n) j = arenaAt a j := by
  rw [addChild, arenaAt_append_of_lt (by simpa using hj), arenaAt_of_lt (by simpa using hj), List.getElem_set_ne h.symm, arenaAt_of_lt hj]

theorem Leveled.bare : Leveled (fun _ => 0) [bareNode] where
  root := rfl
  le _ _ := Nat.zero_le _
  child i c hi hc := by
    obtain rfl : i = 0 := by simpa using hi
    cases c <;> exact absurd rfl hc

/-- A new entry is one below its parent. -/
theorem Leveled.addChild {depth : Nat → Nat} {a : List Node} (h : Leveled depth a) (htree : CodeTreeList a) {i : Nat} {c : Bool}
    {n : Node} (hi : i < a.length) (hroom : a.length < 511) (hdepth : depth i < 255) (hn : ∀ d, n.child d = noNode) :
    Leveled (Function.update depth a.length (depth i + 1)) (addChild a i c n) := by
  have hold {j : Nat} (hj : j < a.length) : Function.update depth a.length (depth i + 1) j = depth j :=
    Function.update_of_ne hj.ne ..
  have hkept {j : Nat} {d : Bool} (hj : j < a.length) (hd : (arenaAt a j).child d ≠ noNode) :
      Function.update depth a.length (depth i + 1) ((arenaAt a j).child d).toNat
        = Function.update depth a.length (depth i + 1) j + 1 := by
    rw [hold hj, hold (child_lt_of_slots htree.slots (arenaAt_mem hj) hd), h.child j d hj hd]
  refine ⟨(hold (by omega)).trans h.root, fun j hj => ?le, fun j d hj hd => ?child⟩ <;>
    rcases Nat.lt_succ_iff_lt_or_eq.mp (length_addChild a i c n ▸ hj) with hj | rfl
  case le.inl => exact (hold hj).trans_le (h.le j hj)
  case le.inr => rw [Function.update_self]; exact hdepth
  case child.inl =>
    by_cases hji : j = i
    · subst hji
      rw [arenaAt_addChild_self hi] at hd ⊢
      by_cases hdc : d = c
      · subst hdc
        rw [Node.child_withChild_same, toNat_ofNat_index hroom, Function.update_self, hold hi]
      · rw [Node.child_withChild_of_ne _ hdc] at hd ⊢
        exact hkept hi hd
    · rw [arenaAt_addChild_of_ne hj hji] at hd ⊢
      exact hkept hj hd
  case child.inr =>
    rw [arenaAt_addChild_length] at hd
    exact absurd (hn d) hd

/-- An insertion that has bits enough for the longest code left adds entries at their depths. -/
theorem Leveled.insertCode {b i : Nat} {depth : Nat → Nat} {a a' : List Node} {p : List Bool} (h : Leveled depth a)
    (htree : CodeTreeList a) (hi : i < a.length) (hp : depth i + p.length ≤ 255) (hins : insertCode b a i p = some a') :
    ∃ depth', Leveled depth' a' := by
  induction p generalizing a i depth with
  | nil =>
    injection hins with e
    exact ⟨depth, e ▸ h⟩
  | cons c cs ih =>
    rw [List.length_cons] at hp
    cases cs with
    | nil =>
      rw [Machine.insertCode] at hins
      split at hins
      · cases hins
      · split at hins
        · cases hins
        · next hfull =>
          injection hins with e
          exact ⟨_, e ▸ h.addChild htree hi (lt_of_le_of_ne htree.length_le hfull) (by omega) fun d => by cases d <;> rfl⟩
    | cons d ds =>
      rw [Machine.insertCode] at hins
      split at hins
      · next hfree =>
        split at hins
        · cases hins
        · next hfull =>
          have hlevels := h.addChild htree (c := c) (n := bareNode) hi (lt_of_le_of_ne htree.length_le hfull) (by omega) fun d => by
            cases d <;> rfl
          refine ih hlevels (htree.addChild hi hfull hfree rfl rfl childSlots_bareNode) (by simp) ?_ hins
          rw [Function.update_self]
          omega
      · next hchild =>
        split at hins
        · cases hins
        · refine ih h htree (child_lt_of_slots htree.slots (arenaAt_mem hi) hchild) ?_ hins
          rw [h.child i c hi hchild]
          omega

/-- What each code's insertion keeps, from the bare root on, holds of the tree CTREE makes. -/
theorem insertCodes_keeps {P : List Node → Prop} {s : State} (hbare : P [bareNode])
    (hk : ∀ (b : Fin 256) a a', P a → insertCode b.val a 0 (codeWordBits s b) = some a' → P a') {bs : List (Fin 256)}
    {a a' : List Node} (h : a = [] ∨ P a) (hins : insertCodes s bs a = .ok a') : a' = [] ∨ P a' := by
  induction bs generalizing a with
  | nil =>
    injection hins with e
    exact e ▸ h
  | cons b bs ih =>
    rw [insertCodes] at hins
    split at hins
    · cases hins
    · next a₁ hcode =>
      refine ih (.inr (hk b _ _ ?_ hcode)) hins
      split
      · exact hbare
      · next hne => exact h.resolve_left hne

/-- CTREE's entries, if there are any, have depths. -/
theorem insertCodes_leveled {s : State} {bs : List (Fin 256)} {a : List Node} (hins : insertCodes s bs [] = .ok a) :
    a = [] ∨ (CodeTreeList a ∧ ∃ depth, Leveled depth a) := by
  refine insertCodes_keeps (P := fun a => CodeTreeList a ∧ ∃ depth, Leveled depth a) ⟨.bare, _, .bare⟩
    (fun b a a' ⟨htree, depth, h⟩ hcode => ?_) (.inl rfl) hins
  have hpos : 0 < a.length := List.length_pos_of_ne_nil htree.ne_nil
  have hbits : depth 0 + (codeWordBits s b).length ≤ 255 := by
    have := s.len[b].isLt
    rw [h.root, length_codeWordBits]
    omega
  exact ⟨htree.insertCode hpos hcode, h.insertCode htree hpos hbits hcode⟩

/-- A path's end is as far below its start as the path has bits. -/
theorem Leveled.depth_followPath {depth : Nat → Nat} {a : List Node} (h : Leveled depth a) (htree : CodeTreeList a) {i j : Index}
    {p : List Bool} (hi : i.toNat < a.length) (hp : followPath (arenaOf a) i p = some j) :
    j.toNat < a.length ∧ depth j.toNat = depth i.toNat + p.length := by
  induction p generalizing i with
  | nil =>
    injection hp with e
    exact e ▸ ⟨hi, rfl⟩
  | cons c p ih =>
    rw [followPath, nodeAt_arenaOf a (hi.trans_le htree.length_le)] at hp
    split at hp
    · cases hp
    · next hgo =>
      have hchild : (arenaAt a i.toNat).child c ≠ noNode := fun e => hgo (by simp [e])
      obtain ⟨hj, hdepth⟩ := ih (child_lt_of_slots htree.slots (arenaAt_mem hi) hchild) hp
      rw [h.child _ c hi hchild] at hdepth
      exact ⟨hj, by rw [hdepth, List.length_cons]; omega⟩

/-- The tree CTREE made is empty, or no path in it has more than 255 bits. -/
theorem ctree_paths {r s : State} (hu : r.undisturbed = true) (h : exec .ctree r = .next s) (herr : s.status.err = false) :
    s.root = noNode ∨ (s.root ≠ noNode ∧ ∀ p j, followPath s.node s.root p = some j → p.length ≤ 255) := by
  obtain ⟨u, hrun, rfl⟩ := exec_returned hu h herr
  obtain ⟨a, hins, rfl⟩ := phaseCtree_ok (eq_ok_of_runPlan_single hrun)
  rcases insertCodes_leveled hins with rfl | ⟨htree, depth, hlevels⟩
  · exact .inl rfl
  · have hroot : (if a = [] then noNode else 0#9) = 0#9 := if_neg htree.ne_nil
    refine .inr ⟨fun e => absurd (hroot.symm.trans e) (by decide), fun p j hp => ?_⟩
    obtain ⟨hj, hdepth⟩ := hlevels.depth_followPath htree (i := 0#9) (List.length_pos_of_ne_nil htree.ne_nil) (hroot ▸ hp)
    have hle := hlevels.le _ hj
    rw [hdepth] at hle
    omega

/-! ### DERIVE over a made tree -/

theorem codesPrefixFree_of_build {r s t : State} (hu : r.undisturbed = true) (h : exec .build r = .next s)
    (hderive : exec .derive s = .next t) : codesPrefixFree t := by
  obtain ⟨u, hu', _, hzero, hcoded, _⟩ := deriveOverBuildTree r s hu h
  obtain rfl := exec_next_unique hderive hu'
  refine codesPrefixFree_of_leadsTo (s := t) fun b hb => ?_
  obtain ⟨_, hleads, _⟩ := hcoded b fun e => hb (hzero b e).1
  exact hleads

theorem codesPrefixFree_of_ctree {r s t : State} (hu : r.undisturbed = true) (h : exec .ctree r = .next s)
    (herr : s.status.err = false) (hs : s.undisturbed = true) (hderive : exec .derive s = .next t) : codesPrefixFree t := by
  rcases ctree_paths hu h herr with hroot | ⟨hroot, hshort⟩
  · exact codesPrefixFree_of_noNode hs hroot hderive
  · refine codesPrefixFree_of_acyclic hs hroot (fun p hp => ?_) (fun p b ⟨_, j, hj, _⟩ => hshort p j hj) hderive
    by_contra hne
    obtain ⟨j, hj⟩ := Option.ne_none_iff_exists'.mp hne
    have := hshort p j hj
    omega

/-- Settles O42: the codes DERIVE reads off a tree are paths to leaves, from which no path goes on, and canonical codes take disjoint
parts of the code space. -/
theorem prefixFreedom : Obligations.PrefixFreedom := by
  refine ⟨fun r s t tm hu _ hmade herr h hok => ?made, fun s t hu hroot hacyclic hshort h => ?acyclic,
    fun s t hu _ h hok => codesPrefixFree_of_deriveC hu h hok, fun s t hu _ h hok => (exec_canon_outcome hu h).codesPrefixFree hok⟩
  case made =>
    have hs : s.undisturbed = true := by
      rcases hmade with hmade | hmade <;> obtain ⟨u, _, rfl⟩ := exec_returned hu hmade herr <;> rfl
    cases tm with
    | canon => exact codesPrefixFree_of_deriveC hs h hok
    | freq =>
      rcases hmade with hmade | hmade
      · exact codesPrefixFree_of_build hu hmade h
      · exact codesPrefixFree_of_ctree hu hmade herr hs h
  case acyclic => exact codesPrefixFree_of_acyclic hu hroot hacyclic hshort h

end Sys2Proof.Machine
end

section
/-!
ESTIMATE's completion: the length pass stated over the offsets of the input region, and its three endings (43 R170; O45).
-/
namespace Sys2Proof.Machine

/-! ### The length pass over the offsets of the input -/

theorem inputBytes_eq_map (s : State) : inputBytes s = (List.range s.inLen.toNat).map (inByte s) := rfl

theorem totalLen_inputBytes (s : State) :
    totalLen s.len (inputBytes s) = ((List.range s.inLen.toNat).map fun k => s.len[(inByte s k).toFin].toNat).sum := by
  rw [totalLen, inputBytes_eq_map, List.map_map]
  rfl

theorem firstUncoded_inputBytes_eq_some {s : State} {i : Nat} (hi : i < s.inLen.toNat) (hzero : byteLen s.len (inByte s i) = 0)
    (hbefore : ∀ j, j < i → byteLen s.len (inByte s j) ≠ 0) : firstUncoded s.len (inputBytes s) = some i := by
  refine List.findIdx?_eq_some_iff_getElem.mpr ⟨by rwa [length_inputBytes], ?_, fun j hj => ?_⟩
  · simpa [inputBytes_eq_map] using hzero
  · simpa [inputBytes_eq_map] using hbefore j hj

theorem firstUncoded_inputBytes_eq_none {s : State} (h : ∀ i, i < s.inLen.toNat → byteLen s.len (inByte s i) ≠ 0) :
    firstUncoded s.len (inputBytes s) = none := by
  simpa [firstUncoded, inputBytes_eq_map] using h

theorem lengthPass_of_uncoded {s : State} {i : Nat} (h : firstUncoded s.len (inputBytes s) = some i) :
    lengthPass s = .error ⟨.noCode, BitVec.ofNat 64 i⟩ := by
  rw [lengthPass, h]

theorem lengthPass_of_overflow {s : State} (h : firstUncoded s.len (inputBytes s) = none)
    (hover : totalLen s.len (inputBytes s) > 2 ^ 64 - 1) : lengthPass s = .error ⟨.sizeOverflow, 0#64⟩ := by
  simp only [lengthPass, h, if_pos hover]

/-! ### ESTIMATE -/

theorem phaseEstimate_of_length {s : State} {n : Nat} (h : lengthPass s = .ok n) :
    phaseEstimate s = .ok { s with totalBits := BitVec.ofNat 64 n, totalBytes := BitVec.ofNat 64 (ceilDiv n 8) } := by
  rw [phaseEstimate, h]

theorem phaseEstimate_of_error {s : State} {e : Raise} (h : lengthPass s = .error e) : phaseEstimate s = .error e := by
  rw [phaseEstimate, h]

/-- RegionCheck passes when the one region a command uses, its input, does not wrap (20 R73). -/
theorem regionCheck_input {s : State} (hin : s.inBase.toNat + s.inLen.toNat ≤ 2 ^ 64) : regionCheck true false s = .ok s :=
  regionCheck_of_ok (by simpa [regionsOk, inWraps] using hin)

/-- ESTIMATE's success: its RESULT is TOTAL_BYTES (10 R35). -/
theorem exec_estimate {s : State} (hu : s.undisturbed = true) (hin : s.inBase.toNat + s.inLen.toNat ≤ 2 ^ 64) {n : Nat}
    (h : lengthPass s = .ok n) :
    exec .estimate s = .next (State.succeeded
      { s with totalBits := BitVec.ofNat 64 n, totalBytes := BitVec.ofNat 64 (ceilDiv n 8) } (BitVec.ofNat 64 (ceilDiv n 8))) :=
  exec_of_returned (i := .estimate) hu
    ((runPlan_always_ok (regionCheck_input hin)).trans (runPlan_always_ok (phaseEstimate_of_length h)))

/-- ESTIMATE's failure: its phase writes no memory, so no byte is left unspecified (60 R285). -/
theorem exec_estimate_error {s : State} (hu : s.undisturbed = true) (hin : s.inBase.toNat + s.inLen.toNat ≤ 2 ^ 64) {e : Raise}
    (h : lengthPass s = .error e) : exec .estimate s = .next (s.failed .estimate e) :=
  exec_of_raised (i := .estimate) hu
    ((runPlan_always_ok (regionCheck_input hin)).trans (runPlan_always_error (phaseEstimate_of_error h)))

/-- Settles O45: the phase ends as the length pass does, whose branches are R170's cases on the input's offsets and their total. -/
theorem estimateResult : Obligations.EstimateResult := by
  intro s hu hin
  dsimp only
  refine ⟨fun i hi hzero hbefore => ?noCode, fun hcoded hover => ?overflow, fun hcoded hfits => ?success⟩
  case noCode =>
    exact exec_estimate_error hu hin (lengthPass_of_uncoded (firstUncoded_inputBytes_eq_some hi hzero hbefore))
  case overflow =>
    rw [← totalLen_inputBytes] at hover
    exact exec_estimate_error hu hin (lengthPass_of_overflow (firstUncoded_inputBytes_eq_none hcoded) hover)
  case success =>
    rw [← totalLen_inputBytes] at hfits ⊢
    exact exec_estimate hu hin (lengthPass_of_ok (firstUncoded_inputBytes_eq_none hcoded) hfits)

end Sys2Proof.Machine
end

section
/-!
ENCODE's completion: the length pass's errors, the capacity check, and the packed code words at OUT_BASE + PAYLOAD_OFF (44 R180; O46).
-/
namespace Sys2Proof.Machine

/-! ### The payload over the offsets of the input -/

theorem codeStream_inputBytes (s : State) :
    codeStream s (inputBytes s) = (List.range s.inLen.toNat).flatMap fun k => codeWordBits s (inByte s k).toFin := by
  rw [codeStream, inputBytes_eq_map, List.flatMap_map]
  rfl

/-! ### The phase -/

theorem phaseEncode_of_length_error {s : State} {e : Raise} (h : lengthPass s = .error e) : phaseEncode s = .error e := by
  rw [phaseEncode, h]

theorem phaseEncode_of_too_small {s : State} {n : Nat} (h : lengthPass s = .ok n)
    (hover : s.payloadOff.toNat + ceilDiv n 8 > s.outCap.toNat) :
    phaseEncode s = .error ⟨.bufferTooSmall, limited (s.payloadOff.toNat + ceilDiv n 8)⟩ := by
  simp only [phaseEncode, h, if_pos hover]

/-- The state after P_ENCODE, for a payload of n bits. -/
def State.encoded (s : State) (n : Nat) : State :=
  { s with
    mem := s.mem.writeBytes (s.outBase.toNat + s.payloadOff.toNat) (payloadBytes s)
    totalBits := BitVec.ofNat 64 n
    totalBytes := BitVec.ofNat 64 (ceilDiv n 8) }

theorem phaseEncode_of_fits {s : State} {n : Nat} (h : lengthPass s = .ok n)
    (hfits : s.payloadOff.toNat + ceilDiv n 8 ≤ s.outCap.toNat) : phaseEncode s = .ok (s.encoded n) := by
  simp only [phaseEncode, h, if_neg (not_lt.mpr hfits), State.encoded]

/-- No error of P_ENCODE is one that leaves output bytes unspecified (60 R286). -/
theorem leavesBytes_of_phaseEncode_error {s : State} {e : Raise} (h : phaseEncode s = .error e) (p : Phase) :
    leavesBytes p e = false := by
  obtain (hc | hc) | hc := phaseEncode_error h <;> rw [leavesBytes, hc] <;> exact Bool.and_false _

/-! ### The command -/

/-- ENCODE's success: its RESULT is TOTAL_BYTES (10 R35). -/
theorem exec_encode {s : State} (hu : s.undisturbed = true) (hreg : regionsOk true true s = true) {n : Nat}
    (h : lengthPass s = .ok n) (hfits : s.payloadOff.toNat + ceilDiv n 8 ≤ s.outCap.toNat) :
    exec .encode s = .next ((s.encoded n).succeeded (BitVec.ofNat 64 (ceilDiv n 8))) :=
  exec_of_returned (i := .encode) hu
    ((runPlan_always_ok (regionCheck_of_ok hreg)).trans (runPlan_always_ok (phaseEncode_of_fits h hfits)))

/-- ENCODE's failure: its checks come before its first memory write. -/
theorem exec_encode_error {s : State} (hu : s.undisturbed = true) (hreg : regionsOk true true s = true) {e : Raise}
    (h : phaseEncode s = .error e) : exec .encode s = .next (s.failed .encode e) := by
  rw [exec_of_raised (i := .encode) hu
    ((runPlan_always_ok (regionCheck_of_ok hreg)).trans (runPlan_always_error h)), Command.failedAt,
    leavesBytes_of_phaseEncode_error h]
  rfl

/-- Settles O46: the phase raises what the length pass raises, then checks the capacity; what it writes is the packing of the input's
code words, whose length the length pass computed. -/
theorem encodeResult : Obligations.EncodeResult := by
  intro s hu hreg
  dsimp only
  rw [← totalLen_inputBytes, ← codeStream_inputBytes]
  refine ⟨fun i hi hzero hbefore => ?noCode, fun hcoded => ?coded⟩
  case noCode =>
    have hpass := lengthPass_of_uncoded (firstUncoded_inputBytes_eq_some hi hzero hbefore)
    exact exec_encode_error hu hreg (phaseEncode_of_length_error hpass)
  case coded =>
    have hnone := firstUncoded_inputBytes_eq_none hcoded
    refine ⟨fun hover => ?overflow, fun htotal hsmall => ?small, fun htotal hfits => ?success⟩
    case overflow =>
      exact exec_encode_error hu hreg (phaseEncode_of_length_error (lengthPass_of_overflow hnone hover))
    case small =>
      exact exec_encode_error hu hreg (phaseEncode_of_too_small (lengthPass_of_ok hnone htotal) hsmall)
    case success =>
      have hpass := lengthPass_of_ok hnone htotal
      exact ⟨length_codeStream s _, length_payloadBytes hpass, exec_encode hu hreg hpass hfits⟩

end Sys2Proof.Machine
end

section
/-!
The header's layout over the offsets of the input: little-endian numbers, input bytes in spans, and a header field by field (45 R200 to
R203).
-/
namespace Sys2Proof.Machine

/-! ### Little-endian numbers (45 R201) -/

theorem leBytes_eq_map (v n : Nat) : leBytes v n = (List.range n).map fun k => BitVec.ofNat 8 (v / 256 ^ k) := by
  induction n generalizing v with
  | zero => rfl
  | succ n ih =>
    rw [leBytes, ih, List.range_succ_eq_map, List.map_cons, List.map_map, pow_zero, Nat.div_one]
    simp only [Function.comp_def, Nat.div_div_eq_div_mul, Nat.pow_succ']

theorem leValue_leBytes {v n : Nat} (h : v < 256 ^ n) : leValue (leBytes v n) = v := by
  induction n generalizing v with
  | zero => exact (Nat.lt_one_iff.mp h).symm
  | succ n ih =>
    rw [leBytes, leValue, ih (Nat.div_lt_of_lt_mul (Nat.pow_succ' ▸ h)), BitVec.toNat_ofNat]
    exact Nat.mod_add_div v 256

theorem leBytes_leValue (bs : List Byte) : leBytes (leValue bs) bs.length = bs := by
  induction bs with
  | nil => rfl
  | cons b bs ih =>
    have hb := b.isLt
    have hhead : BitVec.ofNat 8 (leValue (b :: bs)) = b := by
      refine BitVec.eq_of_toNat_eq ?_
      rw [leValue, BitVec.toNat_ofNat]
      omega
    have htail : leValue (b :: bs) / 256 = leValue bs := by
      rw [leValue]
      omega
    rw [List.length_cons, leBytes, hhead, htail, ih]

theorem leValue_lt (bs : List Byte) : leValue bs < 256 ^ bs.length := by
  induction bs with
  | nil => decide
  | cons b bs ih =>
    have hb := b.isLt
    rw [leValue, List.length_cons, Nat.pow_succ']
    omega

theorem byte_eq_ofNat_iff {b : Byte} {v : Nat} (h : v < 256) : b = BitVec.ofNat 8 v ↔ b.toNat = v := by
  rw [← BitVec.toNat_inj, BitVec.toNat_ofNat, Nat.mod_eq_of_lt h]

/-! ### Spans of the input -/

@[simp] theorem length_inBytes (s : State) (o n : Nat) : (inBytes s o n).length = n := by simp [inBytes]

theorem inBytes_succ (s : State) (o n : Nat) : inBytes s o (n + 1) = inByte s o :: inBytes s (o + 1) n := by
  rw [inBytes, List.range_succ_eq_map, List.map_cons, List.map_map]
  simp only [Function.comp_def, Nat.succ_eq_add_one, Nat.add_zero, inBytes, Nat.add_assoc, Nat.add_comm 1]

theorem inBytes_add (s : State) (o m n : Nat) : inBytes s o (m + n) = inBytes s o m ++ inBytes s (o + m) n := by
  rw [inBytes, List.range_add, List.map_append, List.map_map]
  simp only [Function.comp_def, inBytes, Nat.add_assoc]

theorem inBytes_add_eq_append_iff {s : State} {o m n : Nat} {as bs : List Byte} (h : as.length = m) :
    inBytes s o (m + n) = as ++ bs ↔ inBytes s o m = as ∧ inBytes s (o + m) n = bs := by
  rw [inBytes_add]
  exact ⟨fun e => List.append_inj e (by rw [length_inBytes, h]), fun ⟨ha, hb⟩ => by rw [ha, hb]⟩

theorem inBytes_succ_eq_cons_iff {s : State} {o n : Nat} {b : Byte} {bs : List Byte} :
    inBytes s o (n + 1) = b :: bs ↔ inByte s o = b ∧ inBytes s (o + 1) n = bs := by rw [inBytes_succ, List.cons_eq_cons]

theorem inputBytes_eq_inBytes (s : State) : inputBytes s = inBytes s 0 s.inLen.toNat := by
  simp only [inputBytes_eq_map, inBytes, Nat.zero_add]

theorem inBytes_eq_iff {s : State} {n : Nat} {bs : List Byte} (h : bs.length = n) :
    inBytes s 0 n = bs ↔ ∀ j, j < n → inByte s j = bs.getD j 0#8 := by
  refine ⟨fun e j hj => ?_, fun e => List.ext_getElem (by rw [length_inBytes, h]) fun j _ hj => ?_⟩
  · rw [← e, List.getD_eq_getElem _ _ (by rwa [length_inBytes])]
    simp [inBytes]
  · rw [← List.getD_eq_getElem _ 0#8 hj, ← e j (h ▸ hj)]
    simp [inBytes]

/-- The input begins with the bytes `h`. -/
theorem exists_inputBytes_eq_append_iff {s : State} {h : List Byte} :
    (∃ rest, inputBytes s = h ++ rest) ↔ h.length ≤ s.inLen.toNat ∧ inBytes s 0 h.length = h := by
  rw [inputBytes_eq_inBytes]
  constructor
  · rintro ⟨rest, e⟩
    have hlen : s.inLen.toNat = h.length + rest.length := by
      simpa using congrArg List.length e
    rw [hlen] at e
    exact ⟨by omega, ((inBytes_add_eq_append_iff rfl).mp e).1⟩
  · rintro ⟨hle, e⟩
    obtain ⟨n, hn⟩ := Nat.exists_eq_add_of_le hle
    exact ⟨inBytes s h.length n, by rw [hn, inBytes_add, e, Nat.zero_add]⟩

theorem inBytes_eq_leBytes_iff {s : State} {o v n : Nat} (h : v < 256 ^ n) :
    inBytes s o n = leBytes v n ↔ leValue (inBytes s o n) = v := by
  constructor
  · intro e
    rw [e, leValue_leBytes h]
  · rintro rfl
    have hround := leBytes_leValue (inBytes s o n)
    rw [length_inBytes] at hround
    exact hround.symm

theorem inNumber_eq (s : State) (o n : Nat) : inNumber s o n = leValue (inBytes s o n) := by
  induction n generalizing o with
  | zero => rfl
  | succ n ih =>
    rw [inBytes_succ, leValue, ← ih, inNumber, List.range_succ_eq_map, List.map_cons, List.map_map, List.sum_cons, inNumber,
      ← List.sum_map_mul_left]
    congr 1
    · simp
    · refine congrArg List.sum (List.map_congr_left fun q _ => ?_)
      rw [Function.comp_apply, Nat.succ_eq_add_one, Nat.pow_succ', Nat.add_comm q, ← Nat.add_assoc]
      ring

/-! ### Entries -/

/-- The bytes of an entry's value (45 R200). -/
def valueSize : TableMode → Nat
  | .freq => 8
  | .canon => 1

theorem entrySize_eq (te : TableMode) : entrySize te = valueSize te + 1 := by cases te <;> rfl

theorem entryBytes_eq (te : TableMode) (e : Nat × Nat) : entryBytes te e = BitVec.ofNat 8 e.1 :: leBytes e.2 (valueSize te) := by
  cases te <;> rfl

theorem parsedValue_eq (te : TableMode) (s : State) (o : Nat) : parsedValue te s o = leValue (inBytes s (o + 1) (valueSize te)) := by
  cases te with
  | freq => rfl
  | canon => simp [parsedValue, valueSize, inBytes, leValue]

theorem entryAt_eq (te : TableMode) (s : State) (o : Nat) : entryAt te s o = parsedValue te s o := by
  rw [parsedValue_eq, ← inNumber_eq]
  cases te <;> rfl

theorem parsedValue_lt (te : TableMode) (s : State) (o : Nat) : parsedValue te s o < 256 ^ valueSize te := by
  have h := leValue_lt (inBytes s (o + 1) (valueSize te))
  rwa [length_inBytes, ← parsedValue_eq] at h

/-- The entry at an input offset. -/
def entryPair (te : TableMode) (s : State) (o : Nat) : Nat × Nat := ((inByte s o).toNat, parsedValue te s o)

/-- `n` entries from an input offset on. -/
def entriesAt (te : TableMode) (s : State) (o n : Nat) : List (Nat × Nat) :=
  (List.range n).map fun k => entryPair te s (o + entrySize te * k)

@[simp] theorem length_entriesAt (te : TableMode) (s : State) (o n : Nat) : (entriesAt te s o n).length = n := by simp [entriesAt]

theorem offset_succ (te : TableMode) (o k : Nat) : o + entrySize te * (k + 1) = o + entrySize te + entrySize te * k := by ring

theorem entriesAt_succ (te : TableMode) (s : State) (o n : Nat) :
    entriesAt te s o (n + 1) = entryPair te s o :: entriesAt te s (o + entrySize te) n := by
  rw [entriesAt, List.range_succ_eq_map, List.map_cons, List.map_map]
  simp only [Function.comp_def, Nat.succ_eq_add_one, offset_succ, Nat.mul_zero, Nat.add_zero, entriesAt]

/-- A byte value and a value that an entry of the mode can hold. -/
def entryFits (te : TableMode) (e : Nat × Nat) : Prop := e.1 < 256 ∧ e.2 < 256 ^ valueSize te

theorem entryFits_of_mem_entriesAt {te : TableMode} {s : State} {o n : Nat} : ∀ e ∈ entriesAt te s o n, entryFits te e := by
  intro e he
  obtain ⟨k, _, rfl⟩ := List.mem_map.mp he
  exact ⟨(inByte s _).isLt, parsedValue_lt te s _⟩

theorem inBytes_eq_entryBytes_iff {te : TableMode} {s : State} {o : Nat} {e : Nat × Nat} (h : entryFits te e) :
    inBytes s o (entrySize te) = entryBytes te e ↔ entryPair te s o = e := by
  rw [entrySize_eq, entryBytes_eq, inBytes_succ_eq_cons_iff, byte_eq_ofNat_iff h.1, inBytes_eq_leBytes_iff h.2, ← parsedValue_eq,
    Prod.ext_iff]
  rfl

theorem inBytes_eq_entries_iff {te : TableMode} {s : State} {o : Nat} {es : List (Nat × Nat)} (h : ∀ e ∈ es, entryFits te e) :
    inBytes s o (entrySize te * es.length) = es.flatMap (entryBytes te) ↔ entriesAt te s o es.length = es := by
  induction es generalizing o with
  | nil => simp [inBytes, entriesAt]
  | cons e es ih =>
    obtain ⟨he, hes⟩ := List.forall_mem_cons.mp h
    rw [List.length_cons, Nat.mul_succ, Nat.add_comm, List.flatMap_cons, inBytes_add_eq_append_iff (length_entryBytes te e),
      inBytes_eq_entryBytes_iff he, ih hes, entriesAt_succ, List.cons_eq_cons]

/-! ### A header in the input -/

/-- The input begins with a header of table encoding TE, original length OLEN and the entries ES, field by field (45 R200). -/
structure HeaderAt (s : State) (te : TableMode) (olen : Nat) (es : List (Nat × Nat)) : Prop where
  fits : headerLen te es.length ≤ s.inLen.toNat
  magic : inBytes s 0 5 = magicBytes ++ [versionByte]
  origLen : parsedOlen s = olen
  mode : inByte s 13 = BitVec.ofNat 8 te.toNat
  count : parsedCount s = es.length
  entries : entriesAt te s 16 es.length = es

theorem exists_inputBytes_eq_header_iff {s : State} {te : TableMode} {olen : Nat} {es : List (Nat × Nat)} (holen : olen < 256 ^ 8)
    (hcount : es.length < 256 ^ 2) (hes : ∀ e ∈ es, entryFits te e) :
    (∃ rest, inputBytes s = headerBytes te olen es ++ rest) ↔ HeaderAt s te olen es := by
  have hlen : headerLen te es.length = 5 + 8 + 1 + 2 + entrySize te * es.length := rfl
  rw [exists_inputBytes_eq_append_iff, length_headerBytes, headerBytes]
  conv_lhs => rw [hlen]
  rw [inBytes_add_eq_append_iff (by simp [magicBytes]), inBytes_add_eq_append_iff (by simp [magicBytes]),
    inBytes_add_eq_append_iff (by simp [magicBytes]), inBytes_add_eq_append_iff (by simp [magicBytes]),
    inBytes_eq_entries_iff hes, inBytes_eq_leBytes_iff holen, inBytes_eq_leBytes_iff hcount, inBytes_succ_eq_cons_iff]
  constructor
  · rintro ⟨hfits, ⟨⟨⟨hmagic, holen⟩, hmode, _⟩, hcount⟩, hentries⟩
    exact ⟨hfits, hmagic, holen, hmode, hcount, hentries⟩
  · rintro ⟨hfits, hmagic, holen, hmode, hcount, hentries⟩
    exact ⟨hfits, ⟨⟨⟨hmagic, holen⟩, hmode, rfl⟩, hcount⟩, hentries⟩

end Sys2Proof.Machine
end

section
/-!
PARSEHDR: the checks on the fixed fields, the entry loop as a check of each entry, the checks over all entries, and the valid headers as
the inputs that pass them (45 R210, R211, 60 R281; O50).
-/
namespace Sys2Proof.Machine

/-- A check that raises passes when its condition fails and the checks behind it pass. -/
theorem ite_some_eq_none_iff {α : Type} {c : Prop} [Decidable c] {a : α} {x : Option α} :
    (if c then some a else x) = none ↔ ¬ c ∧ x = none := by split_ifs with h <;> simp [h]

/-! ### MAGIC, VERSION and the fixed fields -/

/-- The input has the byte `b` at offset `o`. -/
def byteIs (s : State) (o : Nat) (b : Byte) : Prop := o < s.inLen.toNat ∧ inByte s o = b

theorem not_byteIs_iff {s : State} {o : Nat} {b : Byte} : ¬ byteIs s o b ↔ s.inLen.toNat ≤ o ∨ inByte s o ≠ b := by
  rw [byteIs, not_and_or, not_lt]

theorem magicFault_of_byteIs {s : State} {o : Nat} {b : Byte} (h : byteIs s o b) (bs : List Byte) :
    magicFault s o (b :: bs) = magicFault s (o + 1) bs := by
  rw [magicFault, if_neg (not_not.mpr h ∘ not_byteIs_iff.mpr)]

theorem magicFault_of_not_byteIs {s : State} {o : Nat} {b : Byte} (h : ¬ byteIs s o b) (bs : List Byte) :
    magicFault s o (b :: bs) = some o := by
  rw [magicFault, if_pos (not_byteIs_iff.mp h)]

theorem magicFault_eq_none_iff {s : State} {o : Nat} {bs : List Byte} :
    magicFault s o bs = none ↔ ∀ j, j < bs.length → byteIs s (o + j) (bs.getD j 0#8) := by
  induction bs generalizing o with
  | nil => simp [magicFault]
  | cons b bs ih =>
    simp only [List.length_cons, Nat.forall_lt_succ_left, List.getD_cons_zero, List.getD_cons_succ, Nat.add_zero]
    by_cases hb : byteIs s o b
    · simp only [magicFault_of_byteIs hb, ih, hb, true_and, Nat.add_assoc, Nat.add_comm 1]
    · simp [magicFault_of_not_byteIs hb, hb]

theorem magicFault_eq_some {s : State} {o k : Nat} {bs : List Byte} (hk : k < bs.length)
    (hbefore : ∀ j, j < k → byteIs s (o + j) (bs.getD j 0#8)) (hwrong : ¬ byteIs s (o + k) (bs.getD k 0#8)) :
    magicFault s o bs = some (o + k) := by
  induction bs generalizing o k with
  | nil => exact absurd hk (Nat.not_lt_zero k)
  | cons b bs ih =>
    cases k with
    | zero => exact magicFault_of_not_byteIs hwrong bs
    | succ k =>
      have hb : byteIs s o b := hbefore 0 k.succ_pos
      have hshift (j : Nat) : o + 1 + j = o + (j + 1) := by omega
      rw [magicFault_of_byteIs hb, ih (k := k) (Nat.lt_of_succ_lt_succ hk), hshift]
      · exact fun j hj => hshift j ▸ hbefore (j + 1) (Nat.succ_lt_succ hj)
      · exact hshift k ▸ hwrong

/-- The bytes of MAGIC and VERSION (45 R200). -/
abbrev signature : List Byte := magicBytes ++ [versionByte]

theorem getD_signature {j : Nat} (h : j < 4) : signature.getD j 0#8 = magicBytes.getD j 0#8 := List.getD_append _ _ _ _ h

theorem magicFault_of_signature {s : State} {o : Nat} (ho : 4 ≤ o) (h : ∀ j, j < o → byteIs s j (signature.getD j 0#8)) :
    magicFault s 0 magicBytes = none := by
  refine magicFault_eq_none_iff.mpr fun j (hj : j < 4) => ?_
  rw [← getD_signature hj, Nat.zero_add]
  exact h j (hj.trans_le ho)

theorem headerFault_of_signature {s : State} {o : Nat} (ho : o < 5) (hbefore : ∀ j, j < o → byteIs s j (signature.getD j 0#8))
    (hwrong : ¬ byteIs s o (signature.getD o 0#8)) : headerFault s = some ⟨.corruptMagic, BitVec.ofNat 64 o⟩ := by
  rcases Nat.lt_succ_iff_lt_or_eq.mp ho with ho | rfl
  · have hmagic : magicFault s 0 magicBytes = some (0 + o) := by
      refine magicFault_eq_some ho (fun j hj => ?_) ?_ <;> rw [Nat.zero_add, ← getD_signature (by omega)]
      · exact hbefore j hj
      · exact hwrong
    rw [headerFault, hmagic, Nat.zero_add]
  · have hversion : s.inLen.toNat < 5 ∨ inByte s 4 ≠ versionByte := (not_byteIs_iff.mp hwrong).imp_left Nat.lt_succ_of_le
    rw [headerFault, magicFault_of_signature le_rfl hbefore]
    exact if_pos hversion

/-- The checks after MAGIC and VERSION, in R210's order. -/
theorem headerFault_of_magicOk {s : State} (h : magicOk s) : headerFault s =
    if s.inLen.toNat < 16 then some (badHeader s.inLen.toNat)
    else if (inByte s 13).toNat > 1 then some (badHeader 13)
    else if parsedCount s > 256 then some (badHeader 14)
    else if s.inLen.toNat < headerLen (parsedTe s) (parsedCount s) then some (badHeader s.inLen.toNat)
    else none := by
  obtain ⟨hlen, hversion⟩ := h 4 (by decide)
  rw [headerFault, magicFault_of_signature (o := 5) (by decide) h]
  exact if_neg (not_or.mpr ⟨by omega, not_not.mpr hversion⟩)

theorem magicOk_of_headerFault {s : State} (h : headerFault s = none) : magicOk s := by
  rw [headerFault] at h
  split at h
  · cases h
  · next hmagic =>
    split at h
    · cases h
    · next hversion =>
      intro o ho
      rcases Nat.lt_succ_iff_lt_or_eq.mp ho with ho | rfl
      · have hbyte := magicFault_eq_none_iff.mp hmagic o ho
        rwa [Nat.zero_add, ← getD_signature ho] at hbyte
      · obtain ⟨hlen, hbyte⟩ := not_or.mp hversion
        exact ⟨by omega, not_not.mp hbyte⟩

theorem headerFault_eq_none_iff {s : State} : headerFault s = none ↔
    magicOk s ∧ 16 ≤ s.inLen.toNat ∧ (inByte s 13).toNat ≤ 1 ∧ parsedCount s ≤ 256
      ∧ headerLen (parsedTe s) (parsedCount s) ≤ s.inLen.toNat := by
  refine ⟨fun h => ⟨magicOk_of_headerFault h, ?_⟩, fun ⟨hmagic, h⟩ => ?_⟩
  · simpa only [headerFault_of_magicOk (magicOk_of_headerFault h), ite_some_eq_none_iff, not_lt, gt_iff_lt, and_true] using h
  · simpa only [headerFault_of_magicOk hmagic, ite_some_eq_none_iff, not_lt, gt_iff_lt, and_true] using h

theorem parsedTe_of_toNat {s : State} {te : TableMode} (h : (inByte s 13).toNat = te.toNat) : parsedTe s = te := by
  have hbyte : inByte s 13 = BitVec.ofNat 8 te.toNat := (byte_eq_ofNat_iff (by cases te <;> decide)).mpr h
  rw [parsedTe, hbyte]
  cases te <;> rfl

theorem toNat_parsedTe {s : State} (h : (inByte s 13).toNat ≤ 1) : (inByte s 13).toNat = (parsedTe s).toNat := by
  rw [parsedTe]
  split
  · next hzero => rw [hzero]; rfl
  · next hne =>
    have : (inByte s 13).toNat ≠ 0 := fun e => hne (BitVec.eq_of_toNat_eq e)
    exact le_antisymm h (Nat.one_le_iff_ne_zero.mpr this)

/-! ### The entry loop -/

/-- The check of one entry: its byte at least `lo`, its value not 0 (45 R210). -/
def entryFault (te : TableMode) (s : State) (o lo : Nat) : Option Raise :=
  if (inByte s o).toNat < lo then some (badHeader o)
  else if parsedValue te s o = 0 then some (badHeader (o + 1))
  else none

theorem parseEntries_of_entryFault {te : TableMode} {s : State} {o lo : Nat} {e : Raise} (k : Nat) (h : entryFault te s o lo = some e) :
    parseEntries te s (k + 1) o lo = .error e := by
  rw [entryFault] at h
  split_ifs at h with hlo hvalue <;> cases h <;> rw [parseEntries]
  · rw [if_pos hlo]
  · rw [if_neg hlo, if_pos hvalue]

theorem parseEntries_of_entryFault_none {te : TableMode} {s : State} {o lo : Nat} (k : Nat) (h : entryFault te s o lo = none) :
    parseEntries te s (k + 1) o lo
      = (parseEntries te s k (o + entrySize te) ((inByte s o).toNat + 1)).map (entryPair te s o :: ·) := by
  rw [entryFault] at h
  split_ifs at h with hlo hvalue
  rw [parseEntries, if_neg hlo, if_neg hvalue]
  cases parseEntries te s k (o + entrySize te) ((inByte s o).toNat + 1) <;> rfl

/-- The least byte value the loop allows entry k of those from offset `o` on. -/
def entryFloor (te : TableMode) (s : State) (o lo : Nat) : Nat → Nat
  | 0 => lo
  | k + 1 => (inByte s (o + entrySize te * k)).toNat + 1

/-- The check of entry k of those from offset `o` on. -/
def entryFaultAt (te : TableMode) (s : State) (o lo k : Nat) : Option Raise :=
  entryFault te s (o + entrySize te * k) (entryFloor te s o lo k)

theorem entryFaultAt_zero (te : TableMode) (s : State) (o lo : Nat) : entryFaultAt te s o lo 0 = entryFault te s o lo := rfl

theorem entryFaultAt_succ (te : TableMode) (s : State) (o lo k : Nat) :
    entryFaultAt te s o lo (k + 1) = entryFaultAt te s (o + entrySize te) ((inByte s o).toNat + 1) k := by
  rw [entryFaultAt, entryFaultAt, offset_succ]
  cases k with
  | zero => rfl
  | succ k => simp only [entryFloor, offset_succ]

/-- The loop returns the entries when each passes its check. -/
theorem parseEntries_eq_ok_iff {te : TableMode} {s : State} {n o lo : Nat} {es : List (Nat × Nat)} :
    parseEntries te s n o lo = .ok es ↔ es = entriesAt te s o n ∧ ∀ k, k < n → entryFaultAt te s o lo k = none := by
  induction n generalizing o lo es with
  | zero => simp [parseEntries, entriesAt, eq_comm]
  | succ n ih =>
    rw [Nat.forall_lt_succ_left, entryFaultAt_zero, entriesAt_succ]
    simp only [entryFaultAt_succ]
    cases hfault : entryFault te s o lo with
    | some e => simp [parseEntries_of_entryFault n hfault]
    | none =>
      rw [parseEntries_of_entryFault_none n hfault]
      cases hrest : parseEntries te s n (o + entrySize te) ((inByte s o).toNat + 1) with
      | error e =>
        have hbad : ¬ ∀ k, k < n → entryFaultAt te s (o + entrySize te) ((inByte s o).toNat + 1) k = none := fun h => by
          have hok := ih.mpr ⟨rfl, h⟩
          rw [hrest] at hok
          cases hok
        simp [Except.map, hbad]
      | ok rest =>
        obtain ⟨rfl, hgood⟩ := ih.mp hrest
        simpa [Except.map, eq_comm] using fun _ => hgood

/-- The loop raises what the first entry that fails its check raises. -/
theorem parseEntries_eq_error {te : TableMode} {s : State} {n o lo k : Nat} {e : Raise} (hk : k < n)
    (hbefore : ∀ j, j < k → entryFaultAt te s o lo j = none) (hfault : entryFaultAt te s o lo k = some e) :
    parseEntries te s n o lo = .error e := by
  induction n generalizing o lo k with
  | zero => exact absurd hk (Nat.not_lt_zero k)
  | succ n ih =>
    cases k with
    | zero => exact parseEntries_of_entryFault n hfault
    | succ k =>
      simp only [Nat.forall_lt_succ_left, entryFaultAt_zero, entryFaultAt_succ] at hbefore hfault
      obtain ⟨hhead, hbefore⟩ := hbefore
      rw [parseEntries_of_entryFault_none n hhead, ih (Nat.lt_of_succ_lt_succ hk) hbefore hfault]
      rfl

/-- The header's entry k starts here (45 R200). -/
abbrev entryOff (te : TableMode) (k : Nat) : Nat := 16 + entrySize te * k

theorem entryFloor_le_iff {te : TableMode} {s : State} {k b : Nat} :
    entryFloor te s 16 0 k ≤ b ↔ k = 0 ∨ (inByte s (entryOff te (k - 1))).toNat < b := by
  cases k <;> simp [entryFloor]

theorem entryFaultAt_of_not_ascending {te : TableMode} {s : State} {k : Nat} (hk : 0 < k)
    (h : (inByte s (entryOff te k)).toNat ≤ (inByte s (entryOff te (k - 1))).toNat) :
    entryFaultAt te s 16 0 k = some (badHeader (entryOff te k)) := by
  refine if_pos (not_le.mp fun hle => ?_)
  rcases entryFloor_le_iff.mp hle with rfl | hlt
  · exact absurd hk (lt_irrefl 0)
  · exact absurd hlt (not_lt.mpr h)

theorem entryFaultAt_of_zero {te : TableMode} {s : State} {k : Nat}
    (hbyte : k = 0 ∨ (inByte s (entryOff te (k - 1))).toNat < (inByte s (entryOff te k)).toNat)
    (hvalue : entryAt te s (entryOff te k) = 0) : entryFaultAt te s 16 0 k = some (badHeader (entryOff te k + 1)) := by
  rw [entryAt_eq] at hvalue
  rw [entryFaultAt, entryFault, if_neg (not_lt.mpr (entryFloor_le_iff.mpr hbyte)), if_pos hvalue]

theorem entryFaultAt_eq_none_iff {te : TableMode} {s : State} {k : Nat} : entryFaultAt te s 16 0 k = none ↔ entryOk te s k := by
  rw [entryFaultAt, entryFault, entryOk, entryAt_eq, ← entryFloor_le_iff, ite_some_eq_none_iff, ite_some_eq_none_iff, not_lt]
  simp

/-- The entries of a header are well-formed when their bytes ascend and no value is 0. -/
theorem forall_entryOk_iff {te : TableMode} {s : State} {n : Nat} : (∀ k, k < n → entryOk te s k) ↔
    (entriesAt te s 16 n).Pairwise (fun x y => x.1 < y.1) ∧ ∀ e ∈ entriesAt te s 16 n, e.2 ≠ 0 := by
  rw [← List.pairwise_map (f := Prod.fst) (R := (· < ·)), ← List.isChain_iff_pairwise, List.isChain_iff_getElem]
  simp only [entriesAt, List.forall_mem_map, List.mem_range, List.length_map, List.length_range, List.getElem_map, List.getElem_range,
    entryPair, ← entryAt_eq, entryOk]
  constructor
  · exact fun h => ⟨fun i hi => (h (i + 1) hi).1.resolve_left (Nat.succ_ne_zero i), fun k hk => (h k hk).2⟩
  · rintro ⟨hasc, hne⟩ k hk
    refine ⟨?_, hne k hk⟩
    cases k with
    | zero => exact .inl rfl
    | succ k => exact .inr (hasc k hk)

/-! ### The checks over all entries -/

theorem single_eq_one_iff {vs : List Nat} : (vs.length = 1 → vs = [1]) ↔ (vs.length = 1 → vs.headD 1 = 1) := by
  match vs with
  | [] => simp
  | [v] => simp
  | _ :: _ :: _ => simp

theorem entriesFault_freq_eq_none_iff {olen : Nat} {es : List (Nat × Nat)} :
    entriesFault .freq olen es = none ↔ (es.map Prod.snd).sum = olen := by simp [entriesFault]

theorem entriesFault_canon_eq_none_iff {olen : Nat} {es : List (Nat × Nat)} : entriesFault .canon olen es = none ↔
    (es = [] ↔ olen = 0) ∧ (es.length = 1 → es.map Prod.snd = [1])
      ∧ (2 ≤ es.length → (es.map fun e => 2 ^ (255 - e.2)).sum = 2 ^ 255) := by
  have hone := single_eq_one_iff (vs := es.map Prod.snd)
  have hkraft : kraftSum (es.map Prod.snd) = (es.map fun e => 2 ^ (255 - e.2)).sum := by
    rw [kraftSum, List.map_map]
    rfl
  rw [List.length_map] at hone
  rw [hone, ← hkraft, ← List.length_eq_zero_iff, entriesFault]
  simp only [ite_some_eq_none_iff, and_true, ne_eq, decide_eq_decide, not_not, not_and_not_right, ge_iff_le]

theorem validEntries_iff {te : TableMode} {olen : Nat} {es : List (Nat × Nat)} : validEntries te olen es ↔
    es.Pairwise (fun x y => x.1 < y.1) ∧ olen < 256 ^ 8 ∧ (∀ e ∈ es, entryFits te e ∧ e.2 ≠ 0)
      ∧ entriesFault te olen es = none := by
  have hbound : ∀ e : Nat × Nat, (e.1 < 256 ∧ 0 < e.2 ∧ e.2 < 256 ^ valueSize te) ↔ entryFits te e ∧ e.2 ≠ 0 := fun e => by
    rw [entryFits, Nat.pos_iff_ne_zero]
    tauto
  simp only [← hbound]
  cases te with
  | freq => rw [entriesFault_freq_eq_none_iff]; rfl
  | canon => rw [entriesFault_canon_eq_none_iff]; rfl

section EntriesFault
variable {te : TableMode} {olen : Nat} {es : List (Nat × Nat)}

theorem entriesFault_of_sum (hte : te = .freq) (h : (es.map Prod.snd).sum ≠ olen) : entriesFault te olen es = some (badHeader 5) := by
  rw [hte, entriesFault, if_pos h]

theorem entriesFault_of_count (hte : te = .canon) (h : (es.length = 0 ∧ olen ≠ 0) ∨ (es.length ≠ 0 ∧ olen = 0)) :
    entriesFault te olen es = some (badHeader 5) := by
  rw [hte, entriesFault, if_pos]
  rcases h with ⟨hlen, holen⟩ | ⟨hlen, holen⟩ <;> simp [hlen, holen]

theorem entriesFault_of_single (hte : te = .canon) (holen : olen ≠ 0) (hone : es.length = 1) (h : es.map Prod.snd ≠ [1]) :
    entriesFault te olen es = some (badHeader 17) := by
  have hvs : (es.map Prod.snd).length = 1 := by rw [List.length_map, hone]
  have hhead : (es.map Prod.snd).headD 1 ≠ 1 := fun e => h (single_eq_one_iff.mpr (fun _ => e) hvs)
  rw [hte, entriesFault, if_neg (by simp [hone, holen]), if_pos ⟨hone, hhead⟩]

theorem entriesFault_of_kraft (hte : te = .canon) (holen : olen ≠ 0) (htwo : 2 ≤ es.length)
    (h : kraftSum (es.map Prod.snd) ≠ 2 ^ 255) : entriesFault te olen es = some (badHeader 16) := by
  have hpos : es.length ≠ 0 := by omega
  have hmany : es.length ≠ 1 := by omega
  rw [hte, entriesFault, if_neg (by simp [hpos, holen]), if_neg fun hone => hmany hone.1, if_pos ⟨htwo, h⟩]

end EntriesFault

/-! ### Which errors PARSEHDR has -/

/-- An error of a header: of its first bytes, or of what follows them (45 R210). -/
def HeaderRaise (e : Raise) : Prop := e.code = .corruptMagic ∨ e.code = .corruptHeader

theorem headerRaise_of_headerFault {s : State} {e : Raise} (h : headerFault s = some e) : HeaderRaise e := by
  rw [headerFault] at h
  split at h
  · cases h
    exact .inl rfl
  · split_ifs at h <;> cases h
    · exact .inl rfl
    all_goals exact .inr rfl

theorem headerRaise_of_entryFault {te : TableMode} {s : State} {o lo : Nat} {e : Raise} (h : entryFault te s o lo = some e) :
    HeaderRaise e := by
  rw [entryFault] at h
  split_ifs at h <;> cases h <;> exact .inr rfl

theorem headerRaise_of_parseEntries {te : TableMode} {s : State} {n o lo : Nat} {e : Raise} (h : parseEntries te s n o lo = .error e) :
    HeaderRaise e := by
  induction n generalizing o lo with
  | zero => cases h
  | succ n ih =>
    cases hfault : entryFault te s o lo with
    | some e' =>
      rw [parseEntries_of_entryFault n hfault] at h
      cases h
      exact headerRaise_of_entryFault hfault
    | none =>
      rw [parseEntries_of_entryFault_none n hfault] at h
      cases hrest : parseEntries te s n (o + entrySize te) ((inByte s o).toNat + 1) with
      | error e' =>
        rw [hrest] at h
        cases h
        exact ih hrest
      | ok es =>
        rw [hrest] at h
        cases h

theorem headerRaise_of_entriesFault {te : TableMode} {olen : Nat} {es : List (Nat × Nat)} {e : Raise}
    (h : entriesFault te olen es = some e) : HeaderRaise e := by
  cases te <;> rw [entriesFault] at h <;> split_ifs at h <;> cases h <;> exact .inr rfl

/-! ### The phase -/

theorem phaseParsehdr_of_headerFault {s : State} {e : Raise} (h : headerFault s = some e) : phaseParsehdr s = .error e := by
  rw [phaseParsehdr, h]

theorem phaseParsehdr_of_entry {s : State} {e : Raise} (h : headerFault s = none)
    (hentry : parseEntries (parsedTe s) s (parsedCount s) 16 0 = .error e) : phaseParsehdr s = .error e := by
  rw [phaseParsehdr, h, hentry]

theorem phaseParsehdr_of_entries {s : State} {es : List (Nat × Nat)} {e : Raise} (h : headerFault s = none)
    (hparse : parseEntries (parsedTe s) s (parsedCount s) 16 0 = .ok es)
    (hall : entriesFault (parsedTe s) (parsedOlen s) es = some e) : phaseParsehdr s = .error e := by
  simp only [phaseParsehdr, h, hparse, hall]

theorem phaseParsehdr_of_passed {s : State} {es : List (Nat × Nat)} (h : headerFault s = none)
    (hparse : parseEntries (parsedTe s) s (parsedCount s) 16 0 = .ok es)
    (hall : entriesFault (parsedTe s) (parsedOlen s) es = none) : phaseParsehdr s = .ok (parsedState (parsedTe s) es s) := by
  simp only [phaseParsehdr, h, hparse, hall]

theorem headerRaise_of_phaseParsehdr {s : State} {e : Raise} (h : phaseParsehdr s = .error e) : HeaderRaise e := by
  rw [phaseParsehdr] at h
  split at h
  · next hfault =>
    cases h
    exact headerRaise_of_headerFault hfault
  · split at h
    · next hentry =>
      cases h
      exact headerRaise_of_parseEntries hentry
    · split at h
      · next hall =>
        cases h
        exact headerRaise_of_entriesFault hall
      · cases h

/-! ### Valid headers -/

theorem validEntries.length_le {te : TableMode} {olen : Nat} {es : List (Nat × Nat)} (h : validEntries te olen es) :
    es.length ≤ 256 := by
  obtain ⟨hasc, _, hfits, _⟩ := validEntries_iff.mp h
  have hnodup : (es.map Prod.fst).Nodup := (hasc.imp fun h => h.ne).map _ fun _ _ => id
  have hsub : es.map Prod.fst ⊆ List.range 256 := fun b hb => by
    obtain ⟨e, he, rfl⟩ := List.mem_map.mp hb
    exact List.mem_range.mpr (hfits e he).1.1
  simpa using (hnodup.subperm hsub).length_le

theorem validEntries.headerAt_iff {s : State} {te : TableMode} {olen : Nat} {es : List (Nat × Nat)} (h : validEntries te olen es) :
    (∃ rest, inputBytes s = headerBytes te olen es ++ rest) ↔ HeaderAt s te olen es := by
  obtain ⟨_, holen, hfits, _⟩ := validEntries_iff.mp h
  exact exists_inputBytes_eq_header_iff holen (h.length_le.trans_lt (by decide)) fun e he => (hfits e he).1

theorem magicOk_iff {s : State} : magicOk s ↔ 5 ≤ s.inLen.toNat ∧ inBytes s 0 5 = signature := by
  have hbytes : inBytes s 0 5 = signature ↔ _ := inBytes_eq_iff rfl
  rw [hbytes]
  refine ⟨fun h => ⟨(h 4 (by decide)).1, fun j hj => (h j hj).2⟩, fun ⟨hlen, h⟩ j hj => ⟨hj.trans_le hlen, h j hj⟩⟩

/-- PARSEHDR accepts a valid header (45 R210, R211). -/
theorem phaseParsehdr_of_headerAt {s : State} {te : TableMode} {olen : Nat} {es : List (Nat × Nat)} (hv : validEntries te olen es)
    (h : HeaderAt s te olen es) : phaseParsehdr s = .ok (parsedState te es s) := by
  obtain ⟨hasc, _, hfits, hall⟩ := validEntries_iff.mp hv
  obtain ⟨hlen, hmagic, rfl, hmode, hcount, hentries⟩ := h
  have hbyte : (inByte s 13).toNat = te.toNat := (byte_eq_ofNat_iff (by cases te <;> decide)).mp hmode
  obtain rfl := parsedTe_of_toNat hbyte
  have hlong : 16 ≤ s.inLen.toNat := (Nat.le_add_right _ _).trans hlen
  have hfault : headerFault s = none := headerFault_eq_none_iff.mpr ⟨magicOk_iff.mpr ⟨by omega, hmagic⟩, hlong,
    hbyte.trans_le (by cases parsedTe s <;> decide), hcount.trans_le hv.length_le, hcount.symm ▸ hlen⟩
  have hwell : ∀ k, k < es.length → entryOk (parsedTe s) s k :=
    forall_entryOk_iff.mpr (hentries.symm ▸ ⟨hasc, fun e he => (hfits e he).2⟩)
  refine phaseParsehdr_of_passed hfault (parseEntries_eq_ok_iff.mpr ?_) hall
  rw [hcount]
  exact ⟨hentries.symm, fun k hk => entryFaultAt_eq_none_iff.mpr (hwell k hk)⟩

/-- PARSEHDR accepts nothing but a valid header (45 R210, R211). -/
theorem headerAt_of_phaseParsehdr {s t : State} (h : phaseParsehdr s = .ok t) :
    ∃ te olen es, validEntries te olen es ∧ HeaderAt s te olen es := by
  obtain ⟨es, hfault, hparse, hall, _⟩ := phaseParsehdr_ok h
  obtain ⟨hmagic, _, hmode, _, hlen⟩ := headerFault_eq_none_iff.mp hfault
  obtain ⟨hes, hgood⟩ := parseEntries_eq_ok_iff.mp hparse
  have hcount : parsedCount s = es.length := by rw [hes, length_entriesAt]
  obtain ⟨hasc, hne⟩ := forall_entryOk_iff.mp fun k hk => entryFaultAt_eq_none_iff.mp (hgood k hk)
  rw [← hes] at hasc hne
  have holen : parsedOlen s < 256 ^ 8 := by simpa [parsedOlen] using leValue_lt (inBytes s 5 8)
  refine ⟨parsedTe s, parsedOlen s, es, validEntries_iff.mpr ⟨hasc, holen, fun e he => ⟨?_, hne e he⟩, hall⟩,
    hcount ▸ hlen, (magicOk_iff.mp hmagic).2, rfl, ?_, hcount, hcount ▸ hes.symm⟩
  · exact entryFits_of_mem_entriesAt e (hes ▸ he)
  · exact (byte_eq_ofNat_iff (by cases parsedTe s <;> decide)).mpr (toNat_parsedTe hmode)

/-! ### The loaded table -/

theorem entryValue_lt {te : TableMode} {es : List (Nat × Nat)} (h : ∀ e ∈ es, entryFits te e) (b : Fin 256) :
    entryValue es b < 256 ^ valueSize te := by
  rw [entryValue]
  cases hlookup : es.lookup b.val with
  | none => exact Nat.pow_pos (by decide)
  | some v =>
    obtain ⟨_, _, rfl, _⟩ := List.lookup_eq_some_iff.mp hlookup
    exact (h (b.val, v) (by simp)).2

theorem len_parsedState_freq (es : List (Nat × Nat)) (s : State) : (parsedState .freq es s).len = s.len := by
  simp [parsedState]

theorem hist_parsedState_canon (es : List (Nat × Nat)) (s : State) : (parsedState .canon es s).hist = s.hist := by
  simp [parsedState]

theorem hist_parsedState {es : List (Nat × Nat)} (h : ∀ e ∈ es, entryFits .freq e) (s : State) (b : Fin 256) :
    (parsedState .freq es s).hist[b].toNat = entryValue es b := by
  simp only [parsedState, if_true, getElem_tabulate_fin, BitVec.toNat_ofNat]
  exact Nat.mod_eq_of_lt (entryValue_lt h b)

theorem len_parsedState {es : List (Nat × Nat)} (h : ∀ e ∈ es, entryFits .canon e) (s : State) (b : Fin 256) :
    (parsedState .canon es s).len[b].toNat = entryValue es b := by
  simp only [parsedState, if_true, getElem_tabulate_fin, BitVec.toNat_ofNat]
  exact Nat.mod_eq_of_lt (entryValue_lt h b)

/-! ### The command -/

/-- PARSEHDR's success: its RESULT is HDR_LEN (10 R35). -/
theorem exec_parsehdr {s t : State} (hu : s.undisturbed = true) (hin : s.inBase.toNat + s.inLen.toNat ≤ 2 ^ 64)
    (h : phaseParsehdr s = .ok t) : exec .parsehdr s = .next (t.succeeded t.hdrLen) :=
  exec_of_returned (i := .parsehdr) hu ((runPlan_always_ok (regionCheck_input hin)).trans (runPlan_always_ok h))

/-- PARSEHDR's failure: its phase writes no memory, so no byte is left unspecified (60 R285). -/
theorem exec_parsehdr_error {s : State} (hu : s.undisturbed = true) (hin : s.inBase.toNat + s.inLen.toNat ≤ 2 ^ 64) {e : Raise}
    (h : phaseParsehdr s = .error e) : exec .parsehdr s = .next (s.failed .parsehdr e) :=
  exec_of_raised (i := .parsehdr) hu ((runPlan_always_ok (regionCheck_input hin)).trans (runPlan_always_error h))

theorem parsedCount_eq (s : State) : parsedCount s = inNumber s 14 2 := (inNumber_eq s 14 2).symm

theorem parsedOlen_eq (s : State) : parsedOlen s = inNumber s 5 8 := (inNumber_eq s 5 8).symm

theorem map_snd_entriesAt (te : TableMode) (s : State) (n : Nat) :
    (entriesAt te s 16 n).map Prod.snd = (List.range n).map fun k => entryAt te s (entryOff te k) := by
  simp only [entriesAt, List.map_map, entryAt_eq]
  rfl

/-- The errors of a header whose entries are all well-formed are those of the checks over all entries. -/
theorem phaseParsehdr_of_entriesFault {s : State} {n : Nat} {e : Raise} (hfault : headerFault s = none) (hcount : parsedCount s = n)
    (hwell : ∀ k, k < n → entryOk (parsedTe s) s k)
    (hall : entriesFault (parsedTe s) (parsedOlen s) (entriesAt (parsedTe s) s 16 n) = some e) : phaseParsehdr s = .error e := by
  refine phaseParsehdr_of_entries hfault (parseEntries_eq_ok_iff.mpr ?_) hall
  rw [hcount]
  exact ⟨rfl, fun k hk => entryFaultAt_eq_none_iff.mpr (hwell k hk)⟩

/-- The error of the first entry that is not well-formed. -/
theorem phaseParsehdr_of_entryFaultAt {s : State} {k : Nat} {e : Raise} (hfault : headerFault s = none) (hk : k < parsedCount s)
    (hbefore : ∀ j, j < k → entryOk (parsedTe s) s j) (hentry : entryFaultAt (parsedTe s) s 16 0 k = some e) :
    phaseParsehdr s = .error e :=
  phaseParsehdr_of_entry hfault
    (parseEntries_eq_error hk (fun j hj => entryFaultAt_eq_none_iff.mpr (hbefore j hj)) hentry)

/-- Settles O50: the valid headers are the inputs that pass every check, and each check's error is that of the first to fail. -/
theorem parseHeader : Obligations.ParseHeader := by
  intro s hu hin
  refine ⟨fun te olen es rest hv hinput => ?accepted, fun hnone => ?rejected, fun o ho hbefore hwrong => ?signature, fun hmagic => ?_⟩
  case accepted =>
    have h : HeaderAt s te olen es := hv.headerAt_iff.mp ⟨rest, hinput⟩
    obtain ⟨_, _, hfits, _⟩ := validEntries_iff.mp hv
    refine ⟨(parsedState te es s).hist, (parsedState te es s).len, ?_, ?_, ?_⟩
    · rw [exec_parsehdr hu hin (phaseParsehdr_of_headerAt hv h), ← h.origLen, ← h.count]
      simp only [parsedState, State.succeeded]
    · rintro rfl
      exact ⟨len_parsedState_freq es s, hist_parsedState (fun e he => (hfits e he).1) s⟩
    · rintro rfl
      exact ⟨hist_parsedState_canon es s, len_parsedState (fun e he => (hfits e he).1) s⟩
  case rejected =>
    cases hphase : phaseParsehdr s with
    | error e => exact ⟨e, headerRaise_of_phaseParsehdr hphase, exec_parsehdr_error hu hin hphase⟩
    | ok t =>
      obtain ⟨te, olen, es, hv, h⟩ := headerAt_of_phaseParsehdr hphase
      obtain ⟨rest, hinput⟩ := hv.headerAt_iff.mpr h
      exact absurd ⟨te, olen, es, rest, hv, hinput⟩ hnone
  case signature =>
    exact exec_parsehdr_error hu hin
      (phaseParsehdr_of_headerFault (headerFault_of_signature ho hbefore (not_byteIs_iff.mpr hwrong)))
  have hfields := headerFault_of_magicOk hmagic
  simp only [← parsedCount_eq, ← parsedOlen_eq]
  refine ⟨fun hshort => ?short, fun hlong hmode => ?mode, fun hlong hmode hcount => ?count,
    fun te hlong hmode hcount => ⟨fun hcut => ?cut, fun hfits => ?entries⟩⟩
  case short =>
    rw [if_pos hshort] at hfields
    exact exec_parsehdr_error hu hin (phaseParsehdr_of_headerFault hfields)
  case mode =>
    rw [if_neg (not_lt.mpr hlong), if_pos hmode] at hfields
    exact exec_parsehdr_error hu hin (phaseParsehdr_of_headerFault hfields)
  case count =>
    rw [if_neg (not_lt.mpr hlong), if_neg (not_lt.mpr hmode), if_pos hcount] at hfields
    exact exec_parsehdr_error hu hin (phaseParsehdr_of_headerFault hfields)
  all_goals
    obtain rfl := parsedTe_of_toNat hmode
    have hmode : (inByte s 13).toNat ≤ 1 := hmode.trans_le (by cases parsedTe s <;> decide)
  case cut =>
    rw [if_neg (not_lt.mpr hlong), if_neg (not_lt.mpr hmode), if_neg (not_lt.mpr hcount), headerLen, if_pos hcut] at hfields
    exact exec_parsehdr_error hu hin (phaseParsehdr_of_headerFault hfields)
  case entries =>
    have hfault : headerFault s = none := headerFault_eq_none_iff.mpr ⟨hmagic, hlong, hmode, hcount, hfits⟩
    refine ⟨fun k hk hbefore => ⟨fun hpos hbyte => ?ascent, fun hbyte hvalue => ?value⟩, fun hwell => ?wellFormed⟩
    case ascent =>
      exact exec_parsehdr_error hu hin
        (phaseParsehdr_of_entryFaultAt hfault hk hbefore (entryFaultAt_of_not_ascending hpos hbyte))
    case value =>
      exact exec_parsehdr_error hu hin (phaseParsehdr_of_entryFaultAt hfault hk hbefore (entryFaultAt_of_zero hbyte hvalue))
    case wellFormed =>
      have hraise {e : Raise} hall := exec_parsehdr_error hu hin (phaseParsehdr_of_entriesFault (e := e) hfault rfl hwell hall)
      simp only [← map_snd_entriesAt]
      exact ⟨fun hte hsum => hraise (entriesFault_of_sum hte hsum),
        fun hte hempty => hraise (entriesFault_of_count hte (by rwa [length_entriesAt])),
        fun hte holen hone hvs => hraise (entriesFault_of_single hte holen ((length_entriesAt ..).trans hone) hvs),
        fun hte holen htwo hkraft => hraise (entriesFault_of_kraft hte holen (htwo.trans_eq (length_entriesAt ..).symm) hkraft)⟩

end Sys2Proof.Machine
end

section
/-!
WRHDR: the header of the table's nonzero entries, byte by byte, or BUFFER_TOO_SMALL of its length (45 R200 to R203, R206; O49).
-/
namespace Sys2Proof.Machine

/-! ### The header of a table -/

/-- What a table of the mode holds for a byte: its frequency or its code length (45 R203). -/
def tableValue (tm : TableMode) (s : State) (b : Fin 256) : Nat :=
  match tm with
  | .freq => s.hist[b].toNat
  | .canon => s.len[b].toNat

/-- The bytes a header of the mode has entries for, ascending (45 R203). -/
def headerSymbols (tm : TableMode) (s : State) : List (Fin 256) := (List.finRange 256).filter fun b => tableValue tm s b != 0

theorem nonzeroBytes_eq_filter_toNat {w : Nat} (v : Vector (BitVec w) 256) :
    nonzeroBytes v = (List.finRange 256).filter fun b => v[b].toNat != 0 :=
  List.filter_congr fun b _ => by rw [Bool.eq_iff_iff, bne_iff_ne, bne_iff_ne, not_iff_not, ← BitVec.toNat_inj, BitVec.toNat_zero]

theorem headerEntries_eq (tm : TableMode) (s : State) :
    headerEntries tm s = (headerSymbols tm s).map fun b => (b.val, tableValue tm s b) := by
  cases tm <;> rw [headerEntries, nonzeroEntries_ramValues, nonzeroBytes_eq_filter_toNat] <;> rfl

theorem wrhdrLen_eq (tm : TableMode) (s : State) : wrhdrLen tm s = 16 + entrySize tm * (headerSymbols tm s).length := by
  rw [wrhdrLen, headerLen, headerEntries_eq, List.length_map]

/-- The header WRHDR writes, field by field (45 R200). -/
theorem headerBytes_headerEntries (tm : TableMode) (s : State) (olen : Nat) :
    headerBytes tm olen (headerEntries tm s) = magicBytes ++ [versionByte] ++ leBytes olen 8 ++ [BitVec.ofNat 8 tm.toNat]
      ++ leBytes (headerSymbols tm s).length 2
      ++ (headerSymbols tm s).flatMap fun b => BitVec.ofNat 8 b.val :: leBytes (tableValue tm s b) (valueSize tm) := by
  rw [headerBytes, headerEntries_eq, List.length_map, List.flatMap_map]
  simp only [entryBytes_eq]

/-! ### The phase and the command -/

theorem phaseWrhdr_of_too_small {tm : TableMode} {s : State} (h : wrhdrLen tm s > s.outCap.toNat) :
    phaseWrhdr tm s = .error ⟨.bufferTooSmall, BitVec.ofNat 64 (wrhdrLen tm s)⟩ := if_pos h

/-- The state after P_WRHDR. -/
def State.withHeader (tm : TableMode) (s : State) : State :=
  { s with
    mem := s.mem.writeBytes s.outBase.toNat (headerBytes tm s.origLen.toNat (headerEntries tm s))
    hdrLen := BitVec.ofNat 64 (wrhdrLen tm s)
    payloadOff := BitVec.ofNat 64 (wrhdrLen tm s)
    te := tm }

theorem phaseWrhdr_of_fits {tm : TableMode} {s : State} (h : wrhdrLen tm s ≤ s.outCap.toNat) :
    phaseWrhdr tm s = .ok (s.withHeader tm) := if_neg (not_lt.mpr h)

/-- RegionCheck passes when the one region a command uses, its output, does not wrap (20 R73). -/
theorem regionCheck_output {s : State} (hout : s.outBase.toNat + s.outCap.toNat ≤ 2 ^ 64) : regionCheck false true s = .ok s :=
  regionCheck_of_ok (by simpa [regionsOk, outWraps] using hout)

/-- WRHDR's success: its RESULT is HDR_LEN (10 R35). -/
theorem exec_wrhdrOf {tm : TableMode} {s : State} (hu : s.undisturbed = true) (hout : s.outBase.toNat + s.outCap.toNat ≤ 2 ^ 64)
    (h : wrhdrLen tm s ≤ s.outCap.toNat) :
    exec (wrhdrOf tm) s = .next ((s.withHeader tm).succeeded (BitVec.ofNat 64 (wrhdrLen tm s))) := by
  have hrun : runPlan (commandOf (wrhdrOf tm)).plan s = .returned (s.withHeader tm) := by
    rw [wrhdr_plan, runPlan_always_ok (regionCheck_output hout), runPlan_always_ok (phaseWrhdr_of_fits h), runPlan_nil]
  rw [exec_of_returned hu hrun]
  cases tm <;> rfl

/-- WRHDR's failure: its check comes before its first memory write (60 R286). -/
theorem exec_wrhdrOf_too_small {tm : TableMode} {s : State} (hu : s.undisturbed = true)
    (hout : s.outBase.toNat + s.outCap.toNat ≤ 2 ^ 64) (h : wrhdrLen tm s > s.outCap.toNat) :
    exec (wrhdrOf tm) s = .next (s.failed .wrhdr ⟨.bufferTooSmall, BitVec.ofNat 64 (wrhdrLen tm s)⟩) := by
  have hrun : runPlan (commandOf (wrhdrOf tm)).plan s
      = .raised .wrhdr ⟨.bufferTooSmall, BitVec.ofNat 64 (wrhdrLen tm s)⟩ s := by
    rw [wrhdr_plan, runPlan_always_ok (regionCheck_output hout), runPlan_always_error (phaseWrhdr_of_too_small h)]
  rw [exec_of_raised hu hrun, Command.failedAt, leavesBytes]
  rfl

/-- Settles O49: the statement's bytes are the header of the table's entries, and the phase writes that header where it fits. -/
theorem writeHeader : Obligations.WriteHeader := by
  intro tm s hu hout value coded hl le header
  have hhl : hl = wrhdrLen tm s := by
    rw [wrhdrLen_eq]
    cases tm <;> rfl
  have hheader : header = headerBytes tm s.origLen.toNat (headerEntries tm s) := by
    rw [headerBytes_headerEntries]
    simp only [leBytes_eq_map]
    cases tm <;> rfl
  clear_value header hl
  subst hhl hheader
  refine ⟨length_headerBytes _ _ _, exec_wrhdrOf_too_small hu hout, fun hfits => ?success⟩
  case success =>
    rw [exec_wrhdrOf hu hout hfits]
    simp only [State.succeeded, State.withHeader]

end Sys2Proof.Machine
end

section
/-!
DECODE in parts: the symbols one after another, and the segments between sync points (46 R236, R239, R240; O53).
-/
namespace Sys2Proof.Machine

theorem decodeSymbols_succ (node : Vector Node 511) (root : Index) (m k : Nat) (bits : List Bool) :
    decodeSymbols node root (m + 1) k bits = (decodeSymbol node root k bits).bind fun x =>
      (decodeSymbols node root m (k + 1) x.2).map fun y => (symbolByte x.1 :: y.1, y.2) := by
  rw [decodeSymbols]
  cases decodeSymbol node root k bits with
  | error e => rfl
  | ok x => dsimp only [Except.bind]; cases decodeSymbols node root m (k + 1) x.2 <;> rfl

/-- After a first part the decoding goes on from where that part ends, and a first part that fails ends it. -/
theorem decodeSymbols_add (node : Vector Node 511) (root : Index) (m n k : Nat) (bits : List Bool) :
    decodeSymbols node root (m + n) k bits = (decodeSymbols node root m k bits).bind fun x =>
      (decodeSymbols node root n (k + m) x.2).map fun y => (x.1 ++ y.1, y.2) := by
  induction m generalizing k bits with
  | zero =>
    rw [Nat.zero_add, decodeSymbols]
    dsimp only [Except.bind, Nat.add_zero]
    cases decodeSymbols node root n k bits <;> rfl
  | succ m ih =>
    rw [Nat.succ_add, decodeSymbols_succ, decodeSymbols_succ]
    cases decodeSymbol node root k bits with
    | error e => rfl
    | ok x =>
      dsimp only [Except.bind]
      rw [ih, Nat.add_right_comm]
      cases decodeSymbols node root m (k + 1) x.2 with
      | error e => rfl
      | ok y => dsimp only [Except.bind, Except.map]; cases decodeSymbols node root n (k + m + 1) y.2 <;> rfl

/-- Settles O53: a segment's decoding is a first part of the sequential one, and the segments behind it go on from where it ends. -/
theorem parallelDecodeEquivalence : Obligations.ParallelDecodeEquivalence := by
  intro node root ms
  induction ms with
  | nil => exact fun _ _ => rfl
  | cons m ms ih =>
    intro k bits
    rw [decodeSegments, List.sum_cons, decodeSymbols_add]
    cases decodeSymbols node root m k bits with
    | error e => rfl
    | ok x =>
      dsimp only [Except.bind]
      rw [ih]
      cases decodeSymbols node root ms.sum (k + m) x.2 <;> rfl

end Sys2Proof.Machine
end

section
/-!
DECODE's walk over the tree, and the payloads it reads (46 R231, R236 to R238): what a path to a leaf gives, what one that ends early or
leads nowhere raises, and the checks at the end of the stream (O51, O52).
-/
namespace Sys2Proof.Machine

/-! ### One walk (46 R231) -/

section Walk
variable {node : Vector Node 511} {root i j : Index} {k : Nat}

/-- The walk consumes the bits of a path and goes on from its end. -/
theorem walkCode_of_followPath {p : List Bool} (h : followPath node i p = some j) (rest : List Bool) :
    walkCode node root k i (p ++ rest) = walkCode node root k j rest := by
  induction p generalizing i with
  | nil => rw [Option.some.inj h, List.nil_append]
  | cons c p ih =>
    rw [followPath] at h
    split at h
    · cases h
    · next hgo =>
      obtain ⟨hleaf, hchild⟩ := not_or.mp (mt (Bool.or_eq_true _ _).mpr hgo)
      rw [List.cons_append, walkCode, if_neg hleaf, if_neg (by simpa using hchild), ih h]

theorem walkCode_of_leaf (h : (nodeAt node i).leaf = true) (bits : List Bool) :
    walkCode node root k i bits = .ok ((nodeAt node i).sym, bits) := by
  cases bits <;> rw [walkCode, if_pos h]

/-- Bits that run out at the root do so between codes, elsewhere inside one (46 R236). -/
theorem walkCode_nil (h : (nodeAt node i).leaf = false) :
    walkCode node root k i [] = .error (corruptAt (if i = root then .corruptLength else .corruptOutOfBits) k) := by
  rw [walkCode, if_neg (by simp [h])]
  split <;> rfl

theorem walkCode_of_missing {c : Bool} (hleaf : (nodeAt node i).leaf = false) (hchild : (nodeAt node i).child c = noNode)
    (bits : List Bool) : walkCode node root k i (c :: bits) = .error (corruptAt .corruptCode k) := by
  rw [walkCode, if_neg (by simp [hleaf]), if_pos hchild]

/-! ### One symbol (46 R236, R237) -/

theorem decodeSymbol_of_no_tree (h : root = noNode ∨ (nodeAt node root).leaf = true) (bits : List Bool) :
    decodeSymbol node root k bits = .error (corruptAt .corruptCode k) := if_pos h

theorem decodeSymbol_of_tree (hroot : root ≠ noNode) (hleaf : (nodeAt node root).leaf = false) (bits : List Bool) :
    decodeSymbol node root k bits = (walkCode node root k root bits).bind fun x =>
      if x.1 = 256#9 then .error (corruptAt .corruptCode k) else .ok x := by
  rw [decodeSymbol, if_neg (by simp [hroot, hleaf])]
  cases walkCode node root k root bits <;> rfl

/-- A path that goes on from a node, or ends at no leaf, does not start from a leaf. -/
theorem not_leaf_of_followPath {p : List Bool} (h : followPath node i p = some j) (hp : p ≠ [] ∨ (nodeAt node j).leaf = false) :
    (nodeAt node i).leaf = false := by
  refine Bool.eq_false_iff.mpr fun hleaf => ?_
  rcases hp with hp | hp
  · cases p with
    | nil => exact hp rfl
    | cons c p => simp [followPath, hleaf] at h
  · rw [← followPath_of_leaf hleaf h, hleaf] at hp
    cases hp

end Walk

section Symbol
variable {s : State} {p : List Bool}

/-- The bits of a path to a byte's leaf give that byte. -/
theorem decodeSymbol_of_leadsTo {b : Fin 256} (h : leadsTo s p b) (hp : p ≠ []) (k : Nat) (rest : List Bool) :
    ∃ sym, decodeSymbol s.node s.root k (p ++ rest) = .ok (sym, rest) ∧ symbolByte sym = BitVec.ofNat 8 b.val := by
  obtain ⟨hroot, i, hpath, hleaf, hsym⟩ := h
  refine ⟨(nodeAt s.node i).sym, ?_, by rw [symbolByte, hsym, if_pos b.isLt]⟩
  have hne : (nodeAt s.node i).sym ≠ 256#9 := fun e => by
    have := congrArg BitVec.toNat e
    simp [hsym] at this
    omega
  rw [decodeSymbol_of_tree hroot (not_leaf_of_followPath hpath (.inl hp)), walkCode_of_followPath hpath, walkCode_of_leaf hleaf]
  exact if_neg hne

theorem decodeSymbol_of_sentinel (h : leadsToSentinel s p) (hp : p ≠ []) (k : Nat) (rest : List Bool) :
    decodeSymbol s.node s.root k (p ++ rest) = .error (corruptAt .corruptCode k) := by
  obtain ⟨hroot, i, hpath, hleaf, hsym⟩ := h
  rw [decodeSymbol_of_tree hroot (not_leaf_of_followPath hpath (.inl hp)), walkCode_of_followPath hpath, walkCode_of_leaf hleaf]
  exact if_pos hsym

theorem decodeSymbol_of_missing (h : leadsNowhere s p) (k : Nat) (rest : List Bool) :
    decodeSymbol s.node s.root k (p ++ rest) = .error (corruptAt .corruptCode k) := by
  obtain ⟨hroot, q, c, i, rfl, hpath, hleaf, hchild⟩ := h
  rw [decodeSymbol_of_tree hroot (not_leaf_of_followPath hpath (.inr hleaf)), List.append_assoc, walkCode_of_followPath hpath,
    List.singleton_append, walkCode_of_missing hleaf hchild]
  rfl

/-- The bits end in front of the last part of a path to a leaf. -/
theorem decodeSymbol_of_cut {q : List Bool} {b : Fin 256} (h : leadsTo s (p ++ q) b) (hq : q ≠ []) (k : Nat) :
    decodeSymbol s.node s.root k p
      = .error (corruptAt (if followPath s.node s.root p = some s.root then .corruptLength else .corruptOutOfBits) k) := by
  obtain ⟨hroot, i, hpath, -, -⟩ := h
  have hstart := not_leaf_of_followPath hpath (.inl (List.append_ne_nil_of_right_ne_nil p hq))
  rw [followPath_append, Option.bind_eq_some_iff] at hpath
  obtain ⟨j, hp, hq'⟩ := hpath
  have hwalk := walkCode_of_followPath (root := s.root) (k := k) hp []
  rw [List.append_nil, walkCode_nil (not_leaf_of_followPath hq' (.inl hq))] at hwalk
  rw [decodeSymbol_of_tree hroot hstart, hwalk, hp]
  simp only [Option.some.injEq]
  rfl

end Symbol

/-! ### Codes one after another -/

section Codes
variable {s : State} {xs : List Byte} {code : Byte → List Bool}

/-- The codes of bytes, each a path of at least one edge to its byte's leaf, give these bytes. -/
theorem decodeSymbols_of_codes (h : ∀ x ∈ xs, code x ≠ [] ∧ leadsTo s (code x) x.toFin) (k : Nat) (rest : List Bool) :
    decodeSymbols s.node s.root xs.length k (xs.flatMap code ++ rest) = .ok (xs, rest) := by
  induction xs generalizing k with
  | nil => rfl
  | cons x xs ih =>
    obtain ⟨⟨hne, hleads⟩, hxs⟩ := List.forall_mem_cons.mp h
    obtain ⟨sym, hsym, hbyte⟩ := decodeSymbol_of_leadsTo hleads hne k (xs.flatMap code ++ rest)
    rw [List.length_cons, decodeSymbols_succ, List.flatMap_cons, List.append_assoc, hsym]
    dsimp only [Except.bind]
    have hx : BitVec.ofNat 8 x.toFin.val = x := (BitVec.ofNat_toNat 8 x).trans (BitVec.setWidth_eq x)
    rw [ih hxs, Except.map, hbyte, hx]

/-- What fails behind some bytes' codes fails with their number. -/
theorem decodeSymbols_of_codes_of_error (h : ∀ x ∈ xs, code x ≠ [] ∧ leadsTo s (code x) x.toFin) {m : Nat} (hm : xs.length < m)
    {rest : List Bool} {e : Raise} (he : decodeSymbol s.node s.root xs.length rest = .error e) :
    decodeSymbols s.node s.root m 0 (xs.flatMap code ++ rest) = .error e := by
  obtain ⟨n, rfl⟩ := Nat.exists_eq_add_of_lt hm
  rw [Nat.add_assoc, decodeSymbols_add, decodeSymbols_of_codes h]
  dsimp only [Except.bind]
  rw [decodeSymbols_succ, Nat.zero_add, he]
  rfl

end Codes

/-! ### The bits of a payload (20 R75) -/

theorem unpack_append (as bs : List Byte) : unpack (as ++ bs) = unpack as ++ unpack bs := List.flatMap_append

@[simp] theorem length_unpack (bs : List Byte) : (unpack bs).length = 8 * bs.length := by
  simp [unpack, byteBits, List.length_flatMap, Nat.mul_comm]

theorem unpack_pack (bits : List Bool) :
    unpack (pack bits) = bits ++ List.replicate (8 * ceilDiv bits.length 8 - bits.length) false := by
  obtain ⟨-, -, h⟩ := bitPacking bits
  exact h

theorem unpack_pack_of_dvd {bits : List Bool} (h : 8 ∣ bits.length) : unpack (pack bits) = bits := by
  have hpad : 8 * ceilDiv bits.length 8 - bits.length = 0 := by rw [ceilDiv]; omega
  rw [unpack_pack, hpad, List.replicate_zero, List.append_nil]

/-! ### The end of the stream (46 R236, R238) -/

theorem decodePayload_eq (s : State) : decodePayload s =
    (decodeSymbols s.node s.root s.origLen.toNat 0 (unpack (payloadInput s))).bind fun x =>
      match endFault s.origLen.toNat (payloadInput s).length x.2 with
      | some e => .error e
      | none => .ok x.1 := by
  rw [decodePayload]
  cases decodeSymbols s.node s.root s.origLen.toNat 0 (unpack (payloadInput s)) <;> rfl

theorem decodePayload_of_error {s : State} {e : Raise}
    (h : decodeSymbols s.node s.root s.origLen.toNat 0 (unpack (payloadInput s)) = .error e) : decodePayload s = .error e := by
  rw [decodePayload_eq, h]
  rfl

section Payload
variable {s : State} {xs : List Byte} {code : Byte → List Bool}

/-- A payload that begins with the codes of ORIG_LEN bytes ends as the bits behind them do. -/
theorem decodePayload_of_codes (h : ∀ x ∈ xs, code x ≠ [] ∧ leadsTo s (code x) x.toFin) (hlen : xs.length = s.origLen.toNat)
    {left : List Bool} (hbits : unpack (payloadInput s) = xs.flatMap code ++ left) :
    decodePayload s = match endFault xs.length (payloadInput s).length left with
      | some e => .error e
      | none => .ok xs := by
  rw [decodePayload_eq, ← hlen, hbits, decodeSymbols_of_codes h]
  rfl

/-- The bits the codes took, in whole bytes. -/
theorem consumed_of_unpack {bs : List Byte} {bits left : List Bool} (h : unpack bs = bits ++ left) :
    8 * bs.length - left.length = bits.length := by
  have := congrArg List.length h
  rw [length_unpack, List.length_append] at this
  omega

theorem endFault_of_leftover {m : Nat} {bs : List Byte} {bits left : List Bool} (h : unpack bs = bits ++ left)
    (hlong : bs.length ≠ ceilDiv bits.length 8) : endFault m bs.length left = some (corruptAt .corruptLength m) := by
  rw [endFault, consumed_of_unpack h, if_pos hlong]

theorem endFault_of_pad {m : Nat} {bs : List Byte} {bits left : List Bool} (h : unpack bs = bits ++ left)
    (hlen : bs.length = ceilDiv bits.length 8) (hpad : true ∈ left) : endFault m bs.length left = some (corruptAt .corruptPad m) := by
  rw [endFault, consumed_of_unpack h, if_neg (not_not.mpr hlen), if_pos (List.any_eq_true.mpr ⟨true, hpad, rfl⟩)]

theorem endFault_eq_none {m : Nat} {bs : List Byte} {bits : List Bool} {n : Nat} (h : unpack bs = bits ++ List.replicate n false)
    (hlen : bs.length = ceilDiv bits.length 8) : endFault m bs.length (List.replicate n false) = none := by
  rw [endFault, consumed_of_unpack h, if_neg (not_not.mpr hlen), if_neg]
  simp

/-- The packing of ORIG_LEN bytes' codes decodes to these bytes. -/
theorem decodePayload_of_pack (h : ∀ x ∈ xs, code x ≠ [] ∧ leadsTo s (code x) x.toFin) (hlen : xs.length = s.origLen.toNat)
    (hpay : payloadInput s = pack (xs.flatMap code)) : decodePayload s = .ok xs := by
  have hbits := unpack_pack (xs.flatMap code)
  rw [← hpay] at hbits
  rw [decodePayload_of_codes h hlen hbits, endFault_eq_none hbits (by rw [hpay, length_pack])]

end Payload

/-! ### The phases and the command -/

theorem phaseDcheck_of_fits {s : State} (hoff : s.payloadOff.toNat ≤ s.inLen.toNat) (hcap : s.origLen.toNat ≤ s.outCap.toNat) :
    phaseDcheck s = .ok s := by
  rw [phaseDcheck, if_neg (not_lt.mpr hoff), if_neg (not_lt.mpr hcap)]

theorem phaseDecode_of_ok {s : State} {bs : List Byte} (h : decodePayload s = .ok bs) :
    phaseDecode s = .ok { s with mem := s.mem.writeBytes s.outBase.toNat bs } := by
  rw [phaseDecode, h]

theorem phaseDecode_of_error {s : State} {e : Raise} (h : decodePayload s = .error e) : phaseDecode s = .error e := by
  rw [phaseDecode, h]

/-- A raise leaves the registers and STATUS of a failed completion, whatever it leaves in the output (60 R284). -/
theorem failedWith_failedAt (c : Command) (s : State) (p : Phase) (e : Raise) : failedWith s (c.failedAt s p e s) p e.code e.info := by
  rw [Command.failedAt]
  split <;> exact ⟨rfl, rfl, rfl, rfl⟩

section Exec
variable {s : State} (hu : s.undisturbed = true) (hreg : regionsOk true true s = true)
include hu hreg

/-- P_DCHECK's errors come before any memory write (60 R285). -/
theorem exec_decode_of_dcheck {e : Raise} (h : phaseDcheck s = .error e) : exec .decode s = .next (s.failed .check e) :=
  exec_of_raised (i := .decode) hu ((runPlan_always_ok (regionCheck_of_ok hreg)).trans (runPlan_always_error h))

variable (hoff : s.payloadOff.toNat ≤ s.inLen.toNat) (hcap : s.origLen.toNat ≤ s.outCap.toNat)
include hoff hcap

theorem exec_decode_of_error {e : Raise} (h : decodePayload s = .error e) :
    ∃ t, exec .decode s = .next t ∧ failedWith s t .decode e.code e.info :=
  ⟨_, exec_of_raised (i := .decode) hu ((runPlan_always_ok (regionCheck_of_ok hreg)).trans
    ((runPlan_always_ok (phaseDcheck_of_fits hoff hcap)).trans (runPlan_always_error (phaseDecode_of_error h)))),
    failedWith_failedAt _ s .decode e⟩

theorem exec_decode_of_ok {bs : List Byte} (h : decodePayload s = .ok bs) :
    exec .decode s = .next (State.succeeded { s with mem := s.mem.writeBytes s.outBase.toNat bs } s.origLen) :=
  exec_of_returned (i := .decode) hu ((runPlan_always_ok (regionCheck_of_ok hreg)).trans
    ((runPlan_always_ok (phaseDcheck_of_fits hoff hcap)).trans (runPlan_always_ok (phaseDecode_of_ok h))))

end Exec

/-- The output region ends within memory where RegionCheck passes (20 R73). -/
theorem outBase_add_le {s : State} (h : regionsOk true true s = true) {n : Nat} (hn : n ≤ s.outCap.toNat) :
    s.outBase.toNat + n ≤ 2 ^ 64 := by
  simp only [regionsOk, outWraps, Bool.and_eq_true, Bool.true_and, Bool.not_eq_true', decide_eq_false_iff_not] at h
  omega

/-- Settles O51: the walk of each code ends at its byte's leaf, so the packing decodes to the bytes, and these read back where DECODE
writes them. -/
theorem decodeInvertsPacking : Obligations.DecodeInvertsPacking := by
  intro s xs code hu hwf hreg hoff hlen hcap hcode hpay
  refine ⟨_, exec_decode_of_ok hu hreg hoff hcap (decodePayload_of_pack hcode hlen hpay), ⟨rfl, rfl, rfl, rfl⟩, ?_⟩
  rw [← hlen]
  exact Memory.readBytes_writeBytes hwf _ xs (outBase_add_le hreg (hlen.trans_le hcap))

/-- Settles O52: P_DCHECK's two checks, the walk that fails behind the codes of some bytes, and the checks at the end of the stream. -/
theorem decodeErrors : Obligations.DecodeErrors := by
  intro s hu hreg
  refine ⟨fun hoff => ?offset, fun hoff hcap => ?capacity, fun hoff hcap => ⟨fun hpos htree => ?tree, fun xs code hcode =>
    ⟨fun y ys hlen hpay => ?leftover, fun pad hlen hshort hbit hdvd hpay => ?pad, fun p rest hlt hp hdvd hpay hne => ?sentinel,
      fun p rest hlt hp hdvd hpay => ?missing, fun x p q hlt hx hq hdvd hpay => ?cut⟩⟩⟩
  case offset => exact exec_decode_of_dcheck hu hreg (if_pos hoff)
  case capacity => exact exec_decode_of_dcheck hu hreg (by rw [phaseDcheck, if_neg (not_lt.mpr hoff), if_pos hcap])
  all_goals have fails {e : Raise} := exec_decode_of_error (e := e) hu hreg hoff hcap
  case tree =>
    obtain ⟨n, hn⟩ := Nat.exists_eq_add_of_lt hpos
    refine fails (e := corruptAt .corruptCode 0) (decodePayload_of_error ?_)
    rw [hn, decodeSymbols_succ, decodeSymbol_of_no_tree htree]
    rfl
  case leftover =>
    obtain ⟨left, hbits⟩ : ∃ left, unpack (payloadInput s) = xs.flatMap code ++ left :=
      ⟨_, by rw [payloadInput, hpay, unpack_append, unpack_pack, List.append_assoc]⟩
    have hlong : (payloadInput s).length ≠ ceilDiv (xs.flatMap code).length 8 := by
      rw [payloadInput, hpay, List.length_append, length_pack, List.length_cons]
      omega
    have := fails (e := corruptAt .corruptLength xs.length)
      (by rw [decodePayload_of_codes hcode hlen hbits, endFault_of_leftover hbits hlong])
    simpa [corruptAt, hlen] using this
  case pad =>
    have hbits : unpack (payloadInput s) = xs.flatMap code ++ pad := by rw [payloadInput, hpay, unpack_pack_of_dvd hdvd]
    have hwhole : (payloadInput s).length = ceilDiv (xs.flatMap code).length 8 := by
      rw [List.length_append] at hdvd
      rw [payloadInput, hpay, length_pack, List.length_append, ceilDiv, ceilDiv]
      omega
    have := fails (e := corruptAt .corruptPad xs.length)
      (by rw [decodePayload_of_codes hcode hlen hbits, endFault_of_pad hbits hwhole hbit])
    simpa [corruptAt, hlen] using this
  case sentinel =>
    refine fails (e := corruptAt .corruptCode xs.length) (decodePayload_of_error ?_)
    rw [payloadInput, hpay, unpack_pack_of_dvd hdvd, List.append_assoc]
    exact decodeSymbols_of_codes_of_error hcode hlt (decodeSymbol_of_sentinel hp hne _ rest)
  case missing =>
    refine fails (e := corruptAt .corruptCode xs.length) (decodePayload_of_error ?_)
    rw [payloadInput, hpay, unpack_pack_of_dvd hdvd, List.append_assoc]
    exact decodeSymbols_of_codes_of_error hcode hlt (decodeSymbol_of_missing hp _ rest)
  case cut =>
    refine fails (e := corruptAt _ xs.length) (decodePayload_of_error ?_)
    rw [payloadInput, hpay, unpack_pack_of_dvd hdvd]
    exact decodeSymbols_of_codes_of_error hcode hlt (decodeSymbol_of_cut hx hq _)

end Sys2Proof.Machine
end

section
/-!
CTREE's arena as a trie: the paths of its walks, what an entry put at a free child adds to them, and what an insertion of a code does or
meets (46 R232, R233).
-/
namespace Sys2Proof.Machine

/-! ### Walks in the arena of a list -/

/-- The walk from entry 0 (46 R231). -/
abbrev walk (a : List Node) (p : List Bool) : Option Index := followPath (arenaOf a) 0#9 p

theorem followPath_cons_eq_some {node : Vector Node 511} {i j : Index} {c : Bool} {p : List Bool} :
    followPath node i (c :: p) = some j ↔ (nodeAt node i).leaf = false ∧ (nodeAt node i).child c ≠ noNode
      ∧ followPath node ((nodeAt node i).child c) p = some j := by
  rw [followPath]
  by_cases hchild : (nodeAt node i).child c = noNode <;> cases hleaf : (nodeAt node i).leaf <;> simp [hchild]

/-- No walk goes on from an entry without children. -/
theorem followPath_of_childless {node : Vector Node 511} {i j : Index} {p : List Bool} (h : ∀ c, (nodeAt node i).child c = noNode) :
    followPath node i p = some j ↔ p = [] ∧ j = i := by
  cases p with
  | nil => simp [followPath, eq_comm]
  | cons c p => simp [followPath_cons_eq_some, h]

theorem followPath_snoc {node : Vector Node 511} {i j k : Index} {q : List Bool} (h : followPath node i q = some j) (c : Bool) :
    followPath node i (q ++ [c]) = some k ↔ (nodeAt node j).leaf = false ∧ (nodeAt node j).child c ≠ noNode
      ∧ (nodeAt node j).child c = k := by
  rw [followPath_append, h, Option.bind_some, followPath_cons_eq_some]
  simp [followPath]

/-- The parts of a path that ends with a bit. -/
theorem exists_cons_eq_snoc {P : List Bool → Prop} {c d : Bool} {p : List Bool} :
    (∃ q, d :: p = q ++ [c] ∧ P q) ↔ (p = [] ∧ d = c ∧ P []) ∨ ∃ q, p = q ++ [c] ∧ P (d :: q) := by
  constructor
  · rintro ⟨q, e, h⟩
    cases q with
    | nil => simp_all
    | cons x q =>
      obtain ⟨rfl, rfl⟩ := List.cons.inj e
      exact .inr ⟨q, rfl, h⟩
  · rintro (⟨rfl, rfl, h⟩ | ⟨q, rfl, h⟩)
    · exact ⟨[], rfl, h⟩
    · exact ⟨d :: q, rfl, h⟩

namespace CodeTreeList

variable {a : List Node} (h : CodeTreeList a)
include h

theorem nodeAt_eq {i : Index} (hi : i.toNat < a.length) : nodeAt (arenaOf a) i = arenaAt a i.toNat :=
  nodeAt_arenaOf a (hi.trans_le h.length_le)

theorem child_lt {i : Nat} {c : Bool} (hi : i < a.length) (hc : (arenaAt a i).child c ≠ noNode) :
    ((arenaAt a i).child c).toNat < a.length := child_lt_of_slots h.slots (arenaAt_mem hi) hc

theorem followPath_lt {i j : Index} {p : List Bool} (hi : i.toNat < a.length) (hp : followPath (arenaOf a) i p = some j) :
    j.toNat < a.length := by
  induction p generalizing i with
  | nil => exact Option.some.inj hp ▸ hi
  | cons c p ih =>
    obtain ⟨-, hc, hp⟩ := followPath_cons_eq_some.mp hp
    rw [h.nodeAt_eq hi] at hc hp
    exact ih (h.child_lt hi hc) hp

theorem root_lt : (0#9).toNat < a.length := List.length_pos_of_ne_nil h.ne_nil

theorem walk_lt {j : Index} {p : List Bool} (hp : walk a p = some j) : j.toNat < a.length := h.followPath_lt h.root_lt hp

end CodeTreeList

@[simp] theorem Node.withChild_leaf (n : Node) (c : Bool) (j : Index) : (n.withChild c j).leaf = n.leaf := by cases c <;> rfl

@[simp] theorem Node.withChild_sym (n : Node) (c : Bool) (j : Index) : (n.withChild c j).sym = n.sym := by cases c <;> rfl

/-! ### A new entry -/

section AddChild
variable {a : List Node} {i : Index} {c : Bool} {n : Node}

/-- The entries that stay, but for the child that is set. -/
theorem arenaAt_addChild_fields {j : Nat} (hi : i.toNat < a.length) (hj : j < a.length) :
    (arenaAt (addChild a i.toNat c n) j).leaf = (arenaAt a j).leaf ∧ (arenaAt (addChild a i.toNat c n) j).sym = (arenaAt a j).sym := by
  by_cases hji : j = i.toNat
  · subst hji
    rw [arenaAt_addChild_self hi]
    simp
  · rw [arenaAt_addChild_of_ne hj hji]
    exact ⟨rfl, rfl⟩

/-- What can be added to a tree: an entry without children, at a free child of an inner entry, where there is room (46 R232). -/
structure Room (a : List Node) (i : Index) (c : Bool) (n : Node) : Prop where
  index_lt : i.toNat < a.length
  length_ne : a.length ≠ Config.arena
  inner : (arenaAt a i.toNat).leaf = false
  free : (arenaAt a i.toNat).child c = noNode
  used : n.used = true
  weight : n.weight = 0#72
  childless : ∀ d, n.child d = noNode

theorem Room.addChild (hroom : Room a i c n) (h : CodeTreeList a) : CodeTreeList (addChild a i.toNat c n) :=
  h.addChild hroom.index_lt hroom.length_ne hroom.free hroom.used hroom.weight (by
    have hleft : n.left = noNode := hroom.childless false
    have hright : n.right = noNode := hroom.childless true
    simp [childSlots, hleft, hright])

theorem Room.length_lt (hroom : Room a i c n) (h : CodeTreeList a) : a.length < 511 := lt_of_le_of_ne h.length_le hroom.length_ne

/-- The walks after a new entry: those there were, and those that end with the step to it. -/
theorem followPath_addChild (h : CodeTreeList a) (hroom : Room a i c n) {j k : Index} {p : List Bool} (hj : j.toNat < a.length) :
    followPath (arenaOf (addChild a i.toNat c n)) j p = some k ↔ followPath (arenaOf a) j p = some k
      ∨ ∃ q, p = q ++ [c] ∧ followPath (arenaOf a) j q = some i ∧ k = BitVec.ofNat 9 a.length := by
  have hlt := hroom.length_lt h
  have htree := hroom.addChild h
  have hnew : (BitVec.ofNat 9 a.length).toNat = a.length := toNat_ofNat_index hlt
  induction p generalizing j with
  | nil => simp [followPath]
  | cons d p ih =>
    rw [followPath_cons_eq_some, followPath_cons_eq_some, exists_cons_eq_snoc, h.nodeAt_eq hj,
      htree.nodeAt_eq (by rw [length_addChild]; omega), (arenaAt_addChild_fields hroom.index_lt hj).1]
    by_cases hstep : j = i ∧ d = c
    · obtain ⟨rfl, rfl⟩ := hstep
      have hend : (∀ e, (nodeAt (arenaOf (addChild a j.toNat d n)) (BitVec.ofNat 9 a.length)).child e = noNode) := by
        rw [htree.nodeAt_eq (by rw [hnew, length_addChild]; omega), hnew, arenaAt_addChild_length]
        exact hroom.childless
      rw [arenaAt_addChild_self hroom.index_lt, Node.child_withChild_same, followPath_of_childless hend]
      simp [hroom.inner, hroom.free, ofNat_index_ne_noNode hlt, followPath, h.nodeAt_eq hj]
    · have hchild : (arenaAt (addChild a i.toNat c n) j.toNat).child d = (arenaAt a j.toNat).child d := by
        by_cases hji : j = i
        · subst hji
          rw [arenaAt_addChild_self hj, Node.child_withChild_of_ne _ fun e => hstep ⟨rfl, e⟩]
        · rw [arenaAt_addChild_of_ne hj fun e => hji (BitVec.eq_of_toNat_eq e)]
      have hnot : ¬ (p = [] ∧ d = c ∧ followPath (arenaOf a) j [] = some i ∧ k = BitVec.ofNat 9 a.length) :=
        fun ⟨_, hd, hji, _⟩ => hstep ⟨Option.some.inj hji, hd⟩
      rw [hchild, or_iff_right hnot]
      simp only [followPath_cons_eq_some, h.nodeAt_eq hj]
      by_cases hmissing : (arenaAt a j.toNat).child d = noNode
      · simp [hmissing]
      · simp only [ih (h.child_lt hj hmissing)]
        tauto

end AddChild

/-! ### The trie -/

/-- The list is the trie of the paths `ps`: one entry for each, and at the end of each path of `t` the leaf of its symbol (46 R233). -/
structure CodeTrie (ps : Finset (List Bool)) (t : Set (Nat × List Bool)) (a : List Node) : Prop where
  tree : CodeTreeList a
  card : ps.card = a.length
  paths : ∀ p, p ∈ ps ↔ ∃ i, walk a p = some i
  inj : ∀ p q i, walk a p = some i → walk a q = some i → p = q
  leaves : ∀ b p, (b, p) ∈ t ↔ ∃ i, walk a p = some i ∧ (arenaAt a i.toNat).leaf = true ∧ (arenaAt a i.toNat).sym.toNat = b

theorem CodeTrie.bare : CodeTrie {[]} ∅ [bareNode] := by
  have hwalk (p : List Bool) (i : Index) : walk [bareNode] p = some i ↔ p = [] ∧ i = 0#9 :=
    followPath_of_childless fun c => by
      rw [CodeTreeList.bare.nodeAt_eq CodeTreeList.bare.root_lt]
      cases c <;> rfl
  refine ⟨.bare, rfl, fun p => by simp [hwalk], fun p q i hp hq => ?_, fun b p => iff_of_false id ?_⟩
  · exact ((hwalk p i).mp hp).1.trans ((hwalk q i).mp hq).1.symm
  · rintro ⟨i, hp, hleaf, -⟩
    rw [((hwalk p i).mp hp).2] at hleaf
    cases hleaf

namespace CodeTrie

variable {ps : Finset (List Bool)} {t : Set (Nat × List Bool)} {a : List Node} {q : List Bool} {i : Index} {c : Bool} {n : Node}

theorem walk_addChild (h : CodeTrie ps t a) (hq : walk a q = some i) (hroom : Room a i c n) {p : List Bool} {k : Index} :
    walk (Machine.addChild a i.toNat c n) p = some k ↔ walk a p = some k ∨ (p = q ++ [c] ∧ k = BitVec.ofNat 9 a.length) := by
  rw [walk, followPath_addChild h.tree hroom h.tree.root_lt]
  refine or_congr_right ⟨?_, fun ⟨hp, hk⟩ => ⟨q, hp, hq, hk⟩⟩
  rintro ⟨q', rfl, hq', hk⟩
  exact ⟨by rw [h.inj q' q i hq' hq], hk⟩

theorem not_mem_of_free (h : CodeTrie ps t a) (hq : walk a q = some i) (hfree : (arenaAt a i.toNat).child c = noNode) :
    q ++ [c] ∉ ps := by
  rw [h.paths]
  rintro ⟨k, hk⟩
  obtain ⟨-, hne, -⟩ := (followPath_snoc hq c).mp hk
  rw [h.tree.nodeAt_eq (h.tree.walk_lt hq)] at hne
  exact hne hfree

/-- A new entry makes one more path, and one more leaf if it is one. -/
theorem addChild (h : CodeTrie ps t a) (hq : walk a q = some i) (hroom : Room a i c n) {t' : Set (Nat × List Bool)}
    (ht : ∀ b p, (b, p) ∈ t' ↔ (b, p) ∈ t ∨ (p = q ++ [c] ∧ n.leaf = true ∧ n.sym.toNat = b)) :
    CodeTrie (insert (q ++ [c]) ps) t' (Machine.addChild a i.toNat c n) := by
  have hnew : (BitVec.ofNat 9 a.length).toNat = a.length := toNat_ofNat_index (hroom.length_lt h.tree)
  have hold {p : List Bool} (hp : walk a p = some (BitVec.ofNat 9 a.length)) : False := by
    have := h.tree.walk_lt hp
    omega
  refine ⟨hroom.addChild h.tree, ?card, fun p => ?paths, fun p p' k hp hp' => ?inj, fun b p => ?leaves⟩
  case card => rw [Finset.card_insert_of_notMem (h.not_mem_of_free hq hroom.free), length_addChild, h.card]
  case paths => simp only [h.walk_addChild hq hroom, Finset.mem_insert, h.paths, exists_or, exists_and_left, exists_eq, and_true, or_comm]
  case inj =>
    rcases (h.walk_addChild hq hroom).mp hp with hp | ⟨rfl, rfl⟩ <;> rcases (h.walk_addChild hq hroom).mp hp' with hp' | ⟨rfl, hk⟩
    · exact h.inj p p' k hp hp'
    · exact (hold (hk ▸ hp)).elim
    · exact (hold hp').elim
    · rfl
  case leaves =>
    simp only [h.walk_addChild hq hroom, or_and_right, exists_or, ht, h.leaves]
    refine or_congr (exists_congr fun k => and_congr_right fun hp => ?_) ?_
    · obtain ⟨hleaf, hsym⟩ := arenaAt_addChild_fields (c := c) (n := n) hroom.index_lt (h.tree.walk_lt hp)
      rw [hleaf, hsym]
    · constructor
      · rintro ⟨rfl, hleaf⟩
        exact ⟨_, ⟨rfl, rfl⟩, by rwa [hnew, arenaAt_addChild_length]⟩
      · rintro ⟨_, ⟨rfl, rfl⟩, hleaf⟩
        rw [hnew, arenaAt_addChild_length] at hleaf
        exact ⟨rfl, hleaf⟩

theorem mem_of_prefix (h : CodeTrie ps t a) {p r : List Bool} (hr : r ∈ ps) (hp : p <+: r) : p ∈ ps := by
  obtain ⟨x, rfl⟩ := hp
  obtain ⟨j, hj⟩ := (h.paths _).mp hr
  rw [walk, followPath_append, Option.bind_eq_some_iff] at hj
  obtain ⟨k, hk, -⟩ := hj
  exact (h.paths p).mpr ⟨k, hk⟩

end CodeTrie

/-! ### One code's insertion (46 R232) -/

/-- The prefixes of a code. -/
def prefixSet (p : List Bool) : Finset (List Bool) := p.inits.toFinset

@[simp] theorem mem_prefixSet {p q : List Bool} : q ∈ prefixSet p ↔ q <+: p := by simp [prefixSet]

/-- What stands in a code's way: a code it begins with, a path that goes on from it, or the end of the arena. -/
def Blocked (ps : Finset (List Bool)) (t : Set (Nat × List Bool)) (p : List Bool) : Prop :=
  (∃ e ∈ t, e.2 <+: p) ∨ p ∈ ps ∨ 511 < (ps ∪ prefixSet p).card

theorem insert_union_prefixSet {ps : Finset (List Bool)} {p r : List Bool} (h : p <+: r) :
    insert p ps ∪ prefixSet r = ps ∪ prefixSet r := by
  rw [Finset.insert_union, Finset.insert_eq_of_mem (Finset.mem_union_right _ (mem_prefixSet.mpr h))]

theorem Blocked.of_insert {ps : Finset (List Bool)} {t : Set (Nat × List Bool)} {p r : List Bool} (hp : p <+: r) (hne : r ≠ p) (h : Blocked (insert p ps) t r) : Blocked ps t r := by
  rw [Blocked, insert_union_prefixSet hp, Finset.mem_insert, or_iff_right hne] at h
  exact h

namespace CodeTrie

variable {ps : Finset (List Bool)} {t : Set (Nat × List Bool)} {a : List Node} {q : List Bool} {i : Index} {b : Nat}

theorem union_prefixSet_snoc (h : CodeTrie ps t a) (hq : walk a q = some i) (c : Bool) :
    ps ∪ prefixSet (q ++ [c]) = insert (q ++ [c]) ps := by
  have hmem : q ∈ ps := (h.paths q).mpr ⟨i, hq⟩
  ext p
  simp only [Finset.mem_union, mem_prefixSet, Finset.mem_insert, List.prefix_concat_iff]
  constructor
  · rintro (hp | hp | hp)
    · exact .inr hp
    · exact .inl hp
    · exact .inr (h.mem_of_prefix hmem hp)
  · tauto

/-- A full arena has no entry for a path that is new. -/
theorem card_of_full (h : CodeTrie ps t a) (hq : walk a q = some i) {c : Bool} (hfree : (arenaAt a i.toNat).child c = noNode)
    (hfull : a.length = Config.arena) {r : List Bool} (hr : q ++ [c] <+: r) : 511 < (ps ∪ prefixSet r).card := by
  have hcard := Finset.card_insert_of_notMem (h.not_mem_of_free hq hfree)
  have hle : (insert (q ++ [c]) ps).card ≤ (ps ∪ prefixSet r).card :=
    Finset.card_le_card (Finset.insert_subset (Finset.mem_union_right _ (mem_prefixSet.mpr hr)) Finset.subset_union_left)
  rw [hcard, h.card, hfull] at hle
  exact hle

/-- An insertion adds the code's path, or is blocked. -/
theorem insertCode (h : CodeTrie ps t a) (hb : b < 256) (hq : walk a q = some i) (hinner : (arenaAt a i.toNat).leaf = false)
    {r : List Bool} (hr : r ≠ []) :
    (∃ a', Machine.insertCode b a i.toNat r = some a' ∧ CodeTrie (ps ∪ prefixSet (q ++ r)) (insert (b, q ++ r) t) a')
      ∨ (Machine.insertCode b a i.toNat r = none ∧ Blocked ps t (q ++ r)) := by
  induction r generalizing ps a q i with
  | nil => exact absurd rfl hr
  | cons c cs ih =>
    have hi := h.tree.walk_lt hq
    have hpre : q ++ [c] <+: q ++ c :: cs := (List.prefix_append_right_inj q).mpr (by simp)
    have hsplit : q ++ c :: cs = q ++ [c] ++ cs := by simp
    have hchild (hne : (arenaAt a i.toNat).child c ≠ noNode) : walk a (q ++ [c]) = some ((arenaAt a i.toNat).child c) := by
      rw [followPath_snoc hq, h.tree.nodeAt_eq hi]
      exact ⟨hinner, hne, rfl⟩
    cases cs with
    | nil =>
      rw [Machine.insertCode]
      by_cases hfree : (arenaAt a i.toNat).child c = noNode
      · rw [if_neg (not_not.mpr hfree)]
        by_cases hfull : a.length = Config.arena
        · exact .inr ⟨if_pos hfull, .inr (.inr (h.card_of_full hq hfree hfull hpre))⟩
        · refine .inl ⟨_, if_neg hfull, ?_⟩
          rw [h.union_prefixSet_snoc hq]
          refine h.addChild hq ⟨hi, hfull, hinner, hfree, rfl, rfl, fun d => by cases d <;> rfl⟩ fun x p => ?_
          have hsym : (leafNode b 0).sym.toNat = b := Nat.mod_eq_of_lt (by omega)
          rw [hsym, Set.mem_insert_iff, Prod.mk.injEq, or_comm]
          exact or_congr_right ⟨fun ⟨hx, hp⟩ => ⟨hp, rfl, hx.symm⟩, fun ⟨hp, _, hx⟩ => ⟨hx.symm, hp⟩⟩
      · exact .inr ⟨if_pos hfree, .inr (.inl ((h.paths _).mpr ⟨_, hchild hfree⟩))⟩
    | cons d ds =>
      rw [Machine.insertCode]
      by_cases hfree : (arenaAt a i.toNat).child c = noNode
      · rw [if_pos hfree]
        by_cases hfull : a.length = Config.arena
        · exact .inr ⟨if_pos hfull, .inr (.inr (h.card_of_full hq hfree hfull hpre))⟩
        · rw [if_neg hfull]
          have hroom : Room a i c bareNode := ⟨hi, hfull, hinner, hfree, rfl, rfl, fun d => by cases d <;> rfl⟩
          have hnew : (BitVec.ofNat 9 a.length).toNat = a.length := toNat_ofNat_index (hroom.length_lt h.tree)
          have hrest := ih (h.addChild hq hroom fun x p => by simp [bareNode, internalNode])
            ((h.walk_addChild hq hroom).mpr (.inr ⟨rfl, rfl⟩)) (by rw [hnew, arenaAt_addChild_length]; rfl) (List.cons_ne_nil d ds)
          rw [hnew, ← hsplit, insert_union_prefixSet hpre] at hrest
          exact hrest.imp_right fun ⟨hnone, hblocked⟩ => ⟨hnone, Blocked.of_insert hpre (by simp) hblocked⟩
      · rw [if_neg hfree]
        by_cases hleaf : (arenaAt a ((arenaAt a i.toNat).child c).toNat).leaf = true
        · exact .inr ⟨if_pos hleaf, .inl ⟨_, (h.leaves _ _).mpr ⟨_, hchild hfree, hleaf, rfl⟩, hpre⟩⟩
        · rw [if_neg hleaf, hsplit]
          exact ih h (hchild hfree) (by simpa using hleaf) (List.cons_ne_nil d ds)

end CodeTrie

end Sys2Proof.Machine
end

section
/-!
CTREE's insertions over all bytes with a code: they succeed exactly when the codes can be placed, and the first code that cannot be placed
ends them (46 R232, R233; O43).
-/
namespace Sys2Proof.Machine

/-! ### The prefixes of the codes of some bytes -/

/-- The prefixes of the codes of the bytes (46 R233). -/
def codePrefixes (s : State) (bs : List (Fin 256)) : Finset (List Bool) := (bs.flatMap fun b => (codeWordBits s b).inits).toFinset

/-- The codes of the bytes, each with its byte's symbol. -/
def codePaths (s : State) (bs : List (Fin 256)) : Set (Nat × List Bool) := {e | ∃ b ∈ bs, e = (b.val, codeWordBits s b)}

theorem card_codePrefixes (s : State) (bs : List (Fin 256)) : (codePrefixes s bs).card = trieNodes s bs := List.card_toFinset _

theorem mem_codePrefixes {s : State} {bs : List (Fin 256)} {p : List Bool} :
    p ∈ codePrefixes s bs ↔ ∃ b ∈ bs, p <+: codeWordBits s b := by simp [codePrefixes]

theorem codePrefixes_append (s : State) (as bs : List (Fin 256)) :
    codePrefixes s (as ++ bs) = codePrefixes s as ∪ codePrefixes s bs := by
  rw [codePrefixes, List.flatMap_append, List.toFinset_append]
  rfl

theorem codePrefixes_singleton (s : State) (b : Fin 256) : codePrefixes s [b] = prefixSet (codeWordBits s b) := by
  simp [codePrefixes, prefixSet]

theorem codePaths_snoc (s : State) (bs : List (Fin 256)) (b : Fin 256) :
    codePaths s (bs ++ [b]) = insert (b.val, codeWordBits s b) (codePaths s bs) := by
  ext e
  simp [codePaths, or_and_right, exists_or, or_comm]

theorem placeable_of_append {s : State} {as bs : List (Fin 256)} (h : placeable s (as ++ bs)) : placeable s as := by
  obtain ⟨hfree, hcard⟩ := h
  refine ⟨fun a ha b hb => hfree a (List.mem_append_left _ ha) b (List.mem_append_left _ hb), le_trans ?_ hcard⟩
  rw [← card_codePrefixes, ← card_codePrefixes, codePrefixes_append]
  exact Finset.card_le_card Finset.subset_union_left

theorem codeWordBits_ne_nil {s : State} {b : Fin 256} (h : s.len[b] ≠ 0#8) : codeWordBits s b ≠ [] := fun e => by
  have hlen := length_codeWordBits s b
  rw [e] at hlen
  exact h (BitVec.eq_of_toNat_eq hlen.symm)

/-! ### The arena after some bytes' codes -/

/-- The arena after the codes of the bytes: none before the first, then their trie. -/
def TrieMade (s : State) (bs : List (Fin 256)) (a : List Node) : Prop :=
  (bs = [] ∧ a = []) ∨ (bs ≠ [] ∧ CodeTrie (codePrefixes s bs) (codePaths s bs) a)

/-- The arena a code is put in: the root is made before the first (46 R232). -/
def withRoot (a : List Node) : List Node := if a = [] then [bareNode] else a

namespace TrieMade

variable {s : State} {bs : List (Fin 256)} {a : List Node}

theorem withRoot (h : TrieMade s bs a) : CodeTrie (insert [] (codePrefixes s bs)) (codePaths s bs) (withRoot a) := by
  rcases h with ⟨rfl, rfl⟩ | ⟨hne, h⟩
  · simpa [codePrefixes, codePaths, Machine.withRoot] using CodeTrie.bare
  · obtain ⟨b, hb⟩ := List.exists_mem_of_ne_nil bs hne
    rw [Finset.insert_eq_of_mem (mem_codePrefixes.mpr ⟨b, hb, List.nil_prefix⟩), Machine.withRoot, if_neg h.tree.ne_nil]
    exact h

theorem length_eq (h : TrieMade s bs a) : a.length = trieNodes s bs := by
  rcases h with ⟨rfl, rfl⟩ | ⟨_, h⟩
  · rfl
  · rw [← h.card, card_codePrefixes]

theorem eq_nil_iff (h : TrieMade s bs a) : a = [] ↔ bs = [] := by
  rcases h with ⟨rfl, rfl⟩ | ⟨hne, h⟩
  · simp
  · simp [hne, h.tree.ne_nil]

/-- The codes of a trie have been placed (46 R232). -/
theorem placeable (h : TrieMade s bs a) : placeable s bs := by
  refine ⟨fun x hx y hy hne ⟨r, hr⟩ => ?_, ?_⟩
  · rcases h with ⟨rfl, _⟩ | ⟨_, h⟩
    · cases hx
    obtain ⟨i, hi, hleaf, hisym⟩ := (h.leaves _ _).mp ⟨x, hx, rfl⟩
    obtain ⟨j, hj, _, hjsym⟩ := (h.leaves _ _).mp ⟨y, hy, rfl⟩
    rw [← h.tree.nodeAt_eq (h.tree.walk_lt hi)] at hleaf
    rw [walk] at hi hj
    rw [← hr, followPath_append, hi, Option.bind_some] at hj
    rw [← followPath_of_leaf hleaf hj, hisym] at hjsym
    exact hne (Fin.ext hjsym)
  · rw [← h.length_eq]
    rcases h with ⟨_, rfl⟩ | ⟨_, h⟩
    · exact Nat.zero_le _
    · exact h.tree.length_le

/-- A code that is blocked cannot be placed beside the codes before it. -/
theorem not_placeable_of_blocked {b : Fin 256} (hnew : b ∉ bs) (hb : s.len[b] ≠ 0#8)
    (h : Blocked (insert [] (codePrefixes s bs)) (codePaths s bs) (codeWordBits s b)) : ¬ Machine.placeable s (bs ++ [b]) := by
  rintro ⟨hfree, hcard⟩
  rcases h with ⟨_, ⟨x, hx, rfl⟩, hpre⟩ | hmem | hover
  · exact hfree x (by simp [hx]) b (by simp) (fun e => hnew (e ▸ hx)) hpre
  · obtain ⟨x, hx, hpre⟩ := mem_codePrefixes.mp ((Finset.mem_insert.mp hmem).resolve_left (codeWordBits_ne_nil hb))
    exact hfree b (by simp) x (by simp [hx]) (fun e => hnew (e ▸ hx)) hpre
  · rw [insert_union_prefixSet List.nil_prefix, ← codePrefixes_singleton, ← codePrefixes_append, card_codePrefixes] at hover
    omega

/-- The next code is put in the trie, or cannot be placed. -/
theorem insertCode (h : TrieMade s bs a) (hcoded : ∀ x ∈ bs, s.len[x] ≠ 0#8) {b : Fin 256} (hnew : b ∉ bs) (hb : s.len[b] ≠ 0#8) :
    (∃ a', Machine.insertCode b.val (Machine.withRoot a) 0 (codeWordBits s b) = some a' ∧ TrieMade s (bs ++ [b]) a')
      ∨ (Machine.insertCode b.val (Machine.withRoot a) 0 (codeWordBits s b) = none ∧ ¬ Machine.placeable s (bs ++ [b])) := by
  have hroot := h.withRoot
  have hinner : (arenaAt (Machine.withRoot a) (0#9).toNat).leaf = false := by
    refine Bool.eq_false_iff.mpr fun hleaf => ?_
    obtain ⟨x, hx, e⟩ := (hroot.leaves _ []).mpr ⟨0#9, rfl, hleaf, rfl⟩
    exact codeWordBits_ne_nil (hcoded x hx) (congrArg Prod.snd e).symm
  rcases hroot.insertCode b.isLt (q := []) rfl hinner (codeWordBits_ne_nil hb) with ⟨a', hins, htrie⟩ | ⟨hins, hblocked⟩
  · refine .inl ⟨a', hins, .inr ⟨by simp, ?_⟩⟩
    rw [List.nil_append, insert_union_prefixSet List.nil_prefix, ← codePrefixes_singleton, ← codePrefixes_append,
      ← codePaths_snoc] at htrie
    exact htrie
  · exact .inr ⟨hins, not_placeable_of_blocked hnew hb hblocked⟩

end TrieMade

/-! ### The insertions one after another -/

theorem insertCodes_cons (s : State) (b : Fin 256) (bs : List (Fin 256)) (a : List Node) :
    insertCodes s (b :: bs) a = match insertCode b.val (withRoot a) 0 (codeWordBits s b) with
      | none => .error ⟨.badTable, BitVec.ofNat 64 b.val⟩
      | some a' => insertCodes s bs a' := rfl

theorem insertCodes_append {s : State} {as : List (Fin 256)} {a a' : List Node} (h : insertCodes s as a = .ok a')
    (bs : List (Fin 256)) : insertCodes s (as ++ bs) a = insertCodes s bs a' := by
  induction as generalizing a with
  | nil => cases h; rfl
  | cons x as ih =>
    rw [insertCodes_cons] at h
    rw [List.cons_append, insertCodes_cons]
    split at h
    · cases h
    · exact ih h

section Insertions
variable {s : State}

theorem insertCodes_of_trieMade {done bs : List (Fin 256)} {a : List Node} (h : TrieMade s done a)
    (hcoded : ∀ x ∈ done ++ bs, s.len[x] ≠ 0#8) (hnodup : (done ++ bs).Nodup) (hplace : placeable s (done ++ bs)) :
    ∃ a', insertCodes s bs a = .ok a' ∧ TrieMade s (done ++ bs) a' := by
  induction bs generalizing done a with
  | nil => exact ⟨a, rfl, by rwa [List.append_nil]⟩
  | cons b bs ih =>
    have hsplit : done ++ b :: bs = done ++ [b] ++ bs := by simp
    have hnew : b ∉ done := fun hmem => (List.nodup_append.mp hnodup).2.2 b hmem b List.mem_cons_self rfl
    rw [insertCodes_cons]
    have hdone : ∀ x ∈ done, s.len[x] ≠ 0#8 := fun x hx => hcoded x (List.mem_append_left _ hx)
    rcases h.insertCode hdone hnew (hcoded b (by simp)) with ⟨a', hins, hmade⟩ | ⟨_, hnot⟩
    · rw [hins, hsplit]
      exact ih hmade (hsplit ▸ hcoded) (hsplit ▸ hnodup) (hsplit ▸ hplace)
    · exact absurd (placeable_of_append (hsplit ▸ hplace)) hnot

/-- Codes that can all be placed make their trie. -/
theorem insertCodes_of_placeable {bs : List (Fin 256)} (hcoded : ∀ x ∈ bs, s.len[x] ≠ 0#8) (hnodup : bs.Nodup)
    (hplace : placeable s bs) : ∃ a, insertCodes s bs [] = .ok a ∧ TrieMade s bs a :=
  insertCodes_of_trieMade (done := []) (.inl ⟨rfl, rfl⟩) hcoded hnodup hplace

/-- The first code that cannot be placed ends the insertions. -/
theorem insertCodes_of_not_placeable {done rest : List (Fin 256)} {b : Fin 256} (hcoded : ∀ x ∈ done ++ [b], s.len[x] ≠ 0#8)
    (hnodup : (done ++ [b]).Nodup) (hplace : placeable s done) (hnot : ¬ placeable s (done ++ [b])) :
    insertCodes s (done ++ b :: rest) [] = .error ⟨.badTable, BitVec.ofNat 64 b.val⟩ := by
  have hdone : ∀ x ∈ done, s.len[x] ≠ 0#8 := fun x hx => hcoded x (List.mem_append_left _ hx)
  have hnew : b ∉ done := fun hmem => (List.nodup_append.mp hnodup).2.2 b hmem b List.mem_cons_self rfl
  obtain ⟨a, hins, hmade⟩ := insertCodes_of_placeable hdone (List.nodup_append.mp hnodup).1 hplace
  rw [insertCodes_append hins, insertCodes_cons]
  rcases hmade.insertCode hdone hnew (hcoded b (by simp)) with ⟨a', _, hmade'⟩ | ⟨hnone, _⟩
  · exact absurd hmade'.placeable hnot
  · rw [hnone]

end Insertions

/-! ### The bytes with a code -/

theorem codedBytes_eq (len : Vector Byte 256) : codedBytes len = nonzeroBytes len := by
  rw [codedBytes, nonzeroEntries_ramValues, List.map_map]
  exact List.map_id'' (fun b => Fin.ext (Nat.mod_eq_of_lt b.isLt)) _

theorem codedBelow_eq (s : State) (n : Nat) : codedBelow s n = (nonzeroBytes s.len).filter fun b => decide (b.val < n) := by
  rw [nonzeroBytes, List.filter_filter, codedBelow]
  exact List.filter_congr fun b _ => Bool.and_comm _ _

theorem codedBelow_all (s : State) : codedBelow s 256 = nonzeroBytes s.len := by
  rw [codedBelow_eq]
  exact List.filter_eq_self.mpr fun b _ => decide_eq_true b.isLt

/-- The bytes with a code, cut at one of them. -/
theorem nonzeroBytes_split {s : State} {b : Fin 256} (hb : s.len[b] ≠ 0#8) :
    codedBelow s (b.val + 1) = codedBelow s b.val ++ [b] ∧ ∃ rest, nonzeroBytes s.len = codedBelow s b.val ++ b :: rest := by
  obtain ⟨before, rest, hsplit⟩ := List.append_of_mem (mem_nonzeroBytes.mpr hb)
  have hsorted := nonzeroBytes_ascending s.len
  rw [hsplit, List.pairwise_append] at hsorted
  obtain ⟨-, hafter, hacross⟩ := hsorted
  have hbefore {n : Nat} (hn : b.val ≤ n) : before.filter (fun x => decide (x.val < n)) = before :=
    List.filter_eq_self.mpr fun x hx => decide_eq_true (lt_of_lt_of_le (hacross x hx b List.mem_cons_self) hn)
  have hrest {n : Nat} (hn : n ≤ b.val + 1) : rest.filter (fun x => decide (x.val < n)) = [] :=
    List.filter_eq_nil_iff.mpr fun x hx => by
      have : b.val < x.val := List.rel_of_pairwise_cons hafter hx
      simp only [decide_eq_true_eq]
      omega
  have hbelow : codedBelow s b.val = before := by
    rw [codedBelow_eq, hsplit, List.filter_append, hbefore le_rfl, List.filter_cons, hrest (Nat.le_succ _)]
    simp
  refine ⟨?_, rest, by rw [hbelow, hsplit]⟩
  rw [hbelow, codedBelow_eq, hsplit, List.filter_append, hbefore (Nat.le_succ _), List.filter_cons, hrest le_rfl]
  simp

/-! ### The phase and the command -/

/-- The state CTREE commits (46 R232). -/
def State.withTree (s : State) (a : List Node) : State :=
  { s with node := arenaOf a, root := if a = [] then noNode else 0#9, nnodes := BitVec.ofNat 9 a.length }

theorem phaseCtree_of_ok {s : State} {a : List Node} (h : insertCodes s (nonzeroBytes s.len) [] = .ok a) :
    phaseCtree s = .ok (s.withTree a) := by
  rw [phaseCtree, codedBytes_eq, h]
  rfl

theorem phaseCtree_of_error {s : State} {e : Raise} (h : insertCodes s (nonzeroBytes s.len) [] = .error e) :
    phaseCtree s = .error e := by
  rw [phaseCtree, codedBytes_eq, h]

/-- CTREE's phase makes the trie of codes that can all be placed (46 R233). -/
theorem phaseCtree_of_placeable {s : State} (h : placeable s (nonzeroBytes s.len)) :
    ∃ a, phaseCtree s = .ok (s.withTree a) ∧ TrieMade s (nonzeroBytes s.len) a := by
  obtain ⟨a, hins, hmade⟩ := insertCodes_of_placeable (fun _ => mem_nonzeroBytes.mp) (nodup_nonzeroBytes s.len) h
  exact ⟨a, phaseCtree_of_ok hins, hmade⟩

/-- In the trie a path leads to a byte's leaf exactly when it is the byte's code (46 R233). -/
theorem TrieMade.leadsTo_iff {s u : State} {bs : List (Fin 256)} {a : List Node} (h : TrieMade s bs a) {b : Fin 256} (hb : b ∈ bs)
    (hnode : u.node = arenaOf a) (hroot : u.root = 0#9) (p : List Bool) : leadsTo u p b ↔ p = codeWordBits s b := by
  rcases h with ⟨rfl, _⟩ | ⟨_, h⟩
  · cases hb
  have hpath : (b.val, p) ∈ codePaths s bs ↔ p = codeWordBits s b := by
    constructor
    · rintro ⟨x, _, e⟩
      obtain ⟨hx, rfl⟩ := Prod.mk.inj e
      rw [Fin.ext hx]
    · rintro rfl
      exact ⟨b, hb, rfl⟩
  rw [← hpath, h.leaves, leadsTo, hnode, hroot, and_iff_right (by decide)]
  refine exists_congr fun i => and_congr_right fun hi => ?_
  rw [h.tree.nodeAt_eq (h.tree.walk_lt hi)]

theorem exec_ctree {s t : State} (hu : s.undisturbed = true) (h : phaseCtree s = .ok t) :
    exec .ctree s = .next (t.succeeded (nnodesResult t)) :=
  exec_of_returned (i := .ctree) hu (runPlan_always_ok h)

theorem exec_ctree_error {s : State} {e : Raise} (hu : s.undisturbed = true) (h : phaseCtree s = .error e) :
    exec .ctree s = .next (s.failed .ctree e) :=
  exec_of_raised (i := .ctree) hu (runPlan_always_error h)

/-- An arena's number of entries, as a RESULT (10 R35). -/
theorem setWidth_ofNat_nodes {n : Nat} (h : n ≤ 511) : (BitVec.ofNat 9 n).setWidth 64 = BitVec.ofNat 64 n := by
  refine BitVec.eq_of_toNat_eq ?_
  simp only [BitVec.toNat_setWidth, BitVec.toNat_ofNat]
  omega

/-- CTREE of codes that can all be placed. -/
theorem exec_ctree_of_placeable {s : State} (hu : s.undisturbed = true) (h : placeable s (nonzeroBytes s.len)) :
    ∃ a, TrieMade s (nonzeroBytes s.len) a ∧ exec .ctree s = .next { s with
      node := arenaOf a, nnodes := BitVec.ofNat 9 (trieNodes s (nonzeroBytes s.len))
      root := if codedSymbols s = 0 then noNode else 0#9
      result := BitVec.ofNat 64 (trieNodes s (nonzeroBytes s.len)), running := none
      status := { s.status with done := true, phase := .idle } } := by
  obtain ⟨a, hphase, hmade⟩ := phaseCtree_of_placeable h
  have hempty : a = [] ↔ codedSymbols s = 0 := by rw [hmade.eq_nil_iff, codedSymbols_eq, List.length_eq_zero_iff]
  refine ⟨a, hmade, ?_⟩
  rw [exec_ctree hu hphase, nnodesResult, ← setWidth_ofNat_nodes h.2, ← hmade.length_eq]
  simp only [State.withTree, State.succeeded, hempty]

/-- Settles O43: each insertion adds the path of its code to the trie of the codes before it, or the code cannot be placed beside them. -/
theorem ctreeResult : Obligations.CtreeResult := by
  intro s hu
  rw [codedBelow_all]
  refine ⟨fun hplace => ?placed, fun b hb hplace hnot => ?refused⟩
  case placed =>
    obtain ⟨a, hmade, hexec⟩ := exec_ctree_of_placeable hu hplace
    exact ⟨arenaOf a, hexec, fun b p hb =>
      hmade.leadsTo_iff (u := { s with node := arenaOf a, root := 0#9 }) (mem_nonzeroBytes.mpr hb) rfl rfl p⟩
  case refused =>
    obtain ⟨hnext, rest, hsplit⟩ := nonzeroBytes_split hb
    rw [hnext] at hnot
    have hpart : (codedBelow s b.val ++ [b]).Sublist (nonzeroBytes s.len) := by
      rw [hsplit]
      exact List.Sublist.append_left (by simp) _
    refine exec_ctree_error hu (phaseCtree_of_error ?_)
    rw [hsplit]
    exact insertCodes_of_not_placeable (fun x hx => mem_nonzeroBytes.mp (hpart.subset hx))
      ((nodup_nonzeroBytes s.len).sublist hpart) hplace hnot

end Sys2Proof.Machine
end

section
/-!
The trie of codes of which none begins with another and which fill the code space: every inner node has two children, so n codes make
2n - 1 nodes; and CTREE after CANON (42 R155, 46 R232; O44).
-/
namespace Sys2Proof.Machine

/-! ### Codes by their first bit -/

/-- No code begins with another (42 R156). -/
def PrefixFreeCodes (codes : List (List Bool)) : Prop := codes.Pairwise fun p q => ¬ p <+: q ∧ ¬ q <+: p

/-- The prefixes of some codes. -/
def prefixesOf (codes : List (List Bool)) : Finset (List Bool) := (codes.flatMap List.inits).toFinset

@[simp] theorem mem_prefixesOf {codes : List (List Bool)} {q : List Bool} : q ∈ prefixesOf codes ↔ ∃ p ∈ codes, q <+: p := by
  simp [prefixesOf]

/-- A code without its first bit, where that is `c`. -/
def dropFirst (c : Bool) : List Bool → Option (List Bool)
  | [] => none
  | d :: p => if d = c then some p else none

theorem dropFirst_eq_some {c : Bool} {p q : List Bool} : dropFirst c p = some q ↔ p = c :: q := by
  cases p with
  | nil => simp [dropFirst]
  | cons d p => by_cases h : d = c <;> simp [dropFirst, h]

/-- The codes that begin with `c`, without it. -/
def residual (c : Bool) (codes : List (List Bool)) : List (List Bool) := codes.filterMap (dropFirst c)

@[simp] theorem mem_residual {c : Bool} {codes : List (List Bool)} {q : List Bool} : q ∈ residual c codes ↔ c :: q ∈ codes := by
  simp [residual, dropFirst_eq_some]

theorem PrefixFreeCodes.residual {codes : List (List Bool)} (h : PrefixFreeCodes codes) (c : Bool) :
    PrefixFreeCodes (residual c codes) := by
  refine List.Pairwise.filterMap _ (fun p q hpq p' hp q' hq => ?_) h
  rw [dropFirst_eq_some.mp hp, dropFirst_eq_some.mp hq] at hpq
  simpa using hpq

/-- Nonempty codes begin with 0 or with 1. -/
theorem perm_residuals {codes : List (List Bool)} (h : [] ∉ codes) :
    codes.Perm ((residual false codes).map (false :: ·) ++ (residual true codes).map (true :: ·)) := by
  induction codes with
  | nil => exact .refl _
  | cons p codes ih =>
    obtain ⟨hp, hcodes⟩ := not_or.mp (mt List.mem_cons.mpr h)
    match p with
    | [] => exact absurd rfl hp
    | false :: q => exact (ih hcodes).cons _
    | true :: q => exact ((ih hcodes).cons _).trans List.perm_middle.symm

theorem prefixesOf_eq {codes : List (List Bool)} (hne : codes ≠ []) :
    prefixesOf codes = insert [] ((prefixesOf (residual false codes)).image (false :: ·)
      ∪ (prefixesOf (residual true codes)).image (true :: ·)) := by
  ext q
  cases q with
  | nil => simpa using List.exists_mem_of_ne_nil codes hne
  | cons d q => cases d <;> simp [List.cons_prefix_iff]

/-- One node above those of the two parts. -/
theorem card_prefixesOf {codes : List (List Bool)} (hne : codes ≠ []) :
    (prefixesOf codes).card = (prefixesOf (residual false codes)).card + (prefixesOf (residual true codes)).card + 1 := by
  have hcons (c : Bool) : Function.Injective fun q : List Bool => c :: q := fun _ _ h => (List.cons.inj h).2
  rw [prefixesOf_eq hne, Finset.card_insert_of_notMem (by simp), Finset.card_union_of_disjoint, Finset.card_image_of_injective _ (hcons _),
    Finset.card_image_of_injective _ (hcons _)]
  simp only [Finset.disjoint_left, Finset.mem_image]
  rintro _ ⟨p, -, rfl⟩ ⟨q, -, h⟩
  simp at h

/-- Every code begins with the empty one. -/
theorem eq_singleton_of_nil_mem {codes : List (List Bool)} (h : PrefixFreeCodes codes) (hnil : [] ∈ codes) : codes = [[]] := by
  obtain ⟨before, after, rfl⟩ := List.append_of_mem hnil
  obtain ⟨-, hafter, hacross⟩ := List.pairwise_append.mp h
  have hb : before = [] := List.eq_nil_iff_forall_not_mem.mpr fun p hp => (hacross p hp [] List.mem_cons_self).2 List.nil_prefix
  have ha : after = [] := List.eq_nil_iff_forall_not_mem.mpr fun p hp => (List.rel_of_pairwise_cons hafter hp).1 List.nil_prefix
  rw [hb, ha, List.nil_append]

/-! ### Complete codes -/

/-- The part of the code space some codes fill, in 2^n-ths (42 R155). -/
def kraftOf (n : Nat) (codes : List (List Bool)) : Nat := (codes.map fun p => 2 ^ (n - p.length)).sum

theorem kraftOf_succ {codes : List (List Bool)} (h : [] ∉ codes) (n : Nat) :
    kraftOf (n + 1) codes = kraftOf n (residual false codes) + kraftOf n (residual true codes) := by
  rw [kraftOf, ((perm_residuals h).map _).sum_nat, List.map_append, List.sum_append, List.map_map, List.map_map]
  simp [kraftOf, Function.comp_def]

/-- What codes of which none begins with another fill, and the nodes of their trie: they fill at most the code space, and where they
fill it their trie has one node less than twice as many as there are codes. -/
def FillsAtMost (n : Nat) (codes : List (List Bool)) : Prop :=
  kraftOf n codes ≤ 2 ^ n ∧ (kraftOf n codes = 2 ^ n → (prefixesOf codes).card + 1 = 2 * codes.length)

theorem fillsAtMost_of_nil_mem {codes : List (List Bool)} (h : PrefixFreeCodes codes) (hnil : [] ∈ codes) (n : Nat) :
    FillsAtMost n codes := by
  rw [eq_singleton_of_nil_mem h hnil]
  simp [FillsAtMost, kraftOf, prefixesOf]

theorem fillsAtMost_nil (n : Nat) : FillsAtMost n [] :=
  ⟨Nat.zero_le _, fun h => absurd h (Nat.two_pow_pos n).ne⟩

/-- Two parts that fill a space of half the size each. -/
theorem fillsAtMost_succ {codes : List (List Bool)} (hnil : [] ∉ codes) {n : Nat} (h : ∀ c, FillsAtMost n (residual c codes)) :
    FillsAtMost (n + 1) codes := by
  obtain ⟨hzero, hzero'⟩ := h false
  obtain ⟨hone, hone'⟩ := h true
  rw [FillsAtMost, kraftOf_succ hnil, Nat.pow_succ]
  refine ⟨by omega, fun hfull => ?_⟩
  have hne : codes ≠ [] := by
    rintro rfl
    simp [kraftOf, residual] at hfull
  have hlen := (perm_residuals hnil).length_eq
  rw [List.length_append, List.length_map, List.length_map] at hlen
  have hcount := hzero' (by omega)
  have hcount' := hone' (by omega)
  rw [card_prefixesOf hne]
  omega

theorem PrefixFreeCodes.fillsAtMost {codes : List (List Bool)} (h : PrefixFreeCodes codes) {n : Nat}
    (hn : ∀ p ∈ codes, p.length ≤ n) : FillsAtMost n codes := by
  induction n generalizing codes with
  | zero =>
    by_cases hnil : [] ∈ codes
    · exact fillsAtMost_of_nil_mem h hnil 0
    · have hempty : codes = [] := List.eq_nil_iff_forall_not_mem.mpr fun p hp =>
        hnil (List.length_eq_zero_iff.mp (Nat.le_zero.mp (hn p hp)) ▸ hp)
      exact hempty ▸ fillsAtMost_nil 0
  | succ n ih =>
    by_cases hnil : [] ∈ codes
    · exact fillsAtMost_of_nil_mem h hnil (n + 1)
    · exact fillsAtMost_succ hnil fun c => ih (h.residual c) fun p hp => by simpa using hn _ (mem_residual.mp hp)

/-! ### The codes of a table CANON accepts -/

section Accepted
variable {t : State}

/-- The codes of the table, by ascending byte. -/
def codeList (t : State) : List (List Bool) := (nonzeroBytes t.len).map (codeWordBits t)

theorem prefixFree_codeList (h : codesPrefixFree t) : PrefixFreeCodes (codeList t) := by
  rw [PrefixFreeCodes, codeList, List.pairwise_map]
  refine List.Pairwise.imp_of_mem (fun ha hb hne => ?_) (nodup_nonzeroBytes t.len)
  exact ⟨h _ _ hne (mem_nonzeroBytes.mp ha) (mem_nonzeroBytes.mp hb), h _ _ hne.symm (mem_nonzeroBytes.mp hb) (mem_nonzeroBytes.mp ha)⟩

theorem card_prefixesOf_codeList (t : State) : (prefixesOf (codeList t)).card = trieNodes t (nonzeroBytes t.len) := by
  rw [← card_codePrefixes, codePrefixes, prefixesOf, codeList, List.flatMap_map]

theorem kraftOf_codeList (t : State) : kraftOf 255 (codeList t) = kraftTotal t.len := by
  rw [kraftTotal_eq, kraftOf, codeList, List.map_map]
  simp only [Function.comp_def, length_codeWordBits]

/-- The nodes of the trie of a table CANON accepts (46 R232). -/
theorem trieNodes_of_lengthsOk (hok : lengthsOk t) (hfree : codesPrefixFree t) : trieNodes t (nonzeroBytes t.len)
    = if codedSymbols t = 0 then 0 else if codedSymbols t = 1 then 2 else 2 * codedSymbols t - 1 := by
  rcases (lengthsOk_iff t).mp hok with h | ⟨h, hone⟩ | ⟨h, hkraft⟩
  · rw [if_pos h, List.length_eq_zero_iff.mp ((codedSymbols_eq t).symm.trans h)]
    rfl
  · obtain ⟨b, hb⟩ := List.length_eq_one_iff.mp ((codedSymbols_eq t).symm.trans h)
    have hlen : t.len[b] = 1#8 := hone _ (by simp) (mem_nonzeroBytes.mp (hb ▸ List.mem_singleton_self b))
    obtain ⟨c, hc⟩ := List.length_eq_one_iff.mp ((length_codeWordBits t b).trans (congrArg BitVec.toNat hlen))
    rw [h, hb, trieNodes, List.flatMap_singleton, hc]
    cases c <;> decide
  · have hbits : ∀ p ∈ codeList t, p.length ≤ 255 := fun p hp => by
      obtain ⟨b, _, rfl⟩ := List.mem_map.mp hp
      rw [length_codeWordBits]
      have := t.len[b].isLt
      omega
    obtain ⟨-, hfull⟩ := (prefixFree_codeList hfree).fillsAtMost hbits
    have hcount := hfull ((kraftOf_codeList t).trans hkraft)
    rw [card_prefixesOf_codeList, codeList, List.length_map, ← codedSymbols_eq] at hcount
    rw [if_neg (by omega), if_neg (by omega)]
    omega

/-- CTREE can place the codes of a table CANON accepts: n codes make at most 511 nodes. -/
theorem placeable_of_lengthsOk (hok : lengthsOk t) (hfree : codesPrefixFree t) : placeable t (nonzeroBytes t.len) := by
  refine ⟨fun a ha b hb hne => hfree a b hne (mem_nonzeroBytes.mp ha) (mem_nonzeroBytes.mp hb), ?_⟩
  have hle := codedSymbols_le t
  rw [trieNodes_of_lengthsOk hok hfree]
  split_ifs <;> omega

end Accepted

/-! ### CTREE after CANON -/

/-- No code of CANON's table begins with another (42 R156). -/
theorem codesPrefixFree_canonized {s : State} (h : lengthsOk s) : codesPrefixFree s.canonized :=
  codesPrefixFree_of_canonTable rfl (kraftTotal_le_of_lengthsOk h)

/-- Settles O44: CANON's codes fill the code space, so their trie has two children at each inner node and fits the arena. -/
theorem ctreeAfterCanon : Obligations.CtreeAfterCanon := by
  intro s t hu hok h
  obtain rfl := exec_next_unique h (exec_canon hu hok)
  obtain ⟨a, hmade, hexec⟩ := exec_ctree_of_placeable (s := s.canonized.succeeded (BitVec.ofNat 64 (codedSymbols s))) rfl
    (placeable_of_lengthsOk hok (codesPrefixFree_canonized hok))
  refine ⟨_, hexec, ⟨rfl, ?_, rfl, rfl⟩, fun b hb => ?_⟩
  · exact congrArg (BitVec.ofNat 64) (trieNodes_of_lengthsOk hok (codesPrefixFree_canonized hok))
  · have hsome : codedSymbols s ≠ 0 := fun e => by
      rw [codedSymbols_eq, List.length_eq_zero_iff] at e
      exact absurd (e ▸ mem_nonzeroBytes.mpr hb) List.not_mem_nil
    refine (hmade.leadsTo_iff (mem_nonzeroBytes.mpr hb) ?_ ?_ _).mpr rfl
    · rfl
    · exact if_neg hsome

end Sys2Proof.Machine
end

section
/-!
The stream COMPRESS writes: the tables it is coded with, its header, which is a valid one, and its payload, one after the other at OUT_BASE
(47 R260, 45 R211).
-/
namespace Sys2Proof.Machine

theorem afterPhase_of_ok {f : State → Except Raise State} {s t : State} (h : f s = .ok t) : afterPhase f s = t := by
  rw [afterPhase, h]

/-! ### The tables (47 R260) -/

/-- The state after the phases HIST and BUILD of COMPRESS. -/
def State.built (s : State) : State := afterPhase phaseBuild (afterPhase phaseHist s)

/-- The code table of BUILD's tree. -/
def State.withTableCodes (s : State) (t : PathTable) : State :=
  { s with len := pathLens (treeOperands s.node s.root) t, code := pathCodes (treeOperands s.node s.root) t }

/-- The code table COMPRESS(tm) leaves, where BUILD's tree has the paths `t`. -/
def State.withTables (tm : TableMode) (s : State) (t : PathTable) : State :=
  match tm with
  | .freq => s.withTableCodes t
  | .canon => (s.withTableLens t).canonized

section Tables
variable {s : State} {table : PathTable} (h : BuildTable s.built.hist table)
include h

theorem derivePaths_built : derivePaths s.built.node s.built.root = some table := h.derived

theorem lengthsOk_built : lengthsOk (s.built.withTableLens table) := lengthsOk_of_buildTable h rfl

theorem compressTables_eq (tm : TableMode) : compressTables tm s = s.built.withTables tm table := by
  cases tm with
  | freq => exact afterPhase_of_ok (phaseDerive_some (derivePaths_built h))
  | canon =>
    have hderive : afterPhase (phaseDerive .canon) s.built = s.built.withTableLens table :=
      afterPhase_of_ok (phaseDerive_canon (derivePaths_built h))
    rw [compressTables]
    refine (congrArg (afterPhase phaseCanon) hderive).trans ?_
    exact afterPhase_of_ok (phaseCanon_of_lengthsOk (lengthsOk_built h))

end Tables

/-- What COMPRESS's tables are made of: the counts of the input, the paths of the tree of these counts, and for these lengths the codes
of the mode; memory and the regions as they were (47 R260). -/
structure CodedWith (tm : TableMode) (s c : State) (table : PathTable) : Prop where
  tree : BuildTable c.hist table
  hist : ∀ b : Fin 256, c.hist[b].toNat = byteCount (inputBytes s) b
  len : ∃ ops, c.len = pathLens ops table ∧ (tm = .freq → c.code = pathCodes ops table)
  code : tm = .canon → c.code = canonTable c.len
  input : inputBytes c = inputBytes s
  outBase : c.outBase = s.outBase
  mem : c.mem = s.mem
  origLen : c.origLen = s.inLen

theorem exists_codedWith (tm : TableMode) (s : State) : ∃ table, CodedWith tm s (compressTables tm s) table := by
  obtain ⟨table, htable⟩ := exists_buildTable s.built.hist
  refine ⟨table, ?_⟩
  rw [compressTables_eq htable]
  cases tm with
  | freq => exact ⟨htable, toNat_hist_afterPhase s, ⟨_, rfl, fun _ => rfl⟩, nofun, rfl, rfl, rfl, rfl⟩
  | canon => exact ⟨htable, toNat_hist_afterPhase s, ⟨_, rfl, nofun⟩, fun _ => rfl, rfl, rfl, rfl, rfl⟩

/-- The phases that make the tables leave these. -/
theorem eq_compressTables {tm : TableMode} {s t : State} (h : runPlan (tablePhases tm) s = .returned t) : t = compressTables tm s := by
  obtain ⟨v, hcommon, hcanon⟩ := runPlan_append_returned h
  obtain ⟨-, hrun⟩ := runPlan_checked_returned hcommon
  obtain ⟨s₁, hhist, hrun⟩ := runPlan_always_returned hrun
  obtain ⟨s₂, hbuild, hrun⟩ := runPlan_always_returned hrun
  obtain ⟨s₃, hderive, hrun⟩ := runPlan_always_returned hrun
  obtain rfl : s₃ = v := by injection hrun
  rw [← afterPhase_of_ok hhist] at hbuild
  rw [← afterPhase_of_ok hbuild] at hderive
  rw [← afterPhase_of_ok hderive] at hcanon
  cases tm with
  | freq => injection hcanon with hcanon; exact hcanon.symm
  | canon => exact (afterPhase_of_ok (eq_ok_of_runPlan_single hcanon)).symm

namespace CodedWith

variable {tm : TableMode} {s c : State} {table : PathTable}

theorem histTotal (h : CodedWith tm s c table) : histTotal c.hist = s.inLen.toNat := by
  rw [Machine.histTotal, List.map_congr_left fun b _ => h.hist b, sum_byteCount, length_inputBytes]

theorem nonzeroBytes_len (h : CodedWith tm s c table) : nonzeroBytes c.len = nonzeroBytes c.hist := by
  obtain ⟨ops, hlen, -⟩ := h.len
  rw [hlen, h.tree.nonzeroBytes_pathLens]

theorem lengthsOk (h : CodedWith tm s c table) : lengthsOk c := by
  obtain ⟨ops, hlen, -⟩ := h.len
  exact lengthsOk_of_buildTable h.tree hlen

theorem length_headerEntries (h : CodedWith tm s c table) : (headerEntries tm c).length = (nonzeroBytes c.hist).length := by
  cases tm with
  | freq => rw [headerEntries, nonzeroEntries_ramValues, List.length_map]
  | canon => rw [headerEntries, nonzeroEntries_ramValues, List.length_map, h.nonzeroBytes_len]

/-- No byte is counted exactly when there is no input. -/
theorem nonzeroBytes_eq_nil_iff (h : CodedWith tm s c table) : nonzeroBytes c.hist = [] ↔ s.inLen.toNat = 0 := by
  rw [← h.histTotal, histTotal_eq]
  constructor
  · intro hnil
    rw [hnil]
    rfl
  · refine fun hsum => List.eq_nil_iff_forall_not_mem.mpr fun b hb => mem_nonzeroBytes.mp hb (BitVec.eq_of_toNat_eq ?_)
    exact Nat.eq_zero_of_le_zero (hsum ▸ List.le_sum_of_mem (List.mem_map_of_mem hb))

/-! ### The header is valid (45 R211) -/

theorem entriesFault_headerEntries (h : CodedWith tm s c table) : entriesFault tm s.inLen.toNat (headerEntries tm c) = none := by
  have hempty := h.nonzeroBytes_eq_nil_iff
  cases tm with
  | freq =>
    rw [entriesFault_freq_eq_none_iff, headerEntries, nonzeroEntries_ramValues, List.map_map, ← h.histTotal, histTotal_eq]
    rfl
  | canon =>
    rw [← h.nonzeroBytes_len] at hempty
    rw [entriesFault_canon_eq_none_iff, headerEntries, nonzeroEntries_ramValues, List.length_map, List.map_map, List.map_map,
      List.map_eq_nil_iff, ← codedSymbols_eq]
    refine ⟨hempty, fun hone => ?single, fun htwo => ?several⟩ <;>
      rcases (lengthsOk_iff c).mp h.lengthsOk with hn | ⟨hn, hbit⟩ | ⟨hn, hkraft⟩
    case single.inr.inl =>
      obtain ⟨b, hb⟩ := List.length_eq_one_iff.mp ((codedSymbols_eq c).symm.trans hn)
      have hlen : c.len[b] = 1#8 := hbit _ (by simp) (mem_nonzeroBytes.mp (hb ▸ List.mem_singleton_self b))
      rw [hb, List.map_singleton, Function.comp_apply, hlen]
      rfl
    case several.inr.inr => exact (kraftTotal_eq c.len).symm.trans hkraft
    all_goals omega

theorem validEntries (h : CodedWith tm s c table) : validEntries tm s.inLen.toNat (headerEntries tm c) := by
  refine validEntries_iff.mpr ⟨?_, s.inLen.isLt, fun e he => ?_, h.entriesFault_headerEntries⟩
  · cases tm <;> exact nonzeroEntries_ascending _
  · cases tm <;>
    · obtain ⟨hb, hv, hne⟩ := mem_nonzeroEntries_ram.mp he
      exact ⟨⟨hb, hv ▸ BitVec.isLt _⟩, hne⟩

end CodedWith

/-! ### The stream in memory -/

theorem Memory.writeBytes_append (m : Memory) (base : Nat) (as bs : List Byte) :
    m.writeBytes base (as ++ bs) = (m.writeBytes base as).writeBytes (base + as.length) bs := by
  induction as generalizing m base with
  | nil => rfl
  | cons a as ih =>
    rw [List.cons_append, Memory.writeBytes, ih, Memory.writeBytes, List.length_cons, Nat.add_right_comm, Nat.add_assoc]

/-- The header and the payload of a stream (47 R260). -/
def streamBytes (tm : TableMode) (olen : Nat) (c : State) (xs : List Byte) : List Byte :=
  headerBytes tm olen (headerEntries tm c) ++ pack (codeStream c xs)

/-- The header is no part of the input (20 R73). -/
theorem inputBytes_of_phaseWrhdr {tm : TableMode} {t u : State} (hreg : regionsOk true true t = true) (h : phaseWrhdr tm t = .ok u) :
    inputBytes u = inputBytes t := by
  have hk := phaseWrhdr_keepsOutside h (keepsOutside_of_mem rfl (0, wrhdrLen tm t)) rfl le_rfl
  have hframe := phaseWrhdr_frame h
  exact inputBytes_of_keepsOutside hreg (phaseWrhdr_ok h).1 hk hframe.inBase hframe.inLen

/-- What the phases that write the stream leave: the stream at OUT_BASE, and its length as RESULT. -/
theorem streamPhases_returned {tm : TableMode} {s v u : State} {n : Nat} (hs : StreamSized tm s v n)
    (h : runPlan (streamPhases tm) v = .returned u) :
    let stream := streamBytes tm v.origLen.toNat v (inputBytes v)
    u.mem = s.mem.writeBytes s.outBase.toNat stream ∧ u.outBase = s.outBase ∧ stream.length ≤ s.outCap.toNat
      ∧ (streamResult u).toNat = stream.length := by
  obtain ⟨v', hcheck, hrun⟩ := runPlan_always_returned h
  obtain ⟨rfl, hfits⟩ := phaseCcheck_ok hcheck
  obtain ⟨w, hwrhdr, hrun⟩ := runPlan_always_returned hrun
  obtain ⟨hoff, hlength⟩ := lengthPass_of_phaseWrhdr hs.regions hwrhdr
  have hinput := inputBytes_of_phaseWrhdr hs.regions hwrhdr
  obtain ⟨m, hm, -, rfl⟩ := phaseEncode_ok (eq_ok_of_runPlan_single hrun)
  obtain rfl : n = m := Except.ok.inj ((hlength.trans hs.length).symm.trans hm)
  obtain ⟨-, hw⟩ := phaseWrhdr_ok hwrhdr
  have hpayload : payloadBytes w = pack (codeStream v' (inputBytes v')) := by
    rw [payloadBytes, hinput, hw]
    rfl
  have hlen : (streamBytes tm v'.origLen.toNat v' (inputBytes v')).length = wrhdrLen tm v' + ceilDiv n 8 := by
    rw [streamBytes, List.length_append, length_headerBytes, ← hpayload, length_payloadBytes hm]
    rfl
  have hneed : wrhdrLen tm v' + ceilDiv n 8 ≤ s.outCap.toNat := by rwa [← hs.need, ← hs.outCap]
  refine ⟨?mem, ?base, hlen.trans_le hneed, ?result⟩
  case mem =>
    have hhead : w.outBase.toNat + w.payloadOff.toNat
        = s.outBase.toNat + (headerBytes tm v'.origLen.toNat (headerEntries tm v')).length := by
      rw [hoff, (phaseWrhdr_frame hwrhdr).outBase, hs.outBase, length_headerBytes]
      rfl
    rw [streamBytes, Memory.writeBytes_append, ← hpayload, ← hhead, ← hs.mem, ← hs.outBase]
    exact congrArg (fun m => Memory.writeBytes m _ _) (congrArg State.mem hw)
  case base => exact (phaseWrhdr_frame hwrhdr).outBase.trans hs.outBase
  case result =>
    have hhdr : w.hdrLen = BitVec.ofNat 64 (wrhdrLen tm v') := congrArg State.hdrLen hw
    rw [hlen, streamResult, hhdr, ← BitVec.ofNat_add]
    exact Nat.mod_eq_of_lt (hneed.trans_lt s.outCap.isLt)

/-- The stream a COMPRESS(tm) that succeeds leaves at OUT_BASE, RESULT bytes long; every input byte has a code. -/
theorem outBytes_of_compress {tm : TableMode} {s t : State} (hu : s.undisturbed = true) (hwf : s.mem.wf = true)
    (h : exec (compressOf tm) s = .next t) (herr : t.status.err = false) :
    firstUncoded (compressTables tm s).len (inputBytes s) = none
      ∧ t.outBytes t.result.toNat = streamBytes tm s.inLen.toNat (compressTables tm s) (inputBytes s) := by
  obtain ⟨table, hc⟩ := exists_codedWith tm s
  obtain ⟨u, hret, rfl⟩ := exec_returned hu h herr
  rw [compress_plan] at hret
  obtain ⟨c, htables, hrun⟩ := runPlan_append_returned hret
  rw [← eq_compressTables htables] at hc ⊢
  obtain ⟨v, hestimate, hstream⟩ := runPlan_always_returned hrun
  obtain ⟨n, hsized⟩ := streamSized (tablesMade htables) hestimate
  obtain ⟨hmem, hbase, hfits, hresult⟩ := streamPhases_returned hsized hstream
  obtain ⟨_, hpass, hv⟩ := phaseEstimate_ok hestimate
  obtain ⟨hcoded, -, -⟩ := lengthPass_ok hpass
  obtain ⟨_, hfirst, -⟩ := runPlan_append_returned htables
  obtain ⟨hreg, -⟩ := runPlan_checked_returned hfirst
  have hbytes : streamBytes tm v.origLen.toNat v (inputBytes v) = streamBytes tm s.inLen.toNat c (inputBytes s) := by
    rw [← hc.origLen, ← hc.input, hv]
    cases tm <;> rfl
  have hr : (commandOf (compressOf tm)).result u = streamResult u := by cases tm <;> rfl
  refine ⟨hc.input ▸ hcoded, ?_⟩
  rw [hr, State.outBytes, State.succeeded_mem, State.succeeded_outBase, State.succeeded_result, hmem, hbase, hresult, ← hbytes]
  exact Memory.readBytes_writeBytes hwf _ _ (outBase_add_le hreg hfits)

end Sys2Proof.Machine
end

section
/-!
DECOMPRESS of a stream that COMPRESS wrote: the table its header gives back, the tree rebuilt from it, which reads the payload's codes, and
the stream cut by its last byte (46 R241, 47 R266; O60).
-/
namespace Sys2Proof.Machine

/-! ### The parsed table -/

/-- A RAM's entries give back the RAM. -/
theorem entryValue_nonzeroEntries {w : Nat} (v : Vector (BitVec w) 256) (b : Fin 256) :
    entryValue (nonzeroEntries (ramValues v)) b = v[b].toNat := by
  have hnodup : ((nonzeroEntries (ramValues v)).map Prod.fst).Nodup :=
    (nonzeroEntries_ascending (ramValues v)).map _ fun _ _ h => h.ne
  by_cases hb : v[b].toNat = 0
  · have hkey : b.val ∉ (nonzeroEntries (ramValues v)).map Prod.fst := fun hmem => by
      obtain ⟨e, he, hk⟩ := List.mem_map.mp hmem
      obtain ⟨_, hv, hne⟩ := mem_nonzeroEntries_ram.mp he
      simp only [hk] at hv
      exact hne (hv.symm.trans hb)
    rw [entryValue, lookup_of_not_mem hkey, hb]
    rfl
  · have hmem : (b.val, v[b].toNat) ∈ nonzeroEntries (ramValues v) := mem_nonzeroEntries_ram.mpr ⟨b.isLt, rfl, hb⟩
    rw [entryValue, lookup_of_mem hnodup hmem]
    rfl

theorem vector_eq_of_toNat {w : Nat} {v v' : Vector (BitVec w) 256} (h : ∀ b : Fin 256, v[b].toNat = v'[b].toNat) : v = v' :=
  Vector.ext fun i hi => BitVec.eq_of_toNat_eq (h ⟨i, hi⟩)

theorem hist_parsedState_headerEntries (c u : State) : (parsedState .freq (headerEntries .freq c) u).hist = c.hist := by
  refine vector_eq_of_toNat fun b => (hist_parsedState (fun e he => ?_) u b).trans (entryValue_nonzeroEntries c.hist b)
  obtain ⟨hb, hv, -⟩ := mem_nonzeroEntries_ram.mp he
  exact ⟨hb, hv ▸ BitVec.isLt _⟩

theorem len_parsedState_headerEntries (c u : State) : (parsedState .canon (headerEntries .canon c) u).len = c.len := by
  refine vector_eq_of_toNat fun b => (len_parsedState (fun e he => ?_) u b).trans (entryValue_nonzeroEntries c.len b)
  obtain ⟨hb, hv, -⟩ := mem_nonzeroEntries_ram.mp he
  exact ⟨hb, hv ▸ BitVec.isLt _⟩

/-! ### The tree rebuilt (47 R266) -/

theorem runPlan_rebuild_freq {v : State} (h : v.te = .freq) :
    runPlan rebuildPhases v = .returned (afterPhase phaseBuild v) := by
  have hte : (afterPhase phaseBuild v).te = .freq := h
  rw [rebuildPhases, runPlan_ok (t := afterPhase phaseBuild v) (by simp [onFreq, h]) rfl,
    runPlan_skip (by simp [onCanon, hte]), runPlan_skip (by simp [onCanon, hte]), runPlan_nil]

theorem runPlan_rebuild_canon {v w : State} (h : v.te = .canon) (hok : lengthsOk v) (hw : phaseCtree v.canonized = .ok w) :
    runPlan rebuildPhases v = .returned w := by
  have hte : v.canonized.te = .canon := h
  rw [rebuildPhases, runPlan_skip (by simp [onFreq, h]), runPlan_ok (by simp [onCanon, h]) (phaseCanon_of_lengthsOk hok),
    runPlan_ok (by simp [onCanon, hte]) hw, runPlan_nil]

/-- The registers DECODE reads beside the tree, and the bytes, are as they were. -/
structure SameStream (v w : State) : Prop where
  input : inputBytes w = inputBytes v
  inLen : w.inLen = v.inLen
  outCap : w.outCap = v.outCap
  origLen : w.origLen = v.origLen
  payloadOff : w.payloadOff = v.payloadOff

theorem sameStream_build (v : State) : SameStream v (afterPhase phaseBuild v) := ⟨rfl, rfl, rfl, rfl, rfl⟩

theorem sameStream_tree (v : State) (a : List Node) : SameStream v (v.canonized.withTree a) := ⟨rfl, rfl, rfl, rfl, rfl⟩

/-- The tree DECOMPRESS rebuilds from a header of COMPRESS's tables leads each byte's code to its leaf. -/
theorem rebuild_leads {tm : TableMode} {s c u : State} {table : PathTable} (hc : CodedWith tm s c table) :
    ∃ w, runPlan rebuildPhases (parsedState tm (headerEntries tm c) u) = .returned w
      ∧ SameStream (parsedState tm (headerEntries tm c) u) w
      ∧ ∀ b : Fin 256, c.len[b] ≠ 0#8 → leadsTo w (codeWordBits c b) b := by
  obtain ⟨ops, hlen, hcode⟩ := hc.len
  cases tm with
  | freq =>
    have hhist := hist_parsedState_headerEntries c u
    have hte : (parsedState .freq (headerEntries .freq c) u).te = .freq := by rw [parsedState]
    generalize parsedState .freq (headerEntries .freq c) u = v at hhist hte ⊢
    refine ⟨_, runPlan_rebuild_freq hte, sameStream_build v, fun b hb => ?_⟩
    rw [codeWordBits_of_buildTable hc.tree hlen (hcode rfl)]
    refine (hc.tree.leads _ ?_ ?_ _ b).mpr (hc.tree.pathOf_mem fun e => hb ?_)
    · exact congrArg (fun h => arenaOf (buildMerged h).2) hhist
    · exact congrArg buildRoot hhist
    · rw [hlen, hc.tree.pathLens_eq_zero, e]
  | canon =>
    have hlens := len_parsedState_headerEntries c u
    have hte : (parsedState .canon (headerEntries .canon c) u).te = .canon := by rw [parsedState]
    generalize parsedState .canon (headerEntries .canon c) u = v at hlens hte ⊢
    have hok : lengthsOk v := (lengthsOk_congr hlens).mpr hc.lengthsOk
    obtain ⟨a, hphase, hmade⟩ := phaseCtree_of_placeable (placeable_of_lengthsOk (t := v.canonized) hok (codesPrefixFree_canonized hok))
    refine ⟨_, runPlan_rebuild_canon hte hok hphase, sameStream_tree v a, fun b hb => ?_⟩
    have hbits : codeWordBits c b = codeWordBits v.canonized b := by
      rw [codeWordBits, codeWordBits, hc.code rfl, ← hlens]
      rfl
    have hmem : b ∈ nonzeroBytes v.canonized.len := mem_nonzeroBytes.mpr (hlens.symm ▸ hb)
    refine (hmade.leadsTo_iff hmem ?_ ?_ _).mpr hbits
    · rfl
    · exact if_neg fun e => List.ne_nil_of_mem hmem (hmade.eq_nil_iff.mp e)

/-! ### A payload cut by its last byte (46 R241) -/

/-- Bits behind those a walk takes are left over. -/
theorem walkCode_append {node : Vector Node 511} {root i : Index} {k : Nat} {bits : List Bool} {x : Index × List Bool}
    (h : walkCode node root k i bits = .ok x) (ext : List Bool) : walkCode node root k i (bits ++ ext) = .ok (x.1, x.2 ++ ext) := by
  induction bits generalizing i with
  | nil =>
    cases hleaf : (nodeAt node i).leaf with
    | true =>
      rw [walkCode_of_leaf hleaf] at h
      cases h
      exact walkCode_of_leaf hleaf ext
    | false => rw [walkCode_nil hleaf] at h; cases h
  | cons c bits ih =>
    rw [List.cons_append, walkCode]
    rw [walkCode] at h
    split
    · next hleaf => rw [if_pos hleaf] at h; cases h; rfl
    · next hleaf =>
      rw [if_neg hleaf] at h
      split
      · next hchild => rw [if_pos hchild] at h; cases h
      · next hchild => rw [if_neg hchild] at h; exact ih h

theorem decodeSymbol_append {node : Vector Node 511} {root : Index} {k : Nat} {bits : List Bool} {x : Index × List Bool}
    (h : decodeSymbol node root k bits = .ok x) (ext : List Bool) : decodeSymbol node root k (bits ++ ext) = .ok (x.1, x.2 ++ ext) := by
  by_cases htree : root = noNode ∨ (nodeAt node root).leaf = true
  · rw [decodeSymbol_of_no_tree htree] at h
    cases h
  · obtain ⟨hroot, hleaf⟩ := not_or.mp htree
    rw [decodeSymbol_of_tree hroot (by simpa using hleaf)] at h ⊢
    cases hwalk : walkCode node root k root bits with
    | error e => rw [hwalk] at h; cases h
    | ok y =>
      rw [hwalk] at h
      rw [walkCode_append hwalk]
      dsimp only [Except.bind] at h ⊢
      split at h
      · cases h
      · next hsym => cases h; exact if_neg hsym

theorem decodeSymbols_append {node : Vector Node 511} {root : Index} {m k : Nat} {bits : List Bool} {x : List Byte × List Bool}
    (h : decodeSymbols node root m k bits = .ok x) (ext : List Bool) :
    decodeSymbols node root m k (bits ++ ext) = .ok (x.1, x.2 ++ ext) := by
  induction m generalizing k bits x with
  | zero => cases h; rfl
  | succ m ih =>
    rw [decodeSymbols_succ] at h ⊢
    cases hsym : decodeSymbol node root k bits with
    | error e => rw [hsym] at h; cases h
    | ok y =>
      rw [hsym] at h
      rw [decodeSymbol_append hsym]
      dsimp only [Except.bind] at h ⊢
      cases hrest : decodeSymbols node root m (k + 1) y.2 with
      | error e => rw [hrest] at h; cases h
      | ok z =>
        rw [hrest] at h
        cases h
        rw [ih hrest]
        rfl

/-- Fewer than 8 pad bits end a packing, so it does not decode without its last byte. -/
theorem decodePayload_of_cut {s : State} {xs : List Byte} {code : Byte → List Bool}
    (hcode : ∀ x ∈ xs, code x ≠ [] ∧ leadsTo s (code x) x.toFin) (hlen : xs.length = s.origLen.toNat)
    {last : Byte} (hpay : payloadInput s ++ [last] = pack (xs.flatMap code)) : ∃ e, decodePayload s = .error e := by
  cases hdec : decodeSymbols s.node s.root s.origLen.toNat 0 (unpack (payloadInput s)) with
  | error e => exact ⟨e, decodePayload_of_error hdec⟩
  | ok x =>
    have hwhole := decodeSymbols_append hdec (byteBits last)
    have hbits : unpack (payloadInput s) ++ byteBits last = unpack (pack (xs.flatMap code)) := by
      rw [← hpay, unpack_append]
      simp [unpack]
    rw [hbits, unpack_pack, ← hlen, decodeSymbols_of_codes hcode] at hwhole
    injection hwhole with hwhole
    have hpad := congrArg (fun y => y.2.length) hwhole
    simp only [List.length_replicate, List.length_append, ceilDiv, byteBits, List.length_map, List.length_range] at hpad
    omega

/-! ### DECOMPRESS -/

/-- A CorruptStream ending (60 R280): ERR and a code of the class, with RESULT 0. -/
theorem exec_decompress_corrupt {u kept : State} {p : Phase} {e : Raise} (hu : u.undisturbed = true)
    (h : runPlan (commandOf .decompress).plan u = .raised p e kept) (he : e.code.corrupt = true) :
    ∃ v, exec .decompress u = .next v ∧ v.running = none ∧ v.status.err = true ∧ v.status.errCode.corrupt = true
      ∧ v.result = 0#64 :=
  ⟨_, exec_of_raised hu h, rfl, rfl, he, rfl⟩

theorem runPlan_decompress_of_parse_error {u : State} {e : Raise} (hreg : regionsOk true true u = true)
    (h : phaseParsehdr u = .error e) : runPlan (commandOf .decompress).plan u = .raised .parsehdr e u := by
  rw [decompress_plan, runPlan_append, runPlan_always_ok (regionCheck_of_ok hreg), runPlan_nil]
  exact runPlan_always_error h

theorem runPlan_decompress_of_decode_error {u v w : State} {e : Raise} (hreg : regionsOk true true u = true)
    (hparse : phaseParsehdr u = .ok v) (hrebuild : runPlan rebuildPhases v = .returned w)
    (hoff : w.payloadOff.toNat ≤ w.inLen.toNat) (hcap : w.origLen.toNat ≤ w.outCap.toNat) (h : phaseDecode w = .error e) :
    runPlan (commandOf .decompress).plan u = .raised .decode e w := by
  rw [decompress_plan, runPlan_append, runPlan_always_ok (regionCheck_of_ok hreg), runPlan_nil]
  dsimp only
  rw [runPlan_always_ok hparse, runPlan_append, hrebuild]
  exact (runPlan_always_ok (phaseDcheck_of_fits hoff hcap)).trans (runPlan_always_error h)

/-- What PARSEHDR leaves of an input that is a valid header and a payload. -/
structure ParsedStream (u v : State) (olen : Nat) (payload : List Byte) : Prop where
  parsed : phaseParsehdr u = .ok v
  payload : payloadInput v = payload
  payloadOff_le : v.payloadOff.toNat ≤ v.inLen.toNat
  origLen : v.origLen.toNat = olen
  outCap : v.outCap = u.outCap

theorem parsedStream {tm : TableMode} {olen : Nat} {es : List (Nat × Nat)} {u : State} {payload : List Byte}
    (hv : validEntries tm olen es) (hin : inputBytes u = headerBytes tm olen es ++ payload) :
    ParsedStream u (parsedState tm es u) olen payload := by
  have hat : HeaderAt u tm olen es := hv.headerAt_iff.mp ⟨payload, hin⟩
  obtain ⟨-, holen, -⟩ := validEntries_iff.mp hv
  have hoff : (parsedState tm es u).payloadOff.toNat = headerLen tm es.length := by
    rw [parsedState, hat.count]
    exact Nat.mod_eq_of_lt (hat.fits.trans_lt u.inLen.isLt)
  have hparse := phaseParsehdr_of_headerAt hv hat
  have hframe := phaseParsehdr_frame hparse
  refine ⟨hparse, ?payload, ?off, ?origLen, hframe.outCap⟩
  case payload =>
    have hinput : inputBytes (parsedState tm es u) = inputBytes u := by
      rw [inputBytes, hframe.inBase, hframe.inLen, EnginePhase.parsehdr.mem rfl hparse, inputBytes]
    rw [payloadInput, hoff, hinput, hin, ← length_headerBytes tm olen, List.drop_left]
  case off =>
    rw [hoff, hframe.inLen]
    exact hat.fits
  case origLen =>
    rw [parsedState, hat.origLen]
    exact Nat.mod_eq_of_lt holen

theorem phaseParsehdr_of_short {u : State} (h : u.inLen.toNat < 16) : ∃ e, phaseParsehdr u = .error e := by
  cases hparse : phaseParsehdr u with
  | error e => exact ⟨e, rfl⟩
  | ok v =>
    obtain ⟨_, hfault, -⟩ := phaseParsehdr_ok hparse
    obtain ⟨-, hlong, -⟩ := headerFault_eq_none_iff.mp hfault
    omega

/-- The codes of a table, one for each of some bytes. -/
theorem byteCode_ne_nil {c : State} {xs : List Byte} (h : firstUncoded c.len xs = none) {x : Byte} (hx : x ∈ xs) :
    c.len[x.toFin] ≠ 0#8 ∧ byteCode c x ≠ [] := by
  have hlen : c.len[x.toFin] ≠ 0#8 := fun e => by
    have hcoded := List.findIdx?_eq_none_iff.mp h x hx
    rw [beq_eq_false_iff_ne] at hcoded
    exact hcoded (congrArg BitVec.toNat e)
  exact ⟨hlen, codeWordBits_ne_nil hlen⟩

/-- Without a payload the stream is a header without entries, of 16 bytes (45 R202). -/
theorem length_streamBytes_of_empty {tm : TableMode} {s c : State} {table : PathTable} (hc : CodedWith tm s c table)
    (hcoded : firstUncoded c.len (inputBytes s) = none) (h : codeStream c (inputBytes s) = []) :
    (streamBytes tm s.inLen.toNat c (inputBytes s)).length = 16 := by
  have hxs : inputBytes s = [] := List.eq_nil_iff_forall_not_mem.mpr fun x hx =>
    (byteCode_ne_nil hcoded hx).2 (List.flatMap_eq_nil_iff.mp h x hx)
  have hzero : s.inLen.toNat = 0 := by rw [← length_inputBytes, hxs]; rfl
  rw [streamBytes, h, List.length_append, length_headerBytes, hc.length_headerEntries, hc.nonzeroBytes_eq_nil_iff.mpr hzero]
  rfl

/-- A stream of COMPRESS's tables with a payload, cut by its last byte, does not decode. -/
theorem runPlan_decompress_of_cut {tm : TableMode} {s c u : State} {table : PathTable} (hc : CodedWith tm s c table)
    (hcoded : firstUncoded c.len (inputBytes s) = none) (hreg : regionsOk true true u = true) (hcap : s.inLen.toNat ≤ u.outCap.toNat)
    {payload : List Byte} {last : Byte} (hpack : pack (codeStream c (inputBytes s)) = payload ++ [last])
    (hin : inputBytes u = headerBytes tm s.inLen.toNat (headerEntries tm c) ++ payload) :
    ∃ p e kept, runPlan (commandOf .decompress).plan u = .raised p e kept ∧ e.code.corrupt = true := by
  obtain ⟨hparse, hpay, hoff, holen, houtcap⟩ := parsedStream hc.validEntries hin
  obtain ⟨w, hrebuild, hsame, hleads⟩ := rebuild_leads (u := u) hc
  have hpayload : payloadInput w = payload := by rw [payloadInput, hsame.input, hsame.payloadOff, ← payloadInput, hpay]
  have horig : w.origLen.toNat = s.inLen.toNat := by rw [hsame.origLen, holen]
  obtain ⟨e, he⟩ := decodePayload_of_cut (s := w) (xs := inputBytes s) (code := byteCode c)
    (fun x hx => ⟨(byteCode_ne_nil hcoded hx).2, hleads _ (byteCode_ne_nil hcoded hx).1⟩) (by rw [length_inputBytes, horig])
    (by rw [hpayload, ← hpack]; rfl)
  have hphase := phaseDecode_of_error he
  refine ⟨_, e, w, runPlan_decompress_of_decode_error hreg hparse hrebuild ?_ ?_ hphase, phaseDecode_error hphase⟩
  · rwa [hsame.payloadOff, hsame.inLen]
  · rwa [horig, hsame.outCap, houtcap]

/-- Settles O60: a cut header is refused, and the codes of a cut payload run out, since fewer than 8 pad bits end the whole one. -/
theorem truncatedStreamIsCorrupt : Obligations.TruncatedStreamIsCorrupt := by
  intro tm s t u hu hwf _ h herr hu' _ hreg hin hcap
  obtain ⟨hcoded, hstream⟩ := outBytes_of_compress hu hwf h herr
  obtain ⟨table, hc⟩ := exists_codedWith tm s
  rw [hstream] at hin
  suffices hraise : ∃ p e kept, runPlan (commandOf .decompress).plan u = .raised p e kept ∧ e.code.corrupt = true by
    obtain ⟨p, e, kept, hrun, he⟩ := hraise
    exact exec_decompress_corrupt hu' hrun he
  rcases List.eq_nil_or_concat (pack (codeStream (compressTables tm s) (inputBytes s))) with hnil | ⟨payload, last, hpack⟩
  · have hempty : codeStream (compressTables tm s) (inputBytes s) = [] := by
      have hlen := congrArg List.length hnil
      rw [length_pack, ceilDiv, List.length_nil] at hlen
      exact List.length_eq_zero_iff.mp (by omega)
    have hshort : u.inLen.toNat < 16 := by
      rw [← length_inputBytes, hin, List.length_dropLast, length_streamBytes_of_empty hc hcoded hempty]
      decide
    obtain ⟨e, he⟩ := phaseParsehdr_of_short hshort
    exact ⟨_, e, u, runPlan_decompress_of_parse_error hreg he, phaseParsehdr_error he⟩
  · rw [List.concat_eq_append] at hpack
    rw [streamBytes, hpack, ← List.append_assoc, List.dropLast_concat] at hin
    exact runPlan_decompress_of_cut hc hcoded hreg hcap hpack hin

end Sys2Proof.Machine
end

section
/-!
COMPRESS's run: its tables are always made and every input byte has a code, so it ends with a region error, SIZE_OVERFLOW in ESTIMATE,
BUFFER_TOO_SMALL in CHECK, or the whole stream (47 R260, R262, R271; O54).
-/
namespace Sys2Proof.Machine

/-! ### The state that holds the tables -/

/-- What the tables' phases leave as it was, and what HIST's phase does to EMPTY and ORIG_LEN (40 R122). -/
structure TablesFrame (s c : State) : Prop where
  status : c.status = { s.status with empty := s.status.empty || s.inLen == 0#64 }
  totalBits : c.totalBits = s.totalBits
  totalBytes : c.totalBytes = s.totalBytes
  hdrLen : c.hdrLen = s.hdrLen
  payloadOff : c.payloadOff = s.payloadOff
  te : c.te = s.te
  origLen : c.origLen = s.inLen
  mem : c.mem = s.mem

theorem tablesFrame (tm : TableMode) (s : State) : TablesFrame s (compressTables tm s) := by
  obtain ⟨table, htable⟩ := exists_buildTable s.built.hist
  rw [compressTables_eq htable]
  cases tm <;> exact ⟨rfl, rfl, rfl, rfl, rfl, rfl, rfl, rfl⟩

theorem runPlan_tablePhases {tm : TableMode} {s : State} (hreg : regionsOk true true s = true) :
    runPlan (tablePhases tm) s = .returned (compressTables tm s) := by
  obtain ⟨table, htable⟩ := exists_buildTable s.built.hist
  suffices h : ∃ t, runPlan (tablePhases tm) s = .returned t by
    obtain ⟨t, ht⟩ := h
    rw [ht, eq_compressTables ht]
  have hcommon {t : State} (hderive : phaseDerive tm s.built = .ok t) (ps : List PhaseStep) :
      runPlan (.always .check (regionCheck true true) :: .always .hist phaseHist :: .always .build phaseBuild
        :: .always .derive (phaseDerive tm) :: ps) s = runPlan ps t := by
    have hhist : phaseHist s = .ok (afterPhase phaseHist s) := rfl
    have hbuild : phaseBuild (afterPhase phaseHist s) = .ok s.built := rfl
    rw [runPlan_always_ok (regionCheck_of_ok hreg), runPlan_always_ok hhist, runPlan_always_ok hbuild, runPlan_always_ok hderive]
  have hpaths := derivePaths_built htable
  cases tm with
  | freq => exact ⟨_, hcommon (phaseDerive_some hpaths) []⟩
  | canon =>
    exact ⟨_, (hcommon (phaseDerive_canon hpaths) _).trans (runPlan_always_ok (phaseCanon_of_lengthsOk (lengthsOk_built htable)))⟩

/-- Every byte of the input has a code (47 R271). -/
theorem CodedWith.coded {tm : TableMode} {s c : State} {table : PathTable} (h : CodedWith tm s c table) :
    firstUncoded c.len (inputBytes s) = none := by
  obtain ⟨ops, hlen, -⟩ := h.len
  refine List.findIdx?_eq_none_iff.mpr fun x hx => ?_
  have hcount : c.hist[byteIndex x].toNat ≠ 0 := by
    rw [h.hist, byteCount, ← Nat.pos_iff_ne_zero, List.count_pos_iff]
    have hbyte : BitVec.ofNat 8 (byteIndex x).val = x := (BitVec.ofNat_toNat 8 x).trans (BitVec.setWidth_eq x)
    rwa [hbyte]
  have hne : c.len[byteIndex x] ≠ 0#8 := fun e => hcount <| by
    rw [hlen, h.tree.pathLens_eq_zero] at e
    rw [e]
    rfl
  exact beq_eq_false_iff_ne.mpr fun e => hne (BitVec.eq_of_toNat_eq e)

/-! ### The run behind the tables -/

/-- What ESTIMATE leaves for code words of `n` bits (43 R170). -/
def State.estimated (s : State) (n : Nat) : State :=
  { s with totalBits := BitVec.ofNat 64 n, totalBytes := BitVec.ofNat 64 (ceilDiv n 8) }

theorem headerEntries_estimated (tm : TableMode) (s : State) (n : Nat) : headerEntries tm (s.estimated n) = headerEntries tm s := by
  cases tm <;> rfl

section Compress
variable {tm : TableMode} {s : State}

/-- The length of the input's code words in COMPRESS's tables. -/
def streamBits (tm : TableMode) (s : State) : Nat := totalLen (compressTables tm s).len (inputBytes s)

theorem inputBytes_compressTables (tm : TableMode) (s : State) : inputBytes (compressTables tm s) = inputBytes s := by
  obtain ⟨_, hc⟩ := exists_codedWith tm s
  exact hc.input

theorem firstUncoded_compressTables (tm : TableMode) (s : State) :
    firstUncoded (compressTables tm s).len (inputBytes (compressTables tm s)) = none := by
  obtain ⟨_, hc⟩ := exists_codedWith tm s
  rw [hc.input]
  exact hc.coded

/-- The state ESTIMATE leaves in COMPRESS. -/
def compressEstimated (tm : TableMode) (s : State) : State := (compressTables tm s).estimated (streamBits tm s)

theorem phaseEstimate_compressTables_of_overflow (h : streamBits tm s > 2 ^ 64 - 1) :
    phaseEstimate (compressTables tm s) = .error ⟨.sizeOverflow, 0#64⟩ := by
  rw [streamBits, ← inputBytes_compressTables] at h
  exact phaseEstimate_of_error (lengthPass_of_overflow (firstUncoded_compressTables tm s) h)

theorem phaseEstimate_compressTables (h : streamBits tm s ≤ 2 ^ 64 - 1) :
    phaseEstimate (compressTables tm s) = .ok (compressEstimated tm s) := by
  rw [streamBits, ← inputBytes_compressTables] at h
  have hpass := phaseEstimate_of_length (lengthPass_of_ok (firstUncoded_compressTables tm s) h)
  rw [inputBytes_compressTables] at hpass
  exact hpass

variable (hreg : regionsOk true true s = true)
include hreg

theorem runPlan_compress_of_overflow (h : streamBits tm s > 2 ^ 64 - 1) :
    runPlan (commandOf (compressOf tm)).plan s = .raised .estimate ⟨.sizeOverflow, 0#64⟩ (compressTables tm s) := by
  rw [compress_plan, runPlan_append, runPlan_tablePhases hreg]
  exact runPlan_always_error (phaseEstimate_compressTables_of_overflow h)

/-- Where the code words do not overflow, COMPRESS runs on with its size known. -/
theorem runPlan_compress_of_sized (h : streamBits tm s ≤ 2 ^ 64 - 1) :
    runPlan (commandOf (compressOf tm)).plan s = runPlan (streamPhases tm) (compressEstimated tm s)
      ∧ StreamSized tm s (compressEstimated tm s) (streamBits tm s) := by
  have hphase := phaseEstimate_compressTables h
  obtain ⟨n, hsized⟩ := streamSized (tablesMade (runPlan_tablePhases hreg)) hphase
  have hpass := hsized.length
  have hn : n = streamBits tm s := by
    obtain ⟨-, hn, -⟩ := lengthPass_ok hpass
    rw [hn, streamBits, ← inputBytes_compressTables tm s]
    rfl
  refine ⟨?_, hn ▸ hsized⟩
  rw [compress_plan, runPlan_append, runPlan_tablePhases hreg]
  exact runPlan_always_ok hphase

/-- The length of the stream (47 R260). -/
theorem compressEstimated_need (h : streamBits tm s ≤ 2 ^ 64 - 1) : streamNeed tm (compressEstimated tm s)
    = headerLen tm (headerEntries tm (compressTables tm s)).length + ceilDiv (streamBits tm s) 8 := by
  rw [(runPlan_compress_of_sized hreg h).2.need, wrhdrLen, compressEstimated, headerEntries_estimated]

theorem runPlan_compress_of_too_small (h : streamBits tm s ≤ 2 ^ 64 - 1)
    (hcap : streamNeed tm (compressEstimated tm s) > s.outCap.toNat) : runPlan (commandOf (compressOf tm)).plan s
      = .raised .check ⟨.bufferTooSmall, limited (streamNeed tm (compressEstimated tm s))⟩ (compressEstimated tm s) := by
  obtain ⟨hrun, hsized⟩ := runPlan_compress_of_sized hreg h
  rw [hrun, streamPhases]
  rw [← hsized.outCap] at hcap
  exact runPlan_always_error (if_pos hcap)

/-- The header and the payload fit where the stream does, so the phases that write them do not raise (47 R271). -/
theorem runPlan_compress_of_fits (h : streamBits tm s ≤ 2 ^ 64 - 1)
    (hcap : streamNeed tm (compressEstimated tm s) ≤ s.outCap.toNat) : runPlan (commandOf (compressOf tm)).plan s
      = .returned (((compressEstimated tm s).withHeader tm).encoded (streamBits tm s)) := by
  obtain ⟨hrun, hsized⟩ := runPlan_compress_of_sized hreg h
  rw [← hsized.outCap] at hcap
  have hneed := hsized.need
  have hwrhdr := phaseWrhdr_of_fits (tm := tm) (s := compressEstimated tm s) (by omega)
  obtain ⟨hoff, hlength⟩ := lengthPass_of_phaseWrhdr hsized.regions hwrhdr
  have hencode := phaseEncode_of_fits (hlength.trans hsized.length) (by
    rw [hoff, (phaseWrhdr_frame hwrhdr).outCap, ← hneed]
    exact hcap)
  rw [hrun, streamPhases, runPlan_always_ok (if_neg (not_lt.mpr hcap)), runPlan_always_ok hwrhdr, runPlan_always_ok hencode,
    runPlan_nil]

end Compress

/-- The stream is that of the tables, over the input as it was. -/
theorem streamBytes_compressEstimated (tm : TableMode) (s : State) :
    streamBytes tm (compressEstimated tm s).origLen.toNat (compressEstimated tm s) (inputBytes (compressEstimated tm s))
      = streamBytes tm s.inLen.toNat (compressTables tm s) (inputBytes s) := by
  have hinput : inputBytes (compressEstimated tm s) = inputBytes s := inputBytes_compressTables tm s
  have horig : (compressEstimated tm s).origLen = s.inLen := (tablesFrame tm s).origLen
  rw [hinput, horig, streamBytes, streamBytes, compressEstimated, headerEntries_estimated]
  rfl

/-! ### The command -/

/-- COMPRESS ends in a failure before any memory write, whose state keeps the tables' commits (60 R284). -/
theorem exec_compress_of_raised {tm : TableMode} {s kept : State} {p : Phase} {e : Raise} (hu : s.undisturbed = true)
    (hp : p.writesMemory = false) (h : runPlan (commandOf (compressOf tm)).plan s = .raised p e kept) :
    exec (compressOf tm) s = .next (kept.failed p e) := by
  rw [exec_of_raised hu h, Command.failedAt, leavesBytes, hp]
  rfl

/-- A failed completion whose state differs from the run's start in EMPTY alone of STATUS. -/
theorem failedWith_failed {s kept : State} {empty : Bool} (h : kept.status = { s.status with empty := empty }) (p : Phase) (e : Raise) :
    failedWith s (kept.failed p e) p e.code e.info ∧ (kept.failed p e).status.empty = empty := by
  rw [failedWith, State.failed_status, h]
  exact ⟨⟨rfl, rfl, rfl, rfl⟩, rfl⟩

/-- The end of a COMPRESS(tm) with tables `c`, whose header of `h` bytes and code words of `n` bits stand in memory `m`; `t` is STATUS
before the completion. -/
def State.streamWritten (c : State) (tm : TableMode) (h n : Nat) (result : Word) (m : Memory) (t : Status) : State :=
  { c with
    mem := m, totalBits := BitVec.ofNat 64 n, totalBytes := BitVec.ofNat 64 (ceilDiv n 8)
    hdrLen := BitVec.ofNat 64 h, payloadOff := BitVec.ofNat 64 h, te := tm, result := result, running := none
    status := { t with done := true, phase := .idle } }

theorem State.succeeded_stream (c : State) (tm : TableMode) (n : Nat) (r : Word) :
    (((c.estimated n).withHeader tm).encoded n).succeeded r
      = c.streamWritten tm (wrhdrLen tm (c.estimated n)) n r (((c.estimated n).withHeader tm).encoded n).mem c.status := rfl

/-- Settles O54: the three endings of COMPRESS's run, each with the state it leaves. -/
theorem compressResult : Obligations.CompressResult := by
  intro tm s hu hreg c bits entries header need
  have hf : TablesFrame s c := tablesFrame tm s
  have hbits : bits.length = streamBits tm s := length_codeStream c (inputBytes s)
  have hneed (h : streamBits tm s ≤ 2 ^ 64 - 1) : streamNeed tm (compressEstimated tm s) = need :=
    (compressEstimated_need hreg h).trans (congrArg (fun n => headerLen tm entries.length + ceilDiv n 8) hbits.symm)
  refine ⟨fun hover => ?overflow, fun hfits hsmall => ?small, fun hfits hcap => ?stream⟩
  case overflow =>
    have hrun := runPlan_compress_of_overflow (tm := tm) hreg (hbits ▸ hover)
    obtain ⟨hfail, hempty⟩ := failedWith_failed hf.status .estimate ⟨.sizeOverflow, 0#64⟩
    exact ⟨_, exec_compress_of_raised hu rfl hrun, hf.mem, hfail, hempty, hf.totalBits, hf.totalBytes, hf.hdrLen, hf.payloadOff, hf.te,
      rfl, rfl, rfl, rfl, rfl, rfl, rfl, hf.origLen⟩
  case small =>
    rw [hbits] at hfits
    have hrun := runPlan_compress_of_too_small hreg hfits (hneed hfits ▸ hsmall)
    rw [hneed hfits] at hrun
    obtain ⟨hfail, hempty⟩ := failedWith_failed (kept := compressEstimated tm s) hf.status .check ⟨.bufferTooSmall, limited need⟩
    exact ⟨_, exec_compress_of_raised hu rfl hrun, hf.mem, hfail, hempty, hbits ▸ rfl, hbits ▸ rfl, hf.hdrLen, hf.payloadOff, hf.te,
      rfl, rfl, rfl, rfl, rfl, rfl, rfl, hf.origLen⟩
  case stream =>
    rw [hbits] at hfits
    have hrun := runPlan_compress_of_fits hreg hfits (hneed hfits ▸ hcap)
    obtain ⟨hplan, hsized⟩ := runPlan_compress_of_sized (tm := tm) hreg hfits
    obtain ⟨hmem, -, -, -⟩ := streamPhases_returned hsized (hplan ▸ hrun)
    rw [streamBytes_compressEstimated] at hmem
    have hlen : header.length = wrhdrLen tm (compressEstimated tm s) := by
      rw [length_headerBytes, wrhdrLen, compressEstimated, headerEntries_estimated]
    have hresult : (commandOf (compressOf tm)).result (((compressEstimated tm s).withHeader tm).encoded (streamBits tm s))
        = BitVec.ofNat 64 need := by
      rw [← hneed hfits, hsized.need, BitVec.ofNat_add]
      cases tm <;> rfl
    rw [exec_of_returned hu hrun, hresult, hlen, hbits, compressEstimated, State.succeeded_stream, ← compressEstimated, hmem,
      (tablesFrame tm s).status]
    rfl

end Sys2Proof.Machine
end

section
/-!
The errors that cannot arise inside the composite commands (47 R271; O57), and that an error before the first memory write leaves memory as
it was (60 R285, R286(a); O24).
-/
namespace Sys2Proof.Machine

/-! ### COMPRESS (47 R271) -/

/-- What COMPRESS raises: a region error before everything, SIZE_OVERFLOW in ESTIMATE, or BUFFER_TOO_SMALL in CHECK. -/
theorem compress_raised_cases {tm : TableMode} {s kept : State} {p : Phase} {e : Raise}
    (h : runPlan (commandOf (compressOf tm)).plan s = .raised p e kept) :
    (p = .check ∧ e.code = .badRegion) ∨ (p = .estimate ∧ e.code = .sizeOverflow) ∨ (p = .check ∧ e.code = .bufferTooSmall) := by
  cases hcheck : regionCheck true true s with
  | error x =>
    obtain ⟨ps, hplan⟩ : ∃ ps, (commandOf (compressOf tm)).plan = .always .check (regionCheck true true) :: ps := by
      cases tm <;> exact ⟨_, rfl⟩
    rw [hplan, runPlan_always_error hcheck] at h
    injection h with hp he _
    exact .inl ⟨hp.symm, he ▸ (regionCheck_error hcheck).1⟩
  | ok t =>
    obtain ⟨-, hreg⟩ := regionCheck_ok hcheck
    by_cases hbits : streamBits tm s ≤ 2 ^ 64 - 1
    · by_cases hcap : streamNeed tm (compressEstimated tm s) ≤ s.outCap.toNat
      · rw [runPlan_compress_of_fits hreg hbits hcap] at h
        cases h
      · rw [runPlan_compress_of_too_small hreg hbits (not_le.mp hcap)] at h
        injection h with hp he _
        exact .inr (.inr ⟨hp.symm, he ▸ rfl⟩)
    · rw [runPlan_compress_of_overflow hreg (not_le.mp hbits)] at h
      injection h with hp he _
      exact .inr (.inl ⟨hp.symm, he ▸ rfl⟩)

/-! ### DECOMPRESS (47 R266, R271) -/

/-- The entries of a header are those of the table it loads. -/
theorem eq_nonzeroEntries {w : Nat} {es : List (Nat × Nat)} {v : Vector (BitVec w) 256} (hasc : es.Pairwise fun x y => x.1 < y.1)
    (hes : ∀ e ∈ es, e.1 < 256 ∧ e.2 ≠ 0) (hv : ∀ b : Fin 256, v[b].toNat = entryValue es b) : es = nonzeroEntries (ramValues v) := by
  have hnodup : (es.map Prod.fst).Nodup := (hasc.imp fun h => h.ne).map _ fun _ _ => id
  refine hasc.eq_of_mem_iff (nonzeroEntries_ascending _) fun e => ?_
  rw [mem_nonzeroEntries_ram]
  constructor
  · intro he
    obtain ⟨hlt, hne⟩ := hes e he
    exact ⟨hlt, (hv ⟨e.1, hlt⟩).trans (by rw [entryValue, lookup_of_mem hnodup he]; rfl), hne⟩
  · rintro ⟨hlt, hvalue, hne⟩
    have hentry : (es.lookup e.1).getD 0 = e.2 := (hv ⟨e.1, hlt⟩).symm.trans hvalue
    cases hlookup : es.lookup e.1 with
    | none => rw [hlookup] at hentry; exact absurd hentry.symm hne
    | some x =>
      rw [hlookup] at hentry
      obtain rfl : x = e.2 := hentry
      obtain ⟨as, bs, rfl, -⟩ := List.lookup_eq_some_iff.mp hlookup
      simp

/-- The lengths of a valid CANON header are lengths CANON accepts (45 R211, 42 R155). -/
theorem lengthsOk_parsedState {olen : Nat} {es : List (Nat × Nat)} (h : validEntries .canon olen es) (u : State) :
    lengthsOk (parsedState .canon es u) := by
  obtain ⟨hasc, -, hfits, hall⟩ := validEntries_iff.mp h
  obtain ⟨-, hsingle, hkraft⟩ := entriesFault_canon_eq_none_iff.mp hall
  have hlens := len_parsedState (fun e he => (hfits e he).1) u
  generalize parsedState .canon es u = v at hlens
  have hes : es = (nonzeroBytes v.len).map fun b => (b.val, v.len[b].toNat) :=
    (eq_nonzeroEntries hasc (fun e he => ⟨(hfits e he).1.1, (hfits e he).2⟩) hlens).trans (nonzeroEntries_ramValues v.len)
  have hcoded : codedSymbols v = es.length := by rw [codedSymbols_eq, hes, List.length_map]
  rw [lengthsOk_iff, hcoded]
  rcases lt_trichotomy es.length 1 with hlt | hone | hmany
  · exact .inl (by omega)
  · refine .inr (.inl ⟨hone, fun l hl hne => ?_⟩)
    obtain ⟨b, hb, rfl⟩ := Vector.getElem_of_mem (Vector.mem_toList_iff.mp hl)
    have hmem : v.len[b].toNat ∈ es.map Prod.snd := by
      rw [hes, List.map_map]
      exact List.mem_map_of_mem (f := Prod.snd ∘ fun b : Fin 256 => (b.val, v.len[b].toNat)) (a := ⟨b, hb⟩)
        (mem_nonzeroBytes.mpr hne)
    rw [hsingle hone, List.mem_singleton] at hmem
    exact BitVec.eq_of_toNat_eq hmem
  · refine .inr (.inr ⟨hmany, ?_⟩)
    rw [kraftTotal_eq, ← hkraft hmany, hes, List.map_map]
    rfl

/-- What rebuilding the tree leaves as it was, beside the payload: the mode's other tables (47 R266). -/
structure Rebuilt (v w : State) : Prop extends SameStream v w where
  run : runPlan rebuildPhases v = .returned w
  status : w.status = v.status
  mem : w.mem = v.mem
  outBase : w.outBase = v.outBase
  errInfo : w.errInfo = v.errInfo
  te : w.te = v.te
  hdrLen : w.hdrLen = v.hdrLen
  codes : v.te = .freq → w.len = v.len ∧ w.code = v.code
  hist : v.te = .canon → w.hist = v.hist

theorem rebuilt_freq {v : State} (h : v.te = .freq) : Rebuilt v (afterPhase phaseBuild v) where
  toSameStream := sameStream_build v
  run := runPlan_rebuild_freq h
  status := rfl
  mem := rfl
  outBase := rfl
  errInfo := rfl
  te := rfl
  hdrLen := rfl
  codes := fun _ => ⟨rfl, rfl⟩
  hist := fun e => by rw [h] at e; cases e

/-- CTREE after CANON accepts every table, so the rebuild of a CANON stream does not raise (46 R233, 47 R271). -/
theorem rebuilt_canon {v : State} (h : v.te = .canon) (hok : lengthsOk v) :
    ∃ a, Rebuilt v (v.canonized.withTree a) ∧ TrieMade v.canonized (nonzeroBytes v.len) a := by
  obtain ⟨a, hphase, hmade⟩ := phaseCtree_of_placeable (placeable_of_lengthsOk (t := v.canonized) hok (codesPrefixFree_canonized hok))
  exact ⟨a, {
    toSameStream := sameStream_tree v a
    run := runPlan_rebuild_canon h hok hphase
    status := rfl
    mem := rfl
    outBase := rfl
    errInfo := rfl
    te := rfl
    hdrLen := rfl
    codes := fun e => by rw [h] at e; cases e
    hist := fun _ => rfl }, hmade⟩

theorem te_parsedState (te : TableMode) (es : List (Nat × Nat)) (u : State) : (parsedState te es u).te = te := by rw [parsedState]

theorem headerTables_freq {es : List (Nat × Nat)} {u : State} {table : PathTable}
    (h : BuildTable (parsedState .freq es u).hist table) :
    headerTables .freq es u = (afterPhase phaseBuild (parsedState .freq es u)).withTableCodes table := by
  rw [headerTables]
  exact afterPhase_of_ok (phaseDerive_some h.derived)

theorem headerTables_canon {olen : Nat} {es : List (Nat × Nat)} (h : validEntries .canon olen es) (u : State) :
    headerTables .canon es u = (parsedState .canon es u).canonized := by
  rw [headerTables]
  exact afterPhase_of_ok (phaseCanon_of_lengthsOk (lengthsOk_parsedState h u))

/-- The tree DECOMPRESS rebuilds from a valid header leads each code the header stands for to its byte's leaf (47 R266). -/
theorem rebuilt_of_validEntries {te : TableMode} {olen : Nat} {es : List (Nat × Nat)} (h : validEntries te olen es) (u : State) :
    ∃ w, Rebuilt (parsedState te es u) w
      ∧ ∀ b : Fin 256, (headerTables te es u).len[b] ≠ 0#8 → leadsTo w (codeWordBits (headerTables te es u) b) b := by
  have hte := te_parsedState te es u
  cases te with
  | freq =>
    obtain ⟨table, htable⟩ := exists_buildTable (parsedState .freq es u).hist
    refine ⟨_, rebuilt_freq hte, fun b hb => ?_⟩
    rw [headerTables_freq htable] at hb ⊢
    generalize parsedState .freq es u = v at htable hb
    rw [codeWordBits_of_buildTable htable rfl rfl]
    refine (htable.leads (afterPhase phaseBuild v) ?_ ?_ _ b).mpr (htable.pathOf_mem fun e => hb ?_)
    · rfl
    · rfl
    · exact (htable.pathLens_eq_zero _ b).mpr e
  | canon =>
    rw [headerTables_canon h]
    have hok := lengthsOk_parsedState h u
    generalize parsedState .canon es u = v at hte hok
    obtain ⟨a, hrebuilt, hmade⟩ := rebuilt_canon hte hok
    refine ⟨_, hrebuilt, fun b hb => ?_⟩
    have hmem : b ∈ nonzeroBytes v.len := mem_nonzeroBytes.mpr hb
    refine (hmade.leadsTo_iff hmem ?_ ?_ _).mpr rfl
    · rfl
    · exact if_neg fun e => List.ne_nil_of_mem hmem (hmade.eq_nil_iff.mp e)

/-- A header PARSEHDR accepts, with the payload behind it. -/
theorem parsedStream_of_phaseParsehdr {u v : State} (h : phaseParsehdr u = .ok v) :
    ∃ te olen es payload, validEntries te olen es ∧ inputBytes u = headerBytes te olen es ++ payload ∧ v = parsedState te es u
      ∧ ParsedStream u v olen payload := by
  obtain ⟨te, olen, es, hv, hat⟩ := headerAt_of_phaseParsehdr h
  obtain ⟨payload, hin⟩ := hv.headerAt_iff.mpr hat
  have hstream := parsedStream hv hin
  obtain rfl : v = parsedState te es u := Except.ok.inj (h.symm.trans hstream.parsed)
  exact ⟨te, olen, es, payload, hv, hin, rfl, hstream⟩

/-- Behind an accepted header, DECOMPRESS runs on to DECODE's phases with the tree rebuilt. -/
theorem runPlan_decompress_of_parsed {u v w : State} (hreg : regionsOk true true u = true) (hparse : phaseParsehdr u = .ok v)
    (hw : Rebuilt v w) : runPlan (commandOf .decompress).plan u = runPlan decodeTail w := by
  rw [decompress_plan, runPlan_append, runPlan_always_ok (regionCheck_of_ok hreg), runPlan_nil]
  dsimp only
  rw [runPlan_always_ok hparse, runPlan_append, hw.run]

theorem regionCheck_error_ne_four {useIn useOut : Bool} {s : State} {e : Raise} (h : regionCheck useIn useOut s = .error e) :
    e.info ≠ 4#64 := by
  unfold regionCheck at h
  split_ifs at h <;> cases h <;> decide

theorem phaseDcheck_error_of_offset {s : State} {e : Raise} (hoff : s.payloadOff.toNat ≤ s.inLen.toNat)
    (h : phaseDcheck s = .error e) : e.code = .bufferTooSmall := by
  rw [phaseDcheck, if_neg (not_lt.mpr hoff)] at h
  split_ifs at h
  cases h
  rfl

/-- What DECOMPRESS raises: a region error before everything, PARSEHDR's errors, BUFFER_TOO_SMALL in CHECK, or DECODE's errors. -/
theorem decompress_raised_cases {s kept : State} {p : Phase} {e : Raise}
    (h : runPlan (commandOf .decompress).plan s = .raised p e kept) :
    e.code.corrupt = true ∨ e.code = .bufferTooSmall ∨ (e.code = .badRegion ∧ e.info ≠ 4#64) := by
  cases hcheck : regionCheck true true s with
  | error x =>
    rw [decompress_plan, runPlan_append, runPlan_always_error hcheck] at h
    injection h with _ he _
    exact .inr (.inr (he ▸ ⟨(regionCheck_error hcheck).1, regionCheck_error_ne_four hcheck⟩))
  | ok t =>
    obtain ⟨-, hreg⟩ := regionCheck_ok hcheck
    cases hparse : phaseParsehdr s with
    | error x =>
      rw [runPlan_decompress_of_parse_error hreg hparse] at h
      injection h with _ he _
      exact .inl (he ▸ phaseParsehdr_error hparse)
    | ok v =>
      obtain ⟨te, olen, es, payload, hv, -, rfl, hstream⟩ := parsedStream_of_phaseParsehdr hparse
      obtain ⟨w, hw, -⟩ := rebuilt_of_validEntries hv s
      rw [runPlan_decompress_of_parsed hreg hparse hw] at h
      have hoff : w.payloadOff.toNat ≤ w.inLen.toNat := by
        rw [hw.payloadOff, hw.inLen]
        exact hstream.payloadOff_le
      cases hdcheck : phaseDcheck w with
      | error x =>
        rw [decodeTail, runPlan_always_error hdcheck] at h
        injection h with _ he _
        exact .inr (.inl (he ▸ phaseDcheck_error_of_offset hoff hdcheck))
      | ok x =>
        rw [decodeTail, runPlan_always_ok hdcheck] at h
        obtain ⟨q, hq, -, hbody⟩ := runPlan_raised_body h
        obtain rfl := List.mem_singleton.mp hq
        exact .inl (phaseDecode_error hbody)

/-- How a command that was not raced, begun with ERRCODE 0, ends: without an error, with BUS_ERROR, or with what its run raised. -/
theorem exec_errCode_cases {i : Instr} {s t : State} (hraced : s.raced = false) (hcode : s.status.errCode = .none)
    (h : exec i s = .next t) : t.status.errCode = .none ∨ t.status.errCode = .busError
      ∨ ∃ p e kept, runPlan (commandOf i).plan s = .raised p e kept ∧ t.status.errCode = e.code ∧ t.status.phase = p
        ∧ t.errInfo = e.info := by
  rw [exec_next_iff] at h
  obtain ⟨hr, _⟩ | ⟨p, kept, a, _, e⟩ | ⟨u, hret, e⟩ | ⟨p, x, kept, hraise, e⟩ := (commandOf i).completed_cases s
  · simp [hraced] at hr
  · exact .inr (.inl (h ▸ e ▸ rfl))
  · exact .inl (h ▸ e ▸ (runPlan_returned_frame hret).errCode.trans hcode)
  · exact .inr (.inr ⟨p, x, kept, hraise, h ▸ e ▸ rfl, h ▸ e ▸ rfl, h ▸ e ▸ rfl⟩)

/-- Settles O57: a run's raises are those of COMPRESS's and DECOMPRESS's cases, a fault reply's is BUS_ERROR, and a success keeps ERRCODE. -/
theorem errorsThatCannotArise : Obligations.ErrorsThatCannotArise := by
  intro s t hraced hcode
  refine ⟨fun tm h => ?compress, fun h => ?decompress⟩ <;>
    obtain hc | hc | ⟨p, e, kept, hraise, hc, hp, hinfo⟩ := exec_errCode_cases hraced hcode h
  case compress.inr.inr =>
    rw [hc, hp]
    obtain ⟨rfl, he⟩ | ⟨rfl, he⟩ | ⟨rfl, he⟩ := compress_raised_cases hraise <;> simp [he]
  case decompress.inr.inr =>
    rw [hc, hinfo]
    obtain he | he | ⟨he, hne⟩ := decompress_raised_cases hraise
    · refine ⟨fun hbad => ?_, fun hbad => ?_⟩ <;> rw [hbad] at he <;> cases he
    · simp [he]
    · simp [he, hne]
  all_goals simp [hc]

end Sys2Proof.Machine
end

section
/-!
An error before the first memory write leaves memory as it was (60 R285, R286(a); O24), and a failed completion's registers (60 R284; O25).
-/
namespace Sys2Proof.Machine

/-! ### The states before the first memory write -/

/-- A phase reached before or at a given one starts from a state the phases before that one pass through; any other is a later one. -/
theorem passes_or_later {ps qs : List PhaseStep} {q : PhaseStep} {s : State} {x : Phase × State}
    (h : x ∈ reached (ps ++ q :: qs) s) : Passes ps s x.2 ∨ x.1 ∈ qs.map PhaseStep.phase := by
  have later {u : State} (hx : x ∈ reached qs u) : x.1 ∈ qs.map PhaseStep.phase :=
    (reached_sublist qs u).subset (List.mem_map_of_mem hx)
  rw [reached_append, List.mem_append] at h
  rcases h with h | h
  · exact .inl (passes_of_reached h)
  cases hrun : runPlan ps s with
  | raised p e kept => rw [hrun] at h; cases h
  | returned t =>
    rw [hrun] at h
    change x ∈ reached (q :: qs) t at h
    have start : Passes ps s t := .inr hrun
    cases g : q.guard t with
    | false => rw [reached_skip g] at h; exact .inr (later h)
    | true =>
      cases hb : q.body t with
      | error e =>
        rw [reached_error g hb, List.mem_singleton] at h
        exact .inl (h ▸ start)
      | ok u =>
        rw [reached_ok g hb, List.mem_cons] at h
        exact h.imp (fun (hx : x = _) => hx ▸ start) later

/-- In a plan whose phases before a given one write no memory, memory is as it was where that one or an earlier one starts. -/
theorem mem_of_reached {i : Instr} {ps qs : List PhaseStep} {q : PhaseStep} {s : State} {x : Phase × State}
    (hplan : (commandOf i).plan = ps ++ q :: qs) (hquiet : ∀ p ∈ ps.map PhaseStep.phase, p.writesMemory = false)
    (h : x ∈ reached (commandOf i).plan s) (hx : x.1 ∉ qs.map PhaseStep.phase) : x.2.mem = s.mem := by
  rw [hplan] at h
  refine ((passes_or_later h).resolve_right hx).mem_of_quiet (quietPlan_of_subset (i := i) ?_ hquiet)
  rw [hplan]
  exact List.subset_append_left _ _

/-- Every command but COMPRESS has at most one phase that writes memory, its last. -/
theorem dropLast_quiet : ∀ i : Instr, (∀ tm, i ≠ compressOf tm) →
    ∀ p ∈ (commandOf i).plan.dropLast.map PhaseStep.phase, p.writesMemory = false := by
  intro i hi
  cases i
  case compress => exact absurd rfl (hi .freq)
  case compressC => exact absurd rfl (hi .canon)
  all_goals decide

theorem plan_ne_nil (i : Instr) : (commandOf i).plan ≠ [] := by cases i <;> exact List.cons_ne_nil _ _

theorem mem_of_reached_of_ne_compress {i : Instr} (hi : ∀ tm, i ≠ compressOf tm) {s : State} {x : Phase × State}
    (h : x ∈ reached (commandOf i).plan s) : x.2.mem = s.mem :=
  mem_of_reached (List.dropLast_append_getLast (plan_ne_nil i)).symm (dropLast_quiet i hi) h List.not_mem_nil

/-- COMPRESS's first phase that writes memory is WRHDR, its only later phase ENCODE. -/
theorem mem_of_reached_compress {tm : TableMode} {s : State} {x : Phase × State} (h : x ∈ reached (commandOf (compressOf tm)).plan s)
    (hx : x.1 ≠ .encode) : x.2.mem = s.mem := by
  have hplan : (commandOf (compressOf tm)).plan
      = (tablePhases tm ++ [.always .estimate phaseEstimate, .always .check (phaseCcheck tm)])
        ++ .always .wrhdr (phaseWrhdr tm) :: [.always .encode phaseEncode] := by cases tm <;> rfl
  exact mem_of_reached hplan (by cases tm <;> decide) h fun hmem => hx (List.mem_singleton.mp hmem)

/-- Memory is as it was where a phase starts that writes none. -/
theorem mem_of_reached_of_quiet {i : Instr} {s : State} {x : Phase × State} (h : x ∈ reached (commandOf i).plan s)
    (hx : x.1.writesMemory = false) : x.2.mem = s.mem := by
  by_cases hi : ∃ tm, i = compressOf tm
  · obtain ⟨tm, rfl⟩ := hi
    exact mem_of_reached_compress h fun e => by rw [e] at hx; cases hx
  · exact mem_of_reached_of_ne_compress (not_exists.mp hi) h

/-- Memory is as it was where a phase raises: only the last phase of a command that writes memory raises behind none (47 R271). -/
theorem mem_of_raised {i : Instr} {s kept : State} {p : Phase} {e : Raise} (h : runPlan (commandOf i).plan s = .raised p e kept) :
    kept.mem = s.mem := by
  by_cases hi : ∃ tm, i = compressOf tm
  · obtain ⟨tm, rfl⟩ := hi
    refine mem_of_reached_of_quiet (runPlan_raised_reached h) ?_
    obtain ⟨rfl, -⟩ | ⟨rfl, -⟩ | ⟨rfl, -⟩ := compress_raised_cases h <;> rfl
  · exact mem_of_reached_of_ne_compress (not_exists.mp hi) (runPlan_raised_reached h)

/-! ### Failed completions -/

theorem leavesBytes_eq_false {p : Phase} {e : Raise} (h : (e.code ≠ .busError ∧ e.code.corrupt = false)
    ∨ (p ≠ .wrhdr ∧ p ≠ .encode ∧ p ≠ .decode)) : leavesBytes p e = false := by
  rcases h with ⟨hbus, hcorrupt⟩ | ⟨hwrhdr, hencode, hdecode⟩
  · simp [leavesBytes, hbus, hcorrupt]
  · cases p <;> simp_all [leavesBytes, Phase.writesMemory]

theorem Command.failedAt_mem_of_kept {c : Command} {s kept : State} {p : Phase} {e : Raise} (h : leavesBytes p e = false) :
    (c.failedAt s p e kept).mem = kept.mem := by simp [Command.failedAt, h]

/-- Settles O24: a failure that leaves no unspecified byte keeps the memory of the state its phase started from, which is that of the
run's start: a fault reply of such a failure comes in a phase that writes none, and a raise behind none that has written. -/
theorem errorLeavesMemory : Obligations.ErrorLeavesMemory := by
  intro i s t h hraced hno herr hwhich
  rw [exec_next_iff] at h
  obtain ⟨hr, _⟩ | ⟨p, kept, a, hbus, e⟩ | ⟨u, hret, e⟩ | ⟨p, x, kept, hraise, e⟩ := (commandOf i).completed_cases s
  · simp [hraced] at hr
  · rw [← h, e] at hwhich ⊢
    have hquiet := leavesBytes_eq_false (p := p) (e := ⟨.busError, a⟩) hwhich
    obtain ⟨k, _, _, _, _, _, hk⟩ := Command.busErrorAt_some hbus
    rw [Command.failedAt_mem_of_kept hquiet]
    exact mem_of_reached_of_quiet (List.mem_of_getElem? hk) (by simpa [leavesBytes] using hquiet)
  · rw [← h, e, State.succeeded_status, (runPlan_returned_frame hret).err.trans hno] at herr
    cases herr
  · rw [← h, e] at hwhich ⊢
    rw [Command.failedAt_mem_of_kept (leavesBytes_eq_false (p := p) hwhich), mem_of_raised hraise]

/-- Settles O25: the completion of a run that raised, whose registers are those of the state the phase started from. -/
theorem failedCompletion : Obligations.FailedCompletion := by
  intro i s kept p e hu h
  have frame := runPlan_raised_frame h
  have hfail := Command.failedWith_failedAt (c := commandOf i) frame p e
  obtain ⟨hregs, ⟨-, -, hopc, hrst, -⟩, -⟩ := Ends.failedAt (commandOf i) s kept p e
  obtain ⟨-, -, kopc, krst, -⟩ := frame.sameRest
  obtain ⟨hie, -⟩ := hregs
  refine ⟨_, exec_of_raised hu h, hfail, hopc.trans kopc, Command.sameRegs_failedAt _ s kept p e, fun hlow => ?_⟩
  rw [State.irq, hrst, krst, hlow, hie, frame.ie, Command.failedAt_status_err, Bool.or_true, Bool.and_true]
  rfl

end Sys2Proof.Machine
end

section
/-!
The interrupt line, writes and reads while a command runs, and the two resets (60 R288, 70 R310 to R312, R322, R323, 30 R105; O8, O12 to O16,
O19).
-/
namespace Sys2Proof.Machine

/-! ### Accesses while a command runs (70 R322, R323) -/

theorem writeReg_of_busy {s : State} (hrst : s.rst = false) (hbusy : s.running.isSome = true) (r : Reg) (v : Word) :
    writeReg s r v = writeBusy s r v := by simp [writeReg, hrst, State.busy, hbusy]

/-- An aligned offset that names a register is that register's (10 R20). -/
theorem regAt_eq_iff {o : BitVec 15} (h : o.toNat % 8 = 0) {r : Reg} (hr : r ≠ .reserved) : regAt o = r ↔ o = offsetOf r := by
  constructor
  · intro e
    rw [← e, offsetOf_regAt h (e ▸ hr)]
  · intro e
    rw [e, regAt_offsetOf]

/-- A write while a command runs (70 R322, 30 R105). -/
theorem hostStep_regWrite_of_busy {s : State} (hrst : s.rst = false) (hbusy : s.running.isSome = true) {o : BitVec 15}
    (h : o.toNat % 8 = 0) (v : Word) : hostStep (.regWrite o 8 v) s = .next (
      if o = offsetOf .status then s.acknowledged v else if o = offsetOf .cmd then s.overrun else s.writeIgnored) := by
  rw [hostStep_regWrite_of_aligned h, writeReg_of_busy hrst hbusy, writeBusy]
  simp only [regAt_eq_iff h (r := .status) (by decide), regAt_eq_iff h (r := .cmd) (by decide)]

theorem readReg_of_busy {s : State} {run : Running} (hrst : s.rst = false) (hrun : s.running = some run) (r : Reg) :
    readReg s r = { s with rdData := busyValue s run.cmd r, draws := s.draws + 1 } := by simp [readReg, hrst, hrun]

theorem busyValue_of_kept {i : Instr} {r : Reg} (hstatus : r ≠ .status) (hwindow : r.inWindow = false) (hkept : writesReg i r = false)
    (s : State) : busyValue s i r = regValue s r := by simp [busyValue, hstatus, hwindow, hkept]

/-- Settles O16: a read while a command runs returns STATUS with a free EMPTY bit, and a register outside the write set as it is. -/
theorem readsWhileBusy : Obligations.ReadsWhileBusy := by
  intro s run hrst hrun r
  refine ⟨busyValue s run.cmd r, ?_, fun hr => ?_, fun hstatus hwindow hkept => busyValue_of_kept hstatus hwindow hkept s⟩
  · rw [hostStep_regRead_of_aligned (offsetOf_aligned r), regAt_offsetOf, readReg_of_busy hrst hrun]
  · rw [hr]
    obtain ⟨hbusy, hdone, herr, -, hovr, hwign⟩ := statusWord_flags true { s.status with empty := freeBool s.draws 0 }
    obtain ⟨-, -, -, hphase, -⟩ := statusWord_fields true { s.status with empty := freeBool s.draws 0 }
    exact ⟨hbusy, hdone, herr, hovr, hwign, hphase⟩

/-! ### WIGN and OVR are sticky (70 R322, 30 R105) -/

/-- Where WIGN or OVR is set in `s` it is set in `t`. -/
def StickyFlags (s t : State) : Prop :=
  (s.status.wign = true → t.status.wign = true) ∧ (s.status.ovr = true → t.status.ovr = true)

theorem StickyFlags.of_status {s t : State} (h : t.status = s.status) : StickyFlags s t := by simp [StickyFlags, h]

theorem StickyFlags.of_sameRest {s t : State} (h : sameRest s t) : StickyFlags s t := by
  obtain ⟨hovr, hwign, -⟩ := h
  exact ⟨hwign.trans, hovr.trans⟩

/-- No write but one to STATUS, and SRESET, clears WIGN or OVR; an accepted or rejected command word keeps them (30 R104). -/
theorem stickyFlags_writeReg {s : State} {r : Reg} {v : Word} (hstatus : r ≠ .status) (hsreset : r = .ctrl → v.getLsbD 63 = false) :
    StickyFlags s (writeReg s r v) := by
  unfold writeReg
  split
  · exact .of_status rfl
  · split
    · rw [writeBusy, if_neg hstatus]
      split
      · exact ⟨id, fun _ => rfl⟩
      · exact ⟨fun _ => rfl, id⟩
    · cases r with
      | status => exact absurd rfl hstatus
      | ctrl => rw [writeIdle, writeCtrl, hsreset rfl]; exact .of_status rfl
      | cmd =>
        rw [writeIdle, issue]
        split <;> exact ⟨id, id⟩
      | _ => exact .of_status rfl

theorem stickyFlags_hostStep {s t : State} {a : HostAction} (hstatus : ∀ v, a ≠ .regWrite (offsetOf .status) 8 v)
    (hsreset : ∀ v, v.getLsbD 63 = true → a ≠ .regWrite (offsetOf .ctrl) 8 v) (hrst : ∀ l, a ≠ .rst l)
    (ht : hostStep a s = .next t) : StickyFlags s t := by
  cases a with
  | regWrite o w v =>
    obtain ⟨hgood, rfl⟩ := next_of_guard ht
    obtain ⟨rfl, haligned⟩ : w = 8 ∧ o.toNat % 8 = 0 := by simpa [badAccess] using hgood
    refine stickyFlags_writeReg (fun e => hstatus v ?_) fun e => Bool.eq_false_iff.mpr fun hv => hsreset v hv ?_
    · rw [(regAt_eq_iff haligned (by decide)).mp e]
    · rw [(regAt_eq_iff haligned (by decide)).mp e]
  | regRead o w => obtain ⟨_, rfl⟩ := next_of_guard ht; exact .of_status (readReg_status s _)
  | memWrite x v => rw [hostStep] at ht; obtain ⟨_, rfl⟩ := next_of_guard ht; exact .of_status (hostStore_status s x v)
  | memRead x => rw [hostStep] at ht; obtain ⟨_, rfl⟩ := next_of_guard ht; exact .of_status (hostLoad_status s x)
  | rst level => exact absurd rfl (hrst level)
  | deviceRegion => injection ht with ht; exact ht ▸ .of_status s.withRace_status

theorem stickyFlags_exec {i : Instr} {s t : State} (h : exec i s = .next t) : StickyFlags s t := by
  obtain ⟨-, hrest, -⟩ := commandFrame i s t h
  exact .of_sameRest hrest

theorem stickyFlags_sequence {s t : State} (h : sequence s = .next t) : StickyFlags s t := by
  cases hrun : s.running with
  | none =>
    rw [sequence_of_idle hrun] at h
    injection h with h
    exact .of_status (h ▸ rfl)
  | some run => exact stickyFlags_exec ((sequence_of_running hrun).symm.trans h)

theorem stickyFlags_advancePhase (s : State) : StickyFlags s (advancePhase s) := by
  unfold advancePhase
  split
  · exact .of_status rfl
  · split
    · exact .of_status rfl
    · exact ⟨id, id⟩

theorem State.withReply_status (s : State) (reply : Option (Nat × Word)) : (s.withReply reply).status = s.status := by
  unfold State.withReply
  split <;> rfl

/-- Settles O8: the write of a busy engine by its offset, and each kind of step keeps a set WIGN and OVR. -/
theorem ignoredWritesWhileBusy : Obligations.IgnoredWritesWhileBusy := by
  refine ⟨fun s o v hrst hbusy h => ?write, fun s t ht hstatus hsreset hrst => ?sticky⟩
  case write =>
    rw [hostStep_regWrite_of_busy hrst hbusy h, apply_ite Host.Outcome.next, apply_ite Host.Outcome.next]
    rfl
  case sticky =>
    obtain ⟨_, e⟩ | ⟨a, rest, hev, e⟩ | ⟨rest, _, e⟩ | ⟨reply, rest, _, e⟩ := step_cases s <;> rw [e] at ht
    · exact stickyFlags_sequence ht
    · exact stickyFlags_hostStep (s := { s with events := rest }) (fun v ha => hstatus rest v (ha ▸ hev))
        (fun v hv ha => hsreset rest v hv (ha ▸ hev)) (fun l ha => hrst rest l (ha ▸ hev)) ht
    · injection ht with ht
      exact ht ▸ stickyFlags_advancePhase { s with events := rest }
    · have hsticky := stickyFlags_sequence ht
      rwa [StickyFlags, State.withReply_status] at hsticky

/-! ### The interrupt line (60 R288) -/

theorem State.irq_of_low {s : State} (hrst : s.rst = false) : s.irq = (s.ie && (s.status.done || s.status.err)) := by
  simp [State.irq, hrst]

theorem State.irq_of_ended {s : State} (hdone : s.status.done = false) (herr : s.status.err = false) : s.irq = false := by
  simp [State.irq, hdone, herr]

/-- A CTRL write of an idle engine without SRESET (10 R23). -/
theorem writeCtrl_of_no_reset {v : Word} (h : v.getLsbD 63 = false) (s : State) :
    writeCtrl s v = { s with ie := v.getLsbD 0, workers := legalWorkers (v.extractLsb' 8 8) } := by
  rw [writeCtrl, if_neg (by rw [h]; decide)]

/-- Settles O15: an acknowledgement of both flags and an acceptance clear DONE and ERR, and a CTRL write changes IE and not STATUS. -/
theorem interruptLine : Obligations.InterruptLine := by
  intro s hrst
  refine ⟨State.irq_of_low hrst, fun v hdone herr => ⟨_, hostStep_statusWrite hrst v, ?ack⟩,
    fun w i hidle hw => ⟨s.accepted w i, ?accept, State.irq_of_ended rfl rfl⟩, fun v hidle hv =>
      ⟨{ s with ie := v.getLsbD 0, workers := legalWorkers (v.extractLsb' 8 8) }, ?write, rfl, ?line⟩⟩
  case ack => exact State.irq_of_ended (by simp [hdone]) (by simp [herr])
  case accept =>
    rw [← issue_of_legal hw]
    exact hostStep_cmdWrite_of_idle hrst hidle w
  case write =>
    refine (hostStep_write_of_idle hrst hidle .ctrl v).trans ?_
    rw [writeIdle, writeCtrl_of_no_reset hv]
  case line => exact State.irq_of_low (s := { s with ie := v.getLsbD 0, workers := legalWorkers (v.extractLsb' 8 8) }) hrst

/-! ### Resets (70 R310 to R312) -/

/-- Settles O12: SRESET while idle is a reset, while busy an ignored write; CTRL's bit 63 is among its bits that read 0. -/
theorem softwareReset : Obligations.SoftwareReset := by
  intro s v hrst hv
  refine ⟨fun hidle => ?idle, fun hbusy => ?busy, ?read⟩
  case idle =>
    refine (hostStep_write_of_idle hrst hidle .ctrl v).trans ?_
    rw [writeIdle, writeCtrl, if_pos hv, State.engineReset, hrst]
  case busy => exact hostStep_regWrite_of_busy hrst hbusy (o := offsetOf .ctrl) (by decide) v
  case read =>
    obtain ⟨-, -, -, hzero⟩ := ctrlWord_fields s
    have hbit := congrArg (fun x : BitVec 48 => x.getLsbD 47) hzero
    simpa [regValue] using hbit

/-- Settles O19: memory is empty, WORKERS is MAX_WORKERS, nothing is latched and `rst` is low. -/
theorem invariantAtReset : Obligations.InvariantAtReset := .of_isReset rfl Memory.wf_nil

/-- Every register and RAM word but ID, CTRL and TREEINFO is 0 after reset. -/
theorem regValue_of_isReset {s : State} (h : s.isReset) {r : Reg} (hid : r ≠ .id) (hctrl : r ≠ .ctrl) (htree : r ≠ .treeInfo) :
    regValue s r = 0#64 := by
  rw [h]
  cases r with
  | id => exact absurd rfl hid
  | ctrl => exact absurd rfl hctrl
  | treeInfo => exact absurd rfl htree
  | hist b => simp [regValue, State.engineReset, State.reset]
  | len b => simp [regValue, State.engineReset, State.reset]
  | code b w => simp [regValue, State.engineReset, State.reset, codeWord]
  | node i w =>
    have hempty : ∀ w : Fin 2, nodeWord Node.empty w = 0#64 := by decide
    simp [regValue, State.engineReset, State.reset, hempty]
  | status =>
    change statusWord false Status.reset = 0#64
    decide
  | _ => rfl

/-- WORKERS as a field of CTRL (10 R23). -/
theorem toNat_workersField (w : Byte) : (w.setWidth 64 <<< 8).toNat = w.toNat * 2 ^ 8 := by
  rw [BitVec.toNat_shiftLeft, BitVec.toNat_setWidth, Nat.shiftLeft_eq]
  omega

/-- Settles O14: power-up's state is a reset state too, and each of its words is one of a reset's fields. -/
theorem resetValues : Obligations.ResetValues := by
  intro s hs
  have h : s.isReset := hs.elim (fun e => e ▸ rfl) id
  obtain ⟨hmagic, hversion, hmax, hzero⟩ := idWord_fields
  refine ⟨hmagic, hversion, hmax, hzero, ?ctrl, ?tree, fun r => regValue_of_isReset h, State.running_of_isReset h, ?irq,
    fun hev => step_of_idle hev (State.running_of_isReset h), fun _ => rfl⟩
  case ctrl =>
    rw [h]
    simp only [regValue, ctrlWord, State.engineReset, State.reset, bitWord, Bool.false_eq_true, if_false, BitVec.zero_or]
    exact toNat_workersField Config.maxWorkers
  case tree =>
    rw [h]
    simp only [regValue, treeInfoWord, State.engineReset, State.reset]
    decide
  case irq => rw [h]; exact State.irq_of_ended rfl rfl

theorem hostStep_regWrite_of_rst {s : State} (hrst : s.rst = true) {o : BitVec 15} (h : o.toNat % 8 = 0) (v : Word) :
    hostStep (.regWrite o 8 v) s = .next s := by
  rw [hostStep_regWrite_of_aligned h, writeReg, if_pos hrst]

theorem hostStep_regRead_of_rst {s : State} (hrst : s.rst = true) {o : BitVec 15} (h : o.toNat % 8 = 0) :
    hostStep (.regRead o 8) s = .next { s with rdData := Config.free 64 s.draws 0, draws := s.draws + 1 } := by
  rw [hostStep_regRead_of_aligned h, readReg, if_pos hrst]

theorem abandoned_of_idle {s : State} (h : s.running = none) : abandoned s = s := by simp [abandoned, h]

/-- What `rst` leaves of the memory of a command that was not raced: every byte outside the write set (70 R310). -/
theorem abandoned_keepsOutside {s : State} {run : Running} (h : s.running = some run) (hraced : run.raced = false) :
    keepsOutside s (abandoned s) ((commandOf run.cmd).writeSet s) := by
  intro a ha
  simp only [abandoned, h, hraced, Bool.false_eq_true, if_false, State.unspecifiedOutput_mem]
  exact Memory.read_writeBytes_outside _ _ _ (by rw [length_freeBytes]; omega)

end Sys2Proof.Machine

namespace Sys2Proof
open Machine

/-- Settles O13: under `rst` the port takes no access; its assertion resets the engine and abandons the command, its deassertion resets
it. -/
theorem resetInput : Obligations.ResetInput := by
  refine ⟨fun s o v hrst h => ?under, fun s => ?assert, fun s hrst => ?deassert⟩
  case under =>
    exact ⟨hostStep_regWrite_of_rst hrst h v, ⟨_, _, hostStep_regRead_of_rst hrst h⟩, by simp [State.irq, hrst]⟩
  case assert =>
    refine ⟨{ (abandoned s).engineReset with rst := true }, rfl, rfl, rfl, rfl, rfl, fun hidle => ?_,
      fun run a hrun hraced ha => abandoned_keepsOutside hrun hraced a ha⟩
    rw [abandoned_of_idle hidle]
    rfl
  case deassert =>
    refine ⟨{ s.engineReset with rst := false }, ?_, rfl, rfl, rfl, rfl⟩
    rw [hostStep, Machine.resetInput, if_neg (by decide), if_pos hrst]

end Sys2Proof
end

section
/-!
DECOMPRESS of a valid header and packed codes, and the round trip (47 R265 to R268; O58, O59).
-/
namespace Sys2Proof.Machine

/-! ### DECOMPRESS of a valid stream -/

section Decompress
variable {u v w : State} {xs : List Byte} {code : Byte → List Bool} (hu : u.undisturbed = true) (hreg : regionsOk true true u = true)
  (hparsed : ParsedStream u v xs.length (pack (xs.flatMap code))) (hw : Rebuilt v w)
include hu hreg hparsed hw

/-- A stream whose tree leads each byte's code to its leaf decompresses to the bytes. -/
theorem exec_decompress_of_leads (hleads : ∀ x ∈ xs, code x ≠ [] ∧ leadsTo w (code x) x.toFin) (hcap : xs.length ≤ u.outCap.toNat) :
    exec .decompress u = .next (State.succeeded { w with mem := w.mem.writeBytes w.outBase.toNat xs } w.origLen) := by
  have horig : w.origLen.toNat = xs.length := by rw [hw.origLen, hparsed.origLen]
  have hpay : payloadInput w = pack (xs.flatMap code) := by
    rw [payloadInput, hw.input, hw.payloadOff, ← payloadInput, hparsed.payload]
  have hdcheck : phaseDcheck w = .ok w := phaseDcheck_of_fits (by rw [hw.payloadOff, hw.inLen]; exact hparsed.payloadOff_le)
    (by rw [horig, hw.outCap, hparsed.outCap]; exact hcap)
  have hdecode := phaseDecode_of_ok (decodePayload_of_pack hleads horig.symm hpay)
  refine exec_of_returned (i := .decompress) hu ?_
  rw [runPlan_decompress_of_parsed hreg hparsed.parsed hw, decodeTail, runPlan_always_ok hdcheck, runPlan_always_ok hdecode,
    runPlan_nil]

/-- An output region below the original length is refused in CHECK, before any memory write (60 R285). -/
theorem exec_decompress_of_too_small (hcap : u.outCap.toNat < xs.length) :
    exec .decompress u = .next (w.failed .check ⟨.bufferTooSmall, w.origLen⟩) := by
  have hdcheck : phaseDcheck w = .error ⟨.bufferTooSmall, w.origLen⟩ := by
    rw [phaseDcheck, if_neg, if_pos]
    · rwa [hw.origLen, hparsed.origLen, hw.outCap, hparsed.outCap]
    · rw [hw.payloadOff, hw.inLen]
      exact not_lt.mpr hparsed.payloadOff_le
  have hrun : runPlan (commandOf .decompress).plan u = .raised .check ⟨.bufferTooSmall, w.origLen⟩ w := by
    rw [runPlan_decompress_of_parsed hreg hparsed.parsed hw, decodeTail, runPlan_always_error hdcheck]
  rw [exec_of_raised hu hrun]
  rfl

end Decompress

/-- What PARSEHDR's commit leaves as it was, and the sizes it loads (45 R210). -/
theorem parsedState_registers {te : TableMode} {olen : Nat} {es : List (Nat × Nat)} {u : State} {payload : List Byte}
    (hv : validEntries te olen es) (hin : inputBytes u = headerBytes te olen es ++ payload) :
    (parsedState te es u).hdrLen.toNat = headerLen te es.length ∧ (parsedState te es u).payloadOff = (parsedState te es u).hdrLen := by
  have hat : HeaderAt u te olen es := hv.headerAt_iff.mp ⟨payload, hin⟩
  rw [parsedState, hat.count]
  exact ⟨Nat.mod_eq_of_lt (hat.fits.trans_lt u.inLen.isLt), rfl⟩

/-- Settles O58: the header is parsed, the tree rebuilt from it leads the codes it stands for to their leaves, and DECODE's phases read
them or refuse the output region. -/
theorem decompressResult : Obligations.DecompressResult := by
  intro te es xs u hu hwf hreg hv c hcoded hin
  have hparsed : ParsedStream u _ xs.length (pack (xs.flatMap (byteCode c))) := parsedStream hv hin
  obtain ⟨w, hw, hleads⟩ := rebuilt_of_validEntries hv u
  have hframe := phaseParsehdr_frame hparsed.parsed
  have horig : w.origLen.toNat = xs.length := by rw [hw.origLen, hparsed.origLen]
  have hmem : w.mem = u.mem := hw.mem.trans (EnginePhase.parsehdr.mem rfl hparsed.parsed)
  have hbase : w.outBase = u.outBase := hw.outBase.trans hframe.outBase
  have hstatus : w.status = u.status := hw.status.trans (by rw [parsedState])
  have hlen : w.origLen = BitVec.ofNat 64 xs.length := by rw [← horig, BitVec.ofNat_toNat, BitVec.setWidth_eq]
  refine ⟨fun hcap => ?fits, fun hcap => ?small⟩
  case fits =>
    obtain ⟨hhdr, hoff⟩ := parsedState_registers hv hin
    refine ⟨_, exec_decompress_of_leads hu hreg hparsed hw (fun x hx => ⟨codeWordBits_ne_nil (hcoded x hx), hleads _ (hcoded x hx)⟩) hcap,
      ⟨rfl, hlen, hw.errInfo.trans hframe.errInfo, ?status⟩, ?out, horig, hw.te.trans (te_parsedState te es u), ?hdrLen, ?off, ?freq, ?canon⟩
    case status => rw [State.succeeded_status, hstatus]
    case out =>
      rw [State.outBytes, State.succeeded_mem, State.succeeded_outBase, hmem, hbase]
      exact Memory.readBytes_writeBytes hwf _ xs (outBase_add_le hreg hcap)
    case hdrLen => rw [State.succeeded_hdrLen, hw.hdrLen, hhdr]
    case off => rw [State.succeeded_payloadOff, State.succeeded_hdrLen, hw.payloadOff, hw.hdrLen, hoff]
    case freq =>
      rintro rfl
      obtain ⟨hlen, hcode⟩ := hw.codes (te_parsedState .freq es u)
      exact ⟨hlen.trans (len_parsedState_freq es u), hcode.trans (by rw [parsedState])⟩
    case canon =>
      rintro rfl
      exact (hw.hist (te_parsedState .canon es u)).trans (hist_parsedState_canon es u)
  case small =>
    have hfail := (failedWith_failed (kept := w) (empty := u.status.empty) hstatus .check ⟨.bufferTooSmall, w.origLen⟩).1
    rw [← hlen]
    exact ⟨_, exec_decompress_of_too_small hu hreg hparsed hw hcap, hfail, horig, hmem⟩

/-! ### The round trip (47 R268) -/

/-- The lengths of a tree BUILD made are those of its paths, whatever the operands of DERIVE's free entries. -/
theorem BuildTable.pathLens_congr {hist : Vector Word 256} {t : PathTable} (h : BuildTable hist t) (ops ops' : List Nat) :
    pathLens ops t = pathLens ops' t :=
  vector_eq_of_toNat fun b => (h.toNat_pathLens ops b).trans (h.toNat_pathLens ops' b).symm

theorem codeStream_congr {c c' : State} (h : ∀ b, codeWordBits c b = codeWordBits c' b) (xs : List Byte) :
    codeStream c xs = codeStream c' xs := congrArg (List.flatMap · xs) (funext fun x => h (byteIndex x))

/-- The table a header of COMPRESS's tables stands for is the table of these. -/
theorem codes_headerTables {tm : TableMode} {s c : State} {table : PathTable} (h : CodedWith tm s c table) (u : State) :
    (headerTables tm (headerEntries tm c) u).len = c.len
      ∧ ∀ b : Fin 256, codeWordBits (headerTables tm (headerEntries tm c) u) b = codeWordBits c b := by
  obtain ⟨ops, hlen, hcode⟩ := h.len
  cases tm with
  | freq =>
    have htable := h.tree
    rw [← hist_parsedState_headerEntries c u] at htable
    rw [headerTables_freq htable]
    generalize afterPhase phaseBuild (parsedState .freq (headerEntries .freq c) u) = x
    refine ⟨(h.tree.pathLens_congr _ _).trans hlen.symm, fun b => ?_⟩
    rw [codeWordBits_of_buildTable h.tree (u := x.withTableCodes table) rfl rfl, codeWordBits_of_buildTable h.tree hlen (hcode rfl)]
  | canon =>
    rw [headerTables_canon h.validEntries]
    have hlens := len_parsedState_headerEntries c u
    refine ⟨hlens, fun b => ?_⟩
    rw [codeWordBits, codeWordBits, h.code rfl, ← hlens]
    rfl

/-- Settles O59: the stream COMPRESS wrote is a valid header and the packed codes it stands for. -/
theorem roundTrip : Obligations.RoundTrip := by
  intro tm s t u hu hwf _ h herr hu' hwf' hreg hin hcap
  obtain ⟨hcoded, hstream⟩ := outBytes_of_compress hu hwf h herr
  obtain ⟨table, hc⟩ := exists_codedWith tm s
  obtain ⟨hlens, hcodes⟩ := codes_headerTables hc u
  have hv := hc.validEntries
  rw [← length_inputBytes] at hv hcap ⊢
  rw [hstream, streamBytes, ← length_inputBytes, ← codeStream_congr hcodes] at hin
  obtain ⟨hfits, -⟩ := decompressResult tm _ _ u hu' hwf' hreg hv
    (fun x hx => by rw [hlens]; exact (byteCode_ne_nil hcoded hx).1) hin
  obtain ⟨v, hexec, hdone, hout, -⟩ := hfits hcap
  rw [length_inputBytes, BitVec.ofNat_toNat, BitVec.setWidth_eq] at hdone
  exact ⟨v, hexec, hdone, hout⟩

end Sys2Proof.Machine
end

section
/-!
What COMPRESS's and DECOMPRESS's outputs are functions of (47 R269, 20 R86; O56).
-/
namespace Sys2Proof.Machine

/-! ### COMPRESS -/

theorem codeWordBits_congr {s s' : State} (hlen : s.len = s'.len) (hcode : s.code = s'.code) (b : Fin 256) :
    codeWordBits s b = codeWordBits s' b := by rw [codeWordBits, codeWordBits, hlen, hcode]

/-- The stream of equal inputs is the same: equal counts have one tree, whose paths give the lengths and the codes. -/
theorem CodedWith.streamBytes_congr {tm : TableMode} {s s' c c' : State} {table table' : PathTable} (h : CodedWith tm s c table)
    (h' : CodedWith tm s' c' table') (hin : inputBytes s = inputBytes s') :
    streamBytes tm s.inLen.toNat c (inputBytes s) = streamBytes tm s'.inLen.toNat c' (inputBytes s') := by
  have hhist : c.hist = c'.hist := vector_eq_of_toNat fun b => by rw [h.hist, h'.hist, hin]
  obtain rfl : table = table' := by
    have hderived := h'.tree.derived
    rw [← hhist, h.tree.derived] at hderived
    exact Option.some.inj hderived
  obtain ⟨ops, hlen, hcode⟩ := h.len
  obtain ⟨ops', hlen', hcode'⟩ := h'.len
  have hlens : c.len = c'.len := by rw [hlen, hlen', h.tree.pathLens_congr]
  have hentries : headerEntries tm c = headerEntries tm c' := by cases tm <;> simp only [headerEntries, hhist, hlens]
  have hcodes : ∀ b, codeWordBits c b = codeWordBits c' b := fun b => by
    cases tm with
    | freq => rw [codeWordBits_of_buildTable h.tree hlen (hcode rfl), codeWordBits_of_buildTable h'.tree hlen' (hcode' rfl)]
    | canon => exact codeWordBits_congr hlens (by rw [h.code rfl, h'.code rfl, hlens]) b
  rw [streamBytes, streamBytes, hentries, codeStream_congr hcodes, ← length_inputBytes, ← length_inputBytes, hin]

/-! ### DECOMPRESS -/

theorem insertCodes_congr {s s' : State} (hlen : s.len = s'.len) (hcode : s.code = s'.code) (bs : List (Fin 256)) (a : List Node) :
    insertCodes s bs a = insertCodes s' bs a := by
  induction bs generalizing a with
  | nil => rfl
  | cons b bs ih =>
    rw [insertCodes_cons, insertCodes_cons, codeWordBits_congr hlen hcode]
    cases insertCode b.val (withRoot a) 0 (codeWordBits s' b) with
    | none => rfl
    | some a' => exact ih a'

/-- The tree of a CANON stream, read off CTREE's insertions. -/
theorem tree_of_rebuilt_canon {v w : State} (h : v.te = .canon) (hok : lengthsOk v) (hw : Rebuilt v w) :
    ∃ a, insertCodes v.canonized (codedBytes v.len) [] = .ok a ∧ w.node = arenaOf a ∧ w.root = if a = [] then noNode else 0#9 := by
  obtain ⟨x, hphase, -⟩ := phaseCtree_of_placeable (placeable_of_lengthsOk (t := v.canonized) hok (codesPrefixFree_canonized hok))
  have hrun := hw.run
  rw [runPlan_rebuild_canon h hok hphase] at hrun
  injection hrun with hrun
  obtain ⟨a, ha, he⟩ := phaseCtree_ok hphase
  rw [← hrun, he]
  exact ⟨a, ha, rfl, rfl⟩

/-- The tree rebuilt is a function of the header's entries. -/
theorem rebuilt_tree_congr {te : TableMode} {olen : Nat} {es : List (Nat × Nat)} (hv : validEntries te olen es) {u u' w w' : State}
    (h : Rebuilt (parsedState te es u) w) (h' : Rebuilt (parsedState te es u') w') : w.node = w'.node ∧ w.root = w'.root := by
  have hte := te_parsedState te es u
  have hte' := te_parsedState te es u'
  cases te with
  | freq =>
    have hhist : (parsedState .freq es u).hist = (parsedState .freq es u').hist := by simp [parsedState]
    generalize parsedState .freq es u = v at h hte hhist
    generalize parsedState .freq es u' = v' at h' hte' hhist
    have hrun := h.run
    have hrun' := h'.run
    rw [runPlan_rebuild_freq hte] at hrun
    rw [runPlan_rebuild_freq hte'] at hrun'
    injection hrun with hrun
    injection hrun' with hrun'
    rw [← hrun, ← hrun']
    exact ⟨congrArg (fun x => arenaOf (buildMerged x).2) hhist, congrArg buildRoot hhist⟩
  | canon =>
    have hok := lengthsOk_parsedState hv u
    have hok' := lengthsOk_parsedState hv u'
    have hlen : (parsedState .canon es u).len = (parsedState .canon es u').len := by simp [parsedState]
    generalize parsedState .canon es u = v at h hte hok hlen
    generalize parsedState .canon es u' = v' at h' hte' hok' hlen
    obtain ⟨a, ha, hnode, hroot⟩ := tree_of_rebuilt_canon hte hok h
    obtain ⟨a', ha', hnode', hroot'⟩ := tree_of_rebuilt_canon hte' hok' h'
    have hcode : v.canonized.code = v'.canonized.code := congrArg canonTable hlen
    rw [insertCodes_congr (s := v.canonized) (s' := v'.canonized) hlen hcode, hlen, ha'] at ha
    obtain rfl : a' = a := Except.ok.inj ha
    exact ⟨hnode.trans hnode'.symm, hroot.trans hroot'.symm⟩

theorem decodePayload_congr {w w' : State} (hnode : w.node = w'.node) (hroot : w.root = w'.root) (horig : w.origLen = w'.origLen)
    (hpay : payloadInput w = payloadInput w') : decodePayload w = decodePayload w' := by
  rw [decodePayload, decodePayload, hnode, hroot, horig, hpay]

/-- A DECOMPRESS that succeeds has parsed a valid header. -/
theorem header_of_decompress {s t : State} (hu : s.undisturbed = true) (h : exec .decompress s = .next t)
    (herr : t.status.err = false) :
    ∃ te olen es payload, validEntries te olen es ∧ inputBytes s = headerBytes te olen es ++ payload := by
  obtain ⟨x, hret, -⟩ := exec_returned hu h herr
  obtain ⟨-, hrun⟩ := runPlan_checked_returned hret
  obtain ⟨v, hparse, -⟩ := runPlan_always_returned hrun
  obtain ⟨te, olen, es, payload, hv, hin, -⟩ := parsedStream_of_phaseParsehdr hparse
  exact ⟨te, olen, es, payload, hv, hin⟩

/-- The bytes a DECOMPRESS that succeeds leaves at OUT_BASE are those its payload decodes to, and RESULT is their number. -/
theorem output_of_decompress {s t : State} {te : TableMode} {olen : Nat} {es : List (Nat × Nat)} {payload : List Byte}
    (hv : validEntries te olen es) (hin : inputBytes s = headerBytes te olen es ++ payload) (hu : s.undisturbed = true)
    (hwf : s.mem.wf = true) (h : exec .decompress s = .next t) (herr : t.status.err = false) :
    ∃ w, Rebuilt (parsedState te es s) w ∧ payloadInput w = payload ∧ w.origLen.toNat = olen
      ∧ decodePayload w = .ok (t.outBytes t.result.toNat) := by
  obtain ⟨x, hret, rfl⟩ := exec_returned hu h herr
  obtain ⟨hreg, -⟩ := runPlan_checked_returned hret
  have hparsed := parsedStream hv hin
  obtain ⟨w, hw, -⟩ := rebuilt_of_validEntries hv s
  rw [runPlan_decompress_of_parsed hreg hparsed.parsed hw] at hret
  obtain ⟨w', hdcheck, hdecode⟩ := runPlan_always_returned hret
  obtain ⟨rfl, -, hcap⟩ := phaseDcheck_ok hdcheck
  obtain ⟨bs, hbs, rfl⟩ := phaseDecode_ok (eq_ok_of_runPlan_single hdecode)
  have hframe := phaseParsehdr_frame hparsed.parsed
  refine ⟨w', hw, ?_, by rw [hw.origLen, hparsed.origLen], hbs.trans (congrArg _ ?_)⟩
  · rw [payloadInput, hw.input, hw.payloadOff, ← payloadInput, hparsed.payload]
  · have hmem : w'.mem.wf = true := by rw [hw.mem, EnginePhase.parsehdr.mem rfl hparsed.parsed]; exact hwf
    have hfits : w'.outBase.toNat + bs.length ≤ 2 ^ 64 := by
      rw [length_of_decodePayload hbs, hw.outBase, hframe.outBase]
      exact outBase_add_le hreg (by rwa [hw.outCap, hframe.outCap] at hcap)
    have hresult : ((commandOf .decompress).result { w' with mem := w'.mem.writeBytes w'.outBase.toNat bs }).toNat = bs.length :=
      (length_of_decodePayload hbs).symm
    rw [State.outBytes, State.succeeded_mem, State.succeeded_outBase, State.succeeded_result, hresult]
    exact (Memory.readBytes_writeBytes hmem _ bs hfits).symm

/-- Outputs of RESULT bytes that are equal are equally long. -/
theorem result_eq_of_outBytes {t t' : State} (h : t.outBytes t.result.toNat = t'.outBytes t'.result.toNat) : t.result = t'.result := by
  have hlen := congrArg List.length h
  rw [State.outBytes, State.outBytes, Memory.length_readBytes, Memory.length_readBytes] at hlen
  exact BitVec.eq_of_toNat_eq hlen

/-- Settles O56: both outputs are functions of the input bytes, COMPRESS's stream by its tables, DECOMPRESS's bytes by the header's tree
and the payload. -/
theorem outputDeterminism : Obligations.OutputDeterminism := by
  refine ⟨fun tm s s' t t' hu hu' hwf hwf' _ _ hin h h' herr herr' => ?compress,
    fun s s' t t' hu hu' hwf hwf' _ _ hin h h' herr herr' => ?decompress⟩
  case compress =>
    obtain ⟨-, hout⟩ := outBytes_of_compress hu hwf h herr
    obtain ⟨-, hout'⟩ := outBytes_of_compress hu' hwf' h' herr'
    obtain ⟨_, hc⟩ := exists_codedWith tm s
    obtain ⟨_, hc'⟩ := exists_codedWith tm s'
    have hsame := hout.trans ((hc.streamBytes_congr hc' hin).trans hout'.symm)
    exact ⟨result_eq_of_outBytes hsame, hsame⟩
  case decompress =>
    obtain ⟨te, olen, es, payload, hv, hbytes⟩ := header_of_decompress hu h herr
    obtain ⟨w, hw, hpay, horig, hout⟩ := output_of_decompress hv hbytes hu hwf h herr
    obtain ⟨w', hw', hpay', horig', hout'⟩ := output_of_decompress hv (hin ▸ hbytes) hu' hwf' h' herr'
    obtain ⟨hnode, hroot⟩ := rebuilt_tree_congr hv hw hw'
    rw [decodePayload_congr hnode hroot (BitVec.eq_of_toNat_eq (horig.trans horig'.symm)) (hpay.trans hpay'.symm), hout'] at hout
    have hsame := (Except.ok.inj hout).symm
    exact ⟨result_eq_of_outBytes hsame, hsame⟩

end Sys2Proof.Machine
end

section
/-!
The stepwise commands run the phases of COMPRESS one command at a time: what a phase reads and writes are registers, RAMs and memory that a
command's acceptance and completion leave alone (47 R264; O55).
-/
namespace Sys2Proof.Machine

/-! ### The data a phase works on -/

/-- The data of `s` (the registers a command reads or writes, the RAMs and memory) with the control of `t` (CMD, STATUS, RESULT, ERRINFO,
the latch, the inputs and the model's own records). -/
def State.withControl (s t : State) : State :=
  { s with
    cmd := t.cmd, status := t.status, result := t.result, errInfo := t.errInfo, running := t.running, rst := t.rst
    events := t.events, rdData := t.rdData, memData := t.memData, draws := t.draws }

/-- Two states hold the same data. -/
def SameData (s t : State) : Prop := ∃ c, t = s.withControl c

theorem SameData.refl (s : State) : SameData s s := ⟨s, rfl⟩

theorem SameData.symm {s t : State} (h : SameData s t) : SameData t s := by
  obtain ⟨c, rfl⟩ := h
  exact ⟨s, rfl⟩

theorem SameData.trans {s t u : State} (h : SameData s t) (k : SameData t u) : SameData s u := by
  obtain ⟨c, rfl⟩ := h
  obtain ⟨d, rfl⟩ := k
  exact ⟨d, rfl⟩

theorem sameData_latched (s : State) (i : Instr) : SameData s (s.latched i) := ⟨s.latched i, rfl⟩

theorem sameData_succeeded (s : State) (r : Word) : SameData s (s.succeeded r) := ⟨s.succeeded r, rfl⟩

theorem SameData.sameRegs {s t : State} (h : SameData s t) : sameRegs (fun _ => true) { s with cmd := t.cmd } t := by
  obtain ⟨c, rfl⟩ := h
  simp [Machine.sameRegs, State.withControl]

theorem SameData.mem {s t : State} (h : SameData s t) : t.mem = s.mem := by
  obtain ⟨c, rfl⟩ := h
  rfl

/-- DERIVE's phase where its traversal does not end (log entry 13). -/
theorem phaseDerive_none {tm : TableMode} {s : State} (h : derivePaths s.node s.root = none) :
    phaseDerive tm s = .ok { s with
      len := tabulate 256 (freeLen (treeOperands s.node s.root))
      code := if tm = .freq then tabulate 256 (freeCode (treeOperands s.node s.root)) else s.code } := by
  simp [phaseDerive, h]

/-- A phase works on the data alone, and none but HIST's changes the control. -/
theorem EnginePhase.body_withControl {p : PhaseStep} (hp : EnginePhase p) (hhist : p.phase ≠ .hist) {s s' : State}
    (hs : p.body s = .ok s') (c : State) : p.body (s.withControl c) = .ok (s'.withControl c) := by
  have hin : inputBytes (s.withControl c) = inputBytes s := rfl
  cases hp with
  | hist => exact absurd rfl hhist
  | check a b =>
    obtain ⟨rfl, hreg⟩ := regionCheck_ok hs
    exact regionCheck_of_ok hreg
  | build => rw [phaseBuild_ok hs]; rfl
  | derive tm =>
    cases hpaths : derivePaths s.node s.root with
    | some table =>
      rw [← Except.ok.inj ((phaseDerive_some hpaths).symm.trans hs)]
      exact phaseDerive_some (s := s.withControl c) hpaths
    | none =>
      rw [← Except.ok.inj ((phaseDerive_none hpaths).symm.trans hs)]
      exact phaseDerive_none (s := s.withControl c) hpaths
  | canon =>
    obtain ⟨hok, rfl⟩ := lengthsOk_of_phaseCanon hs
    exact phaseCanon_of_lengthsOk hok
  | ctree =>
    obtain ⟨a, ha, rfl⟩ := phaseCtree_ok hs
    rw [codedBytes_eq] at ha
    exact phaseCtree_of_ok ((insertCodes_congr (s := s.withControl c) (s' := s) rfl rfl _ _).trans ha)
  | estimate =>
    obtain ⟨n, hn, rfl⟩ := phaseEstimate_ok hs
    exact phaseEstimate_of_length ((lengthPass_congr rfl hin).trans hn)
  | encode =>
    obtain ⟨n, hn, hfits, rfl⟩ := phaseEncode_ok hs
    exact phaseEncode_of_fits ((lengthPass_congr rfl hin).trans hn) hfits
  | wrhdr tm =>
    obtain ⟨hfits, rfl⟩ := phaseWrhdr_ok hs
    have hlen : wrhdrLen tm (s.withControl c) = wrhdrLen tm s := by cases tm <;> rfl
    refine (phaseWrhdr_of_fits (hlen ▸ hfits)).trans ?_
    cases tm <;> rfl
  | parsehdr =>
    obtain ⟨te, olen, es, payload, hv, hbytes, rfl, -⟩ := parsedStream_of_phaseParsehdr hs
    refine (parsedStream hv (hin.trans hbytes)).parsed.trans ?_
    rfl
  | dcheck =>
    obtain ⟨rfl, hoff, hcap⟩ := phaseDcheck_ok hs
    exact phaseDcheck_of_fits hoff hcap
  | decode =>
    obtain ⟨bs, hbs, rfl⟩ := phaseDecode_ok hs
    exact phaseDecode_of_ok ((decodePayload_congr rfl rfl rfl rfl).trans hbs)
  | ccheck tm =>
    obtain ⟨rfl, hfits⟩ := phaseCcheck_ok hs
    exact if_neg (not_lt.mpr hfits)

/-- Started from the same data, a phase returns the same data. -/
theorem EnginePhase.sameData {p : PhaseStep} (hp : EnginePhase p) {s t s' : State} (h : SameData s t) (hs : p.body s = .ok s') :
    ∃ t', p.body t = .ok t' ∧ SameData s' t' := by
  by_cases hhist : p.phase = .hist
  · cases hp with
    | hist =>
      obtain ⟨c, rfl⟩ := h
      rw [phaseHist_ok hs]
      exact ⟨_, rfl, afterPhase phaseHist (s.withControl c), rfl⟩
    | _ => cases hhist
  · obtain ⟨c, rfl⟩ := h
    exact ⟨_, hp.body_withControl hhist hs c, c, rfl⟩

/-- The phases of the engine that a plan always runs. -/
def Unguarded (ps : List PhaseStep) : Prop := ∀ p ∈ ps, EnginePhase p ∧ ∀ s, p.guard s = true

/-- Started from the same data, such a plan returns the same data. -/
theorem Unguarded.sameData {ps : List PhaseStep} (hps : Unguarded ps) {s t s' : State} (h : SameData s t)
    (hs : runPlan ps s = .returned s') : ∃ t', runPlan ps t = .returned t' ∧ SameData s' t' := by
  induction ps generalizing s t with
  | nil =>
    injection hs with hs
    exact ⟨t, rfl, hs ▸ h⟩
  | cons p ps ih =>
    obtain ⟨⟨hp, hguard⟩, hrest⟩ := List.forall_mem_cons.mp hps
    cases hb : p.body s with
    | error e => rw [runPlan_error (hguard s) hb] at hs; cases hs
    | ok v =>
      rw [runPlan_ok (hguard s) hb] at hs
      obtain ⟨w, hw, hsame⟩ := hp.sameData h hb
      rw [runPlan_ok (hguard t) hw]
      exact ih hrest hsame hs

theorem unguarded_plan {i : Instr} (hi : i ≠ .decompress) : Unguarded (commandOf i).plan := fun p hp =>
  ⟨plan_enginePhase i p hp, (plan_unguarded hi).1 p hp⟩

/-! ### Commands in turn -/

theorem undisturbed_latched (s : State) (i : Instr) : (s.latched i).undisturbed = true := rfl

/-- A command that completes with DONE is one whose phases all return. -/
theorem completesTo_iff {i : Instr} {s t : State} : completesTo i s t ↔
    ∃ u, runPlan (commandOf i).plan (s.latched i) = .returned u ∧ t = u.succeeded ((commandOf i).result u) := by
  constructor
  · rintro ⟨hexec, -, herr⟩
    exact exec_returned (undisturbed_latched s i) hexec herr
  · rintro ⟨u, hret, rfl⟩
    exact ⟨exec_of_returned (undisturbed_latched s i) hret, rfl, (runPlan_returned_frame hret).err⟩

/-- The phases of some commands, one command's after another's. -/
def plansOf (is : List Instr) : List PhaseStep := is.flatMap fun i => (commandOf i).plan

theorem unguarded_plansOf {is : List Instr} (h : ∀ i ∈ is, i ≠ .decompress) : Unguarded (plansOf is) := fun p hp => by
  obtain ⟨i, hi, hp⟩ := List.mem_flatMap.mp hp
  exact unguarded_plan (h i hi) p hp

/-- Commands that complete in turn run their phases one after another. -/
theorem runPlan_of_completeInTurn {is : List Instr} (his : ∀ i ∈ is, i ≠ .decompress) {s u : State} (h : completeInTurn is s u) :
    ∃ v, runPlan (plansOf is) s = .returned v ∧ SameData v u := by
  induction is generalizing s with
  | nil => exact ⟨s, rfl, h ▸ .refl s⟩
  | cons i is ih =>
    obtain ⟨hi, hrest⟩ := List.forall_mem_cons.mp his
    obtain ⟨m, hm, hturn⟩ := h
    obtain ⟨x, hx, rfl⟩ := completesTo_iff.mp hm
    obtain ⟨y, hy, hxy⟩ := (unguarded_plan hi).sameData (sameData_latched s i).symm hx
    obtain ⟨v, hv, hvu⟩ := ih hrest hturn
    obtain ⟨z, hz, hvz⟩ := (unguarded_plansOf hrest).sameData ((sameData_succeeded x _).symm.trans hxy) hv
    refine ⟨z, ?_, hvz.symm.trans hvu⟩
    rw [plansOf, List.flatMap_cons, runPlan_append, hy]
    exact hz

/-- Commands whose phases return one after another complete in turn. -/
theorem completeInTurn_of_runPlan {is : List Instr} (his : ∀ i ∈ is, i ≠ .decompress) {s v : State}
    (h : runPlan (plansOf is) s = .returned v) : ∃ u, completeInTurn is s u ∧ SameData v u := by
  induction is generalizing s v with
  | nil =>
    injection h with h
    exact ⟨s, rfl, h ▸ .refl s⟩
  | cons i is ih =>
    obtain ⟨hi, hrest⟩ := List.forall_mem_cons.mp his
    obtain ⟨y, hy, hv⟩ := runPlan_append_returned h
    obtain ⟨x, hx, hyx⟩ := (unguarded_plan hi).sameData (sameData_latched s i) hy
    obtain ⟨z, hz, hvz⟩ := (unguarded_plansOf hrest).sameData (hyx.trans (sameData_succeeded x ((commandOf i).result x))) hv
    obtain ⟨u, hturn, hzu⟩ := ih hrest hz
    exact ⟨u, ⟨_, completesTo_iff.mpr ⟨x, hx, rfl⟩, hturn⟩, hvz.trans hzu⟩

/-! ### The stepwise sequence (47 R264) -/

/-- The phases of COMPRESS(tm) that make the code table, behind its RegionCheck. -/
def tableBody (tm : TableMode) : List PhaseStep := (tablePhases tm).tail

theorem tablePhases_eq (tm : TableMode) : tablePhases tm = .always .check (regionCheck true true) :: tableBody tm := by
  cases tm <;> rfl

theorem plansOf_stepwise (tm : TableMode) : plansOf (stepwise tm) = .always .check (regionCheck true false) :: (tableBody tm ++
    [.always .check (regionCheck true false), .always .estimate phaseEstimate, .always .check (regionCheck false true),
      .always .wrhdr (phaseWrhdr tm), .always .check (regionCheck true true), .always .encode phaseEncode]) := by
  cases tm <;> rfl

theorem PhaseFrame.regionsOk {s t : State} (h : PhaseFrame s t) (useIn useOut : Bool) :
    regionsOk useIn useOut t = regionsOk useIn useOut s := by
  simp only [Machine.regionsOk, inWraps, outWraps, regionsOverlap, h.inBase, h.inLen, h.outBase, h.outCap]

theorem frame_of_tableBody {tm : TableMode} {s c : State} (h : runPlan (tableBody tm) s = .returned c) : PhaseFrame s c := by
  have hsub : ∀ p ∈ tableBody tm, p ∈ (commandOf (compressOf tm)).plan := fun p hp => by
    rw [compress_plan]
    exact List.mem_append_left _ (List.mem_of_mem_tail hp)
  have hkeeps := runPlan_keeps (P := PhaseFrame s) (fun p hp v w hv hb => hv.trans (plan_frame _ p (hsub p hp) v w hb))
    (PhaseFrame.refl s)
  rwa [h] at hkeeps

theorem regionCheck_of_frame {s t : State} (h : PhaseFrame s t) (hreg : regionsOk true true s = true) (useIn useOut : Bool) :
    regionCheck useIn useOut t = .ok t :=
  regionCheck_of_ok ((h.regionsOk useIn useOut).trans (regionsOk_of_both hreg useIn useOut))

/-- The stepwise sequence runs COMPRESS's phases: its RegionChecks pass where COMPRESS's does, and COMPRESS's CHECK of the stream's length
where WRHDR's and ENCODE's phases do not raise. -/
theorem runPlan_stepwise_iff {tm : TableMode} {s v : State} :
    runPlan (plansOf (stepwise tm)) s = .returned v ↔ runPlan (commandOf (compressOf tm)).plan s = .returned v := by
  rw [plansOf_stepwise, compress_plan, tablePhases_eq, List.cons_append]
  constructor
  · intro h
    obtain ⟨-, h⟩ := runPlan_checked_returned h
    obtain ⟨c, htables, h⟩ := runPlan_append_returned h
    obtain ⟨-, h⟩ := runPlan_checked_returned h
    obtain ⟨x, hestimate, h⟩ := runPlan_always_returned h
    obtain ⟨-, h⟩ := runPlan_checked_returned h
    obtain ⟨w, hwrhdr, h⟩ := runPlan_always_returned h
    obtain ⟨hreg, h⟩ := runPlan_checked_returned h
    have hframe := ((frame_of_tableBody htables).trans (phaseEstimate_frame hestimate)).trans (phaseWrhdr_frame hwrhdr)
    rw [hframe.regionsOk] at hreg
    have hmade : runPlan (tablePhases tm) s = .returned c := by
      rw [tablePhases_eq, runPlan_always_ok (regionCheck_of_ok hreg), htables]
    obtain ⟨n, hsized⟩ := streamSized (tablesMade hmade) hestimate
    obtain ⟨hoff, hlength⟩ := lengthPass_of_phaseWrhdr hsized.regions hwrhdr
    obtain ⟨m, hm, hfits, -⟩ := phaseEncode_ok (eq_ok_of_runPlan_single h)
    obtain rfl : n = m := Except.ok.inj ((hlength.trans hsized.length).symm.trans hm)
    have hcheck : phaseCcheck tm x = .ok x := by
      rw [hoff, (phaseWrhdr_frame hwrhdr).outCap, ← hsized.need] at hfits
      exact if_neg (not_lt.mpr hfits)
    rw [runPlan_always_ok (regionCheck_of_ok hreg), runPlan_append, htables]
    dsimp only
    rw [runPlan_always_ok hestimate, streamPhases, runPlan_always_ok hcheck, runPlan_always_ok hwrhdr, h]
  · intro h
    obtain ⟨hreg, h⟩ := runPlan_checked_returned h
    obtain ⟨c, htables, h⟩ := runPlan_append_returned h
    obtain ⟨x, hestimate, hstream⟩ := runPlan_always_returned h
    obtain ⟨y, hcheck, hwrite⟩ := runPlan_always_returned hstream
    obtain ⟨rfl, -⟩ := phaseCcheck_ok hcheck
    obtain ⟨w, hwrhdr, hencode⟩ := runPlan_always_returned hwrite
    have hc := frame_of_tableBody htables
    have hx := hc.trans (phaseEstimate_frame hestimate)
    have hw := hx.trans (phaseWrhdr_frame hwrhdr)
    rw [runPlan_always_ok (regionCheck_of_frame (.refl s) hreg _ _), runPlan_append, htables]
    dsimp only
    rw [runPlan_always_ok (regionCheck_of_frame hc hreg _ _), runPlan_always_ok hestimate,
      runPlan_always_ok (regionCheck_of_frame hx hreg _ _), runPlan_always_ok hwrhdr,
      runPlan_always_ok (regionCheck_of_frame hw hreg _ _), hencode]

/-! ### What the two leave (47 R264) -/

/-- The registers and STATUS fields that ENCODE, as the last of the stepwise commands, leaves. -/
theorem control_of_encode {s u : State} (h : completesTo .encode s u) :
    u.errInfo = 0#64 ∧ u.result = u.totalBytes ∧ u.cmd = Sys2Proof.encode .encode ∧ u.status.opc = 0x07#8 ∧ u.status.empty = false := by
  obtain ⟨x, hret, rfl⟩ := completesTo_iff.mp h
  have hframe := runPlan_returned_frame hret
  obtain ⟨-, -, hopc, -⟩ := hframe.sameRest
  have hempty := Passes.empty (i := .encode) (.inr hret) (by decide)
  exact ⟨hframe.errInfo, rfl, hframe.cmd, hopc, hempty⟩

theorem control_of_stepwise {tm : TableMode} {s u : State} (h : completeInTurn (stepwise tm) s u) :
    u.errInfo = 0#64 ∧ u.result = u.totalBytes ∧ u.cmd = Sys2Proof.encode .encode ∧ u.status.opc = 0x07#8 ∧ u.status.empty = false := by
  obtain ⟨_, -, _, -, _, -, _, -, _, -, m, hm, rfl⟩ := h
  exact control_of_encode hm

theorem stepwiseAgree_of_sameData {tm : TableMode} {s x u : State}
    (hx : runPlan (commandOf (compressOf tm)).plan (s.latched (compressOf tm)) = .returned x) (hturn : completeInTurn (stepwise tm) s u)
    (h : SameData x u) : stepwiseAgree (x.succeeded ((commandOf (compressOf tm)).result x)) u := by
  obtain ⟨herrInfo, hresult, hcmd, hopc, hempty⟩ := control_of_stepwise hturn
  have hsame := (sameData_succeeded x ((commandOf (compressOf tm)).result x)).symm.trans h
  refine ⟨⟨hsame.sameRegs, herrInfo.trans ?_, hsame.mem⟩, ?_, hresult, hcmd, hopc, hempty⟩
  · exact (runPlan_returned_frame hx).errInfo.symm
  · cases tm <;> rfl

theorem stepwise_ne_decompress (tm : TableMode) : ∀ i ∈ stepwise tm, i ≠ .decompress := by cases tm <;> decide

theorem compressOf_ne_decompress (tm : TableMode) : compressOf tm ≠ .decompress := by cases tm <;> decide

/-- Settles O55: both run the same phases from the same data. -/
theorem stepwiseEquivalence : Obligations.StepwiseEquivalence := by
  intro tm s _
  have hlatched := sameData_latched s (compressOf tm)
  have hplan := unguarded_plan (compressOf_ne_decompress tm)
  refine ⟨fun t hexec herr => ?compress, fun u hturn => ?stepwise⟩
  case compress =>
    obtain ⟨x, hx, rfl⟩ := exec_returned (undisturbed_latched s _) hexec herr
    obtain ⟨y, hy, hxy⟩ := hplan.sameData hlatched.symm hx
    obtain ⟨u, hturn, hyu⟩ := completeInTurn_of_runPlan (stepwise_ne_decompress tm) (runPlan_stepwise_iff.mpr hy)
    exact ⟨rfl, u, hturn, stepwiseAgree_of_sameData hx hturn (hxy.trans hyu)⟩
  case stepwise =>
    obtain ⟨y, hy, hyu⟩ := runPlan_of_completeInTurn (stepwise_ne_decompress tm) hturn
    obtain ⟨x, hx, hyx⟩ := hplan.sameData hlatched (runPlan_stepwise_iff.mp hy)
    exact ⟨_, completesTo_iff.mpr ⟨x, hx, rfl⟩, stepwiseAgree_of_sameData hx hturn (hyx.symm.trans hyu)⟩

end Sys2Proof.Machine
end
